-- ==== Sys2Proof/Word.lean ====
section
/-! DEFINITION. The word types of the C165/C163: bytes, 16-bit words, and the cell key of a physical address.
Spec: 00_scope.md rules R11..R15, 20_memory.md rules R80 and R81. -/

namespace Sys2Proof

/-- A byte (8 bits), the unit of addressing (R80). -/
abbrev Byte := BitVec 8

/-- A word (16 bits), the width of every register and of every data access wider than a byte (R81, R102). -/
abbrev Word := BitVec 16

/-- A 24-bit physical address: segment number in bits 23..16, intra-segment offset in bits 15..0 (R80). -/
abbrev PhysAddr := BitVec 24

end Sys2Proof
end

