-- ==== Sys2Proof/Syntax.lean ====
section
/-! DEFINITION. The instruction set as abstract terms: one constructor per row of spec/opcode_table.json (230 rows).
Spec: 30_encoding.md rules R133..R143. The fields stand in the order of the assembler's operands (R150).

Field names: `n`, `m` are 4-bit GPR numbers, `i` a 2-bit pointer number (R134); `reg` is an 8-bit short register
address (R135); `bo`, `zo`, `qo` are 8-bit bit offsets and `z`, `q` bit positions (R136); `mem` is a 16-bit data
address (R137); `d` is an immediate of 3, 4, 8 or 16 bits (R139); `caddr`, `seg`, `rel`, `t` are code-address
operands (R140); `cc` is a condition code (R141); `k` is `#irang2`, the number 1..4 itself (R142); `pag` is a 10-bit
page number (R142). -/

namespace Sys2Proof

/-- The 230 instructions of the opcode table (R143). -/
inductive Instr where
  /-- `ADD Rwn,Rwm`, format RR2 (R133); meaning R181. -/
  | addRwnRwm (n : BitVec 4) (m : BitVec 4)
  /-- `ADD reg,mem`, format RM (R133); meaning R181. -/
  | addRegMem (reg : BitVec 8) (mem : BitVec 16)
  /-- `ADD mem,reg`, format RM (R133); meaning R181. -/
  | addMemReg (mem : BitVec 16) (reg : BitVec 8)
  /-- `ADD reg,#data16`, format RI16 (R133); meaning R181. -/
  | addRegData16 (reg : BitVec 8) (d : BitVec 16)
  /-- `ADD Rwn,[Rwi]`, format XI (R133); meaning R181. -/
  | addRwnIndRwi (n : BitVec 4) (i : BitVec 2)
  /-- `ADD Rwn,[Rwi+]`, format XP (R133); meaning R181. -/
  | addRwnIndRwiInc (n : BitVec 4) (i : BitVec 2)
  /-- `ADD Rwn,#data3`, format X3 (R133); meaning R181. -/
  | addRwnData3 (n : BitVec 4) (d : BitVec 3)
  /-- `ADDB Rbn,Rbm`, format RR2 (R133); meaning R182. -/
  | addbRbnRbm (n : BitVec 4) (m : BitVec 4)
  /-- `ADDB reg,mem`, format RM (R133); meaning R182. -/
  | addbRegMem (reg : BitVec 8) (mem : BitVec 16)
  /-- `ADDB mem,reg`, format RM (R133); meaning R182. -/
  | addbMemReg (mem : BitVec 16) (reg : BitVec 8)
  /-- `ADDB reg,#data8`, format RI8 (R133); meaning R182. -/
  | addbRegData8 (reg : BitVec 8) (d : BitVec 8)
  /-- `ADDB Rbn,[Rwi]`, format XI (R133); meaning R182. -/
  | addbRbnIndRwi (n : BitVec 4) (i : BitVec 2)
  /-- `ADDB Rbn,[Rwi+]`, format XP (R133); meaning R182. -/
  | addbRbnIndRwiInc (n : BitVec 4) (i : BitVec 2)
  /-- `ADDB Rbn,#data3`, format X3 (R133); meaning R182. -/
  | addbRbnData3 (n : BitVec 4) (d : BitVec 3)
  /-- `ADDC Rwn,Rwm`, format RR2 (R133); meaning R183. -/
  | addcRwnRwm (n : BitVec 4) (m : BitVec 4)
  /-- `ADDC reg,mem`, format RM (R133); meaning R183. -/
  | addcRegMem (reg : BitVec 8) (mem : BitVec 16)
  /-- `ADDC mem,reg`, format RM (R133); meaning R183. -/
  | addcMemReg (mem : BitVec 16) (reg : BitVec 8)
  /-- `ADDC reg,#data16`, format RI16 (R133); meaning R183. -/
  | addcRegData16 (reg : BitVec 8) (d : BitVec 16)
  /-- `ADDC Rwn,[Rwi]`, format XI (R133); meaning R183. -/
  | addcRwnIndRwi (n : BitVec 4) (i : BitVec 2)
  /-- `ADDC Rwn,[Rwi+]`, format XP (R133); meaning R183. -/
  | addcRwnIndRwiInc (n : BitVec 4) (i : BitVec 2)
  /-- `ADDC Rwn,#data3`, format X3 (R133); meaning R183. -/
  | addcRwnData3 (n : BitVec 4) (d : BitVec 3)
  /-- `ADDCB Rbn,Rbm`, format RR2 (R133); meaning R184. -/
  | addcbRbnRbm (n : BitVec 4) (m : BitVec 4)
  /-- `ADDCB reg,mem`, format RM (R133); meaning R184. -/
  | addcbRegMem (reg : BitVec 8) (mem : BitVec 16)
  /-- `ADDCB mem,reg`, format RM (R133); meaning R184. -/
  | addcbMemReg (mem : BitVec 16) (reg : BitVec 8)
  /-- `ADDCB reg,#data8`, format RI8 (R133); meaning R184. -/
  | addcbRegData8 (reg : BitVec 8) (d : BitVec 8)
  /-- `ADDCB Rbn,[Rwi]`, format XI (R133); meaning R184. -/
  | addcbRbnIndRwi (n : BitVec 4) (i : BitVec 2)
  /-- `ADDCB Rbn,[Rwi+]`, format XP (R133); meaning R184. -/
  | addcbRbnIndRwiInc (n : BitVec 4) (i : BitVec 2)
  /-- `ADDCB Rbn,#data3`, format X3 (R133); meaning R184. -/
  | addcbRbnData3 (n : BitVec 4) (d : BitVec 3)
  /-- `SUB Rwn,Rwm`, format RR2 (R133); meaning R185. -/
  | subRwnRwm (n : BitVec 4) (m : BitVec 4)
  /-- `SUB reg,mem`, format RM (R133); meaning R185. -/
  | subRegMem (reg : BitVec 8) (mem : BitVec 16)
  /-- `SUB mem,reg`, format RM (R133); meaning R185. -/
  | subMemReg (mem : BitVec 16) (reg : BitVec 8)
  /-- `SUB reg,#data16`, format RI16 (R133); meaning R185. -/
  | subRegData16 (reg : BitVec 8) (d : BitVec 16)
  /-- `SUB Rwn,[Rwi]`, format XI (R133); meaning R185. -/
  | subRwnIndRwi (n : BitVec 4) (i : BitVec 2)
  /-- `SUB Rwn,[Rwi+]`, format XP (R133); meaning R185. -/
  | subRwnIndRwiInc (n : BitVec 4) (i : BitVec 2)
  /-- `SUB Rwn,#data3`, format X3 (R133); meaning R185. -/
  | subRwnData3 (n : BitVec 4) (d : BitVec 3)
  /-- `SUBB Rbn,Rbm`, format RR2 (R133); meaning R186. -/
  | subbRbnRbm (n : BitVec 4) (m : BitVec 4)
  /-- `SUBB reg,mem`, format RM (R133); meaning R186. -/
  | subbRegMem (reg : BitVec 8) (mem : BitVec 16)
  /-- `SUBB mem,reg`, format RM (R133); meaning R186. -/
  | subbMemReg (mem : BitVec 16) (reg : BitVec 8)
  /-- `SUBB reg,#data8`, format RI8 (R133); meaning R186. -/
  | subbRegData8 (reg : BitVec 8) (d : BitVec 8)
  /-- `SUBB Rbn,[Rwi]`, format XI (R133); meaning R186. -/
  | subbRbnIndRwi (n : BitVec 4) (i : BitVec 2)
  /-- `SUBB Rbn,[Rwi+]`, format XP (R133); meaning R186. -/
  | subbRbnIndRwiInc (n : BitVec 4) (i : BitVec 2)
  /-- `SUBB Rbn,#data3`, format X3 (R133); meaning R186. -/
  | subbRbnData3 (n : BitVec 4) (d : BitVec 3)
  /-- `SUBC Rwn,Rwm`, format RR2 (R133); meaning R187. -/
  | subcRwnRwm (n : BitVec 4) (m : BitVec 4)
  /-- `SUBC reg,mem`, format RM (R133); meaning R187. -/
  | subcRegMem (reg : BitVec 8) (mem : BitVec 16)
  /-- `SUBC mem,reg`, format RM (R133); meaning R187. -/
  | subcMemReg (mem : BitVec 16) (reg : BitVec 8)
  /-- `SUBC reg,#data16`, format RI16 (R133); meaning R187. -/
  | subcRegData16 (reg : BitVec 8) (d : BitVec 16)
  /-- `SUBC Rwn,[Rwi]`, format XI (R133); meaning R187. -/
  | subcRwnIndRwi (n : BitVec 4) (i : BitVec 2)
  /-- `SUBC Rwn,[Rwi+]`, format XP (R133); meaning R187. -/
  | subcRwnIndRwiInc (n : BitVec 4) (i : BitVec 2)
  /-- `SUBC Rwn,#data3`, format X3 (R133); meaning R187. -/
  | subcRwnData3 (n : BitVec 4) (d : BitVec 3)
  /-- `SUBCB Rbn,Rbm`, format RR2 (R133); meaning R188. -/
  | subcbRbnRbm (n : BitVec 4) (m : BitVec 4)
  /-- `SUBCB reg,mem`, format RM (R133); meaning R188. -/
  | subcbRegMem (reg : BitVec 8) (mem : BitVec 16)
  /-- `SUBCB mem,reg`, format RM (R133); meaning R188. -/
  | subcbMemReg (mem : BitVec 16) (reg : BitVec 8)
  /-- `SUBCB reg,#data8`, format RI8 (R133); meaning R188. -/
  | subcbRegData8 (reg : BitVec 8) (d : BitVec 8)
  /-- `SUBCB Rbn,[Rwi]`, format XI (R133); meaning R188. -/
  | subcbRbnIndRwi (n : BitVec 4) (i : BitVec 2)
  /-- `SUBCB Rbn,[Rwi+]`, format XP (R133); meaning R188. -/
  | subcbRbnIndRwiInc (n : BitVec 4) (i : BitVec 2)
  /-- `SUBCB Rbn,#data3`, format X3 (R133); meaning R188. -/
  | subcbRbnData3 (n : BitVec 4) (d : BitVec 3)
  /-- `CMP Rwn,Rwm`, format RR2 (R133); meaning R221. -/
  | cmpRwnRwm (n : BitVec 4) (m : BitVec 4)
  /-- `CMP reg,mem`, format RM (R133); meaning R221. -/
  | cmpRegMem (reg : BitVec 8) (mem : BitVec 16)
  /-- `CMP reg,#data16`, format RI16 (R133); meaning R221. -/
  | cmpRegData16 (reg : BitVec 8) (d : BitVec 16)
  /-- `CMP Rwn,[Rwi]`, format XI (R133); meaning R221. -/
  | cmpRwnIndRwi (n : BitVec 4) (i : BitVec 2)
  /-- `CMP Rwn,[Rwi+]`, format XP (R133); meaning R221. -/
  | cmpRwnIndRwiInc (n : BitVec 4) (i : BitVec 2)
  /-- `CMP Rwn,#data3`, format X3 (R133); meaning R221. -/
  | cmpRwnData3 (n : BitVec 4) (d : BitVec 3)
  /-- `CMPB Rbn,Rbm`, format RR2 (R133); meaning R222. -/
  | cmpbRbnRbm (n : BitVec 4) (m : BitVec 4)
  /-- `CMPB reg,mem`, format RM (R133); meaning R222. -/
  | cmpbRegMem (reg : BitVec 8) (mem : BitVec 16)
  /-- `CMPB reg,#data8`, format RI8 (R133); meaning R222. -/
  | cmpbRegData8 (reg : BitVec 8) (d : BitVec 8)
  /-- `CMPB Rbn,[Rwi]`, format XI (R133); meaning R222. -/
  | cmpbRbnIndRwi (n : BitVec 4) (i : BitVec 2)
  /-- `CMPB Rbn,[Rwi+]`, format XP (R133); meaning R222. -/
  | cmpbRbnIndRwiInc (n : BitVec 4) (i : BitVec 2)
  /-- `CMPB Rbn,#data3`, format X3 (R133); meaning R222. -/
  | cmpbRbnData3 (n : BitVec 4) (d : BitVec 3)
  /-- `XOR Rwn,Rwm`, format RR2 (R133); meaning R215. -/
  | xorRwnRwm (n : BitVec 4) (m : BitVec 4)
  /-- `XOR reg,mem`, format RM (R133); meaning R215. -/
  | xorRegMem (reg : BitVec 8) (mem : BitVec 16)
  /-- `XOR mem,reg`, format RM (R133); meaning R215. -/
  | xorMemReg (mem : BitVec 16) (reg : BitVec 8)
  /-- `XOR reg,#data16`, format RI16 (R133); meaning R215. -/
  | xorRegData16 (reg : BitVec 8) (d : BitVec 16)
  /-- `XOR Rwn,[Rwi]`, format XI (R133); meaning R215. -/
  | xorRwnIndRwi (n : BitVec 4) (i : BitVec 2)
  /-- `XOR Rwn,[Rwi+]`, format XP (R133); meaning R215. -/
  | xorRwnIndRwiInc (n : BitVec 4) (i : BitVec 2)
  /-- `XOR Rwn,#data3`, format X3 (R133); meaning R215. -/
  | xorRwnData3 (n : BitVec 4) (d : BitVec 3)
  /-- `XORB Rbn,Rbm`, format RR2 (R133); meaning R216. -/
  | xorbRbnRbm (n : BitVec 4) (m : BitVec 4)
  /-- `XORB reg,mem`, format RM (R133); meaning R216. -/
  | xorbRegMem (reg : BitVec 8) (mem : BitVec 16)
  /-- `XORB mem,reg`, format RM (R133); meaning R216. -/
  | xorbMemReg (mem : BitVec 16) (reg : BitVec 8)
  /-- `XORB reg,#data8`, format RI8 (R133); meaning R216. -/
  | xorbRegData8 (reg : BitVec 8) (d : BitVec 8)
  /-- `XORB Rbn,[Rwi]`, format XI (R133); meaning R216. -/
  | xorbRbnIndRwi (n : BitVec 4) (i : BitVec 2)
  /-- `XORB Rbn,[Rwi+]`, format XP (R133); meaning R216. -/
  | xorbRbnIndRwiInc (n : BitVec 4) (i : BitVec 2)
  /-- `XORB Rbn,#data3`, format X3 (R133); meaning R216. -/
  | xorbRbnData3 (n : BitVec 4) (d : BitVec 3)
  /-- `AND Rwn,Rwm`, format RR2 (R133); meaning R211. -/
  | andRwnRwm (n : BitVec 4) (m : BitVec 4)
  /-- `AND reg,mem`, format RM (R133); meaning R211. -/
  | andRegMem (reg : BitVec 8) (mem : BitVec 16)
  /-- `AND mem,reg`, format RM (R133); meaning R211. -/
  | andMemReg (mem : BitVec 16) (reg : BitVec 8)
  /-- `AND reg,#data16`, format RI16 (R133); meaning R211. -/
  | andRegData16 (reg : BitVec 8) (d : BitVec 16)
  /-- `AND Rwn,[Rwi]`, format XI (R133); meaning R211. -/
  | andRwnIndRwi (n : BitVec 4) (i : BitVec 2)
  /-- `AND Rwn,[Rwi+]`, format XP (R133); meaning R211. -/
  | andRwnIndRwiInc (n : BitVec 4) (i : BitVec 2)
  /-- `AND Rwn,#data3`, format X3 (R133); meaning R211. -/
  | andRwnData3 (n : BitVec 4) (d : BitVec 3)
  /-- `ANDB Rbn,Rbm`, format RR2 (R133); meaning R212. -/
  | andbRbnRbm (n : BitVec 4) (m : BitVec 4)
  /-- `ANDB reg,mem`, format RM (R133); meaning R212. -/
  | andbRegMem (reg : BitVec 8) (mem : BitVec 16)
  /-- `ANDB mem,reg`, format RM (R133); meaning R212. -/
  | andbMemReg (mem : BitVec 16) (reg : BitVec 8)
  /-- `ANDB reg,#data8`, format RI8 (R133); meaning R212. -/
  | andbRegData8 (reg : BitVec 8) (d : BitVec 8)
  /-- `ANDB Rbn,[Rwi]`, format XI (R133); meaning R212. -/
  | andbRbnIndRwi (n : BitVec 4) (i : BitVec 2)
  /-- `ANDB Rbn,[Rwi+]`, format XP (R133); meaning R212. -/
  | andbRbnIndRwiInc (n : BitVec 4) (i : BitVec 2)
  /-- `ANDB Rbn,#data3`, format X3 (R133); meaning R212. -/
  | andbRbnData3 (n : BitVec 4) (d : BitVec 3)
  /-- `OR Rwn,Rwm`, format RR2 (R133); meaning R213. -/
  | orRwnRwm (n : BitVec 4) (m : BitVec 4)
  /-- `OR reg,mem`, format RM (R133); meaning R213. -/
  | orRegMem (reg : BitVec 8) (mem : BitVec 16)
  /-- `OR mem,reg`, format RM (R133); meaning R213. -/
  | orMemReg (mem : BitVec 16) (reg : BitVec 8)
  /-- `OR reg,#data16`, format RI16 (R133); meaning R213. -/
  | orRegData16 (reg : BitVec 8) (d : BitVec 16)
  /-- `OR Rwn,[Rwi]`, format XI (R133); meaning R213. -/
  | orRwnIndRwi (n : BitVec 4) (i : BitVec 2)
  /-- `OR Rwn,[Rwi+]`, format XP (R133); meaning R213. -/
  | orRwnIndRwiInc (n : BitVec 4) (i : BitVec 2)
  /-- `OR Rwn,#data3`, format X3 (R133); meaning R213. -/
  | orRwnData3 (n : BitVec 4) (d : BitVec 3)
  /-- `ORB Rbn,Rbm`, format RR2 (R133); meaning R214. -/
  | orbRbnRbm (n : BitVec 4) (m : BitVec 4)
  /-- `ORB reg,mem`, format RM (R133); meaning R214. -/
  | orbRegMem (reg : BitVec 8) (mem : BitVec 16)
  /-- `ORB mem,reg`, format RM (R133); meaning R214. -/
  | orbMemReg (mem : BitVec 16) (reg : BitVec 8)
  /-- `ORB reg,#data8`, format RI8 (R133); meaning R214. -/
  | orbRegData8 (reg : BitVec 8) (d : BitVec 8)
  /-- `ORB Rbn,[Rwi]`, format XI (R133); meaning R214. -/
  | orbRbnIndRwi (n : BitVec 4) (i : BitVec 2)
  /-- `ORB Rbn,[Rwi+]`, format XP (R133); meaning R214. -/
  | orbRbnIndRwiInc (n : BitVec 4) (i : BitVec 2)
  /-- `ORB Rbn,#data3`, format X3 (R133); meaning R214. -/
  | orbRbnData3 (n : BitVec 4) (d : BitVec 3)
  /-- `CMPI1 Rwn,#data4`, format I4 (R133); meaning R223. -/
  | cmpi1RwnData4 (n : BitVec 4) (d : BitVec 4)
  /-- `CMPI1 Rwn,mem`, format GM (R133); meaning R223. -/
  | cmpi1RwnMem (n : BitVec 4) (mem : BitVec 16)
  /-- `CMPI1 Rwn,#data16`, format GI16 (R133); meaning R223. -/
  | cmpi1RwnData16 (n : BitVec 4) (d : BitVec 16)
  /-- `CMPI2 Rwn,#data4`, format I4 (R133); meaning R224. -/
  | cmpi2RwnData4 (n : BitVec 4) (d : BitVec 4)
  /-- `CMPI2 Rwn,mem`, format GM (R133); meaning R224. -/
  | cmpi2RwnMem (n : BitVec 4) (mem : BitVec 16)
  /-- `CMPI2 Rwn,#data16`, format GI16 (R133); meaning R224. -/
  | cmpi2RwnData16 (n : BitVec 4) (d : BitVec 16)
  /-- `CMPD1 Rwn,#data4`, format I4 (R133); meaning R225. -/
  | cmpd1RwnData4 (n : BitVec 4) (d : BitVec 4)
  /-- `CMPD1 Rwn,mem`, format GM (R133); meaning R225. -/
  | cmpd1RwnMem (n : BitVec 4) (mem : BitVec 16)
  /-- `CMPD1 Rwn,#data16`, format GI16 (R133); meaning R225. -/
  | cmpd1RwnData16 (n : BitVec 4) (d : BitVec 16)
  /-- `CMPD2 Rwn,#data4`, format I4 (R133); meaning R226. -/
  | cmpd2RwnData4 (n : BitVec 4) (d : BitVec 4)
  /-- `CMPD2 Rwn,mem`, format GM (R133); meaning R226. -/
  | cmpd2RwnMem (n : BitVec 4) (mem : BitVec 16)
  /-- `CMPD2 Rwn,#data16`, format GI16 (R133); meaning R226. -/
  | cmpd2RwnData16 (n : BitVec 4) (d : BitVec 16)
  /-- `NEG Rwn`, format R1 (R133); meaning R197. -/
  | negRwn (n : BitVec 4)
  /-- `CPL Rwn`, format R1 (R133); meaning R195. -/
  | cplRwn (n : BitVec 4)
  /-- `NEGB Rbn`, format R1 (R133); meaning R198. -/
  | negbRbn (n : BitVec 4)
  /-- `CPLB Rbn`, format R1 (R133); meaning R196. -/
  | cplbRbn (n : BitVec 4)
  /-- `MOVBZ Rwn,Rbm`, format RR2X (R133); meaning R264. -/
  | movbzRwnRbm (n : BitVec 4) (m : BitVec 4)
  /-- `MOVBS Rwn,Rbm`, format RR2X (R133); meaning R263. -/
  | movbsRwnRbm (n : BitVec 4) (m : BitVec 4)
  /-- `MOVBZ reg,mem`, format RM (R133); meaning R264. -/
  | movbzRegMem (reg : BitVec 8) (mem : BitVec 16)
  /-- `MOVBS reg,mem`, format RM (R133); meaning R263. -/
  | movbsRegMem (reg : BitVec 8) (mem : BitVec 16)
  /-- `MOVBZ mem,reg`, format RM (R133); meaning R264. -/
  | movbzMemReg (mem : BitVec 16) (reg : BitVec 8)
  /-- `MOVBS mem,reg`, format RM (R133); meaning R263. -/
  | movbsMemReg (mem : BitVec 16) (reg : BitVec 8)
  /-- `ATOMIC #irang2`, format E1 (R133); meaning R323. -/
  | atomicIrang2 (k : Nat)
  /-- `EXTR #irang2`, format E1 (R133); meaning R324. -/
  | extrIrang2 (k : Nat)
  /-- `MOV Rwn,#data4`, format I4 (R133); meaning R261. -/
  | movRwnData4 (n : BitVec 4) (d : BitVec 4)
  /-- `MOVB Rbn,#data4`, format I4 (R133); meaning R262. -/
  | movbRbnData4 (n : BitVec 4) (d : BitVec 4)
  /-- `MOV Rwn,Rwm`, format RR2 (R133); meaning R261. -/
  | movRwnRwm (n : BitVec 4) (m : BitVec 4)
  /-- `MOVB Rbn,Rbm`, format RR2 (R133); meaning R262. -/
  | movbRbnRbm (n : BitVec 4) (m : BitVec 4)
  /-- `PCALL reg,caddr`, format RM (R133); meaning R300. -/
  | pcallRegCaddr (reg : BitVec 8) (caddr : BitVec 16)
  /-- `MOV reg,mem`, format RM (R133); meaning R261. -/
  | movRegMem (reg : BitVec 8) (mem : BitVec 16)
  /-- `MOVB reg,mem`, format RM (R133); meaning R262. -/
  | movbRegMem (reg : BitVec 8) (mem : BitVec 16)
  /-- `MOV [Rwn],mem`, format IM (R133); meaning R261. -/
  | movIndRwnMem (n : BitVec 4) (mem : BitVec 16)
  /-- `MOV mem,[Rwn]`, format IM (R133); meaning R261. -/
  | movMemIndRwn (mem : BitVec 16) (n : BitVec 4)
  /-- `MOVB [Rwn],mem`, format IM (R133); meaning R262. -/
  | movbIndRwnMem (n : BitVec 4) (mem : BitVec 16)
  /-- `MOVB mem,[Rwn]`, format IM (R133); meaning R262. -/
  | movbMemIndRwn (mem : BitVec 16) (n : BitVec 4)
  /-- `MOV [Rwm+#data16],Rwn`, format RO (R133); meaning R261. -/
  | movIndRwmData16Rwn (m : BitVec 4) (d : BitVec 16) (n : BitVec 4)
  /-- `MOV Rwn,[Rwm+#data16]`, format RO (R133); meaning R261. -/
  | movRwnIndRwmData16 (n : BitVec 4) (m : BitVec 4) (d : BitVec 16)
  /-- `MOVB [Rwm+#data16],Rbn`, format RO (R133); meaning R262. -/
  | movbIndRwmData16Rbn (m : BitVec 4) (d : BitVec 16) (n : BitVec 4)
  /-- `MOVB Rbn,[Rwm+#data16]`, format RO (R133); meaning R262. -/
  | movbRbnIndRwmData16 (n : BitVec 4) (m : BitVec 4) (d : BitVec 16)
  /-- `DISWDT`, format PR (R133); meaning R320. -/
  | diswdt
  /-- `EINIT`, format PR (R133); meaning R321. -/
  | einit
  /-- `IDLE`, format PR (R133); meaning R317. -/
  | idle
  /-- `PWRDN`, format PR (R133); meaning R318. -/
  | pwrdn
  /-- `SRVWDT`, format PR (R133); meaning R319. -/
  | srvwdt
  /-- `SRST`, format PR (R133); meaning R316. -/
  | srst
  /-- `SCXT reg,#data16`, format RI16 (R133); meaning R273. -/
  | scxtRegData16 (reg : BitVec 8) (d : BitVec 16)
  /-- `SCXT reg,mem`, format RM (R133); meaning R273. -/
  | scxtRegMem (reg : BitVec 8) (mem : BitVec 16)
  /-- `EXTS #seg,#irang2`, format ES (R133); meaning R327. -/
  | extsSegIrang2 (seg : BitVec 8) (k : Nat)
  /-- `EXTSR #seg,#irang2`, format ES (R133); meaning R328. -/
  | extsrSegIrang2 (seg : BitVec 8) (k : Nat)
  /-- `EXTP #pag,#irang2`, format EP (R133); meaning R325. -/
  | extpPagIrang2 (pag : BitVec 10) (k : Nat)
  /-- `EXTPR #pag,#irang2`, format EP (R133); meaning R326. -/
  | extprPagIrang2 (pag : BitVec 10) (k : Nat)
  /-- `MOV reg,#data16`, format RI16 (R133); meaning R261. -/
  | movRegData16 (reg : BitVec 8) (d : BitVec 16)
  /-- `MOVB reg,#data8`, format RI8 (R133); meaning R262. -/
  | movbRegData8 (reg : BitVec 8) (d : BitVec 8)
  /-- `MOV mem,reg`, format RM (R133); meaning R261. -/
  | movMemReg (mem : BitVec 16) (reg : BitVec 8)
  /-- `MOVB mem,reg`, format RM (R133); meaning R262. -/
  | movbMemReg (mem : BitVec 16) (reg : BitVec 8)
  /-- `MOV [-Rwm],Rwn`, format RR2 (R133); meaning R261. -/
  | movIndDecRwmRwn (m : BitVec 4) (n : BitVec 4)
  /-- `MOVB [-Rwm],Rbn`, format RR2 (R133); meaning R262. -/
  | movbIndDecRwmRbn (m : BitVec 4) (n : BitVec 4)
  /-- `MOV Rwn,[Rwm+]`, format RR2 (R133); meaning R261. -/
  | movRwnIndRwmInc (n : BitVec 4) (m : BitVec 4)
  /-- `MOVB Rbn,[Rwm+]`, format RR2 (R133); meaning R262. -/
  | movbRbnIndRwmInc (n : BitVec 4) (m : BitVec 4)
  /-- `MOV Rwn,[Rwm]`, format RR2 (R133); meaning R261. -/
  | movRwnIndRwm (n : BitVec 4) (m : BitVec 4)
  /-- `MOVB Rbn,[Rwm]`, format RR2 (R133); meaning R262. -/
  | movbRbnIndRwm (n : BitVec 4) (m : BitVec 4)
  /-- `MOV [Rwm],Rwn`, format RR2 (R133); meaning R261. -/
  | movIndRwmRwn (m : BitVec 4) (n : BitVec 4)
  /-- `MOVB [Rwm],Rbn`, format RR2 (R133); meaning R262. -/
  | movbIndRwmRbn (m : BitVec 4) (n : BitVec 4)
  /-- `MOV [Rwn],[Rwm]`, format RR2 (R133); meaning R261. -/
  | movIndRwnIndRwm (n : BitVec 4) (m : BitVec 4)
  /-- `MOVB [Rwn],[Rwm]`, format RR2 (R133); meaning R262. -/
  | movbIndRwnIndRwm (n : BitVec 4) (m : BitVec 4)
  /-- `MOV [Rwn+],[Rwm]`, format RR2 (R133); meaning R261. -/
  | movIndRwnIncIndRwm (n : BitVec 4) (m : BitVec 4)
  /-- `MOVB [Rwn+],[Rwm]`, format RR2 (R133); meaning R262. -/
  | movbIndRwnIncIndRwm (n : BitVec 4) (m : BitVec 4)
  /-- `MOV [Rwn],[Rwm+]`, format RR2 (R133); meaning R261. -/
  | movIndRwnIndRwmInc (n : BitVec 4) (m : BitVec 4)
  /-- `MOVB [Rwn],[Rwm+]`, format RR2 (R133); meaning R262. -/
  | movbIndRwnIndRwmInc (n : BitVec 4) (m : BitVec 4)
  /-- `BFLDL bitoff,#mask8,#data8`, format BFL (R133); meaning R232. -/
  | bfldlBitoffMask8Data8 (bo : BitVec 8) (mask : BitVec 8) (d : BitVec 8)
  /-- `BFLDH bitoff,#mask8,#data8`, format BFH (R133); meaning R231. -/
  | bfldhBitoffMask8Data8 (bo : BitVec 8) (mask : BitVec 8) (d : BitVec 8)
  /-- `BCMP bitaddrZ.z,bitaddrQ.q`, format B2 (R133); meaning R240. -/
  | bcmpBitZBitQ (zo : BitVec 8) (z : BitVec 4) (qo : BitVec 8) (q : BitVec 4)
  /-- `BMOVN bitaddrZ.z,bitaddrQ.q`, format B2 (R133); meaning R236. -/
  | bmovnBitZBitQ (zo : BitVec 8) (z : BitVec 4) (qo : BitVec 8) (q : BitVec 4)
  /-- `BMOV bitaddrZ.z,bitaddrQ.q`, format B2 (R133); meaning R235. -/
  | bmovBitZBitQ (zo : BitVec 8) (z : BitVec 4) (qo : BitVec 8) (q : BitVec 4)
  /-- `BOR bitaddrZ.z,bitaddrQ.q`, format B2 (R133); meaning R238. -/
  | borBitZBitQ (zo : BitVec 8) (z : BitVec 4) (qo : BitVec 8) (q : BitVec 4)
  /-- `BAND bitaddrZ.z,bitaddrQ.q`, format B2 (R133); meaning R237. -/
  | bandBitZBitQ (zo : BitVec 8) (z : BitVec 4) (qo : BitVec 8) (q : BitVec 4)
  /-- `BXOR bitaddrZ.z,bitaddrQ.q`, format B2 (R133); meaning R239. -/
  | bxorBitZBitQ (zo : BitVec 8) (z : BitVec 4) (qo : BitVec 8) (q : BitVec 4)
  /-- `JB bitaddrQ.q,rel`, format BJ (R133); meaning R285. -/
  | jbBitQRel (qo : BitVec 8) (q : BitVec 4) (rel : BitVec 8)
  /-- `JNB bitaddrQ.q,rel`, format BJ (R133); meaning R286. -/
  | jnbBitQRel (qo : BitVec 8) (q : BitVec 4) (rel : BitVec 8)
  /-- `JBC bitaddrQ.q,rel`, format BJ (R133); meaning R287. -/
  | jbcBitQRel (qo : BitVec 8) (q : BitVec 4) (rel : BitVec 8)
  /-- `JNBS bitaddrQ.q,rel`, format BJ (R133); meaning R288. -/
  | jnbsBitQRel (qo : BitVec 8) (q : BitVec 4) (rel : BitVec 8)
  /-- `CALLA cc,caddr`, format CA (R133); meaning R296. -/
  | callaCcCaddr (cc : BitVec 4) (caddr : BitVec 16)
  /-- `CALLS seg,caddr`, format SA (R133); meaning R299. -/
  | callsSegCaddr (seg : BitVec 8) (caddr : BitVec 16)
  /-- `JMPA cc,caddr`, format CA (R133); meaning R281. -/
  | jmpaCcCaddr (cc : BitVec 4) (caddr : BitVec 16)
  /-- `JMPS seg,caddr`, format SA (R133); meaning R284. -/
  | jmpsSegCaddr (seg : BitVec 8) (caddr : BitVec 16)
  /-- `MUL Rwn,Rwm`, format RR2 (R133); meaning R189. -/
  | mulRwnRwm (n : BitVec 4) (m : BitVec 4)
  /-- `MULU Rwn,Rwm`, format RR2 (R133); meaning R190. -/
  | muluRwnRwm (n : BitVec 4) (m : BitVec 4)
  /-- `PRIOR Rwn,Rwm`, format RR2 (R133); meaning R256. -/
  | priorRwnRwm (n : BitVec 4) (m : BitVec 4)
  /-- `DIV Rwn`, format R1D (R133); meaning R191. -/
  | divRwn (n : BitVec 4)
  /-- `DIVU Rwn`, format R1D (R133); meaning R192. -/
  | divuRwn (n : BitVec 4)
  /-- `DIVL Rwn`, format R1D (R133); meaning R193. -/
  | divlRwn (n : BitVec 4)
  /-- `DIVLU Rwn`, format R1D (R133); meaning R194. -/
  | divluRwn (n : BitVec 4)
  /-- `TRAP #trap7`, format T7 (R133); meaning R301. -/
  | trapTrap7 (t : BitVec 7)
  /-- `CALLI cc,[Rwn]`, format CI (R133); meaning R297. -/
  | calliCcIndRwn (cc : BitVec 4) (n : BitVec 4)
  /-- `CALLR rel`, format RL (R133); meaning R298. -/
  | callrRel (rel : BitVec 8)
  /-- `RET`, format FX2 (R133); meaning R302. -/
  | ret
  /-- `RETS`, format FX2 (R133); meaning R303. -/
  | rets
  /-- `RETP reg`, format R8 (R133); meaning R304. -/
  | retpReg (reg : BitVec 8)
  /-- `RETI`, format FX2 (R133); meaning R305. -/
  | reti
  /-- `ROL Rwn,Rwm`, format RR2 (R133); meaning R254. -/
  | rolRwnRwm (n : BitVec 4) (m : BitVec 4)
  /-- `ROL Rwn,#data4`, format I4 (R133); meaning R254. -/
  | rolRwnData4 (n : BitVec 4) (d : BitVec 4)
  /-- `ROR Rwn,Rwm`, format RR2 (R133); meaning R253. -/
  | rorRwnRwm (n : BitVec 4) (m : BitVec 4)
  /-- `ROR Rwn,#data4`, format I4 (R133); meaning R253. -/
  | rorRwnData4 (n : BitVec 4) (d : BitVec 4)
  /-- `SHL Rwn,Rwm`, format RR2 (R133); meaning R252. -/
  | shlRwnRwm (n : BitVec 4) (m : BitVec 4)
  /-- `SHL Rwn,#data4`, format I4 (R133); meaning R252. -/
  | shlRwnData4 (n : BitVec 4) (d : BitVec 4)
  /-- `SHR Rwn,Rwm`, format RR2 (R133); meaning R251. -/
  | shrRwnRwm (n : BitVec 4) (m : BitVec 4)
  /-- `SHR Rwn,#data4`, format I4 (R133); meaning R251. -/
  | shrRwnData4 (n : BitVec 4) (d : BitVec 4)
  /-- `ASHR Rwn,Rwm`, format RR2 (R133); meaning R255. -/
  | ashrRwnRwm (n : BitVec 4) (m : BitVec 4)
  /-- `ASHR Rwn,#data4`, format I4 (R133); meaning R255. -/
  | ashrRwnData4 (n : BitVec 4) (d : BitVec 4)
  /-- `JMPI cc,[Rwn]`, format CI (R133); meaning R282. -/
  | jmpiCcIndRwn (cc : BitVec 4) (n : BitVec 4)
  /-- `NOP`, format FX2 (R133); meaning R322. -/
  | nop
  /-- `EXTS Rwm,#irang2`, format EG (R133); meaning R327. -/
  | extsRwmIrang2 (m : BitVec 4) (k : Nat)
  /-- `EXTP Rwm,#irang2`, format EG (R133); meaning R325. -/
  | extpRwmIrang2 (m : BitVec 4) (k : Nat)
  /-- `EXTSR Rwm,#irang2`, format EG (R133); meaning R328. -/
  | extsrRwmIrang2 (m : BitVec 4) (k : Nat)
  /-- `EXTPR Rwm,#irang2`, format EG (R133); meaning R326. -/
  | extprRwmIrang2 (m : BitVec 4) (k : Nat)
  /-- `PUSH reg`, format R8 (R133); meaning R271. -/
  | pushReg (reg : BitVec 8)
  /-- `POP reg`, format R8 (R133); meaning R272. -/
  | popReg (reg : BitVec 8)
  /-- `JMPR cc,rel`, format CR (R133); meaning R283. -/
  | jmprCcRel (cc : BitVec 4) (rel : BitVec 8)
  /-- `BCLR bitaddrQ.q`, format B1 (R133); meaning R234. -/
  | bclrBitQ (qo : BitVec 8) (q : BitVec 4)
  /-- `BSET bitaddrQ.q`, format B1 (R133); meaning R233. -/
  | bsetBitQ (qo : BitVec 8) (q : BitVec 4)
deriving DecidableEq, Repr

end Sys2Proof
end

