-- ==== Sys2Proof/WellFormed.lean ====
section
/-! DEFINITION. Which instruction terms are well formed. Every field but one has exactly the width of its encoding
field, so the only condition is the range of `#irang2` (30_encoding.md rule R142). -/

namespace Sys2Proof

/-- `#irang2` is the number of following instructions covered, 1..4 (R142). -/
def irang2Ok (k : Nat) : Bool := decide (1 ≤ k) && decide (k ≤ 4)

/-- An instruction is well formed when its `#irang2` field, if it has one, is 1..4 (R142). -/
def Instr.wellFormed : Instr → Bool
  | .addRwnRwm _ _ => true
  | .addRegMem _ _ => true
  | .addMemReg _ _ => true
  | .addRegData16 _ _ => true
  | .addRwnIndRwi _ _ => true
  | .addRwnIndRwiInc _ _ => true
  | .addRwnData3 _ _ => true
  | .addbRbnRbm _ _ => true
  | .addbRegMem _ _ => true
  | .addbMemReg _ _ => true
  | .addbRegData8 _ _ => true
  | .addbRbnIndRwi _ _ => true
  | .addbRbnIndRwiInc _ _ => true
  | .addbRbnData3 _ _ => true
  | .addcRwnRwm _ _ => true
  | .addcRegMem _ _ => true
  | .addcMemReg _ _ => true
  | .addcRegData16 _ _ => true
  | .addcRwnIndRwi _ _ => true
  | .addcRwnIndRwiInc _ _ => true
  | .addcRwnData3 _ _ => true
  | .addcbRbnRbm _ _ => true
  | .addcbRegMem _ _ => true
  | .addcbMemReg _ _ => true
  | .addcbRegData8 _ _ => true
  | .addcbRbnIndRwi _ _ => true
  | .addcbRbnIndRwiInc _ _ => true
  | .addcbRbnData3 _ _ => true
  | .subRwnRwm _ _ => true
  | .subRegMem _ _ => true
  | .subMemReg _ _ => true
  | .subRegData16 _ _ => true
  | .subRwnIndRwi _ _ => true
  | .subRwnIndRwiInc _ _ => true
  | .subRwnData3 _ _ => true
  | .subbRbnRbm _ _ => true
  | .subbRegMem _ _ => true
  | .subbMemReg _ _ => true
  | .subbRegData8 _ _ => true
  | .subbRbnIndRwi _ _ => true
  | .subbRbnIndRwiInc _ _ => true
  | .subbRbnData3 _ _ => true
  | .subcRwnRwm _ _ => true
  | .subcRegMem _ _ => true
  | .subcMemReg _ _ => true
  | .subcRegData16 _ _ => true
  | .subcRwnIndRwi _ _ => true
  | .subcRwnIndRwiInc _ _ => true
  | .subcRwnData3 _ _ => true
  | .subcbRbnRbm _ _ => true
  | .subcbRegMem _ _ => true
  | .subcbMemReg _ _ => true
  | .subcbRegData8 _ _ => true
  | .subcbRbnIndRwi _ _ => true
  | .subcbRbnIndRwiInc _ _ => true
  | .subcbRbnData3 _ _ => true
  | .cmpRwnRwm _ _ => true
  | .cmpRegMem _ _ => true
  | .cmpRegData16 _ _ => true
  | .cmpRwnIndRwi _ _ => true
  | .cmpRwnIndRwiInc _ _ => true
  | .cmpRwnData3 _ _ => true
  | .cmpbRbnRbm _ _ => true
  | .cmpbRegMem _ _ => true
  | .cmpbRegData8 _ _ => true
  | .cmpbRbnIndRwi _ _ => true
  | .cmpbRbnIndRwiInc _ _ => true
  | .cmpbRbnData3 _ _ => true
  | .xorRwnRwm _ _ => true
  | .xorRegMem _ _ => true
  | .xorMemReg _ _ => true
  | .xorRegData16 _ _ => true
  | .xorRwnIndRwi _ _ => true
  | .xorRwnIndRwiInc _ _ => true
  | .xorRwnData3 _ _ => true
  | .xorbRbnRbm _ _ => true
  | .xorbRegMem _ _ => true
  | .xorbMemReg _ _ => true
  | .xorbRegData8 _ _ => true
  | .xorbRbnIndRwi _ _ => true
  | .xorbRbnIndRwiInc _ _ => true
  | .xorbRbnData3 _ _ => true
  | .andRwnRwm _ _ => true
  | .andRegMem _ _ => true
  | .andMemReg _ _ => true
  | .andRegData16 _ _ => true
  | .andRwnIndRwi _ _ => true
  | .andRwnIndRwiInc _ _ => true
  | .andRwnData3 _ _ => true
  | .andbRbnRbm _ _ => true
  | .andbRegMem _ _ => true
  | .andbMemReg _ _ => true
  | .andbRegData8 _ _ => true
  | .andbRbnIndRwi _ _ => true
  | .andbRbnIndRwiInc _ _ => true
  | .andbRbnData3 _ _ => true
  | .orRwnRwm _ _ => true
  | .orRegMem _ _ => true
  | .orMemReg _ _ => true
  | .orRegData16 _ _ => true
  | .orRwnIndRwi _ _ => true
  | .orRwnIndRwiInc _ _ => true
  | .orRwnData3 _ _ => true
  | .orbRbnRbm _ _ => true
  | .orbRegMem _ _ => true
  | .orbMemReg _ _ => true
  | .orbRegData8 _ _ => true
  | .orbRbnIndRwi _ _ => true
  | .orbRbnIndRwiInc _ _ => true
  | .orbRbnData3 _ _ => true
  | .cmpi1RwnData4 _ _ => true
  | .cmpi1RwnMem _ _ => true
  | .cmpi1RwnData16 _ _ => true
  | .cmpi2RwnData4 _ _ => true
  | .cmpi2RwnMem _ _ => true
  | .cmpi2RwnData16 _ _ => true
  | .cmpd1RwnData4 _ _ => true
  | .cmpd1RwnMem _ _ => true
  | .cmpd1RwnData16 _ _ => true
  | .cmpd2RwnData4 _ _ => true
  | .cmpd2RwnMem _ _ => true
  | .cmpd2RwnData16 _ _ => true
  | .negRwn _ => true
  | .cplRwn _ => true
  | .negbRbn _ => true
  | .cplbRbn _ => true
  | .movbzRwnRbm _ _ => true
  | .movbsRwnRbm _ _ => true
  | .movbzRegMem _ _ => true
  | .movbsRegMem _ _ => true
  | .movbzMemReg _ _ => true
  | .movbsMemReg _ _ => true
  | .atomicIrang2 k => irang2Ok k
  | .extrIrang2 k => irang2Ok k
  | .movRwnData4 _ _ => true
  | .movbRbnData4 _ _ => true
  | .movRwnRwm _ _ => true
  | .movbRbnRbm _ _ => true
  | .pcallRegCaddr _ _ => true
  | .movRegMem _ _ => true
  | .movbRegMem _ _ => true
  | .movIndRwnMem _ _ => true
  | .movMemIndRwn _ _ => true
  | .movbIndRwnMem _ _ => true
  | .movbMemIndRwn _ _ => true
  | .movIndRwmData16Rwn _ _ _ => true
  | .movRwnIndRwmData16 _ _ _ => true
  | .movbIndRwmData16Rbn _ _ _ => true
  | .movbRbnIndRwmData16 _ _ _ => true
  | .diswdt => true
  | .einit => true
  | .idle => true
  | .pwrdn => true
  | .srvwdt => true
  | .srst => true
  | .scxtRegData16 _ _ => true
  | .scxtRegMem _ _ => true
  | .extsSegIrang2 _ k => irang2Ok k
  | .extsrSegIrang2 _ k => irang2Ok k
  | .extpPagIrang2 _ k => irang2Ok k
  | .extprPagIrang2 _ k => irang2Ok k
  | .movRegData16 _ _ => true
  | .movbRegData8 _ _ => true
  | .movMemReg _ _ => true
  | .movbMemReg _ _ => true
  | .movIndDecRwmRwn _ _ => true
  | .movbIndDecRwmRbn _ _ => true
  | .movRwnIndRwmInc _ _ => true
  | .movbRbnIndRwmInc _ _ => true
  | .movRwnIndRwm _ _ => true
  | .movbRbnIndRwm _ _ => true
  | .movIndRwmRwn _ _ => true
  | .movbIndRwmRbn _ _ => true
  | .movIndRwnIndRwm _ _ => true
  | .movbIndRwnIndRwm _ _ => true
  | .movIndRwnIncIndRwm _ _ => true
  | .movbIndRwnIncIndRwm _ _ => true
  | .movIndRwnIndRwmInc _ _ => true
  | .movbIndRwnIndRwmInc _ _ => true
  | .bfldlBitoffMask8Data8 _ _ _ => true
  | .bfldhBitoffMask8Data8 _ _ _ => true
  | .bcmpBitZBitQ _ _ _ _ => true
  | .bmovnBitZBitQ _ _ _ _ => true
  | .bmovBitZBitQ _ _ _ _ => true
  | .borBitZBitQ _ _ _ _ => true
  | .bandBitZBitQ _ _ _ _ => true
  | .bxorBitZBitQ _ _ _ _ => true
  | .jbBitQRel _ _ _ => true
  | .jnbBitQRel _ _ _ => true
  | .jbcBitQRel _ _ _ => true
  | .jnbsBitQRel _ _ _ => true
  | .callaCcCaddr _ _ => true
  | .callsSegCaddr _ _ => true
  | .jmpaCcCaddr _ _ => true
  | .jmpsSegCaddr _ _ => true
  | .mulRwnRwm _ _ => true
  | .muluRwnRwm _ _ => true
  | .priorRwnRwm _ _ => true
  | .divRwn _ => true
  | .divuRwn _ => true
  | .divlRwn _ => true
  | .divluRwn _ => true
  | .trapTrap7 _ => true
  | .calliCcIndRwn _ _ => true
  | .callrRel _ => true
  | .ret => true
  | .rets => true
  | .retpReg _ => true
  | .reti => true
  | .rolRwnRwm _ _ => true
  | .rolRwnData4 _ _ => true
  | .rorRwnRwm _ _ => true
  | .rorRwnData4 _ _ => true
  | .shlRwnRwm _ _ => true
  | .shlRwnData4 _ _ => true
  | .shrRwnRwm _ _ => true
  | .shrRwnData4 _ _ => true
  | .ashrRwnRwm _ _ => true
  | .ashrRwnData4 _ _ => true
  | .jmpiCcIndRwn _ _ => true
  | .nop => true
  | .extsRwmIrang2 _ k => irang2Ok k
  | .extpRwmIrang2 _ k => irang2Ok k
  | .extsrRwmIrang2 _ k => irang2Ok k
  | .extprRwmIrang2 _ k => irang2Ok k
  | .pushReg _ => true
  | .popReg _ => true
  | .jmprCcRel _ _ => true
  | .bclrBitQ _ _ => true
  | .bsetBitQ _ _ => true

end Sys2Proof
end

