-- ==== Sys2Proof/Decode.lean ====
section
/-! DEFINITION. The decoder (total on any bytes) and the encoder, both from 30_encoding.md rules R131..R147. Bytes are
numbered in ascending address order; byte 0 is the opcode byte (R131). -/

namespace Sys2Proof

/-- What the bytes at an instruction address stand for. -/
inductive Decoded where
  /-- A defined instruction in its canonical encoding. -/
  | instr (i : Instr)
  /-- Byte 0 is one of the 20 unassigned opcode bytes: class B trap UNDOPC (R145). -/
  | undefinedOpcode
  /-- Byte 0 is a protected opcode but bytes 1..3 are not the required ones: class B trap PRTFLT (R146). -/
  | protectionFault
  /-- A defined opcode whose fixed bits hold another value: outside the decoder's domain, refused (R147, U11). -/
  | nonCanonical
deriving DecidableEq, Repr

/-- The high nibble of a byte. -/
def hi (b : Byte) : BitVec 4 := b.extractLsb' 4 4

/-- The low nibble of a byte. -/
def lo (b : Byte) : BitVec 4 := b.extractLsb' 0 4

/-- The low byte of a word: the byte at its even address (R81). -/
def loByte (w : Word) : Byte := w.extractLsb' 0 8

/-- The high byte of a word: the byte at the next odd address (R81). -/
def hiByte (w : Word) : Byte := w.extractLsb' 8 8

/-- The word whose low byte is `l` and high byte `h` (little-endian, R81). -/
def wordOf (l h : Byte) : Word := h ++ l

/-- `#irang2` from bits 5..4 of byte 1: the field holds `irang2 - 1` (R142). -/
def irang2Of (b1 : Byte) : Nat := (b1.extractLsb' 4 2).toNat + 1

/-- The two-bit field of `#irang2` (R142). -/
def irang2Bits (k : Nat) : BitVec 2 := BitVec.ofNat 2 (k - 1)

/-- Instruction length in bytes from the low nibble of the opcode byte: 4 for 2h..7h and Ah, else 2 (R132). -/
def opcodeLength (b0 : Byte) : Nat :=
  match (lo b0).toNat with
  | 2 => 4
  | 3 => 4
  | 4 => 4
  | 5 => 4
  | 6 => 4
  | 7 => 4
  | 10 => 4
  | _ => 2

/-- Opcode bytes with low nibble 0h; `h` is the high nibble (R143, R144). -/
def decodeNibble0 (h : BitVec 4) (b1 : Byte) : Decoded :=
  match h.toNat with
  | 0 => .instr (.addRwnRwm (hi b1) (lo b1))
  | 1 => .instr (.addcRwnRwm (hi b1) (lo b1))
  | 2 => .instr (.subRwnRwm (hi b1) (lo b1))
  | 3 => .instr (.subcRwnRwm (hi b1) (lo b1))
  | 4 => .instr (.cmpRwnRwm (hi b1) (lo b1))
  | 5 => .instr (.xorRwnRwm (hi b1) (lo b1))
  | 6 => .instr (.andRwnRwm (hi b1) (lo b1))
  | 7 => .instr (.orRwnRwm (hi b1) (lo b1))
  | 8 => .instr (.cmpi1RwnData4 (lo b1) (hi b1))
  | 9 => .instr (.cmpi2RwnData4 (lo b1) (hi b1))
  | 10 => .instr (.cmpd1RwnData4 (lo b1) (hi b1))
  | 11 => .instr (.cmpd2RwnData4 (lo b1) (hi b1))
  | 12 => .instr (.movbzRwnRbm (lo b1) (hi b1))
  | 13 => .instr (.movbsRwnRbm (lo b1) (hi b1))
  | 14 => .instr (.movRwnData4 (lo b1) (hi b1))
  | _ => .instr (.movRwnRwm (hi b1) (lo b1))

/-- Opcode bytes with low nibble 1h; `h` is the high nibble (R143, R144). -/
def decodeNibble1 (h : BitVec 4) (b1 : Byte) : Decoded :=
  match h.toNat with
  | 0 => .instr (.addbRbnRbm (hi b1) (lo b1))
  | 1 => .instr (.addcbRbnRbm (hi b1) (lo b1))
  | 2 => .instr (.subbRbnRbm (hi b1) (lo b1))
  | 3 => .instr (.subcbRbnRbm (hi b1) (lo b1))
  | 4 => .instr (.cmpbRbnRbm (hi b1) (lo b1))
  | 5 => .instr (.xorbRbnRbm (hi b1) (lo b1))
  | 6 => .instr (.andbRbnRbm (hi b1) (lo b1))
  | 7 => .instr (.orbRbnRbm (hi b1) (lo b1))
  | 8 => if lo b1 == 0x0#4 then .instr (.negRwn (hi b1)) else .nonCanonical
  | 9 => if lo b1 == 0x0#4 then .instr (.cplRwn (hi b1)) else .nonCanonical
  | 10 => if lo b1 == 0x0#4 then .instr (.negbRbn (hi b1)) else .nonCanonical
  | 11 => if lo b1 == 0x0#4 then .instr (.cplbRbn (hi b1)) else .nonCanonical
  | 12 => .undefinedOpcode
  | 13 => 
    if b1.extractLsb' 6 2 == 0#2 then (if lo b1 == 0x0#4 then .instr (.atomicIrang2 (irang2Of b1)) else .nonCanonical)
    else if b1.extractLsb' 6 2 == 2#2 then (if lo b1 == 0x0#4 then .instr (.extrIrang2 (irang2Of b1)) else .nonCanonical)
    else .nonCanonical
  | 14 => .instr (.movbRbnData4 (lo b1) (hi b1))
  | _ => .instr (.movbRbnRbm (hi b1) (lo b1))

/-- Opcode bytes with low nibble 2h; `h` is the high nibble (R143, R144). -/
def decodeNibble2 (h : BitVec 4) (b1 b2 b3 : Byte) : Decoded :=
  match h.toNat with
  | 0 => .instr (.addRegMem b1 (wordOf b2 b3))
  | 1 => .instr (.addcRegMem b1 (wordOf b2 b3))
  | 2 => .instr (.subRegMem b1 (wordOf b2 b3))
  | 3 => .instr (.subcRegMem b1 (wordOf b2 b3))
  | 4 => .instr (.cmpRegMem b1 (wordOf b2 b3))
  | 5 => .instr (.xorRegMem b1 (wordOf b2 b3))
  | 6 => .instr (.andRegMem b1 (wordOf b2 b3))
  | 7 => .instr (.orRegMem b1 (wordOf b2 b3))
  | 8 => if hi b1 == 0xF#4 then .instr (.cmpi1RwnMem (lo b1) (wordOf b2 b3)) else .nonCanonical
  | 9 => if hi b1 == 0xF#4 then .instr (.cmpi2RwnMem (lo b1) (wordOf b2 b3)) else .nonCanonical
  | 10 => if hi b1 == 0xF#4 then .instr (.cmpd1RwnMem (lo b1) (wordOf b2 b3)) else .nonCanonical
  | 11 => if hi b1 == 0xF#4 then .instr (.cmpd2RwnMem (lo b1) (wordOf b2 b3)) else .nonCanonical
  | 12 => .instr (.movbzRegMem b1 (wordOf b2 b3))
  | 13 => .instr (.movbsRegMem b1 (wordOf b2 b3))
  | 14 => .instr (.pcallRegCaddr b1 (wordOf b2 b3))
  | _ => .instr (.movRegMem b1 (wordOf b2 b3))

/-- Opcode bytes with low nibble 3h; `h` is the high nibble (R143, R144). -/
def decodeNibble3 (h : BitVec 4) (b1 b2 b3 : Byte) : Decoded :=
  match h.toNat with
  | 0 => .instr (.addbRegMem b1 (wordOf b2 b3))
  | 1 => .instr (.addcbRegMem b1 (wordOf b2 b3))
  | 2 => .instr (.subbRegMem b1 (wordOf b2 b3))
  | 3 => .instr (.subcbRegMem b1 (wordOf b2 b3))
  | 4 => .instr (.cmpbRegMem b1 (wordOf b2 b3))
  | 5 => .instr (.xorbRegMem b1 (wordOf b2 b3))
  | 6 => .instr (.andbRegMem b1 (wordOf b2 b3))
  | 7 => .instr (.orbRegMem b1 (wordOf b2 b3))
  | 8 => .undefinedOpcode
  | 9 => .undefinedOpcode
  | 10 => .undefinedOpcode
  | 11 => .undefinedOpcode
  | 12 => .undefinedOpcode
  | 13 => .undefinedOpcode
  | 14 => .undefinedOpcode
  | _ => .instr (.movbRegMem b1 (wordOf b2 b3))

/-- Opcode bytes with low nibble 4h; `h` is the high nibble (R143, R144). -/
def decodeNibble4 (h : BitVec 4) (b1 b2 b3 : Byte) : Decoded :=
  match h.toNat with
  | 0 => .instr (.addMemReg (wordOf b2 b3) b1)
  | 1 => .instr (.addcMemReg (wordOf b2 b3) b1)
  | 2 => .instr (.subMemReg (wordOf b2 b3) b1)
  | 3 => .instr (.subcMemReg (wordOf b2 b3) b1)
  | 4 => .undefinedOpcode
  | 5 => .instr (.xorMemReg (wordOf b2 b3) b1)
  | 6 => .instr (.andMemReg (wordOf b2 b3) b1)
  | 7 => .instr (.orMemReg (wordOf b2 b3) b1)
  | 8 => if hi b1 == 0x0#4 then .instr (.movIndRwnMem (lo b1) (wordOf b2 b3)) else .nonCanonical
  | 9 => if hi b1 == 0x0#4 then .instr (.movMemIndRwn (wordOf b2 b3) (lo b1)) else .nonCanonical
  | 10 => if hi b1 == 0x0#4 then .instr (.movbIndRwnMem (lo b1) (wordOf b2 b3)) else .nonCanonical
  | 11 => if hi b1 == 0x0#4 then .instr (.movbMemIndRwn (wordOf b2 b3) (lo b1)) else .nonCanonical
  | 12 => .instr (.movIndRwmData16Rwn (lo b1) (wordOf b2 b3) (hi b1))
  | 13 => .instr (.movRwnIndRwmData16 (hi b1) (lo b1) (wordOf b2 b3))
  | 14 => .instr (.movbIndRwmData16Rbn (lo b1) (wordOf b2 b3) (hi b1))
  | _ => .instr (.movbRbnIndRwmData16 (hi b1) (lo b1) (wordOf b2 b3))

/-- Opcode bytes with low nibble 5h; `h` is the high nibble (R143, R144). -/
def decodeNibble5 (h : BitVec 4) (b1 b2 b3 : Byte) : Decoded :=
  match h.toNat with
  | 0 => .instr (.addbMemReg (wordOf b2 b3) b1)
  | 1 => .instr (.addcbMemReg (wordOf b2 b3) b1)
  | 2 => .instr (.subbMemReg (wordOf b2 b3) b1)
  | 3 => .instr (.subcbMemReg (wordOf b2 b3) b1)
  | 4 => .undefinedOpcode
  | 5 => .instr (.xorbMemReg (wordOf b2 b3) b1)
  | 6 => .instr (.andbMemReg (wordOf b2 b3) b1)
  | 7 => .instr (.orbMemReg (wordOf b2 b3) b1)
  | 8 => .undefinedOpcode
  | 9 => .undefinedOpcode
  | 10 => if b1 == 0x5A#8 && b2 == 0xA5#8 && b3 == 0xA5#8 then .instr .diswdt else .protectionFault
  | 11 => if b1 == 0x4A#8 && b2 == 0xB5#8 && b3 == 0xB5#8 then .instr .einit else .protectionFault
  | 12 => .instr (.movbzMemReg (wordOf b2 b3) b1)
  | 13 => .instr (.movbsMemReg (wordOf b2 b3) b1)
  | 14 => .undefinedOpcode
  | _ => .undefinedOpcode

/-- Opcode bytes with low nibble 6h; `h` is the high nibble (R143, R144). -/
def decodeNibble6 (h : BitVec 4) (b1 b2 b3 : Byte) : Decoded :=
  match h.toNat with
  | 0 => .instr (.addRegData16 b1 (wordOf b2 b3))
  | 1 => .instr (.addcRegData16 b1 (wordOf b2 b3))
  | 2 => .instr (.subRegData16 b1 (wordOf b2 b3))
  | 3 => .instr (.subcRegData16 b1 (wordOf b2 b3))
  | 4 => .instr (.cmpRegData16 b1 (wordOf b2 b3))
  | 5 => .instr (.xorRegData16 b1 (wordOf b2 b3))
  | 6 => .instr (.andRegData16 b1 (wordOf b2 b3))
  | 7 => .instr (.orRegData16 b1 (wordOf b2 b3))
  | 8 => if hi b1 == 0xF#4 then .instr (.cmpi1RwnData16 (lo b1) (wordOf b2 b3)) else .nonCanonical
  | 9 => if hi b1 == 0xF#4 then .instr (.cmpi2RwnData16 (lo b1) (wordOf b2 b3)) else .nonCanonical
  | 10 => if hi b1 == 0xF#4 then .instr (.cmpd1RwnData16 (lo b1) (wordOf b2 b3)) else .nonCanonical
  | 11 => if hi b1 == 0xF#4 then .instr (.cmpd2RwnData16 (lo b1) (wordOf b2 b3)) else .nonCanonical
  | 12 => .instr (.scxtRegData16 b1 (wordOf b2 b3))
  | 13 => .instr (.scxtRegMem b1 (wordOf b2 b3))
  | 14 => .instr (.movRegData16 b1 (wordOf b2 b3))
  | _ => .instr (.movMemReg (wordOf b2 b3) b1)

/-- Opcode bytes with low nibble 7h; `h` is the high nibble (R143, R144). -/
def decodeNibble7 (h : BitVec 4) (b1 b2 b3 : Byte) : Decoded :=
  match h.toNat with
  | 0 => .instr (.addbRegData8 b1 b2)
  | 1 => .instr (.addcbRegData8 b1 b2)
  | 2 => .instr (.subbRegData8 b1 b2)
  | 3 => .instr (.subcbRegData8 b1 b2)
  | 4 => .instr (.cmpbRegData8 b1 b2)
  | 5 => .instr (.xorbRegData8 b1 b2)
  | 6 => .instr (.andbRegData8 b1 b2)
  | 7 => .instr (.orbRegData8 b1 b2)
  | 8 => if b1 == 0x78#8 && b2 == 0x87#8 && b3 == 0x87#8 then .instr .idle else .protectionFault
  | 9 => if b1 == 0x68#8 && b2 == 0x97#8 && b3 == 0x97#8 then .instr .pwrdn else .protectionFault
  | 10 => if b1 == 0x58#8 && b2 == 0xA7#8 && b3 == 0xA7#8 then .instr .srvwdt else .protectionFault
  | 11 => if b1 == 0x48#8 && b2 == 0xB7#8 && b3 == 0xB7#8 then .instr .srst else .protectionFault
  | 12 => .undefinedOpcode
  | 13 => 
    if b1.extractLsb' 6 2 == 0#2 then (if lo b1 == 0x0#4 && b3 == 0x00#8 then .instr (.extsSegIrang2 b2 (irang2Of b1)) else .nonCanonical)
    else if b1.extractLsb' 6 2 == 1#2 then (if lo b1 == 0x0#4 && b3.extractLsb' 2 6 == 0#6 then .instr (.extpPagIrang2 ((b3.extractLsb' 0 2 ++ b2)) (irang2Of b1)) else .nonCanonical)
    else if b1.extractLsb' 6 2 == 2#2 then (if lo b1 == 0x0#4 && b3 == 0x00#8 then .instr (.extsrSegIrang2 b2 (irang2Of b1)) else .nonCanonical)
    else if b1.extractLsb' 6 2 == 3#2 then (if lo b1 == 0x0#4 && b3.extractLsb' 2 6 == 0#6 then .instr (.extprPagIrang2 ((b3.extractLsb' 0 2 ++ b2)) (irang2Of b1)) else .nonCanonical)
    else .nonCanonical
  | 14 => .instr (.movbRegData8 b1 b2)
  | _ => .instr (.movbMemReg (wordOf b2 b3) b1)

/-- Opcode bytes with low nibble 8h; `h` is the high nibble (R143, R144). -/
def decodeNibble8 (h : BitVec 4) (b1 : Byte) : Decoded :=
  match h.toNat with
  | 0 => 
    if b1.extractLsb' 3 1 == 0#1 then .instr (.addRwnData3 (hi b1) (b1.extractLsb' 0 3))
    else if b1.extractLsb' 2 1 == 0#1 then .instr (.addRwnIndRwi (hi b1) (b1.extractLsb' 0 2))
    else .instr (.addRwnIndRwiInc (hi b1) (b1.extractLsb' 0 2))
  | 1 => 
    if b1.extractLsb' 3 1 == 0#1 then .instr (.addcRwnData3 (hi b1) (b1.extractLsb' 0 3))
    else if b1.extractLsb' 2 1 == 0#1 then .instr (.addcRwnIndRwi (hi b1) (b1.extractLsb' 0 2))
    else .instr (.addcRwnIndRwiInc (hi b1) (b1.extractLsb' 0 2))
  | 2 => 
    if b1.extractLsb' 3 1 == 0#1 then .instr (.subRwnData3 (hi b1) (b1.extractLsb' 0 3))
    else if b1.extractLsb' 2 1 == 0#1 then .instr (.subRwnIndRwi (hi b1) (b1.extractLsb' 0 2))
    else .instr (.subRwnIndRwiInc (hi b1) (b1.extractLsb' 0 2))
  | 3 => 
    if b1.extractLsb' 3 1 == 0#1 then .instr (.subcRwnData3 (hi b1) (b1.extractLsb' 0 3))
    else if b1.extractLsb' 2 1 == 0#1 then .instr (.subcRwnIndRwi (hi b1) (b1.extractLsb' 0 2))
    else .instr (.subcRwnIndRwiInc (hi b1) (b1.extractLsb' 0 2))
  | 4 => 
    if b1.extractLsb' 3 1 == 0#1 then .instr (.cmpRwnData3 (hi b1) (b1.extractLsb' 0 3))
    else if b1.extractLsb' 2 1 == 0#1 then .instr (.cmpRwnIndRwi (hi b1) (b1.extractLsb' 0 2))
    else .instr (.cmpRwnIndRwiInc (hi b1) (b1.extractLsb' 0 2))
  | 5 => 
    if b1.extractLsb' 3 1 == 0#1 then .instr (.xorRwnData3 (hi b1) (b1.extractLsb' 0 3))
    else if b1.extractLsb' 2 1 == 0#1 then .instr (.xorRwnIndRwi (hi b1) (b1.extractLsb' 0 2))
    else .instr (.xorRwnIndRwiInc (hi b1) (b1.extractLsb' 0 2))
  | 6 => 
    if b1.extractLsb' 3 1 == 0#1 then .instr (.andRwnData3 (hi b1) (b1.extractLsb' 0 3))
    else if b1.extractLsb' 2 1 == 0#1 then .instr (.andRwnIndRwi (hi b1) (b1.extractLsb' 0 2))
    else .instr (.andRwnIndRwiInc (hi b1) (b1.extractLsb' 0 2))
  | 7 => 
    if b1.extractLsb' 3 1 == 0#1 then .instr (.orRwnData3 (hi b1) (b1.extractLsb' 0 3))
    else if b1.extractLsb' 2 1 == 0#1 then .instr (.orRwnIndRwi (hi b1) (b1.extractLsb' 0 2))
    else .instr (.orRwnIndRwiInc (hi b1) (b1.extractLsb' 0 2))
  | 8 => .instr (.movIndDecRwmRwn (lo b1) (hi b1))
  | 9 => .instr (.movRwnIndRwmInc (hi b1) (lo b1))
  | 10 => .instr (.movRwnIndRwm (hi b1) (lo b1))
  | 11 => .instr (.movIndRwmRwn (lo b1) (hi b1))
  | 12 => .instr (.movIndRwnIndRwm (hi b1) (lo b1))
  | 13 => .instr (.movIndRwnIncIndRwm (hi b1) (lo b1))
  | 14 => .instr (.movIndRwnIndRwmInc (hi b1) (lo b1))
  | _ => .undefinedOpcode

/-- Opcode bytes with low nibble 9h; `h` is the high nibble (R143, R144). -/
def decodeNibble9 (h : BitVec 4) (b1 : Byte) : Decoded :=
  match h.toNat with
  | 0 => 
    if b1.extractLsb' 3 1 == 0#1 then .instr (.addbRbnData3 (hi b1) (b1.extractLsb' 0 3))
    else if b1.extractLsb' 2 1 == 0#1 then .instr (.addbRbnIndRwi (hi b1) (b1.extractLsb' 0 2))
    else .instr (.addbRbnIndRwiInc (hi b1) (b1.extractLsb' 0 2))
  | 1 => 
    if b1.extractLsb' 3 1 == 0#1 then .instr (.addcbRbnData3 (hi b1) (b1.extractLsb' 0 3))
    else if b1.extractLsb' 2 1 == 0#1 then .instr (.addcbRbnIndRwi (hi b1) (b1.extractLsb' 0 2))
    else .instr (.addcbRbnIndRwiInc (hi b1) (b1.extractLsb' 0 2))
  | 2 => 
    if b1.extractLsb' 3 1 == 0#1 then .instr (.subbRbnData3 (hi b1) (b1.extractLsb' 0 3))
    else if b1.extractLsb' 2 1 == 0#1 then .instr (.subbRbnIndRwi (hi b1) (b1.extractLsb' 0 2))
    else .instr (.subbRbnIndRwiInc (hi b1) (b1.extractLsb' 0 2))
  | 3 => 
    if b1.extractLsb' 3 1 == 0#1 then .instr (.subcbRbnData3 (hi b1) (b1.extractLsb' 0 3))
    else if b1.extractLsb' 2 1 == 0#1 then .instr (.subcbRbnIndRwi (hi b1) (b1.extractLsb' 0 2))
    else .instr (.subcbRbnIndRwiInc (hi b1) (b1.extractLsb' 0 2))
  | 4 => 
    if b1.extractLsb' 3 1 == 0#1 then .instr (.cmpbRbnData3 (hi b1) (b1.extractLsb' 0 3))
    else if b1.extractLsb' 2 1 == 0#1 then .instr (.cmpbRbnIndRwi (hi b1) (b1.extractLsb' 0 2))
    else .instr (.cmpbRbnIndRwiInc (hi b1) (b1.extractLsb' 0 2))
  | 5 => 
    if b1.extractLsb' 3 1 == 0#1 then .instr (.xorbRbnData3 (hi b1) (b1.extractLsb' 0 3))
    else if b1.extractLsb' 2 1 == 0#1 then .instr (.xorbRbnIndRwi (hi b1) (b1.extractLsb' 0 2))
    else .instr (.xorbRbnIndRwiInc (hi b1) (b1.extractLsb' 0 2))
  | 6 => 
    if b1.extractLsb' 3 1 == 0#1 then .instr (.andbRbnData3 (hi b1) (b1.extractLsb' 0 3))
    else if b1.extractLsb' 2 1 == 0#1 then .instr (.andbRbnIndRwi (hi b1) (b1.extractLsb' 0 2))
    else .instr (.andbRbnIndRwiInc (hi b1) (b1.extractLsb' 0 2))
  | 7 => 
    if b1.extractLsb' 3 1 == 0#1 then .instr (.orbRbnData3 (hi b1) (b1.extractLsb' 0 3))
    else if b1.extractLsb' 2 1 == 0#1 then .instr (.orbRbnIndRwi (hi b1) (b1.extractLsb' 0 2))
    else .instr (.orbRbnIndRwiInc (hi b1) (b1.extractLsb' 0 2))
  | 8 => .instr (.movbIndDecRwmRbn (lo b1) (hi b1))
  | 9 => .instr (.movbRbnIndRwmInc (hi b1) (lo b1))
  | 10 => .instr (.movbRbnIndRwm (hi b1) (lo b1))
  | 11 => .instr (.movbIndRwmRbn (lo b1) (hi b1))
  | 12 => .instr (.movbIndRwnIndRwm (hi b1) (lo b1))
  | 13 => .instr (.movbIndRwnIncIndRwm (hi b1) (lo b1))
  | 14 => .instr (.movbIndRwnIndRwmInc (hi b1) (lo b1))
  | _ => .undefinedOpcode

/-- Opcode bytes with low nibble Ah; `h` is the high nibble (R143, R144). -/
def decodeNibbleA (h : BitVec 4) (b1 b2 b3 : Byte) : Decoded :=
  match h.toNat with
  | 0 => .instr (.bfldlBitoffMask8Data8 b1 b2 b3)
  | 1 => .instr (.bfldhBitoffMask8Data8 b1 b3 b2)
  | 2 => .instr (.bcmpBitZBitQ b2 (lo b3) b1 (hi b3))
  | 3 => .instr (.bmovnBitZBitQ b2 (lo b3) b1 (hi b3))
  | 4 => .instr (.bmovBitZBitQ b2 (lo b3) b1 (hi b3))
  | 5 => .instr (.borBitZBitQ b2 (lo b3) b1 (hi b3))
  | 6 => .instr (.bandBitZBitQ b2 (lo b3) b1 (hi b3))
  | 7 => .instr (.bxorBitZBitQ b2 (lo b3) b1 (hi b3))
  | 8 => if lo b3 == 0x0#4 then .instr (.jbBitQRel b1 (hi b3) b2) else .nonCanonical
  | 9 => if lo b3 == 0x0#4 then .instr (.jnbBitQRel b1 (hi b3) b2) else .nonCanonical
  | 10 => if lo b3 == 0x0#4 then .instr (.jbcBitQRel b1 (hi b3) b2) else .nonCanonical
  | 11 => if lo b3 == 0x0#4 then .instr (.jnbsBitQRel b1 (hi b3) b2) else .nonCanonical
  | 12 => if lo b1 == 0x0#4 then .instr (.callaCcCaddr (hi b1) (wordOf b2 b3)) else .nonCanonical
  | 13 => .instr (.callsSegCaddr b1 (wordOf b2 b3))
  | 14 => if lo b1 == 0x0#4 then .instr (.jmpaCcCaddr (hi b1) (wordOf b2 b3)) else .nonCanonical
  | _ => .instr (.jmpsSegCaddr b1 (wordOf b2 b3))

/-- Opcode bytes with low nibble Bh; `h` is the high nibble (R143, R144). -/
def decodeNibbleB (h : BitVec 4) (b1 : Byte) : Decoded :=
  match h.toNat with
  | 0 => .instr (.mulRwnRwm (hi b1) (lo b1))
  | 1 => .instr (.muluRwnRwm (hi b1) (lo b1))
  | 2 => .instr (.priorRwnRwm (hi b1) (lo b1))
  | 3 => .undefinedOpcode
  | 4 => if hi b1 == lo b1 then .instr (.divRwn (hi b1)) else .nonCanonical
  | 5 => if hi b1 == lo b1 then .instr (.divuRwn (hi b1)) else .nonCanonical
  | 6 => if hi b1 == lo b1 then .instr (.divlRwn (hi b1)) else .nonCanonical
  | 7 => if hi b1 == lo b1 then .instr (.divluRwn (hi b1)) else .nonCanonical
  | 8 => .undefinedOpcode
  | 9 => if b1.extractLsb' 0 1 == 0#1 then .instr (.trapTrap7 (b1.extractLsb' 1 7)) else .nonCanonical
  | 10 => .instr (.calliCcIndRwn (hi b1) (lo b1))
  | 11 => .instr (.callrRel b1)
  | 12 => if b1 == 0x00#8 then .instr .ret else .nonCanonical
  | 13 => if b1 == 0x00#8 then .instr .rets else .nonCanonical
  | 14 => .instr (.retpReg b1)
  | _ => if b1 == 0x88#8 then .instr .reti else .nonCanonical

/-- Opcode bytes with low nibble Ch; `h` is the high nibble (R143, R144). -/
def decodeNibbleC (h : BitVec 4) (b1 : Byte) : Decoded :=
  match h.toNat with
  | 0 => .instr (.rolRwnRwm (hi b1) (lo b1))
  | 1 => .instr (.rolRwnData4 (lo b1) (hi b1))
  | 2 => .instr (.rorRwnRwm (hi b1) (lo b1))
  | 3 => .instr (.rorRwnData4 (lo b1) (hi b1))
  | 4 => .instr (.shlRwnRwm (hi b1) (lo b1))
  | 5 => .instr (.shlRwnData4 (lo b1) (hi b1))
  | 6 => .instr (.shrRwnRwm (hi b1) (lo b1))
  | 7 => .instr (.shrRwnData4 (lo b1) (hi b1))
  | 8 => .undefinedOpcode
  | 9 => .instr (.jmpiCcIndRwn (hi b1) (lo b1))
  | 10 => .instr (.ashrRwnRwm (hi b1) (lo b1))
  | 11 => .instr (.ashrRwnData4 (lo b1) (hi b1))
  | 12 => if b1 == 0x00#8 then .instr .nop else .nonCanonical
  | 13 => 
    if b1.extractLsb' 6 2 == 0#2 then (.instr (.extsRwmIrang2 (lo b1) (irang2Of b1)))
    else if b1.extractLsb' 6 2 == 1#2 then (.instr (.extpRwmIrang2 (lo b1) (irang2Of b1)))
    else if b1.extractLsb' 6 2 == 2#2 then (.instr (.extsrRwmIrang2 (lo b1) (irang2Of b1)))
    else if b1.extractLsb' 6 2 == 3#2 then (.instr (.extprRwmIrang2 (lo b1) (irang2Of b1)))
    else .nonCanonical
  | 14 => .instr (.pushReg b1)
  | _ => .instr (.popReg b1)

/-- Opcode bytes with low nibble Dh; `h` is the high nibble (R143, R144). -/
def decodeNibbleD (h : BitVec 4) (b1 : Byte) : Decoded :=
  .instr (.jmprCcRel h b1)

/-- Opcode bytes with low nibble Eh; `h` is the high nibble (R143, R144). -/
def decodeNibbleE (h : BitVec 4) (b1 : Byte) : Decoded :=
  .instr (.bclrBitQ b1 h)

/-- Opcode bytes with low nibble Fh; `h` is the high nibble (R143, R144). -/
def decodeNibbleF (h : BitVec 4) (b1 : Byte) : Decoded :=
  .instr (.bsetBitQ b1 h)

/-- The whole decoder: byte 0 selects the row by its two nibbles, the other bytes give the fields (R143..R147). -/
def decodeBytes (b0 b1 b2 b3 : Byte) : Decoded :=
  match (lo b0).toNat with
  | 0 => decodeNibble0 (hi b0) b1
  | 1 => decodeNibble1 (hi b0) b1
  | 2 => decodeNibble2 (hi b0) b1 b2 b3
  | 3 => decodeNibble3 (hi b0) b1 b2 b3
  | 4 => decodeNibble4 (hi b0) b1 b2 b3
  | 5 => decodeNibble5 (hi b0) b1 b2 b3
  | 6 => decodeNibble6 (hi b0) b1 b2 b3
  | 7 => decodeNibble7 (hi b0) b1 b2 b3
  | 8 => decodeNibble8 (hi b0) b1
  | 9 => decodeNibble9 (hi b0) b1
  | 10 => decodeNibbleA (hi b0) b1 b2 b3
  | 11 => decodeNibbleB (hi b0) b1
  | 12 => decodeNibbleC (hi b0) b1
  | 13 => decodeNibbleD (hi b0) b1
  | 14 => decodeNibbleE (hi b0) b1
  | _ => decodeNibbleF (hi b0) b1

/-- Decoding the words at an instruction address: the first word is `byte1 : byte0`, the second `byte3 : byte2`
(R131). A 2-byte instruction does not look at the second word. -/
def decodeWords (w0 w1 : Word) : Decoded := decodeBytes (loByte w0) (hiByte w0) (loByte w1) (hiByte w1)

/-- The bytes of an instruction, byte 0 first, written from the format table (R133). -/
def encodeBytes : Instr → List Byte
  | .addRwnRwm n m => [0x00#8, n ++ m]
  | .addRegMem reg mem => [0x02#8, reg, loByte mem, hiByte mem]
  | .addMemReg mem reg => [0x04#8, reg, loByte mem, hiByte mem]
  | .addRegData16 reg d => [0x06#8, reg, loByte d, hiByte d]
  | .addRwnIndRwi n i => [0x08#8, n ++ (2#2 ++ i)]
  | .addRwnIndRwiInc n i => [0x08#8, n ++ (3#2 ++ i)]
  | .addRwnData3 n d => [0x08#8, n ++ (0#1 ++ d)]
  | .addbRbnRbm n m => [0x01#8, n ++ m]
  | .addbRegMem reg mem => [0x03#8, reg, loByte mem, hiByte mem]
  | .addbMemReg mem reg => [0x05#8, reg, loByte mem, hiByte mem]
  | .addbRegData8 reg d => [0x07#8, reg, d, 0x00#8]
  | .addbRbnIndRwi n i => [0x09#8, n ++ (2#2 ++ i)]
  | .addbRbnIndRwiInc n i => [0x09#8, n ++ (3#2 ++ i)]
  | .addbRbnData3 n d => [0x09#8, n ++ (0#1 ++ d)]
  | .addcRwnRwm n m => [0x10#8, n ++ m]
  | .addcRegMem reg mem => [0x12#8, reg, loByte mem, hiByte mem]
  | .addcMemReg mem reg => [0x14#8, reg, loByte mem, hiByte mem]
  | .addcRegData16 reg d => [0x16#8, reg, loByte d, hiByte d]
  | .addcRwnIndRwi n i => [0x18#8, n ++ (2#2 ++ i)]
  | .addcRwnIndRwiInc n i => [0x18#8, n ++ (3#2 ++ i)]
  | .addcRwnData3 n d => [0x18#8, n ++ (0#1 ++ d)]
  | .addcbRbnRbm n m => [0x11#8, n ++ m]
  | .addcbRegMem reg mem => [0x13#8, reg, loByte mem, hiByte mem]
  | .addcbMemReg mem reg => [0x15#8, reg, loByte mem, hiByte mem]
  | .addcbRegData8 reg d => [0x17#8, reg, d, 0x00#8]
  | .addcbRbnIndRwi n i => [0x19#8, n ++ (2#2 ++ i)]
  | .addcbRbnIndRwiInc n i => [0x19#8, n ++ (3#2 ++ i)]
  | .addcbRbnData3 n d => [0x19#8, n ++ (0#1 ++ d)]
  | .subRwnRwm n m => [0x20#8, n ++ m]
  | .subRegMem reg mem => [0x22#8, reg, loByte mem, hiByte mem]
  | .subMemReg mem reg => [0x24#8, reg, loByte mem, hiByte mem]
  | .subRegData16 reg d => [0x26#8, reg, loByte d, hiByte d]
  | .subRwnIndRwi n i => [0x28#8, n ++ (2#2 ++ i)]
  | .subRwnIndRwiInc n i => [0x28#8, n ++ (3#2 ++ i)]
  | .subRwnData3 n d => [0x28#8, n ++ (0#1 ++ d)]
  | .subbRbnRbm n m => [0x21#8, n ++ m]
  | .subbRegMem reg mem => [0x23#8, reg, loByte mem, hiByte mem]
  | .subbMemReg mem reg => [0x25#8, reg, loByte mem, hiByte mem]
  | .subbRegData8 reg d => [0x27#8, reg, d, 0x00#8]
  | .subbRbnIndRwi n i => [0x29#8, n ++ (2#2 ++ i)]
  | .subbRbnIndRwiInc n i => [0x29#8, n ++ (3#2 ++ i)]
  | .subbRbnData3 n d => [0x29#8, n ++ (0#1 ++ d)]
  | .subcRwnRwm n m => [0x30#8, n ++ m]
  | .subcRegMem reg mem => [0x32#8, reg, loByte mem, hiByte mem]
  | .subcMemReg mem reg => [0x34#8, reg, loByte mem, hiByte mem]
  | .subcRegData16 reg d => [0x36#8, reg, loByte d, hiByte d]
  | .subcRwnIndRwi n i => [0x38#8, n ++ (2#2 ++ i)]
  | .subcRwnIndRwiInc n i => [0x38#8, n ++ (3#2 ++ i)]
  | .subcRwnData3 n d => [0x38#8, n ++ (0#1 ++ d)]
  | .subcbRbnRbm n m => [0x31#8, n ++ m]
  | .subcbRegMem reg mem => [0x33#8, reg, loByte mem, hiByte mem]
  | .subcbMemReg mem reg => [0x35#8, reg, loByte mem, hiByte mem]
  | .subcbRegData8 reg d => [0x37#8, reg, d, 0x00#8]
  | .subcbRbnIndRwi n i => [0x39#8, n ++ (2#2 ++ i)]
  | .subcbRbnIndRwiInc n i => [0x39#8, n ++ (3#2 ++ i)]
  | .subcbRbnData3 n d => [0x39#8, n ++ (0#1 ++ d)]
  | .cmpRwnRwm n m => [0x40#8, n ++ m]
  | .cmpRegMem reg mem => [0x42#8, reg, loByte mem, hiByte mem]
  | .cmpRegData16 reg d => [0x46#8, reg, loByte d, hiByte d]
  | .cmpRwnIndRwi n i => [0x48#8, n ++ (2#2 ++ i)]
  | .cmpRwnIndRwiInc n i => [0x48#8, n ++ (3#2 ++ i)]
  | .cmpRwnData3 n d => [0x48#8, n ++ (0#1 ++ d)]
  | .cmpbRbnRbm n m => [0x41#8, n ++ m]
  | .cmpbRegMem reg mem => [0x43#8, reg, loByte mem, hiByte mem]
  | .cmpbRegData8 reg d => [0x47#8, reg, d, 0x00#8]
  | .cmpbRbnIndRwi n i => [0x49#8, n ++ (2#2 ++ i)]
  | .cmpbRbnIndRwiInc n i => [0x49#8, n ++ (3#2 ++ i)]
  | .cmpbRbnData3 n d => [0x49#8, n ++ (0#1 ++ d)]
  | .xorRwnRwm n m => [0x50#8, n ++ m]
  | .xorRegMem reg mem => [0x52#8, reg, loByte mem, hiByte mem]
  | .xorMemReg mem reg => [0x54#8, reg, loByte mem, hiByte mem]
  | .xorRegData16 reg d => [0x56#8, reg, loByte d, hiByte d]
  | .xorRwnIndRwi n i => [0x58#8, n ++ (2#2 ++ i)]
  | .xorRwnIndRwiInc n i => [0x58#8, n ++ (3#2 ++ i)]
  | .xorRwnData3 n d => [0x58#8, n ++ (0#1 ++ d)]
  | .xorbRbnRbm n m => [0x51#8, n ++ m]
  | .xorbRegMem reg mem => [0x53#8, reg, loByte mem, hiByte mem]
  | .xorbMemReg mem reg => [0x55#8, reg, loByte mem, hiByte mem]
  | .xorbRegData8 reg d => [0x57#8, reg, d, 0x00#8]
  | .xorbRbnIndRwi n i => [0x59#8, n ++ (2#2 ++ i)]
  | .xorbRbnIndRwiInc n i => [0x59#8, n ++ (3#2 ++ i)]
  | .xorbRbnData3 n d => [0x59#8, n ++ (0#1 ++ d)]
  | .andRwnRwm n m => [0x60#8, n ++ m]
  | .andRegMem reg mem => [0x62#8, reg, loByte mem, hiByte mem]
  | .andMemReg mem reg => [0x64#8, reg, loByte mem, hiByte mem]
  | .andRegData16 reg d => [0x66#8, reg, loByte d, hiByte d]
  | .andRwnIndRwi n i => [0x68#8, n ++ (2#2 ++ i)]
  | .andRwnIndRwiInc n i => [0x68#8, n ++ (3#2 ++ i)]
  | .andRwnData3 n d => [0x68#8, n ++ (0#1 ++ d)]
  | .andbRbnRbm n m => [0x61#8, n ++ m]
  | .andbRegMem reg mem => [0x63#8, reg, loByte mem, hiByte mem]
  | .andbMemReg mem reg => [0x65#8, reg, loByte mem, hiByte mem]
  | .andbRegData8 reg d => [0x67#8, reg, d, 0x00#8]
  | .andbRbnIndRwi n i => [0x69#8, n ++ (2#2 ++ i)]
  | .andbRbnIndRwiInc n i => [0x69#8, n ++ (3#2 ++ i)]
  | .andbRbnData3 n d => [0x69#8, n ++ (0#1 ++ d)]
  | .orRwnRwm n m => [0x70#8, n ++ m]
  | .orRegMem reg mem => [0x72#8, reg, loByte mem, hiByte mem]
  | .orMemReg mem reg => [0x74#8, reg, loByte mem, hiByte mem]
  | .orRegData16 reg d => [0x76#8, reg, loByte d, hiByte d]
  | .orRwnIndRwi n i => [0x78#8, n ++ (2#2 ++ i)]
  | .orRwnIndRwiInc n i => [0x78#8, n ++ (3#2 ++ i)]
  | .orRwnData3 n d => [0x78#8, n ++ (0#1 ++ d)]
  | .orbRbnRbm n m => [0x71#8, n ++ m]
  | .orbRegMem reg mem => [0x73#8, reg, loByte mem, hiByte mem]
  | .orbMemReg mem reg => [0x75#8, reg, loByte mem, hiByte mem]
  | .orbRegData8 reg d => [0x77#8, reg, d, 0x00#8]
  | .orbRbnIndRwi n i => [0x79#8, n ++ (2#2 ++ i)]
  | .orbRbnIndRwiInc n i => [0x79#8, n ++ (3#2 ++ i)]
  | .orbRbnData3 n d => [0x79#8, n ++ (0#1 ++ d)]
  | .cmpi1RwnData4 n d => [0x80#8, d ++ n]
  | .cmpi1RwnMem n mem => [0x82#8, 0xF#4 ++ n, loByte mem, hiByte mem]
  | .cmpi1RwnData16 n d => [0x86#8, 0xF#4 ++ n, loByte d, hiByte d]
  | .cmpi2RwnData4 n d => [0x90#8, d ++ n]
  | .cmpi2RwnMem n mem => [0x92#8, 0xF#4 ++ n, loByte mem, hiByte mem]
  | .cmpi2RwnData16 n d => [0x96#8, 0xF#4 ++ n, loByte d, hiByte d]
  | .cmpd1RwnData4 n d => [0xA0#8, d ++ n]
  | .cmpd1RwnMem n mem => [0xA2#8, 0xF#4 ++ n, loByte mem, hiByte mem]
  | .cmpd1RwnData16 n d => [0xA6#8, 0xF#4 ++ n, loByte d, hiByte d]
  | .cmpd2RwnData4 n d => [0xB0#8, d ++ n]
  | .cmpd2RwnMem n mem => [0xB2#8, 0xF#4 ++ n, loByte mem, hiByte mem]
  | .cmpd2RwnData16 n d => [0xB6#8, 0xF#4 ++ n, loByte d, hiByte d]
  | .negRwn n => [0x81#8, n ++ 0x0#4]
  | .cplRwn n => [0x91#8, n ++ 0x0#4]
  | .negbRbn n => [0xA1#8, n ++ 0x0#4]
  | .cplbRbn n => [0xB1#8, n ++ 0x0#4]
  | .movbzRwnRbm n m => [0xC0#8, m ++ n]
  | .movbsRwnRbm n m => [0xD0#8, m ++ n]
  | .movbzRegMem reg mem => [0xC2#8, reg, loByte mem, hiByte mem]
  | .movbsRegMem reg mem => [0xD2#8, reg, loByte mem, hiByte mem]
  | .movbzMemReg mem reg => [0xC5#8, reg, loByte mem, hiByte mem]
  | .movbsMemReg mem reg => [0xD5#8, reg, loByte mem, hiByte mem]
  | .atomicIrang2 k => [0xD1#8, (0#2 ++ irang2Bits k) ++ 0x0#4]
  | .extrIrang2 k => [0xD1#8, (2#2 ++ irang2Bits k) ++ 0x0#4]
  | .movRwnData4 n d => [0xE0#8, d ++ n]
  | .movbRbnData4 n d => [0xE1#8, d ++ n]
  | .movRwnRwm n m => [0xF0#8, n ++ m]
  | .movbRbnRbm n m => [0xF1#8, n ++ m]
  | .pcallRegCaddr reg caddr => [0xE2#8, reg, loByte caddr, hiByte caddr]
  | .movRegMem reg mem => [0xF2#8, reg, loByte mem, hiByte mem]
  | .movbRegMem reg mem => [0xF3#8, reg, loByte mem, hiByte mem]
  | .movIndRwnMem n mem => [0x84#8, 0x0#4 ++ n, loByte mem, hiByte mem]
  | .movMemIndRwn mem n => [0x94#8, 0x0#4 ++ n, loByte mem, hiByte mem]
  | .movbIndRwnMem n mem => [0xA4#8, 0x0#4 ++ n, loByte mem, hiByte mem]
  | .movbMemIndRwn mem n => [0xB4#8, 0x0#4 ++ n, loByte mem, hiByte mem]
  | .movIndRwmData16Rwn m d n => [0xC4#8, n ++ m, loByte d, hiByte d]
  | .movRwnIndRwmData16 n m d => [0xD4#8, n ++ m, loByte d, hiByte d]
  | .movbIndRwmData16Rbn m d n => [0xE4#8, n ++ m, loByte d, hiByte d]
  | .movbRbnIndRwmData16 n m d => [0xF4#8, n ++ m, loByte d, hiByte d]
  | .diswdt => [0xA5#8, 0x5A#8, 0xA5#8, 0xA5#8]
  | .einit => [0xB5#8, 0x4A#8, 0xB5#8, 0xB5#8]
  | .idle => [0x87#8, 0x78#8, 0x87#8, 0x87#8]
  | .pwrdn => [0x97#8, 0x68#8, 0x97#8, 0x97#8]
  | .srvwdt => [0xA7#8, 0x58#8, 0xA7#8, 0xA7#8]
  | .srst => [0xB7#8, 0x48#8, 0xB7#8, 0xB7#8]
  | .scxtRegData16 reg d => [0xC6#8, reg, loByte d, hiByte d]
  | .scxtRegMem reg mem => [0xD6#8, reg, loByte mem, hiByte mem]
  | .extsSegIrang2 seg k => [0xD7#8, (0#2 ++ irang2Bits k) ++ 0x0#4, seg, 0x00#8]
  | .extsrSegIrang2 seg k => [0xD7#8, (2#2 ++ irang2Bits k) ++ 0x0#4, seg, 0x00#8]
  | .extpPagIrang2 pag k => [0xD7#8, (1#2 ++ irang2Bits k) ++ 0x0#4, pag.extractLsb' 0 8, 0#6 ++ pag.extractLsb' 8 2]
  | .extprPagIrang2 pag k => [0xD7#8, (3#2 ++ irang2Bits k) ++ 0x0#4, pag.extractLsb' 0 8, 0#6 ++ pag.extractLsb' 8 2]
  | .movRegData16 reg d => [0xE6#8, reg, loByte d, hiByte d]
  | .movbRegData8 reg d => [0xE7#8, reg, d, 0x00#8]
  | .movMemReg mem reg => [0xF6#8, reg, loByte mem, hiByte mem]
  | .movbMemReg mem reg => [0xF7#8, reg, loByte mem, hiByte mem]
  | .movIndDecRwmRwn m n => [0x88#8, n ++ m]
  | .movbIndDecRwmRbn m n => [0x89#8, n ++ m]
  | .movRwnIndRwmInc n m => [0x98#8, n ++ m]
  | .movbRbnIndRwmInc n m => [0x99#8, n ++ m]
  | .movRwnIndRwm n m => [0xA8#8, n ++ m]
  | .movbRbnIndRwm n m => [0xA9#8, n ++ m]
  | .movIndRwmRwn m n => [0xB8#8, n ++ m]
  | .movbIndRwmRbn m n => [0xB9#8, n ++ m]
  | .movIndRwnIndRwm n m => [0xC8#8, n ++ m]
  | .movbIndRwnIndRwm n m => [0xC9#8, n ++ m]
  | .movIndRwnIncIndRwm n m => [0xD8#8, n ++ m]
  | .movbIndRwnIncIndRwm n m => [0xD9#8, n ++ m]
  | .movIndRwnIndRwmInc n m => [0xE8#8, n ++ m]
  | .movbIndRwnIndRwmInc n m => [0xE9#8, n ++ m]
  | .bfldlBitoffMask8Data8 bo mask d => [0x0A#8, bo, mask, d]
  | .bfldhBitoffMask8Data8 bo mask d => [0x1A#8, bo, d, mask]
  | .bcmpBitZBitQ zo z qo q => [0x2A#8, qo, zo, q ++ z]
  | .bmovnBitZBitQ zo z qo q => [0x3A#8, qo, zo, q ++ z]
  | .bmovBitZBitQ zo z qo q => [0x4A#8, qo, zo, q ++ z]
  | .borBitZBitQ zo z qo q => [0x5A#8, qo, zo, q ++ z]
  | .bandBitZBitQ zo z qo q => [0x6A#8, qo, zo, q ++ z]
  | .bxorBitZBitQ zo z qo q => [0x7A#8, qo, zo, q ++ z]
  | .jbBitQRel qo q rel => [0x8A#8, qo, rel, q ++ 0x0#4]
  | .jnbBitQRel qo q rel => [0x9A#8, qo, rel, q ++ 0x0#4]
  | .jbcBitQRel qo q rel => [0xAA#8, qo, rel, q ++ 0x0#4]
  | .jnbsBitQRel qo q rel => [0xBA#8, qo, rel, q ++ 0x0#4]
  | .callaCcCaddr cc caddr => [0xCA#8, cc ++ 0x0#4, loByte caddr, hiByte caddr]
  | .callsSegCaddr seg caddr => [0xDA#8, seg, loByte caddr, hiByte caddr]
  | .jmpaCcCaddr cc caddr => [0xEA#8, cc ++ 0x0#4, loByte caddr, hiByte caddr]
  | .jmpsSegCaddr seg caddr => [0xFA#8, seg, loByte caddr, hiByte caddr]
  | .mulRwnRwm n m => [0x0B#8, n ++ m]
  | .muluRwnRwm n m => [0x1B#8, n ++ m]
  | .priorRwnRwm n m => [0x2B#8, n ++ m]
  | .divRwn n => [0x4B#8, n ++ n]
  | .divuRwn n => [0x5B#8, n ++ n]
  | .divlRwn n => [0x6B#8, n ++ n]
  | .divluRwn n => [0x7B#8, n ++ n]
  | .trapTrap7 t => [0x9B#8, t ++ 0#1]
  | .calliCcIndRwn cc n => [0xAB#8, cc ++ n]
  | .callrRel rel => [0xBB#8, rel]
  | .ret => [0xCB#8, 0x00#8]
  | .rets => [0xDB#8, 0x00#8]
  | .retpReg reg => [0xEB#8, reg]
  | .reti => [0xFB#8, 0x88#8]
  | .rolRwnRwm n m => [0x0C#8, n ++ m]
  | .rolRwnData4 n d => [0x1C#8, d ++ n]
  | .rorRwnRwm n m => [0x2C#8, n ++ m]
  | .rorRwnData4 n d => [0x3C#8, d ++ n]
  | .shlRwnRwm n m => [0x4C#8, n ++ m]
  | .shlRwnData4 n d => [0x5C#8, d ++ n]
  | .shrRwnRwm n m => [0x6C#8, n ++ m]
  | .shrRwnData4 n d => [0x7C#8, d ++ n]
  | .ashrRwnRwm n m => [0xAC#8, n ++ m]
  | .ashrRwnData4 n d => [0xBC#8, d ++ n]
  | .jmpiCcIndRwn cc n => [0x9C#8, cc ++ n]
  | .nop => [0xCC#8, 0x00#8]
  | .extsRwmIrang2 m k => [0xDC#8, (0#2 ++ irang2Bits k) ++ m]
  | .extpRwmIrang2 m k => [0xDC#8, (1#2 ++ irang2Bits k) ++ m]
  | .extsrRwmIrang2 m k => [0xDC#8, (2#2 ++ irang2Bits k) ++ m]
  | .extprRwmIrang2 m k => [0xDC#8, (3#2 ++ irang2Bits k) ++ m]
  | .pushReg reg => [0xEC#8, reg]
  | .popReg reg => [0xFC#8, reg]
  | .jmprCcRel cc rel => [cc ++ 0xD#4, rel]
  | .bclrBitQ qo q => [q ++ 0xE#4, qo]
  | .bsetBitQ qo q => [q ++ 0xF#4, qo]

/-- Bytes as little-endian words (R81, R131). -/
def wordsOf : List Byte → List Word
  | l :: h :: rest => wordOf l h :: wordsOf rest
  | _ => []

/-- The words of an instruction, first word first (R131). -/
def encode (i : Instr) : List Word := wordsOf (encodeBytes i)

/-- Decoding a list of words: the first two are read, an absent second word as zero. -/
def decode : List Word → Decoded
  | [] => .nonCanonical
  | [w0] => decodeWords w0 0
  | w0 :: w1 :: _ => decodeWords w0 w1

/-- The length of an instruction in bytes (R132). -/
def Instr.length (i : Instr) : Nat := (encodeBytes i).length

/-- Byte `k` of an instruction given as one number whose bits above `nbits` are 0 (R131). -/
def tableByte (nbits w k : Nat) : Byte := BitVec.ofNat 8 ((w % 2 ^ nbits) >>> (8 * k))

/-- The instruction this decoder reads from the number `w` of `nbits` bits (R131, R143); none where it refuses. -/
def decodeTableWord (nbits w : Nat) : Option Instr :=
  match decodeBytes (tableByte nbits w 0) (tableByte nbits w 1) (tableByte nbits w 2) (tableByte nbits w 3) with
  | .instr i => some i
  | .undefinedOpcode => none
  | .protectionFault => none
  | .nonCanonical => none

end Sys2Proof
end

