-- ==== Sys2Proof/Machine/Bits.lean ====
section
/-! DEFINITION. Bits, bytes and fields of words. Spec: 00_scope.md rules R11 to R15, 20_memory.md rule R81. -/

namespace Sys2Proof.Machine

/-- Bit `n` of a word. -/
def bitOf (w : Word) (n : Nat) : Bool := w.getLsbD n

/-- A word with bit `n` made `b` (n < 16). -/
def withBit (w : Word) (n : Nat) (b : Bool) : Word :=
  if b then w ||| (1#16 <<< n) else w &&& ~~~(1#16 <<< n)

/-- The word with only bit `n` set, or 0. -/
def bitWord (n : Nat) (b : Bool) : Word := if b then 1#16 <<< n else 0

/-- The low byte of a word (R81). -/
def lowByte (w : Word) : Byte := w.setWidth 8

/-- The high byte of a word (R81). -/
def highByte (w : Word) : Byte := (w >>> 8).setWidth 8

/-- The word with this low and this high byte (R81). -/
def wordOfBytes (l h : Byte) : Word := h ++ l

/-- The `len` bits of a word from bit `lo` up, as a number. -/
def fieldNat (w : Word) (lo len : Nat) : Nat := (w.toNat >>> lo) % 2 ^ len

/-- A word that takes `new` where `mask` is 1 and `old` elsewhere. -/
def merge (mask old new : Word) : Word := (old &&& ~~~mask) ||| (new &&& mask)

/-- Is the address or pointer odd (R82)? -/
def isOdd (a : Word) : Bool := a.getLsbD 0

end Sys2Proof.Machine
end

