-- ==== Sys2Proof/Machine/Memory.lean ====
section
/-! DEFINITION. Byte memory as a list of (address, byte) pairs in one canonical form.
Spec: 20_memory.md rules R80, R81, R84, R88; 10_state.md rule R24. -/

namespace Sys2Proof.Machine

/-- What a byte that nothing has written reads as (DESIGN CHOICE, log entry 1; the spec says "undefined" for the IRAM
after power-on, R24, and leaves external contents to the board, R88). -/
def Memory.unlisted : Byte := 0

/-- The byte at address `k`. -/
def Memory.read : List Host.Cell → Nat → Byte
  | [], _ => Memory.unlisted
  | (a, b) :: m, k => if a = k then b else Memory.read m k

/-- The list without its entries for `k`. -/
def Memory.erase : List Host.Cell → Nat → List Host.Cell
  | [], _ => []
  | (a, b) :: m, k => if a = k then Memory.erase m k else (a, b) :: Memory.erase m k

/-- The list with a new entry in address order. -/
def Memory.insert : List Host.Cell → Nat → Byte → List Host.Cell
  | [], k, v => [(k, v)]
  | (a, b) :: m, k, v => if k < a then (k, v) :: (a, b) :: m else (a, b) :: Memory.insert m k v

/-- Write one byte; writing the value of an unlisted byte removes the entry. -/
def Memory.write (m : List Host.Cell) (k : Nat) (v : Byte) : List Host.Cell :=
  if v = Memory.unlisted then Memory.erase m k else Memory.insert (Memory.erase m k) k v

/-- The first cell beyond memory: 2^24 cells for the chip's own addresses (R80), then as many for each of the board's five
banks (R88, R493). -/
def Memory.size : Nat := 6 * 2 ^ 24

/-- The cell of a byte of the board's memory: the bank, and the address as the board sees it (R88, R493). -/
def Memory.boardCell (bank : Fin 5) (seen : Nat) : Nat := (1 + bank.val) * 2 ^ 24 + seen

/-- The canonical form: cells strictly rising and within memory, no entry equal to an unlisted byte. -/
abbrev Memory.wf (m : List Host.Cell) : Prop :=
  m.Pairwise (fun c d => c.1 < d.1) ∧ ∀ c ∈ m, c.1 < Memory.size ∧ c.2 ≠ Memory.unlisted

/-- The little-endian word at address `k` (R81). -/
def Memory.readWord (m : List Host.Cell) (k : Nat) : Word :=
  wordOfBytes (Memory.read m k) (Memory.read m (k + 1))

/-- Write a little-endian word at address `k` (R81). -/
def Memory.writeWord (m : List Host.Cell) (k : Nat) (v : Word) : List Host.Cell :=
  Memory.write (Memory.write m k (lowByte v)) (k + 1) (highByte v)

end Sys2Proof.Machine
end

