-- ==== Sys2Proof/Config.lean ====
section
/-! DEFINITION. What the manual leaves to the implementation: the two devices, and the free values.
Spec: 00_scope.md rules R4 and R7, 92_eei_decisions.md section 2, 93_implementation_defined.md. -/

namespace Sys2Proof

/-- The two devices of the manual; they differ in IRAM size, the SSC/SSP, the bootstrap loader and some interrupt
nodes (R4, parameter `DEVICE`). -/
inductive Device where
  | c165
  | c163
deriving DecidableEq, Repr

namespace Config

/-- Free value number `n`: the manual says that some word results and not which one (93_implementation_defined.md,
treatment "any value"). There is no body, so nothing can be proved of it. The model applies it to a counter of State
that every use advances. -/
opaque freeWord : Nat → BitVec 16

/-- Free count number `n`: the CPU clocks beyond two that a step of the CPU takes (decision D1, R731). It has no body
either. -/
opaque extraClocks : Nat → Nat

end Config

end Sys2Proof
end

