-- ==== Sys2Proof/Machine/State.lean ====
section
/-! DEFINITION. The state of the machine as plain data, the reasons a step can stop, and the state after reset.
Spec: 10_state.md (registers R20..R58, hidden state R59, reset values R60), 61_ports.md to 64_serial.md (peripheral
registers and hidden state), 70_reset_and_hazards.md (reset, power states, hazards). -/

namespace Sys2Proof.Machine

/-! ## Reasons a step can stop -/

/-- A machine-level stop that the spec itself calls `stuck`. -/
inductive Fault where
  /-- Raised by the bootstrap loader when the host's zero byte is longer than T6 can measure: "ASC0 cannot be
  initialized properly" and the loader never delivers its 32 bytes (R693, U31). Safe. -/
  | bootstrapStuck
deriving DecidableEq, Repr

/-- Situations that 93_implementation_defined.md puts outside the model's domain (treatment `refuse`). Every one is
safe: the model stops where the hardware would go on in a way the manual does not give. -/
inductive Refusal where
  /-- Raised by `exec` for an instruction that has no meaning yet. Safe. -/
  | notModelled (mnemonic : String)
  /-- A fetch in the enabled ROM area where the device has no ROM byte (U1, R86, R675). Raised by the fetch. Safe. -/
  | fetchFromAbsentRom
  /-- A write to the enabled internal ROM area (U2, R86). Raised by a data write. Safe. -/
  | writeToRom
  /-- A write to the reserved internal range (U3, R85). Raised by a data write. Safe. -/
  | writeToReserved
  /-- A GPR address outside the IRAM (U4, R25). Raised by every GPR access. Safe. -/
  | gprOutsideIram
  /-- A stack access whose physical address is outside the IRAM (U5, R98). Raised by push and pop. Safe. -/
  | stackOutsideIram
  /-- STKSZ = 101b or 110b, or 100b on the C163 (U6, R98). Raised by push and pop. Safe. -/
  | reservedStackSize
  /-- Sequential execution across a memory-area or segment boundary, or a straddling instruction (U7, R90). Raised by
  the fetch. Safe. -/
  | sequentialBoundary
  /-- An instruction fetch from the SFR, ESFR, reserved or X-Peripheral areas (U8, R85, R90). Raised by the fetch. Safe. -/
  | fetchFromRegisters
  /-- An external address in two windows that are not a defined pair (U9, R474). Raised by an external access. Safe. -/
  | windowOverlap
  /-- Use of the ROM mapping while, or too soon after, it is changed (U10, R717). Raised by the instruction that
  changes it, by fetches and by data accesses. Safe. -/
  | romRemapped
  /-- A defined opcode with non-canonical fixed bits (U11, R147). Raised by the fetch. Safe. -/
  | nonCanonicalEncoding
  /-- MUL or DIV with non-zero status bits in MDC (U12, R200). Raised by the multiply and divide meanings. Safe. -/
  | mdcNotInitialised
  /-- RETI with MULIP = 1 in the running PSW: the multiply or divide it would resume is not described (U15, R305).
  Raised by RETI. Safe. -/
  | mulipReturned
  /-- UNDOPC, PRTFLT or ILLINA while a class A trap routine is in service (U16, R392). Raised by the fetch. Safe. -/
  | trapLostInClassA
  /-- Two enabled interrupt nodes with equal level and group (U17, R347, R363). Raised by the arbitration. Safe. -/
  | equalPriorities
  /-- A program write to P0L/P0H or P1L/P1H while the bus owns the port (U20, R431, R433). Raised by the write. Safe. -/
  | portOwnedByBus
  /-- ADDRSELx.RGSZ = 11xxb in an active window (U21, R473). Raised by an external access. Safe. -/
  | reservedWindowSize
  /-- A reserved timer code in a timer that runs (U22, R526, R530, R531, R541, R543). Raised at the first clock event with the
  code and the run bit TxR set; with TxR = 0 the timer stands still and nothing stops (log entry 64). Safe. -/
  | reservedTimerMode
  /-- S0M = 010b or 110b (U23, R592). Raised at the first clock event with S0R set and the code set
  (log entry 30). Safe. -/
  | reservedSerialMode
  /-- A write to SSCBR while the SSC is enabled, or a transfer with SSCBR = 0 (U26, R626). Raised by the write or by
  the transfer's start. Safe. -/
  | sscBaudRate
  /-- SSCBM = 0, "Reserved. Do not use this combination." (R621). Raised by the start of a transfer. Safe. -/
  | reservedSscWidth
  /-- SSPCKS = 111b without the parameter `SSP_CKS7` (U28, R651). Raised by the start of a transfer. Safe. -/
  | reservedSspClock
  /-- A reserved PORT0 line low at the end of a hardware reset (U29, R676). Raised by the reset. Safe. -/
  | reservedResetPins
  /-- Emulation or adapt mode selected at a hardware reset (U30, R677). Raised by the reset. Safe. -/
  | emulationMode
  /-- An instruction fetch from the ROM area in bootstrap loader mode (U32, R694). Raised by the fetch. Safe. -/
  | fetchFromBootRom
  /-- A popping instruction immediately after an explicit write of SP (U34, R713). Raised by POP and the returns. Safe. -/
  | popAfterSpWrite
  /-- An instruction that changes the window it was fetched from, or a fetch from a changed window before the next
  absolute branch (U35, R718). Raised by the instruction and by the fetch. Safe. -/
  | busWindowChanged
  /-- The two launch premises on programs that write their own code (R110, D9). Raised by the fetch of a recently
  stored byte and by a store into a cached jump target. Safe. -/
  | codeModified
deriving DecidableEq, Repr

/-! ## The CPU's registers -/

/-- The CPU's special function registers and the instruction pointer (R26..R50, R381). -/
structure Cpu where
  ip : Word        -- R26
  csp : Word       -- R27
  psw : Word       -- R29
  syscon : Word    -- R39
  dpp0 : Word      -- R42
  dpp1 : Word
  dpp2 : Word
  dpp3 : Word
  cp : Word        -- R43
  sp : Word        -- R44
  stkov : Word     -- R45
  stkun : Word     -- R46
  mdh : Word       -- R48
  mdl : Word       -- R49
  mdc : Word       -- R50
  tfr : Word       -- R381
deriving DecidableEq, Repr

/-! ## External bus controller -/

/-- The registers of the external bus controller (R470..R475). -/
structure Bus where
  buscon0 : Word
  buscon1 : Word
  buscon2 : Word
  buscon3 : Word
  buscon4 : Word
  addrsel1 : Word
  addrsel2 : Word
  addrsel3 : Word
  addrsel4 : Word
  rp0h : Word
deriving DecidableEq, Repr

/-- A bus cycle as it stands on the pins (R88, R102, R480, R485, R495): the board's devices and the host see it. -/
structure BusCycle where
  window : Option Nat  -- the controlling BUSCONx; none: an X-Peripheral
  addr : PhysAddr      -- the full address
  lines : Nat          -- how many of its lines are driven (R88, R681)
  bus16 : Bool         -- the data bus is 16 bits wide
  mux : Bool           -- address and data share PORT0 (R472)
  wide : Bool          -- both bytes of the word take part
  write : Option Word  -- the data of a write
  read : Option Word   -- the data of an X-Peripheral's read, where the pins show it (R40)
  strobe : Bool        -- RD or WR was active: an X-Peripheral's cycle shows neither (R450, R495)
  clocks : Nat         -- its length in CPU clocks, the wait for READY apart (R485, R496)
deriving DecidableEq, Repr

/-- Hidden state of the external bus controller (R495, R500, R501, R504), with the words behind the instruction that the
prefetcher may still read (R90, R714) and the cycles that the board has seen (R480). -/
structure Ebc where
  held : Bool              -- the bus is lent to another master (R501)
  breqLow : Bool           -- BREQ is driven low (R501)
  hldenOnce : Bool         -- PSW.HLDEN has been 1 since reset (R500)
  lastAddr : PhysAddr      -- last address on the bus (R495)
  bheLow : Bool            -- level of BHE at the last access is low (R481, R495)
  cs : Option Nat          -- the chip select line driven low, if any (R492)
  cycle : Option BusCycle  -- the last bus cycle
  cycles : List BusCycle   -- the external cycles of the running step of the CPU, in order
  stepCycles : List BusCycle -- the external cycles of the CPU's last step: what the board saw of it
  ahead : List PhysAddr    -- the words that the prefetcher may still read
deriving DecidableEq, Repr

/-! ## Ports and pins -/

/-- Port output latches, direction and open drain registers, and EXICON (R425, R376). -/
structure Ports where
  p0l : Word
  p0h : Word
  p1l : Word
  p1h : Word
  p2 : Word
  p3 : Word
  p4 : Word
  p6 : Word
  dp0l : Word
  dp0h : Word
  dp1l : Word
  dp1h : Word
  dp2 : Word
  dp3 : Word
  dp4 : Word
  dp6 : Word
  odp2 : Word
  odp3 : Word
  odp6 : Word
  exicon : Word
deriving DecidableEq, Repr

/-- `PIN_INPUT`: the level the outside world puts on every pin the chip does not drive (R421, R451). Bit y of a word
is line y of that port. -/
structure Pins where
  p0l : Word
  p0h : Word
  p1l : Word
  p1h : Word
  p2 : Word
  p3 : Word
  p4 : Word
  p5 : Word
  p6 : Word
  p6open : Word   -- the lines of Port 6 that nothing outside drives: a weak pull-up inside wins there (R444)
  nmi : Bool
  ready : Bool
  rstin : Bool
deriving DecidableEq, Repr

/-- `RESET_PINS`: the levels latched at the end of a reset (R676). `port0` holds P0H in bits 15..8 and P0L in bits
7..0. -/
structure ResetPins where
  ea : Bool
  port0 : Word
  owe : Bool
deriving DecidableEq, Repr

/-! ## Timers -/

/-- The general purpose timers (R521, R526, R531, R541, R546) with their hidden prescalers, sample counters and
previous pin samples (R524, R525, R59). A prescaler holds the clocks left to the next count, none while its phase is
not fixed. -/
structure Gpt where
  t2 : Word
  t3 : Word
  t4 : Word
  t5 : Word
  t6 : Word
  caprel : Word
  t2con : Word
  t3con : Word
  t4con : Word
  t5con : Word
  t6con : Word
  psc2 : Option Nat
  psc3 : Option Nat
  psc4 : Option Nat
  psc5 : Option Nat
  psc6 : Option Nat
  sample1 : Nat    -- clocks to the next GPT1 sample point, of 8
  sample2 : Nat    -- clocks to the next GPT2 sample point, of 4
  t2in : Bool      -- levels at the previous sample point
  t3in : Bool
  t4in : Bool
  t5in : Bool
  t6in : Bool
  capin : Bool
  eud : Word       -- levels of T2EUD to T6EUD at the previous sample point, in bits 2 to 6 (R59)
deriving DecidableEq, Repr

/-- The watchdog timer (R580..R584) and its hidden latches (R59). -/
structure Wdt where
  wdt : Word
  wdtcon : Word
  psc : Option Nat     -- clocks to the next count, none while the phase is not fixed (R582)
  disabled : Bool      -- `wdt_disabled`
  disLocked : Bool     -- `diswdt_locked`
deriving DecidableEq, Repr

/-! ## Serial interfaces -/

/-- An asynchronous frame under reception (R599): the 16-times oversampling state and the receive shift register. -/
structure AscFrame where
  tick : Nat           -- samples taken in the current bit time, of 16
  highs : Nat          -- how many of its 7th, 8th and 9th sample were high
  bits : List Bool     -- the bits decided so far, the start bit first
deriving DecidableEq, Repr

/-- The asynchronous/synchronous serial channel ASC0 (R590..R604). -/
structure Asc where
  s0con : Word
  s0rbuf : Word
  bgTimer : BitVec 13      -- `asc.bg_timer` (R595)
  bgReload : BitVec 13     -- S0BRL
  reloadPending : Bool     -- a reload waits for S0R = 1 (R595)
  half : Bool              -- the divide-by-2 in front of the baud rate generator
  bitDiv : Nat             -- serial clock pulses since the last bit boundary
  tbuf : BitVec 9          -- `asc.tbuf` (R593)
  tbufFull : Bool          -- `asc.tbuf_full`
  rbufUnread : Bool        -- `asc.rbuf_unread` (R594)
  tx : List Bool           -- bits still to be driven, in time order (R597)
  txBusy : Bool            -- a frame is in the transmit shift register
  txd : Bool               -- alternate output of P3.10
  rxdOut : Bool            -- alternate output of P3.11 (synchronous transmission, R601)
  rx : Option AscFrame     -- an asynchronous frame under reception (R599)
  rxPrev : Bool            -- previous sample of the receiver's input
  brsPhase : Nat           -- underflows since the last one that S0BRS = 1 left out (R595)
  rxActive : Bool          -- a synchronous reception is running (R601)
  rxCount : Nat            -- bits received in a synchronous reception (R601)
  rxShift : Byte           -- receive shift register of the synchronous mode
deriving DecidableEq, Repr

/-- The synchronous serial channel SSC of the C165 (R620..R628). -/
structure Ssc where
  en : Bool            -- SSCEN
  ms : Bool            -- SSCMS
  ctl : Word           -- `ssc.ctl`, laid out per R621
  stat : Word          -- `ssc.stat`, laid out per R622
  tb : Word            -- SSCTB
  tbFull : Bool        -- `ssc.tb_full`
  rb : Word            -- SSCRB
  rbUnread : Bool      -- "SSCRB not read" (R660)
  br : Word            -- reload value of SSCBR
  timer : Word         -- baud rate timer
  half : Bool          -- the divide-by-2 in front of the baud rate generator
  active : Bool        -- a frame is in the shift register
  shiftOut : Word      -- bits to send, right aligned
  shiftIn : Word       -- bits received so far
  bit : Nat            -- bits already latched in this frame
  lineOut : Bool       -- alternate data output
  clkPhase : Bool      -- master: SCLK is at its active level
  began : Bool         -- master: the first bit of the frame is on the line
  sclk : Bool          -- previous sample of SCLK (slave)
  dataPrev : Bool      -- previous sample of the data input
  edgeAge : Option Nat -- clocks since the last latching edge while the phase check is open (R627)
  edgeData : Bool      -- the sample against which the phase check compares
  gap : Option Nat     -- clocks since the last leading edge seen by the slave (R627)
deriving DecidableEq, Repr

/-- A transfer of the SSP in progress (R654). -/
structure SspTransfer where
  out : List Bool      -- bits still to be sent, in time order
  toRead : Nat         -- bits still to be clocked in
  shift : Byte         -- bits clocked in so far
  clocks : Nat         -- CPU clocks left of the current phase
  lead : Bool          -- the half bit time before the first bit is running (R655)
  tail : Bool          -- the half bit time after the last bit is running
  isRead : Bool        -- a read operation: SSPRW was 1 at its start (R654)
deriving DecidableEq, Repr

/-- The synchronous serial port SSP of the C163 (R650..R657). -/
structure Ssp where
  con0 : Word
  con1 : Word
  rtb : Word
  tbh : Word
  b1Loaded : Bool          -- `ssp.b1_loaded`
  b2Loaded : Bool          -- `ssp.b2_loaded`
  ceActive : Bool          -- the selected chip enable lines are active (R655)
  readDone : Bool          -- a read transfer has completed (R654)
  dat : Bool               -- level driven on SSPDAT while transmitting
  transfer : Option SspTransfer
deriving DecidableEq, Repr

/-! ## Interrupts, hidden CPU state and hazards -/

/-- The 28 interrupt nodes (R340), in the order of that table. -/
inductive IrqNode where
  | cc8 | cc9 | cc10 | cc11 | cc12 | cc13 | cc14 | cc15
  | t2 | t3 | t4 | t5 | t6 | cr
  | s0t | s0tb | s0r | s0e
  | ssct | sscr | ssce
  | xp0 | xp1 | xp2 | xp3
  | cc29 | cc30 | cc31
deriving DecidableEq, Repr

/-- A page or segment override of the DPP scheme (R93). -/
inductive Override where
  | none
  | page (p : BitVec 10)
  | segment (sg : Byte)
deriving DecidableEq, Repr

/-- The extension sequence state of ATOMIC and the EXTx instructions (R329, R59). -/
structure Ext where
  count : Nat
  esfr : Bool
  override : Override
deriving DecidableEq, Repr

/-- The control registers as they were when the last instruction began: the "old values" that the next instruction
still uses (pending register updates of R59, R710..R718). -/
structure Prev where
  cpu : Cpu
  bus : Bus
  ports : Ports
deriving DecidableEq, Repr

/-- Memory areas in which code can lie, for the rule on sequential crossing (R90): the segment, and which memory
answers. -/
inductive CodeArea where
  | iram
  | rom (segment : Nat)
  | external (segment : Nat)
deriving DecidableEq, Repr

/-- The count and capture registers of the timer units, whose write by the CPU has priority over a timer event (R522). -/
inductive TimerReg where
  | t2 | t3 | t4 | t5 | t6 | caprel
deriving DecidableEq, Repr

/-- A write of a timer register whose step has not ended (R522): the register, and its value as the timer events in the clocks
of that step see it, without the write. -/
structure TimerWrite where
  reg : TimerReg
  before : Word
deriving DecidableEq, Repr

/-- What the most recent instruction (or entry) did that the next step must know (R59, R713, R715, R372, R383), or that the
clocks of its own step must know (R522). Cleared when the next instruction begins. -/
structure Marks where
  pswWritten : Bool        -- PSW was written explicitly (R715)
  spWritten : Bool         -- SP was written explicitly (R713)
  stackDelay : Bool        -- `stack_trap_delay` (R383, R384)
  irqHold : Bool           -- no interrupt or PEC transfer at this boundary (after RETI R372, log entry 65; deferred D24)
  branched : Bool          -- IP was loaded by the instruction
  farBranch : Bool         -- JMPS, CALLS, RETS, RETI or TRAP (R111, R717, R718)
  extStarted : Bool        -- the instruction started an extension sequence (R329)
  cacheJump : Bool         -- a taken cache jump has led to IP, from where no instruction has been fetched yet (R110, R111)
  stores : List Nat        -- the byte addresses of memory it wrote (R110)
  romRead : Bool           -- it read an operand in the enabled ROM area (R717, U10)
  timerWrite : Option TimerWrite -- it wrote a timer register, and its clocks have not all passed (R522)
deriving DecidableEq, Repr

/-- The parts of the ROM mapping whose owner a SYSCON write has changed (R717): the lower halves of segments 0 and 1,
and the expansion from 01'8000h. -/
structure RemapSet where
  low0 : Bool
  low1 : Bool
  high1 : Bool
deriving DecidableEq, Repr

/-- Longer lived hazard state. -/
structure Hazard where
  seqArea : Option CodeArea      -- the area of the last instruction when it did not branch (R90)
  history : List (List Nat)      -- stores of the last four instructions since a taken branch (R110)
  cacheTargets : List Nat        -- cells of the cache jumps' targets since the last far branch (R110), see `cachedTargets`
  codeRemap : RemapSet           -- areas not yet usable for code (R717)
  dataRemap : RemapSet           -- areas not yet usable for data (R717)
  dppStale : List Nat            -- DPPs not rewritten since the remapping (R717)
  busChanged : List Nat          -- windows changed since the last far branch (R718)
  cacheBroken : Bool             -- a store has hit a cached jump target (R110): the next fetch refuses
deriving DecidableEq, Repr

/-- What caused a reset (R670). -/
inductive ResetCause where
  | hardware
  | software
  | watchdog
deriving DecidableEq, Repr

/-- The power state (R700) with the internal reset condition (R671) and the bootstrap loader's wait (R690): `loading n`
has stored n of the 32 bytes. -/
inductive Power where
  | running
  | idle
  | powerDown
  | inReset (cause : ResetCause)
  | awaitZeroByte
  | loading (n : Nat)
deriving DecidableEq, Repr

/-- What hangs on a READY controlled bus cycle (R486): nothing, the next instruction, or the PEC transfer of a node. -/
inductive Stall where
  | none
  | instr
  | pec (w : IrqNode)
deriving DecidableEq, Repr

/-- Hidden system state (R59). -/
structure Sys where
  power : Power
  stall : Stall
  einitDone : Bool     -- `einit_done`
  inA : Bool           -- class A trap routine in service (R390)
  inB : Bool           -- class B trap routine in service (R390)
  bsl : Bool           -- bootstrap loader mode (R690)
  nmiSample : Bool     -- previous sample of pin NMI (R382)
  exSample : Word      -- previous samples of the EXnIN pins on Port 2 (R374)
  clockLost : Bool     -- C163: running on the PLL base frequency (R684)
deriving DecidableEq, Repr

/-- What stands at a region of the board's address space (R88): memory, memory that ignores writes, or a device that
answers each read as it likes and takes writes as bus cycles. -/
inductive RegionKind where
  | ram
  | rom
  | device
deriving DecidableEq, Repr

/-- A region of the board: the window that selects it (none: any window), and its place among the addresses that the
driven lines distinguish (R88, R493). -/
structure Region where
  window : Option Nat
  low : Nat
  size : Nat
  kind : RegionKind
deriving DecidableEq, Repr

/-- The host parameters that do not change while the machine runs (92_eei_decisions.md section 2). `banks` and `regions`
are `EXT_BUS` (R88): the bank of memory behind each window, and the regions of another kind than RAM. The four parameters
behind `device` are the model's own: they say which of two rules of the spec the chip follows where these differ and no
ruling chooses (DESIGN CHOICE, log entries 42, 44 and 65), so that a claim for every board is a claim for both readings. -/
structure Board where
  device : Device                       -- `DEVICE`
  absentNode : Option IrqNode           -- a node that a C163 lacks beside the seven that R343 names (R3, R342)
  spareRegisters : Bool                 -- C163: the registers that R57 gives to absent nodes exist (R53, R57; else R343)
  oneAfterReti : Bool                   -- an instruction runs after RETI before a request is accepted (R372; else R305)
  flatCodeInCsp : Bool                  -- with SGTDIS = 1 code is fetched from segment CSP (R366; else R28: from segment 0)
  rom : Option (List Byte)              -- `ROM_IMAGE`
  resetPins : ResetPins                 -- `RESET_PINS`
  sspCepHigh : Bool                     -- `SSP_CEP_SENSE`: SSPCEPx = 1 selects an active-high chip enable
  sspCks7 : Option Nat                  -- `SSP_CKS7`: clocks per bit for SSPCKS = 111b
  banks : Vector (Fin 5) 5              -- `EXT_BUS`: the bank behind the window of BUSCONx
  regions : List Region                 -- `EXT_BUS`: ROMs and devices; everything else is RAM
deriving DecidableEq, Repr

/-- One access of another master that has the bus (R496, R501): it writes a byte of the board's memory, or, with
XPER-SHARE = 1, reads or writes a byte or a word of the SSP's window. -/
inductive MasterAccess where
  | write (bank : Fin 5) (a : PhysAddr) (b : Byte)
  | sspRead (offset : Byte) (wide : Bool)
  | sspWrite (offset : Byte) (wide : Bool) (v : Word)
deriving DecidableEq, Repr

/-- What the outside world does between two steps of the chip (R5, R9, R10, R451; D1). -/
inductive Event where
  /-- Nothing: the chip makes its next step, a clock or a step of the CPU. -/
  | pass
  /-- New levels on the input pins (R421, R451). -/
  | setPins (p : Pins)
  /-- New levels for the next reset (R676). -/
  | setResetPins (p : ResetPins)
  /-- A device of the board changes a byte of its memory (R88). -/
  | boardWrite (bank : Fin 5) (a : PhysAddr) (b : Byte)
  /-- Another master that has the bus makes an access (R496, R501). -/
  | master (m : MasterAccess)
  /-- The bootstrap loader has measured the host's zero byte: `t6` counts of 4 CPU clocks (R691, R693). -/
  | bslZeroByte (t6 : Nat)
  /-- The bootstrap loader receives a data byte (R691). -/
  | bslByte (b : Byte)
  /-- `CLOCK_FAIL`: the input clock is lost (C163, R684, D30). -/
  | clockFail
  /-- A pending interrupt or PEC request is not accepted at the next boundary (D24). -/
  | deferInterrupts
deriving DecidableEq, Repr

/-- The state of the machine. Five fields are the model's own. `clocks`: the CPU clocks that pass before the CPU's next
step (D1, R731). `agenda`: what the outside does next, in order, interleaved with the chip's steps (00_scope.md rule R10,
D24). `answers`: what the board's devices answer to the next reads (R88, R106). `gaps`: what another master does in the
next gaps between two bus cycles of one instruction (R109, R501). `free`: the number of free values used. -/
structure State where
  cpu : Cpu
  bus : Bus
  ebc : Ebc
  ports : Ports
  pins : Pins
  gpt : Gpt
  wdt : Wdt
  asc : Asc
  ssc : Ssc
  ssp : Ssp
  ic : Vector Byte 28       -- the 28 interrupt control registers, by node (R345)
  pecc : Vector Word 8      -- PECC0..PECC7 (R358)
  ext : Ext
  sys : Sys
  prev : Prev
  marks : Marks
  hz : Hazard
  board : Board
  mem : List Host.Cell      -- IRAM and external memory, canonical (R84, R88)
  clocks : Nat
  agenda : List Event
  answers : List Word
  gaps : List (List MasterAccess)
  free : Nat
deriving DecidableEq, Repr

/-! ## Reset values -/

/-- CPU registers after reset (R60): SYSCON is filled in from the reset pins (R683). -/
def Cpu.reset : Cpu :=
  { ip := 0, csp := 0, psw := 0, syscon := 0, dpp0 := 0, dpp1 := 1, dpp2 := 2, dpp3 := 3,
    cp := 0xFC00, sp := 0xFC00, stkov := 0xFA00, stkun := 0xFC00, mdh := 0, mdl := 0, mdc := 0, tfr := 0 }

/-- Bus registers after reset (R60): BUSCON0 and RP0H are filled in from the reset pins (R683). -/
def Bus.reset : Bus :=
  { buscon0 := 0, buscon1 := 0, buscon2 := 0, buscon3 := 0, buscon4 := 0,
    addrsel1 := 0, addrsel2 := 0, addrsel3 := 0, addrsel4 := 0, rp0h := 0 }

/-- The bus controller's hidden state during a reset (R504). -/
def Ebc.reset : Ebc :=
  { held := false, breqLow := false, hldenOnce := false, lastAddr := 0, bheLow := false, cs := none, cycle := none
    cycles := [], stepCycles := [], ahead := [] }

/-- The same at the end of a reset: CS0 is active from an external start on, before the first access (R492, R685). -/
def Ebc.resetWith (p : ResetPins) : Ebc := { Ebc.reset with cs := if p.ea then none else some 0 }

/-- Ports after reset: every latch, direction and open drain bit 0 (R425). -/
def Ports.reset : Ports :=
  { p0l := 0, p0h := 0, p1l := 0, p1h := 0, p2 := 0, p3 := 0, p4 := 0, p6 := 0,
    dp0l := 0, dp0h := 0, dp1l := 0, dp1h := 0, dp2 := 0, dp3 := 0, dp4 := 0, dp6 := 0,
    odp2 := 0, odp3 := 0, odp6 := 0, exicon := 0 }

/-- All input pins high: the board pulls nothing low, and leaves Port 6 open (DESIGN CHOICE, log entry 5: `PIN_INPUT` is
the host's). READY is low, so that a READY controlled cycle ends (same entry). -/
def Pins.idleHigh : Pins :=
  { p0l := 0xFF, p0h := 0xFF, p1l := 0xFF, p1h := 0xFF, p2 := 0xFF00, p3 := 0xBFFF, p4 := 0xFF, p5 := 0xFC00,
    p6 := 0xFF, p6open := 0xFF, nmi := true, ready := false, rstin := true }

/-- Timers after reset (R521, R60). The input samples start at the level of open, high pins (log entry 6). -/
def Gpt.reset : Gpt :=
  { t2 := 0, t3 := 0, t4 := 0, t5 := 0, t6 := 0, caprel := 0,
    t2con := 0, t3con := 0, t4con := 0, t5con := 0, t6con := 0,
    psc2 := none, psc3 := none, psc4 := none, psc5 := none, psc6 := none, sample1 := 8, sample2 := 4,
    t2in := true, t3in := true, t4in := true, t5in := true, t6in := true, capin := true, eud := 0x007C }

/-- The watchdog after a reset: 0000h, enabled, the first count two clocks later (R582, R686). -/
def Wdt.reset (wdtcon : Word) : Wdt :=
  { wdt := 0, wdtcon := wdtcon, psc := some 2, disabled := false, disLocked := false }

/-- ASC0 after reset (R590, R660). -/
def Asc.reset : Asc :=
  { s0con := 0, s0rbuf := 0, bgTimer := 0, bgReload := 0, reloadPending := false, half := false, bitDiv := 0,
    tbuf := 0, tbufFull := false, rbufUnread := false, tx := [], txBusy := false, txd := true, rxdOut := true,
    rx := none, rxPrev := true, brsPhase := 0, rxActive := false, rxCount := 0, rxShift := 0 }

/-- SSC after reset (R620, R660). -/
def Ssc.reset : Ssc :=
  { en := false, ms := false, ctl := 0, stat := 0, tb := 0, tbFull := false, rb := 0, rbUnread := false,
    br := 0, timer := 0, half := false, active := false, shiftOut := 0, shiftIn := 0, bit := 0, lineOut := true,
    clkPhase := false, began := false, sclk := true, dataPrev := true, edgeAge := none, edgeData := true, gap := none }

/-- SSP after reset (R650, R660). -/
def Ssp.reset : Ssp :=
  { con0 := 0, con1 := 0, rtb := 0, tbh := 0, b1Loaded := false, b2Loaded := false, ceActive := false,
    readDone := false, dat := true, transfer := none }

/-- No extension sequence (R60). -/
def Ext.idle : Ext := { count := 0, esfr := false, override := .none }

/-- No pending mark. -/
def Marks.clear : Marks :=
  { pswWritten := false, spWritten := false, stackDelay := false, irqHold := false, branched := false,
    farBranch := false, extStarted := false, cacheJump := false, stores := [], romRead := false,
    timerWrite := none }

/-- No area remapped. -/
def RemapSet.empty : RemapSet := { low0 := false, low1 := false, high1 := false }

/-- No pending hazard (R60). -/
def Hazard.clear : Hazard :=
  { seqArea := none, history := [], cacheTargets := [], codeRemap := RemapSet.empty, dataRemap := RemapSet.empty,
    dppStale := [], busChanged := [], cacheBroken := false }

/-- Hidden system state after a reset (R60). -/
def Sys.reset : Sys :=
  { power := .running, stall := .none, einitDone := false, inA := false, inB := false, bsl := false, nmiSample := true,
    exSample := 0xFF00, clockLost := false }

/-- The board of the reset state: a ROMless C165 started from external memory with no pull-down on PORT0, and RAM
everywhere, the same behind every window (DESIGN CHOICE, log entry 2). As a C163 it has the 20 nodes and the 25 protected bits
that R3 counts (DESIGN CHOICE, log entry 44); an instruction runs after RETI as R372 says (DESIGN CHOICE, log entry 65); with
SGTDIS = 1 code comes from segment 0 as R28, R92 and R94 say (DESIGN CHOICE, log entry 42). -/
def Board.initial : Board :=
  { device := .c165, absentNode := some .cc29, spareRegisters := true, oneAfterReti := true,
    flatCodeInCsp := false, rom := none, resetPins := { ea := false, port0 := 0xFFFF, owe := true }, sspCepHigh := true, sspCks7 := none,
    banks := Vector.replicate 5 0, regions := [] }

/-- SYSCON from the reset pins (R683). -/
def resetSyscon (p : ResetPins) : Word :=
  let wrcfg : Word := if p.port0.getLsbD 8 then 0 else 0x0080
  if p.ea then 0x0400 ||| wrcfg else (if p.port0.getLsbD 7 then 0 else 0x0200) ||| wrcfg

/-- BUSCON0 from the reset pins (R683). -/
def resetBuscon0 (p : ResetPins) : Word :=
  if p.ea then 0 else 0x0600 ||| (p.port0 &&& 0x00C0)

/-- RP0H from the reset pins: the level of P0H.7..P0H.0 (R475). -/
def resetRp0h (p : ResetPins) : Word := p.port0 >>> 8

/-- The CPU registers after a reset with these pins. -/
def Cpu.resetWith (p : ResetPins) : Cpu := { Cpu.reset with syscon := resetSyscon p }

/-- The bus registers after a reset with these pins. -/
def Bus.resetWith (p : ResetPins) : Bus := { Bus.reset with buscon0 := resetBuscon0 p, rp0h := resetRp0h p }

/-- The machine right after a power-on reset (R60, R674). Memory lists nothing: what an unlisted byte reads as is
`Memory.unlisted` (log entry 1). -/
def State.reset : State :=
  { cpu := Cpu.resetWith Board.initial.resetPins
    bus := Bus.resetWith Board.initial.resetPins
    ebc := Ebc.resetWith Board.initial.resetPins
    ports := Ports.reset
    pins := Pins.idleHigh
    gpt := Gpt.reset
    wdt := Wdt.reset 0
    asc := Asc.reset
    ssc := Ssc.reset
    ssp := Ssp.reset
    ic := Vector.replicate 28 0
    pecc := Vector.replicate 8 0
    ext := Ext.idle
    sys := Sys.reset
    prev := { cpu := Cpu.resetWith Board.initial.resetPins, bus := Bus.resetWith Board.initial.resetPins,
              ports := Ports.reset }
    marks := Marks.clear
    hz := Hazard.clear
    board := Board.initial
    mem := []
    clocks := 0
    agenda := []
    answers := []
    gaps := []
    free := 0 }

end Sys2Proof.Machine
end

