-- ==== Sys2Proof/Machine/BusControl.lean ====
section
/-! DEFINITION. The external bus controller's choice of a bus configuration. Spec: 62_external_bus.md rules R471 to
R475, R478, R490 to R492; 20_memory.md rule R88. -/

namespace Sys2Proof.Machine

/-- BUSCONx (R471). -/
def busconOf (b : Bus) (x : Nat) : Word :=
  match x with
  | 0 => b.buscon0
  | 1 => b.buscon1
  | 2 => b.buscon2
  | 3 => b.buscon3
  | _ => b.buscon4

/-- ADDRSELx, x = 1..4 (R473). -/
def addrselOf (b : Bus) (x : Nat) : Word :=
  match x with
  | 1 => b.addrsel1
  | 2 => b.addrsel2
  | 3 => b.addrsel3
  | _ => b.addrsel4

/-- BUSACTx (R471). -/
def busActive (b : Bus) (x : Nat) : Bool := bitOf (busconOf b x) 10

/-- "The external bus interface is enabled as long as at least one of the BUSCON registers has its BUSACT bit set"
(R478, decision D13). -/
def busEnabled (b : Bus) : Bool :=
  busActive b 0 || busActive b 1 || busActive b 2 || busActive b 3 || busActive b 4

/-- BTYP of BUSCONx: bit 1 says 16-bit, bit 0 says multiplexed (R471). -/
def busDemultiplexed (b : Bus) (x : Nat) : Bool := busActive b x && !bitOf (busconOf b x) 6

/-- Some enabled BUSCONx selects a demultiplexed mode: PORT1 is the address bus (R433, R472). -/
def busUsesPort1 (b : Bus) : Bool :=
  busDemultiplexed b 0 || busDemultiplexed b 1 || busDemultiplexed b 2 || busDemultiplexed b 3 || busDemultiplexed b 4

/-- BUSCONx is enabled in a mode that uses P0H: every mode but 8-bit demultiplexed (R430, R472). -/
def busModeUsesP0h (b : Bus) (x : Nat) : Bool :=
  busActive b x && (bitOf (busconOf b x) 6 || bitOf (busconOf b x) 7)

/-- P0H belongs to the bus (R431). -/
def busUsesP0h (b : Bus) : Bool :=
  busModeUsesP0h b 0 || busModeUsesP0h b 1 || busModeUsesP0h b 2 || busModeUsesP0h b 3 || busModeUsesP0h b 4

/-- An active window with the reserved size code 11xxb (R473, U21). -/
def windowReserved (b : Bus) (x : Nat) : Bool := busActive b x && decide (12 ≤ fieldNat (addrselOf b x) 0 4)

/-- `WindowMatch` (R473, decision D26). -/
def windowMatch (b : Bus) (x : Nat) (a : PhysAddr) : Bool :=
  let k := fieldNat (addrselOf b x) 0 4
  busActive b x && decide (k < 12) && decide (a.toNat >>> (12 + k) = fieldNat (addrselOf b x) 4 12 >>> k)

/-- Two windows match that are not one of the defined pairs (R474, U9). -/
def windowsOverlap (b : Bus) (a : PhysAddr) : Bool :=
  (windowMatch b 2 a && windowMatch b 4 a) || (windowMatch b 2 a && windowMatch b 3 a)
    || (windowMatch b 4 a && windowMatch b 1 a) || (windowMatch b 1 a && windowMatch b 3 a)

/-- `SelectBuscon` for an external address (R474). -/
def selectBuscon (b : Bus) (a : PhysAddr) : Nat :=
  if windowMatch b 2 a then 2
  else if windowMatch b 4 a then 4
  else if windowMatch b 1 a then 1
  else if windowMatch b 3 a then 3
  else 0

/-- Number of segment address lines on Port 4, from RP0H.SALSEL (R475, R490). -/
def segmentLines (b : Bus) : Nat :=
  match fieldNat b.rp0h 3 2 with
  | 0 => 4
  | 1 => 0
  | 2 => 8
  | _ => 2

/-- Number of chip select lines on Port 6, from RP0H.CSSEL (R475, R491). -/
def chipSelectLines (b : Bus) : Nat :=
  match fieldNat b.rp0h 1 2 with
  | 0 => 3
  | 1 => 2
  | 2 => 0
  | _ => 5

end Sys2Proof.Machine
end

