-- ==== Sys2Proof/Machine/Ports.lean ====
section
/-! DEFINITION. The level of every port pin and what a read of a port register returns.
Spec: 61_ports.md rules R420 to R446; the direction registers, SYSCON and BUSCONx are those of `prev`
(70_reset_and_hazards.md rules R716, R717, R718). -/

namespace Sys2Proof.Machine

/-- `PinLevel` for the lines of one port (R421). `dir`: direction bits; `auto`, `autoVal`: lines whose driver an
alternate function has enabled, and what it drives; `input`: lines that function forces to input; `latch`, `alt`:
output latch and alternate data outputs; `odp`: open drain bits; `pin`: `PIN_INPUT`. -/
def pinWord (dir auto autoVal input latch alt odp pin : Word) : Word :=
  let enabled := (dir &&& ~~~input) ||| auto
  let d := (auto &&& autoVal) ||| (~~~auto &&& (latch &&& alt))
  let driven := enabled &&& ~~~(odp &&& d)
  (driven &&& d) ||| (~~~driven &&& pin)

/-- `Read(Px)` (R421): the latch of an output line, the pin of an input line. -/
def readPortWord (dir latch level : Word) : Word := (dir &&& latch) ||| (~~~dir &&& level)

/-- The CPU's own bus lines take part: an external bus is enabled and not lent to another master (R446, R501). -/
def busDrives (s : State) : Bool := busEnabled s.prev.bus && !s.ebc.held

/-- The clocks stand still (R702). -/
def poweredDown (s : State) : Bool := s.sys.power == .powerDown

/-- A reset is in progress (R671). -/
def resetting (s : State) : Bool :=
  match s.sys.power with
  | .inReset _ => true
  | _ => false

/-- Some enabled BUSCONx selects a 16-bit data bus (R481). -/
def busIs16 (b : Bus) : Bool :=
  (busActive b 0 && bitOf b.buscon0 7) || (busActive b 1 && bitOf b.buscon1 7) || (busActive b 2 && bitOf b.buscon2 7)
    || (busActive b 3 && bitOf b.buscon3 7) || (busActive b 4 && bitOf b.buscon4 7)

/-! ## Port 3 -/

/-- The level of the SSC's shift clock: its idle level is SSCPO, the other level after the leading edge (R624, R625). -/
def sscClockLevel (s : State) : Bool := bitOf s.ssc.ctl 6 != s.ssc.clkPhase

/-- S0R = 1 with S0M = 000: ASC0 works in synchronous mode (R591, R592, R601). -/
def ascSynchronous (s : State) : Bool := bitOf s.asc.s0con 15 && fieldNat s.asc.s0con 0 3 == 0

/-- ASC0's alternate output on TxD0: the level of the frame in the shift register, or of the shift clock while a synchronous
byte is transferred; high otherwise (R438, R597, R601). -/
def txdLevel (s : State) : Bool :=
  !(bitOf s.asc.s0con 15 && s.asc.txBusy || ascSynchronous s && s.asc.rxActive) || s.asc.txd

/-- ASC0's alternate output on RxD0: the data of a synchronous transmission; high otherwise (R438, R601). -/
def rxdOutLevel (s : State) : Bool := !(ascSynchronous s && s.asc.txBusy) || s.asc.rxdOut

/-- The alternate data outputs of Port 3: high where the function is off (R438, R528, R545, R591, R597, R601, R625).
`clk` is the level of the 50 % duty cycle clock on CLKOUT, which no rule fixes at an instruction
boundary; in Power Down mode CLKOUT is high (R703). -/
def altOut3 (s : State) (clk : Bool) : Word :=
  let sscOn := s.board.device == .c165 && s.ssc.en
  let w := 0xFFFF
  let w := withBit w 1 (!bitOf s.gpt.t6con 9 || bitOf s.gpt.t6con 10)
  let w := withBit w 3 (!bitOf s.gpt.t3con 9 || bitOf s.gpt.t3con 10)
  let w := withBit w 8 (!(sscOn && !s.ssc.ms) || s.ssc.lineOut)
  let w := withBit w 9 (!(sscOn && s.ssc.ms) || s.ssc.lineOut)
  let w := withBit w 10 (txdLevel s)
  let w := withBit w 11 (rxdOutLevel s)
  let w := withBit w 13 (!(sscOn && s.ssc.ms) || sscClockLevel s)
  withBit w 15 (!bitOf s.prev.cpu.syscon 8 || poweredDown s || clk)

/-- P3.12 serves as BHE (16-bit bus, BYTDIS = 0) or WRH (WRCFG = 1); not while the bus is lent (R439, R446). R501 has an internal
pull-up hold BHE/WRH high during bus hold, and P3.12 back in its standard function, controlled by DP3.12 and P3.12. DESIGN
CHOICE: the second is followed: with DP3.12 = 0 the line has the level that the outside gives it, with no pull-up inside (log
entry 54). -/
def bhePinOn (s : State) : Bool :=
  busDrives s && ((busIs16 s.prev.bus && !bitOf s.prev.cpu.syscon 9) || bitOf s.prev.cpu.syscon 7)

/-- The level of P3.12 as bus signal: BHE of the last access, or WRH, inactive between accesses (R481, R495). -/
def bhePinLevel (s : State) : Bool := bitOf s.prev.cpu.syscon 7 || !s.ebc.bheLow

/-- Levels of Port 3. P3.15's driver is on when CLKEN = 1, its value still ANDed with the latch (R438, R439). -/
def levelP3 (s : State) (clk : Bool) : Word :=
  pinWord (s.prev.ports.dp3 ||| bitWord 15 (bitOf s.prev.cpu.syscon 8)) (bitWord 12 (bhePinOn s))
    (bitWord 12 (bhePinLevel s)) 0 s.ports.p3 (altOut3 s clk) s.ports.odp3 s.pins.p3 &&& 0xBFFF

/-! ## Port 4 -/

/-- The SSP is present and enabled (R40, R657). -/
def sspOn (s : State) : Bool := s.board.device == .c163 && bitOf s.prev.cpu.syscon 2

/-- CPU clocks per bit of the SSP: 2^(SSPCKS+1), or the parameter SSP_CKS7 (R651, U28). -/
def sspBitClocks (s : State) : Option Nat :=
  let k := fieldNat s.ssp.con0 0 3
  if k = 7 then s.board.sspCks7 else some (2 ^ (k + 1))

/-- The level of SSPCLK: SSPCKP = 0 idles high. In a data bit the leading edge comes at its start for SSPCKE = 0, so that
the trailing edge in its middle latches; at its middle for SSPCKE = 1, so that this edge latches. The half bit times before
the first and after the last bit are idle (R651, R654, R655). -/
def sspClockLevel (s : State) : Bool :=
  let idle := !bitOf s.ssp.con0 9
  match s.ssp.transfer, sspBitClocks s with
  | some t, some n =>
    let firstHalf := decide (n < 2 * t.clocks)
    if t.lead || t.tail then idle else if firstHalf != bitOf s.ssp.con0 8 then !idle else idle
  | _, _ => idle

/-- The level of chip enable line `x`: active while selected and activated; SSPCEPx and SSP_CEP_SENSE give the
polarity (R652, R655). -/
def sspCeLevel (s : State) (x : Nat) : Bool :=
  let activeHigh := bitOf s.ssp.con1 x == s.board.sspCepHigh
  let active := s.ssp.ceActive && bitOf s.ssp.con0 (3 + x)
  active == activeHigh

/-- The SSP is transmitting: it drives SSPDAT (R652). R652 does not say from when on. DESIGN CHOICE: from the activation of the
chip enable lines, half a bit time before the first bit, with the level of the last bit sent until then (log entry 33). -/
def sspTransmitting (s : State) : Bool :=
  match s.ssp.transfer with
  | some t => !t.out.isEmpty
  | none => false

/-- Number of Port 4 lines that belong to the segment address: none with segmentation disabled (R440, R490, R446). -/
def p4SegmentLines (s : State) : Nat :=
  if busEnabled s.prev.bus && !bitOf s.prev.cpu.syscon 11 then segmentLines s.prev.bus else 0

/-- Lines 0..n-1. -/
def lowLines (n : Nat) : Word := BitVec.ofNat 16 (2 ^ n - 1)

/-- Lines of Port 4 driven by an alternate function. The segment address has P4.7..P4.4 before the SSP (R652). -/
def p4Auto (s : State) : Word :=
  let ssp := bitWord 7 (sspOn s && bitOf s.ssp.con1 2) ||| bitWord 6 (sspOn s && sspTransmitting s)
    ||| bitWord 5 (sspOn s && bitOf s.ssp.con1 3) ||| bitWord 4 (sspOn s && bitOf s.ssp.con1 4)
  let seg := lowLines (p4SegmentLines s)
  if s.ebc.held then ssp &&& ~~~seg else seg ||| ssp

/-- Lines of Port 4 that float: the segment address lines during bus hold (R501). -/
def p4Input (s : State) : Word := if s.ebc.held then lowLines (p4SegmentLines s) else 0

/-- What they drive (R440, R495, R652). -/
def p4AutoVal (s : State) : Word :=
  let seg := (s.ebc.lastAddr >>> 16).setWidth 16
  let ssp := bitWord 7 (sspClockLevel s) ||| bitWord 6 s.ssp.dat ||| bitWord 5 (sspCeLevel s 0)
    ||| bitWord 4 (sspCeLevel s 1)
  merge (lowLines (p4SegmentLines s)) ssp seg

/-- Levels of Port 4. -/
def levelP4 (s : State) : Word :=
  pinWord s.prev.ports.dp4 (p4Auto s) (p4AutoVal s) (p4Input s) s.ports.p4 0xFFFF 0 s.pins.p4 &&& 0x00FF

/-! ## Port 6 -/

/-- Idle or Power Down mode (R700 to R703). -/
def powerSaving (s : State) : Bool := s.sys.power == .idle || poweredDown s

/-- HLDA and BREQ are bus arbitration pins: once HLDEN has been set (R445, R500). R703's table has port latch data on both in
Idle and Power Down mode without an external bus, where R445 and R500 name no exception. DESIGN CHOICE: the table is followed in
these modes (log entry 62). -/
def arbitrationOutputs (s : State) : Bool := s.ebc.hldenOnce && !(powerSaving s && !busEnabled s.prev.bus)

/-- The selected chip select lines of Port 6 (R443, R446). -/
def p6SelectLines (s : State) : Word := if busEnabled s.prev.bus then lowLines (chipSelectLines s.prev.bus) else 0

/-- Lines of Port 6 driven automatically: chip selects outside bus hold, and HLDA and BREQ once HLDEN has been set (R443 to
R446, R500); in slave mode (DP6.7 = 1) HLDA is an input (R503). -/
def p6Auto (s : State) : Word :=
  (if s.ebc.held then 0 else p6SelectLines s)
    ||| bitWord 6 (arbitrationOutputs s && !bitOf s.prev.ports.dp6 7) ||| bitWord 7 (arbitrationOutputs s)

/-- What they drive: the active chip select low (R444, R492); HLDA low while held; BREQ, which is high in Idle and Power
Down mode (R501, R703). -/
def p6AutoVal (s : State) : Word :=
  let cs := match s.ebc.cs with
    | some x => withBit 0x001F x false
    | none => 0x001F
  cs ||| bitWord 6 (!s.ebc.held) ||| bitWord 7 (!s.ebc.breqLow || powerSaving s)

/-- Lines forced to input: HOLD, and HLDA in slave mode (R445, R503); the chip selects during bus hold (R501). -/
def p6Input (s : State) : Word :=
  bitWord 5 s.ebc.hldenOnce ||| bitWord 6 (arbitrationOutputs s) ||| (if s.ebc.held then p6SelectLines s else 0)

/-- Lines of Port 6 that a weak pull-up holds: every chip select line during a reset, the selected ones in push/pull mode
during bus hold (R444, R492). -/
def p6PullUp (s : State) : Word :=
  if resetting s then 0x001F
  else if s.ebc.held then p6SelectLines s &&& ~~~s.ports.odp6
  else 0

/-- Levels of Port 6: a pulled-up line is high unless the outside drives it low. -/
def levelP6 (s : State) : Word :=
  pinWord s.prev.ports.dp6 (p6Auto s) (p6AutoVal s) (p6Input s) s.ports.p6 0xFFFF s.ports.odp6
    (s.pins.p6 ||| (p6PullUp s &&& s.pins.p6open)) &&& 0x00FF

/-! ## Other ports -/

/-- Levels of Port 2: no alternate outputs (R434). -/
def levelP2 (s : State) : Word :=
  pinWord s.prev.ports.dp2 0 0 0 s.ports.p2 0xFFFF s.ports.odp2 s.pins.p2 &&& 0xFF00

/-- Levels of one half of PORT0 or PORT1 that the bus does not own (R430, R433). -/
def levelP01 (dir latch pin : Word) : Word := pinWord dir 0 0 0 latch 0xFFFF 0 pin &&& 0x00FF

/-- Levels of Port 5 (R441). -/
def levelP5 (s : State) : Word := s.pins.p5 &&& 0xFC00

/-! ## The levels of the bus between bus cycles, and of the pins that belong to no port (R450, R451, R495, R703) -/

/-- The last bus cycle, while its write data stay on PORT0: until the next cycle, not while the bus is lent (R501), nor in Idle
and Power Down mode, where R703 has PORT0 floating (R482, R483, R495). -/
def dataCycle (s : State) : Option BusCycle := if busDrives s && !powerSaving s then s.ebc.cycle else none

/-- Levels of P0L: in a reset what the board pulls low, the rest high by the pull-ups (R432). While the bus owns it: the low byte of the last cycle's write data until the next cycle (R482, R483; of an
X-Peripheral's write R495), else floating. R495's table has PORT0 floating between cycles after an external write too; DESIGN
CHOICE: R482 and R483 are followed (log entry 56). -/
def levelP0L (s : State) : Word :=
  if resetting s then s.board.resetPins.port0 &&& 0x00FF
  else if busEnabled s.prev.bus then
    match dataCycle s with
    | some { write := some v, .. } => v &&& 0x00FF
    | _ => s.pins.p0l &&& 0x00FF
  else levelP01 s.prev.ports.dp0l s.ports.p0l s.pins.p0l

/-- The last cycle was one on a multiplexed bus with 8 bits of data (BTYP = 01). -/
def lastCycleByteMultiplexed (s : State) : Bool :=
  match s.ebc.cycle with
  | some c => c.mux && !c.bus16
  | none => false

/-- Levels of P0H: in a reset as those of P0L (R432). While the bus owns it: A15 to A8 of the last address after a cycle on a multiplexed bus with 8 bits of data
(R472, R482, R703), the high byte of the write data after a write on 16 bits of data (R482, R483, R495), else floating. R495's
table has all of PORT0 floating between cycles; DESIGN CHOICE: R472, R482 and R703 are followed, A15 to A8 stay in every power
state. With 8-bit demultiplexed buses alone P0H is free for IO (R430); R703's table and "otherwise P0H is floating" would have it
float in Idle and Power Down mode. DESIGN CHOICE: it keeps its port function, as R703's first sentence says of general purpose
outputs (log entry 56). -/
def levelP0H (s : State) : Word :=
  if resetting s then s.board.resetPins.port0 >>> 8
  else if busUsesP0h s.prev.bus then
    if busDrives s && lastCycleByteMultiplexed s then (s.ebc.lastAddr.setWidth 16 : Word) >>> 8
    else
      match dataCycle s with
      | some { write := some v, bus16 := true, .. } => (v >>> 8 : Word)
      | _ => s.pins.p0h &&& 0x00FF
  else levelP01 s.prev.ports.dp0h s.ports.p0h s.pins.p0h

/-- Levels of P1L: the last address on a demultiplexed bus (R495, R703); floating during bus hold (R501). -/
def levelP1L (s : State) : Word :=
  if busUsesPort1 s.prev.bus then
    if busDrives s then s.ebc.lastAddr.setWidth 16 &&& 0x00FF else s.pins.p1l &&& 0x00FF
  else levelP01 s.prev.ports.dp1l s.ports.p1l s.pins.p1l

/-- Levels of P1H. -/
def levelP1H (s : State) : Word :=
  if busUsesPort1 s.prev.bus then
    if busDrives s then (s.ebc.lastAddr.setWidth 16 : Word) >>> 8 else s.pins.p1h &&& 0x00FF
  else levelP01 s.prev.ports.dp1h s.ports.p1h s.pins.p1h

/-- The level of pin RSTOUT: low from the start of a reset until EINIT (R59, R316, R321, R450, R673, R703). -/
def rstoutLevel (s : State) : Bool := s.sys.einitDone

/-- The level of pin ALE between bus cycles, during a reset and during bus hold (R450, R495, R501, R685). -/
def aleLevel (_ : State) : Bool := false

/-- The level of pins RD and WR/WRL between bus cycles, during a reset and during bus hold (R450, R495, R501, R685). -/
def commandLevel (_ : State) : Bool := true

/-! ## Inputs of the peripherals (R437, R441) -/

/-- Level of T2IN = P3.7. -/
def pinT2in (s : State) : Bool := bitOf (levelP3 s true) 7
/-- Level of T3IN = P3.6. -/
def pinT3in (s : State) : Bool := bitOf (levelP3 s true) 6
/-- Level of T4IN = P3.5. -/
def pinT4in (s : State) : Bool := bitOf (levelP3 s true) 5
/-- Level of T3EUD = P3.4. -/
def pinT3eud (s : State) : Bool := bitOf (levelP3 s true) 4
/-- Level of CAPIN = P3.2. -/
def pinCapin (s : State) : Bool := bitOf (levelP3 s true) 2
/-- Level of MRST = P3.8. -/
def pinMrst (s : State) : Bool := bitOf (levelP3 s true) 8
/-- Level of MTSR = P3.9. -/
def pinMtsr (s : State) : Bool := bitOf (levelP3 s true) 9
/-- Level of RXD0 = P3.11. -/
def pinRxd (s : State) : Bool := bitOf (levelP3 s true) 11
/-- Level of SCLK = P3.13. -/
def pinSclk (s : State) : Bool := bitOf (levelP3 s true) 13
/-- Level of T2EUD = P5.15. -/
def pinT2eud (s : State) : Bool := bitOf (levelP5 s) 15
/-- Level of T4EUD = P5.14. -/
def pinT4eud (s : State) : Bool := bitOf (levelP5 s) 14
/-- Level of T5IN = P5.13. -/
def pinT5in (s : State) : Bool := bitOf (levelP5 s) 13
/-- Level of T6IN = P5.12. -/
def pinT6in (s : State) : Bool := bitOf (levelP5 s) 12
/-- Level of T5EUD = P5.11. -/
def pinT5eud (s : State) : Bool := bitOf (levelP5 s) 11
/-- Level of T6EUD = P5.10. -/
def pinT6eud (s : State) : Bool := bitOf (levelP5 s) 10
/-- Level of SSPDAT = P4.6. -/
def pinSspdat (s : State) : Bool := bitOf (levelP4 s) 6
/-- Level of HOLD = P6.5. -/
def pinHold (s : State) : Bool := bitOf (levelP6 s) 5

end Sys2Proof.Machine
end

