-- ==== Sys2Proof/Machine/Requests.lean ====
section
/-! DEFINITION. The interrupt control registers as a table: node numbers, presence, request flags.
Spec: 60_exceptions.md rules R340 to R345. -/

namespace Sys2Proof.Machine

/-- Position of a node in `State.ic`. -/
def nodeIndex (n : IrqNode) : Fin 28 :=
  match n with
  | .cc8 => 0 | .cc9 => 1 | .cc10 => 2 | .cc11 => 3 | .cc12 => 4 | .cc13 => 5 | .cc14 => 6 | .cc15 => 7
  | .t2 => 8 | .t3 => 9 | .t4 => 10 | .t5 => 11 | .t6 => 12 | .cr => 13
  | .s0t => 14 | .s0tb => 15 | .s0r => 16 | .s0e => 17
  | .ssct => 18 | .sscr => 19 | .ssce => 20
  | .xp0 => 21 | .xp1 => 22 | .xp2 => 23 | .xp3 => 24
  | .cc29 => 25 | .cc30 => 26 | .cc31 => 27

/-- All nodes, in the order of R340. -/
def allNodes : List IrqNode :=
  [.cc8, .cc9, .cc10, .cc11, .cc12, .cc13, .cc14, .cc15, .t2, .t3, .t4, .t5, .t6, .cr, .s0t, .s0tb, .s0r, .s0e,
   .ssct, .sscr, .ssce, .xp0, .xp1, .xp2, .xp3, .cc29, .cc30, .cc31]

/-- Does the device have the node? The C163 lacks the seven that R340's table marks and R343 names, the SSC's three and XP0,
XP2, CC30, CC31, and the board's `absentNode`. R3 and R342 count eight absent nodes, of which CC29 can be the eighth, since
every other one of the 21 has a source on the C163; with `none` the 21 nodes of R340 are there (DESIGN CHOICE, log entry 44). -/
def nodePresent (b : Board) (n : IrqNode) : Bool :=
  match b.device with
  | .c165 => true
  | .c163 =>
    match n with
    | .ssct | .sscr | .ssce | .xp0 | .xp2 | .cc30 | .cc31 => false
    | n => b.absentNode != some n

/-- Does the device have the interrupt control register of the node? The C163 lacks the SSC's three. Those of the other nodes
that it lacks are there as R57's table has them, for both devices, with XP0IR and XP2IR among the 25 protected bits of R3 and
R53: registers that nothing in the chip reads. Or they are not implemented, as R343 says. DESIGN CHOICE: which of the two is the
board's parameter `spareRegisters` (log entry 44). -/
def nodeRegisterPresent (b : Board) (n : IrqNode) : Bool :=
  match b.device with
  | .c165 => true
  | .c163 =>
    match n with
    | .ssct | .sscr | .ssce => false
    | n => b.spareRegisters || nodePresent b n

/-- Trap number of a node (R340). -/
def nodeTrap (n : IrqNode) : Nat :=
  match n with
  | .cc8 => 0x18 | .cc9 => 0x19 | .cc10 => 0x1A | .cc11 => 0x1B | .cc12 => 0x1C | .cc13 => 0x1D | .cc14 => 0x1E
  | .cc15 => 0x1F
  | .t2 => 0x22 | .t3 => 0x23 | .t4 => 0x24 | .t5 => 0x25 | .t6 => 0x26 | .cr => 0x27
  | .s0t => 0x2A | .s0tb => 0x47 | .s0r => 0x2B | .s0e => 0x2C
  | .ssct => 0x2D | .sscr => 0x2E | .ssce => 0x2F
  | .xp0 => 0x40 | .xp1 => 0x41 | .xp2 => 0x42 | .xp3 => 0x43
  | .cc29 => 0x44 | .cc30 => 0x45 | .cc31 => 0x46

/-- The interrupt control register of a node (R345): IR 7, IE 6, ILVL 5..2, GLVL 1..0. -/
def State.icOf (s : State) (n : IrqNode) : Byte := s.ic[nodeIndex n]

/-- Write the interrupt control register of a node. -/
def State.setIc (s : State) (n : IrqNode) (v : Byte) : State := { s with ic := s.ic.set (nodeIndex n) v }

/-- Hardware sets the request flag of a node (R345); a node the device lacks has none (R4). -/
def State.request (s : State) (n : IrqNode) : State :=
  if nodePresent s.board n then s.setIc n (s.icOf n ||| 0x80) else s

/-- Set the request flag if `b`. -/
def State.requestIf (s : State) (b : Bool) (n : IrqNode) : State := if b then s.request n else s

/-- The request flag of a node made `b`. -/
def State.setRequest (s : State) (n : IrqNode) (b : Bool) : State :=
  s.setIc n (if b then s.icOf n ||| 0x80 else s.icOf n &&& 0x7F)

/-- Acceptance clears the request flag (R345). -/
def State.clearRequest (s : State) (n : IrqNode) : State := s.setIc n (s.icOf n &&& 0x7F)

/-- Fields of an interrupt control register. -/
def icRequest (v : Byte) : Bool := v.getLsbD 7
/-- xxIE. -/
def icEnable (v : Byte) : Bool := v.getLsbD 6
/-- ILVL. -/
def icLevel (v : Byte) : Nat := (v.toNat >>> 2) % 16
/-- GLVL. -/
def icGroup (v : Byte) : Nat := v.toNat % 4

/-- The next free value (93_implementation_defined.md, "any value"): an opaque constant applied to the counter. -/
def State.freeWord (s : State) : Word := Config.freeWord s.free

/-- The counter after `n` free values have been used. -/
def State.advanceFree (s : State) (n : Nat) : State := { s with free := s.free + n }

end Sys2Proof.Machine
end

