-- ==== Sys2Proof/Machine/Serial.lean ====
section
/-! DEFINITION. The serial interfaces ASC0, SSC (C165) and SSP (C163), one CPU clock at a time.
Spec: 64_serial.md rules R590 to R604 (ASC0), R620 to R628 (SSC), R650 to R657 (SSP), R660. -/

namespace Sys2Proof.Machine

/-- A pulse train of `n` bits of a word, least significant first. -/
def bitsLsb (w : Word) : Nat → List Bool
  | 0 => []
  | n + 1 => bitsLsb w n ++ [bitOf w n]

/-- XOR of the low `n` bits. -/
def parityOf (w : Word) : Nat → Bool
  | 0 => false
  | n + 1 => parityOf w n != bitOf w n

/-! ## ASC0 -/

/-- S0M (R592). -/
def ascMode (con : Word) : Nat := fieldNat con 0 3

/-- Reserved modes (R592, U23). -/
def ascModeReserved (con : Word) : Bool := ascMode con == 2 || ascMode con == 6

/-- The parity bit of mode 011 or 111 (R597). -/
def ascParity (con : Word) (bits : Nat) (d : Word) : Bool := parityOf d bits != bitOf con 12

/-- Data bits of a frame, with the parity bit in its place, as they stand in S0RBUF (R594, R597). -/
def ascFrameData (con : Word) (d : Word) : Word :=
  match ascMode con with
  | 3 => withBit (d &&& 0x007F) 7 (ascParity con 7 d)
  | 4 | 5 => d &&& 0x01FF
  | 7 => withBit (d &&& 0x00FF) 8 (ascParity con 8 d)
  | _ => d &&& 0x00FF

/-- Number of data bits of an asynchronous frame, parity or wake-up bit included (R592). -/
def ascDataBits (con : Word) : Nat :=
  match ascMode con with
  | 4 | 5 | 7 => 9
  | _ => 8

/-- `Frame(S0M, d)` (R597): start bit, data, one or two stop bits. DESIGN CHOICE: the frame is made when the character moves to
the shift register (`ascLoad`), and a later change of S0M between two asynchronous modes, of S0STP or of S0ODD does not change
it; R597 and R598 are silent on it (log entry 43). -/
def ascFrame (con : Word) (d : Word) : List Bool :=
  false :: (bitsLsb (ascFrameData con d) (ascDataBits con) ++ (if bitOf con 3 then [true, true] else [true]))

/-- Underflows of the baud rate timer per bit time (R596): one bit is 16 * (2 + S0BRS) * (S0BRL + 1) clocks
asynchronous, 4 * (2 + S0BRS) * (S0BRL + 1) clocks synchronous; one underflow comes every 2 * (S0BRL + 1) clocks. -/
def ascBitPulses (con : Word) : Nat :=
  (if ascMode con = 0 then 2 else 8) * (2 + (if bitOf con 13 then 1 else 0))

/-- Set error flag `flag` of S0CON if `b`. -/
def ascFlagIf (b : Bool) (flag : Nat) (con : Word) : Word := if b then withBit con flag true else con

/-- A received frame goes to S0RBUF with its error checks (R599, R601, R602). `d` holds the received bits from bit 0. -/
def ascReceive (d : Word) (stopsHigh : Bool) (s : State) : State :=
  let con := s.asc.s0con
  let mode := ascMode con
  let data := d &&& (if ascDataBits con = 9 then 0x01FF else 0x00FF)
  if mode = 5 && !bitOf data 8 then s
  else
    let fe := mode != 0 && bitOf con 6 && !stopsHigh
    let badParity := (mode == 3 && (bitOf data 7 != ascParity con 7 data))
      || (mode == 7 && (bitOf data 8 != ascParity con 8 data))
    let pe := bitOf con 5 && badParity
    let oe := bitOf con 7 && s.asc.rbufUnread
    let con' := ascFlagIf oe 10 (ascFlagIf pe 8 (ascFlagIf fe 9 con))
    let s1 := { s with asc := { s.asc with s0con := con', s0rbuf := data, rbufUnread := true } }
    (s1.request .s0r).requestIf (fe || pe || oe) .s0e

/-- A waiting character moves to the transmit shift register (R598, R601). A synchronous transfer begins within four clocks
(R601), at whatever phase of the baud rate timer. DESIGN CHOICE: at once, here and in `ascStart`, so that its first bit can be up
to one pulse of the timer shorter than a bit time (log entry 33). -/
def ascLoad (s : State) : State :=
  let con := s.asc.s0con
  let d := s.asc.tbuf.setWidth 16
  let a := { s.asc with tbufFull := false, tbuf := 0, txBusy := true }
  let a' :=
    if ascMode con = 0 then
      { a with tx := (bitsLsb d 8).drop 1, rxdOut := bitOf d 0, txd := false, bitDiv := 0 }
    else { a with tx := ascFrame con d }
  ({ s with asc := a' }).request .s0tb

/-- Start what can start: a transmission (in synchronous mode only while no reception is enabled), or a synchronous
reception (R598, R601). R601 does not say what setting S0REN during a synchronous transmission does. DESIGN CHOICE: the
transmission is finished, then the reception starts (log entry 33). -/
def ascStart (s : State) : State :=
  let con := s.asc.s0con
  if s.asc.txBusy || s.asc.rxActive && ascMode con = 0 then s
  else if ascMode con = 0 && bitOf con 4 then
    { s with asc := { s.asc with rxActive := true, rxCount := 0, rxShift := 0, bitDiv := 0, txd := false } }
  else if s.asc.tbufFull then ascLoad s
  else s

/-- The middle of a synchronous bit: the shift clock returns high, a received bit is sampled (R601; the edges are in a
lost figure, log entry 20). -/
def ascMidBit (s : State) : State :=
  if s.asc.rxActive then
    let b := if bitOf s.asc.s0con 14 then rxdOutLevel s else pinRxd s
    let bit : Byte := if b then 1#8 <<< s.asc.rxCount else 0
    { s with asc := { s.asc with txd := true, rxShift := s.asc.rxShift ||| bit } }
  else if s.asc.txBusy then { s with asc := { s.asc with txd := true } }
  else s

/-- A bit boundary in synchronous mode (R601). -/
def ascSyncBoundary (s : State) : State :=
  if s.asc.rxActive then
    if s.asc.rxCount + 1 < 8 then
      { s with asc := { s.asc with rxCount := s.asc.rxCount + 1, txd := false } }
    else
      let s1 := ascReceive (s.asc.rxShift.setWidth 16) true s
      { s1 with asc := { s1.asc with s0con := withBit s1.asc.s0con 4 false, rxActive := false, rxCount := 0, txd := true } }
  else if s.asc.txBusy then
    match s.asc.tx with
    | b :: rest => { s with asc := { s.asc with tx := rest, rxdOut := b, txd := false } }
    | [] => ({ s with asc := { s.asc with txBusy := false, txd := true, rxdOut := true } }).request .s0t
  else s

/-- Drive the next bit of an asynchronous frame; S0TIR comes with the last stop bit (R598). -/
def ascDriveNext (s : State) : State :=
  match s.asc.tx with
  | b :: rest => ({ s with asc := { s.asc with tx := rest, txd := b } }).requestIf rest.isEmpty .s0t
  | [] => s

/-- A bit boundary in asynchronous mode: the next bit, or the end of the frame and, if a character waits, the next start
bit at once (R598). -/
def ascAsyncBoundary (s : State) : State :=
  if s.asc.txBusy then
    if s.asc.tx.isEmpty then
      let s1 := { s with asc := { s.asc with txBusy := false, txd := true } }
      if s1.asc.tbufFull then ascDriveNext (ascLoad s1) else s1
    else ascDriveNext s
  else s

/-- The input of the receiver: pin RXD0, in loop-back mode the transmitter's output (R603). -/
def ascInput (s : State) : Bool := if bitOf s.asc.s0con 14 then txdLevel s else pinRxd s

/-- Number of bits of an asynchronous frame, start and stop bits included (R597). -/
def ascFrameBits (con : Word) : Nat := 1 + ascDataBits con + (if bitOf con 3 then 2 else 1)

/-- The word whose bit k is the k-th of these bits. -/
def wordOfBits : List Bool → Word
  | [] => 0
  | b :: rest => (wordOfBits rest <<< 1) ||| bitWord 0 b

/-- The value of a bit is decided with its 9th sample (R599): a start bit that is not 0 resets the receiver; the last
expected stop bit ends the frame, whatever S0REN is by then. DESIGN CHOICE: a frame under way when S0M changes between two
asynchronous modes, or S0STP or S0ODD changes, is received by S0CON as it stands now; the rules are silent on it (log entry
43). -/
def ascBitDecided (f : AscFrame) (s : State) : State :=
  let con := s.asc.s0con
  let bits := f.bits ++ [decide (2 ≤ f.highs)]
  if f.bits.isEmpty && decide (2 ≤ f.highs) then { s with asc := { s.asc with rx := none } }
  else if ascFrameBits con ≤ bits.length then
    ascReceive (wordOfBits ((bits.drop 1).take (ascDataBits con))) ((bits.drop (1 + ascDataBits con)).all id)
      { s with asc := { s.asc with rx := none } }
  else { s with asc := { s.asc with rx := some { f with bits := bits } } }

/-- One sample of the receiver's input, 16 in a bit time (R599). A falling edge starts a frame if S0REN = 1; the sample that
shows it is the first of the start bit (log entry 43). -/
def ascSample (s : State) : State :=
  let input := ascInput s
  let t := { s with asc := { s.asc with rxPrev := input } }
  match s.asc.rx with
  | none =>
    if bitOf s.asc.s0con 4 && s.asc.rxPrev && !input then
      { t with asc := { t.asc with rx := some { tick := 1, highs := 0, bits := [] } } }
    else t
  | some f =>
    let n := f.tick % 16 + 1
    let votes := decide (7 ≤ n ∧ n ≤ 9) && input
    let g : AscFrame := { f with tick := n, highs := if n = 1 then 0 else if votes then f.highs + 1 else f.highs }
    if n = 9 then ascBitDecided g t else { t with asc := { t.asc with rx := some g } }

/-- The asynchronous receiver at an underflow of the baud rate timer. With S0BRS = 1 every third underflow is left out
("reduce serial clock to 2/3rd", R591, R595, R596). -/
def ascReceiver (s : State) : State :=
  if !bitOf s.asc.s0con 13 then ascSample s
  else if 2 ≤ s.asc.brsPhase then { s with asc := { s.asc with brsPhase := 0 } }
  else ascSample { s with asc := { s.asc with brsPhase := s.asc.brsPhase + 1 } }

/-- One underflow of the baud rate timer: the transmitter and the synchronous mode, then the asynchronous receiver. -/
def ascPulse (s : State) : State :=
  let con := s.asc.s0con
  let n := s.asc.bitDiv + 1
  if ascBitPulses con ≤ n then
    let s1 := { s with asc := { s.asc with bitDiv := 0 } }
    if ascMode con = 0 then ascSyncBoundary s1 else ascReceiver (ascAsyncBoundary s1)
  else
    let s1 := { s with asc := { s.asc with bitDiv := n } }
    if ascMode con = 0 then if 2 * n = ascBitPulses con then ascMidBit s1 else s1 else ascReceiver s1

/-- The asynchronous receiver where it does not wait for a frame (S0R = 0, S0REN = 0 or synchronous mode): it follows its
input, so that only an edge that falls later starts a frame. Without S0R and in synchronous mode a frame under reception is
given up (R599, log entry 43). -/
def ascFollow (s : State) : State :=
  let off := !bitOf s.asc.s0con 15 || ascMode s.asc.s0con == 0
  if off || !bitOf s.asc.s0con 4 then
    { s with asc := { s.asc with rxPrev := ascInput s, rx := if off then none else s.asc.rx } }
  else s

/-- One CPU clock of ASC0 (R595): idle while S0R = 0. What this does to a synchronous reception under way R595 and R601 do not
say. DESIGN CHOICE: the byte is given up, and with S0R = 1 again the reception starts at its first bit (log entry 33). -/
def clockAsc (s0 : State) : State :=
  let s := ascFollow s0
  if bitOf s.asc.s0con 15 then
    let a := if s.asc.reloadPending then { s.asc with bgTimer := s.asc.bgReload, reloadPending := false } else s.asc
    let s1 := ascStart { s with asc := a }
    if s1.asc.half then
      if s1.asc.bgTimer = 0 then ascPulse { s1 with asc := { s1.asc with half := false, bgTimer := s1.asc.bgReload } }
      else { s1 with asc := { s1.asc with half := false, bgTimer := s1.asc.bgTimer - 1 } }
    else { s1 with asc := { s1.asc with half := true } }
  else { s with asc := { s.asc with rxActive := false, brsPhase := 0 } }

/-- Write S0CON (R591). A change between synchronous and asynchronous mode gives up what is in the shift registers (log
entry 33). -/
def writeS0con (v : Word) (a : Asc) : Asc :=
  let con := v &&& 0xF7FF
  if (ascMode con == 0) == (ascMode a.s0con == 0) then { a with s0con := con }
  else { a with s0con := con, tx := [], txBusy := false, txd := true, rxdOut := true, rxActive := false, rx := none }

/-! ## SSC -/

/-- Data width w = SSCBM + 1 (R621, R624). -/
def sscWidth (s : State) : Nat := fieldNat s.ssc.ctl 0 4 + 1

/-- Position in the right aligned data of the k-th bit on the line (R624, SSCHB). -/
def sscBitIndex (s : State) (k : Nat) : Nat := if bitOf s.ssc.ctl 4 then sscWidth s - 1 - k else k

/-- SSCPH: bit 5 of the control bits (R621). -/
def sscPhase (s : State) : Bool := bitOf s.ssc.ctl 5

/-- Error `flag` (11 BE, 10 PE, 9 RE, 8 TE): the status flag, and a request if its enable bit is set (R627). -/
def sscErrorIf (b : Bool) (flag : Nat) (s : State) : State :=
  if b then
    ({ s with ssc := { s.ssc with stat := withBit s.ssc.stat flag true } }).requestIf (bitOf s.ssc.ctl flag) .ssce
  else s

/-- SSCBC and SSCBSY in the status bits (R622, R624). R622 says only that SSCBC "is updated with every shifted bit". DESIGN
CHOICE: it is 0 at the start of a frame, counts the bits latched so far at each latching edge (the 16th of 16 shows as 0), and is
0 again from the end of the frame to the next (`sscLoad`, `sscLatch`, `sscComplete`, log entry 33). -/
def sscStat (stat : Word) (busy : Bool) (count : Nat) : Word :=
  withBit (merge 0x000F stat (BitVec.ofNat 16 (count % 16))) 12 busy

/-- SSCTB moves to the shift register (R624); a slave drives its first bit at once. -/
def sscLoad (s : State) : State :=
  let c := { s.ssc with tbFull := false, active := true, began := false, shiftOut := s.ssc.tb, shiftIn := 0, bit := 0,
                        stat := sscStat s.ssc.stat true 0,
                        lineOut := if s.ssc.ms then s.ssc.lineOut else bitOf s.ssc.tb (sscBitIndex s 0) }
  ({ s with ssc := c }).request .ssct

/-- Latch bit `k` from the data input, with the phase check's first comparison (R624, R627). -/
def sscLatch (s : State) (input : Bool) : State :=
  let i := sscBitIndex s s.ssc.bit
  let n := s.ssc.bit + 1
  let c := { s.ssc with shiftIn := withBit s.ssc.shiftIn i input, bit := n, stat := sscStat s.ssc.stat true n,
                        edgeAge := some 0, edgeData := input }
  sscErrorIf (s.ssc.dataPrev != input) 10 { s with ssc := c }

/-- End of a frame (R624, R627): SSCRB, whose bits above the width are not valid (free), receive error, request. DESIGN CHOICE:
SSCBC goes back to 0 here; R622 does not say what it shows outside a transfer (log entry 33, `sscStat`). -/
def sscComplete (s0 : State) : State :=
  let w := sscWidth s0
  let mask := lowLines w
  let s := s0.advanceFree 1
  let s1 := sscErrorIf s.ssc.rbUnread 9 s
  let c := { s1.ssc with rb := merge mask (Config.freeWord s0.free) s1.ssc.shiftIn, rbUnread := true, active := false,
                         began := false, bit := 0, gap := none, stat := sscStat s1.ssc.stat s1.ssc.tbFull 0 }
  ({ s1 with ssc := c }).request .sscr

/-- CPU clocks since the last underflow, after this clock (R626). -/
def sscElapsed (s : State) : Nat := 2 * (s.ssc.br.toNat - s.ssc.timer.toNat) + (if s.ssc.half then 1 else 0)

/-- The start of a bit time in master mode: the next bit goes to the line (R624). -/
def sscBitStart (s : State) : State :=
  { s with ssc := { s.ssc with began := true, lineOut := bitOf s.ssc.shiftOut (sscBitIndex s s.ssc.bit)
                               clkPhase := !sscPhase s } }

/-- An underflow of the baud rate timer in master mode. -/
def sscMasterBoundary (s : State) : State :=
  if s.ssc.active then
    if s.ssc.began && decide (s.ssc.bit = sscWidth s) then
      let s1 := sscComplete { s with ssc := { s.ssc with clkPhase := false } }
      if s1.ssc.tbFull then sscBitStart (sscLoad s1) else s1
    else sscBitStart s
  else s

/-- The middle of a bit time in master mode: the latching edge; with SSCPH = 1 it is the leading edge (R621, R624). -/
def sscMasterMid (s : State) : State :=
  if s.ssc.active && s.ssc.began then
    sscLatch { s with ssc := { s.ssc with clkPhase := sscPhase s } } (pinMrst s)
  else s

/-- One CPU clock of the baud rate timer, which counts down while the SSC is enabled (R626). -/
def sscCount (s : State) : State :=
  if s.ssc.half then
    { s with ssc := { s.ssc with half := false, timer := if s.ssc.timer = 0 then s.ssc.br else s.ssc.timer - 1 } }
  else { s with ssc := { s.ssc with half := true } }

/-- One CPU clock of the SSC in master mode. -/
def clockSscMaster (s : State) : State :=
  let s0 := if s.ssc.tbFull && !s.ssc.active then sscLoad s else s
  let s1 := sscCount s0
  if s0.ssc.half && s0.ssc.timer == 0 then sscMasterBoundary s1
  else if sscElapsed s1 = s1.ssc.br.toNat + 1 then sscMasterMid s1
  else s1

/-- The baud rate check of a slave at a leading edge `g` clocks after the one before: more than double or less than
half the programmed rate (R627, which does not say how the rate is measured). DESIGN CHOICE: from leading edge to leading edge
within a frame, the first edge of a frame unchecked (log entry 33). -/
def sscBaudError (s : State) : Bool :=
  match s.ssc.gap with
  | some g =>
    let t := 2 * (s.ssc.br.toNat + 1)
    decide (2 * g < t ∨ 2 * t < g)
  | none => false

/-- The automatic reset of the SSC gives up the transfer (R627, log entry 21). -/
def sscAutoReset (s : State) : State :=
  { s with ssc := { s.ssc with active := false, bit := 0, gap := none, stat := sscStat s.ssc.stat false 0 } }

/-- A transfer that the master starts although SSCTB was not reloaded: transmit error, the old contents of the shift
register go out (R627). -/
def sscStale (s : State) : State :=
  if s.ssc.active then s
  else
    let c := { s.ssc with active := true, shiftOut := s.ssc.shiftIn, shiftIn := 0, bit := 0
                          stat := sscStat s.ssc.stat true 0
                          lineOut := bitOf s.ssc.shiftIn (sscBitIndex s 0) }
    (sscErrorIf true 8 { s with ssc := c }).request .ssct

/-- A leading edge on SCLK in slave mode (R624). An edge that shows a baud rate error while SSCAREN = 1 resets the SSC and
does nothing else (R627). -/
def sscSlaveLeading (s : State) (input : Bool) : State :=
  let bad := sscBaudError s
  let checked := sscErrorIf bad 11 s
  if bad && bitOf s.ssc.ctl 12 then sscAutoReset checked
  else
    let s1 := sscStale checked
    let s2 := { s1 with ssc := { s1.ssc with gap := some 0 } }
    if sscPhase s2 then sscLatch s2 input
    else { s2 with ssc := { s2.ssc with lineOut := bitOf s2.ssc.shiftOut (sscBitIndex s2 s2.ssc.bit) } }

/-- A trailing edge on SCLK in slave mode; the frame ends with the last one (R624). -/
def sscSlaveTrailing (s : State) (input : Bool) : State :=
  if s.ssc.active then
    let s1 := if sscPhase s then s else sscLatch s input
    if s1.ssc.bit = sscWidth s1 then
      let s2 := sscComplete s1
      if s2.ssc.tbFull then sscLoad s2 else s2
    else if sscPhase s1 then
      { s1 with ssc := { s1.ssc with lineOut := bitOf s1.ssc.shiftOut (sscBitIndex s1 s1.ssc.bit) } }
    else s1
  else s

/-- One CPU clock of the SSC in slave mode. -/
def clockSscSlave (s : State) : State :=
  let s0 := sscCount (if s.ssc.tbFull && !s.ssc.active then sscLoad s else s)
  let level := pinSclk s0
  let idle := bitOf s0.ssc.ctl 6
  let input := pinMtsr s0
  let s1 := { s0 with ssc := { s0.ssc with gap := s0.ssc.gap.map (· + 1) } }
  if s0.ssc.sclk == level then s1
  else if level != idle then sscSlaveLeading s1 input
  else sscSlaveTrailing s1 input

/-- The two samples after the latching edge (R627, phase error). -/
def sscPhaseCheck (s : State) (input : Bool) : State :=
  match s.ssc.edgeAge with
  | some a =>
    let s1 := sscErrorIf (s.ssc.edgeData != input) 10 s
    { s1 with ssc := { s1.ssc with edgeAge := if a = 0 then some 1 else none } }
  | none => s

/-- A frame would start with a reserved data width (R621), or with SSCBR = 0 (R626, U26). -/
def sscRefusal (s : State) : Option Refusal :=
  if s.board.device == .c165 && s.ssc.en && (s.ssc.tbFull || s.ssc.active) then
    if fieldNat s.ssc.ctl 0 4 = 0 then some .reservedSscWidth
    else if s.ssc.br = 0 then some .sscBaudRate
    else none
  else none

/-- The SSC while SSCEN = 0: it stands still. R627 does not say what becomes of a check under way when SSCEN is cleared. DESIGN
CHOICE: the samples after the last latching edge and the measurement of the shift clock's rate end, so that with SSCEN = 1
again no sample is compared with an edge from before (log entry 33). -/
def sscStopped (s : State) : State := { s with ssc := { s.ssc with edgeAge := none, gap := none } }

/-- One CPU clock of the SSC while SSCEN = 1. -/
def sscRunning (s : State) : State :=
  let checked := sscPhaseCheck s (if s.ssc.ms then pinMrst s else pinMtsr s)
  if s.ssc.ms then clockSscMaster checked else clockSscSlave checked

/-- One CPU clock of the SSC. An error flag that is set and enabled requests again as long as it stays set, whatever SSCEN is
(R627). -/
def clockSsc (s : State) : State :=
  if s.board.device == .c165 then
    let run := if s.ssc.en then sscRunning s else sscStopped s
    let s1 := run.requestIf (run.ssc.stat &&& run.ssc.ctl &&& 0x0F00 != 0) .ssce
    { s1 with ssc := { s1.ssc with sclk := pinSclk s1, dataPrev := if s1.ssc.ms then pinMrst s1 else pinMtsr s1 } }
  else s

/-- Read SSCCON (R623). -/
def readSsccon (c : Ssc) : Word :=
  withBit (withBit (if c.en then c.stat &&& 0x1F0F else c.ctl &&& 0x1F7F) 14 c.ms) 15 c.en

/-- Write SSCCON: what it reaches is decided by SSCEN before the access (R623, U25); enabling starts the baud rate timer
(R626), which does not say from where. DESIGN CHOICE: from its reload value, with the division by 2 at its begin (log entry
33). -/
def writeSsccon (v : Word) (c : Ssc) : Ssc :=
  let c1 := if c.en then { c with stat := merge 0x0F00 c.stat v } else { c with ctl := v &&& 0x1F7F }
  let c2 := if !c.en && bitOf v 15 then { c1 with timer := c1.br, half := false } else c1
  { c2 with ms := bitOf v 14, en := bitOf v 15 }

/-! ## SSP -/

/-- The bits of one byte in time order (SSPHB, R651). -/
def sspByteBits (con0 : Word) (w : Word) : List Bool :=
  if bitOf con0 6 then (bitsLsb w 8).reverse else bitsLsb w 8

/-- The frame of a transfer with `n` bytes: tb(n-1) first (R653, R654). DESIGN CHOICE: with SSPHB = 0 too, where R654 leaves
the order of the bytes open beyond R653's table; SSPHB turns the bits inside a byte only (log entry 33). -/
def sspFrame (p : Ssp) (n : Nat) : List Bool :=
  (if 3 ≤ n then sspByteBits p.con0 p.tbh else [])
    ++ (if 2 ≤ n then sspByteBits p.con0 (p.rtb >>> 8) else []) ++ sspByteBits p.con0 p.rtb

/-- CPU clocks of half a bit time, at least one. -/
def sspHalfBit (s : State) : Nat := ((sspBitClocks s).getD 2) / 2

/-- Transfer start by a write that covers transmit byte 0 (R654). SSPRW counts as it stands now; that it stay is asked of the
program (R655), and what a change during the transfer does is not said: DESIGN CHOICE, nothing (log entry 33). -/
def sspStart (s : State) : State :=
  let p := s.ssp
  let n := if p.b2Loaded then 3 else if p.b1Loaded then 2 else 1
  let t : SspTransfer := { out := sspFrame p n, toRead := if bitOf p.con0 7 then 8 else 0, shift := 0,
                           clocks := sspHalfBit s, lead := true, tail := false, isRead := bitOf p.con0 7 }
  { s with ssp := { p with b1Loaded := false, b2Loaded := false, ceActive := true, readDone := false
                           con0 := withBit p.con0 15 true, transfer := some t } }

/-- The next byte of a continuous read (R654); the chip enables are activated with it if they are not (R655). -/
def sspContinue (s : State) : State :=
  let p := s.ssp
  let t : SspTransfer := { out := [], toRead := 8, shift := 0, clocks := sspHalfBit s, lead := true, tail := false
                           isRead := true }
  { s with ssp := { p with readDone := false, ceActive := true, con0 := withBit p.con0 15 true, transfer := some t } }

/-- A read of SSPRTB's low byte continues a continuous read (R654). -/
def sspReadEffect (s : State) : State :=
  if s.ssp.readDone && bitOf s.ssp.con0 5 && bitOf s.ssp.con0 7 && s.ssp.transfer.isNone then sspContinue s else s

/-- The end of a transfer: chip enables (unless continuous), busy flag, request (R654 to R656). -/
def sspEnd (s : State) (wasRead : Bool) : State :=
  let p := s.ssp
  ({ s with ssp := { p with transfer := none, con0 := withBit p.con0 15 false, readDone := wasRead
                            ceActive := p.ceActive && bitOf p.con0 5 } }).request .xp1

/-- The position of the next received bit (SSPHB). -/
def sspReadIndex (con0 : Word) (toRead : Nat) : Nat := if bitOf con0 6 then toRead - 1 else 8 - toRead

/-- The end of the current phase of a transfer: after the lead the first bit; after a bit the next one, or the half
bit time after the last; after that the end (R654, R655). A sent bit is on the line for its whole bit time. -/
def sspPhaseEnd (s : State) (t : SspTransfer) (bitClocks : Nat) : State :=
  let p := s.ssp
  let begin (t : SspTransfer) : State :=
    match t.out with
    | b :: _ => { s with ssp := { p with dat := b, transfer := some { t with clocks := bitClocks, lead := false } } }
    | [] =>
      if 0 < t.toRead then { s with ssp := { p with transfer := some { t with clocks := bitClocks, lead := false } } }
      else { s with ssp := { p with transfer := some { t with clocks := sspHalfBit s, lead := false, tail := true } } }
  if t.tail then sspEnd s t.isRead
  else if t.lead then begin t
  else
    match t.out with
    | _ :: rest => begin { t with out := rest }
    | [] =>
      let t' := { t with toRead := t.toRead - 1 }
      if t'.toRead = 0 then
        { s with ssp := { p with rtb := merge 0x00FF p.rtb (t'.shift.setWidth 16)
                                 transfer := some { t' with clocks := sspHalfBit s, tail := true } } }
      else begin t'

/-- The clock of the latching edge: in the middle of a bit that is clocked in, the level of SSPDAT is taken (R651, R654). -/
def sspLatch (s : State) (t : SspTransfer) (bitClocks : Nat) : SspTransfer :=
  if !t.lead && !t.tail && t.out.isEmpty && decide (t.clocks = bitClocks / 2 + 1) && pinSspdat s then
    { t with shift := t.shift ||| (1#8 <<< sspReadIndex s.ssp.con0 t.toRead) }
  else t

/-- One CPU clock of the SSP (C163 with XPEN = 1). -/
def clockSsp (s : State) : State :=
  if sspOn s then
    match s.ssp.transfer, sspBitClocks s with
    | some t0, some n =>
      let t := sspLatch s t0 n
      if t.clocks ≤ 1 then sspPhaseEnd s t n
      else { s with ssp := { s.ssp with transfer := some { t with clocks := t.clocks - 1 } } }
    | _, _ => s
  else s

/-- A transfer with SSPCKS = 111b and no parameter SSP_CKS7 (U28). -/
def sspRefusal (s : State) : Option Refusal :=
  if sspOn s && s.ssp.transfer.isSome && (sspBitClocks s).isNone then some .reservedSspClock else none

/-- Read an SSP register (R650); an address without a register delivers any value (U27). -/
def readSspWord (s : State) (offset : Nat) : Word :=
  match offset with
  | 0 => s.ssp.con0
  | 2 => s.ssp.con1
  | 4 => s.ssp.rtb
  | 6 => s.ssp.tbh
  | _ => s.freeWord

/-- Write the bits `mask` of an SSP register; writes elsewhere in the window are ignored (R650 to R655, U27).
DESIGN CHOICE: bits 15..8 of SSPTBH, whose figure is lost (N9), are stored and read back; R650 gives a meaning to the low byte
only (log entry 57). -/
def writeSspMasked (offset : Nat) (mask v : Word) (s : State) : State :=
  let p := s.ssp
  match offset with
  | 0 =>
    let con0 := merge (mask &&& 0x03FF) p.con0 v
    let ce := if bitOf p.con0 5 && !bitOf con0 5 && p.transfer.isNone then false else p.ceActive
    { s with ssp := { p with con0 := con0, ceActive := ce } }
  | 2 => { s with ssp := { p with con1 := merge (mask &&& 0x001F) p.con1 v } }
  | 4 =>
    let s1 := { s with ssp := { p with rtb := merge mask p.rtb v, b1Loaded := p.b1Loaded || bitOf mask 8 } }
    if bitOf mask 0 then sspStart s1 else s1
  | 6 => { s with ssp := { p with tbh := merge mask p.tbh v, b2Loaded := p.b2Loaded || bitOf mask 0 } }
  | _ => s

end Sys2Proof.Machine
end

