-- ==== Sys2Proof/Machine/Timers.lean ====
section
/-! DEFINITION. The general purpose timer units GPT1 and GPT2 and the watchdog timer, one CPU clock at a time.
Spec: 63_timers.md rules R520 to R554 (GPT), R580 to R585 (watchdog), decision D27. -/

namespace Sys2Proof.Machine

/-! ## Common rules -/

/-- `Down(x)`: TxUD XOR (TxUDE AND TxEUD) (R523). Bit 7 is TxUD, bit 8 is TxUDE in every control register. -/
def countsDown (con : Word) (eud : Bool) : Bool := bitOf con 7 != (bitOf con 8 && eud)

/-- One count (R523). -/
def countOnce (down : Bool) (t : Word) : Word := if down then t - 1 else t + 1

/-- Overflow or underflow of the new value (R523). -/
def countWraps (down : Bool) (new : Word) : Bool := if down then new == 0xFFFF else new == 0

/-- TxM (R526, R531, R541, R546). -/
def timerMode (con : Word) : Nat := fieldNat con 3 3

/-- The prescaler runs: timer mode, or gated timer mode with the gate active, and TxR = 1 (R527, R529, R542). -/
def prescalerRuns (con : Word) (gate : Bool) : Bool :=
  bitOf con 6 && (timerMode con == 0 || (timerMode con == 2 && !gate) || (timerMode con == 3 && gate))

/-- An input edge selected by bits 1..0 of a field: bit 0 rising, bit 1 falling (R530, R532, R543, R548, R550). -/
def edgeSelected (field : Nat) (old new : Bool) : Bool :=
  (field.testBit 0 && !old && new) || (field.testBit 1 && old && !new)

/-- One CPU clock of a prescaler with factor `p`: does the timer count, and the clocks left to the next count. With no
fixed phase the first count comes after k clocks, 1 <= k <= p, k free (R524, D27). -/
def prescale (runs : Bool) (p : Nat) (psc : Option Nat) (free : Word) : Bool × Option Nat :=
  if runs then
    let left := match psc with
      | some n => n
      | none => 1 + free.toNat % p
    if left ≤ 1 then (true, some p) else (false, some (left - 1))
  else (false, none)

/-- A core timer, T3 or T6, runs with a reserved code (U22): TxM = 1xx, or TxI = 1xx in counter mode. With TxR = 0 it stops
whatever the code is (R526, R530, R541, R543). -/
def coreCodeReserved (con : Word) : Bool :=
  bitOf con 6 && (decide (4 ≤ timerMode con) || (timerMode con == 1 && bitOf con 2))

/-- T2 or T4 runs with the reserved mode 11x (U22). With TxR = 0 it stops (R531): the only modes that R534 and R535 have act
whatever TxR is are reload and capture. DESIGN CHOICE: a reserved mode is none of them (log entry 64). -/
def auxCodeReserved (con : Word) : Bool := bitOf con 6 && decide (6 ≤ timerMode con)

/-- A timer runs with a reserved code (U22). -/
def timerCodeReserved (g : Gpt) : Bool :=
  coreCodeReserved g.t3con || coreCodeReserved g.t6con || auxCodeReserved g.t2con || auxCodeReserved g.t4con

/-! ## GPT1 -/

/-- What T3 signals to T2 and T4 in one clock: a transition of T3OTL (or T6OTL) made by the core timer (R528, R545). -/
structure ToggleSignal where
  rose : Bool
  fell : Bool
deriving DecidableEq, Repr

/-- No transition. -/
def ToggleSignal.none : ToggleSignal := { rose := false, fell := false }

/-- One count of T3 with its consequences (R523, R528). -/
def countT3 (s : State) : State × ToggleSignal :=
  let down := countsDown s.gpt.t3con (pinT3eud s)
  let new := countOnce down s.gpt.t3
  let wraps := countWraps down new
  let otl := bitOf s.gpt.t3con 10
  let con := if wraps then withBit s.gpt.t3con 10 (!otl) else s.gpt.t3con
  (({ s with gpt := { s.gpt with t3 := new, t3con := con } }).requestIf wraps .t3,
   { rose := wraps && !otl, fell := wraps && otl })

/-- `Trigger(x)` of an auxiliary timer: an input edge at a sample point, or the toggle latch (R532, R548). -/
def auxTrigger (con : Word) (sample old new : Bool) (sig : ToggleSignal) : Bool :=
  let i := fieldNat con 0 3
  if i.testBit 2 then (i.testBit 0 && sig.rose) || (i.testBit 1 && sig.fell) else sample && edgeSelected i old new

/-- T2 in one clock, after T3 (R532, R534, R535): `tick` is its prescaler, `captured` the value a capture sees. -/
def stepT2 (s : State) (tick sample old new : Bool) (sig : ToggleSignal) (captured : Word) : State :=
  let con := s.gpt.t2con
  let trigger := auxTrigger con sample old new sig
  let counts := tick || (timerMode con == 1 && bitOf con 6 && trigger)
  if timerMode con = 4 then
    if trigger then ({ s with gpt := { s.gpt with t3 := s.gpt.t2 } }).request .t2 else s
  else if timerMode con = 5 then
    if sample && edgeSelected (fieldNat con 0 2) old new then
      ({ s with gpt := { s.gpt with t2 := captured } }).request .t2
    else s
  else if counts then
    let down := countsDown con (pinT2eud s)
    let v := countOnce down s.gpt.t2
    ({ s with gpt := { s.gpt with t2 := v } }).requestIf (countWraps down v) .t2
  else s

/-- T4 in one clock, after T2, so that its reload wins (R532, R534, R535). -/
def stepT4 (s : State) (tick sample old new : Bool) (sig : ToggleSignal) (captured : Word) : State :=
  let con := s.gpt.t4con
  let trigger := auxTrigger con sample old new sig
  let counts := tick || (timerMode con == 1 && bitOf con 6 && trigger)
  if timerMode con = 4 then
    if trigger then ({ s with gpt := { s.gpt with t3 := s.gpt.t4 } }).request .t4 else s
  else if timerMode con = 5 then
    if sample && edgeSelected (fieldNat con 0 2) old new then
      ({ s with gpt := { s.gpt with t4 := captured } }).request .t4
    else s
  else if counts then
    let down := countsDown con (pinT4eud s)
    let v := countOnce down s.gpt.t4
    ({ s with gpt := { s.gpt with t4 := v } }).requestIf (countWraps down v) .t4
  else s

/-- Prescaler factor of a GPT1 timer: 8 * 2^TxI (R527). -/
def gpt1Factor (con : Word) : Nat := 8 * 2 ^ fieldNat con 0 3

/-- Prescaler factor of a GPT2 timer: 4 * 2^TxI (R542). -/
def gpt2Factor (con : Word) : Nat := 4 * 2 ^ fieldNat con 0 3

/-- Levels of T2EUD to T6EUD, in bits 2 to 6. -/
def eudLevels (s : State) : Word :=
  bitWord 2 (pinT2eud s) ||| bitWord 3 (pinT3eud s) ||| bitWord 4 (pinT4eud s) ||| bitWord 5 (pinT5eud s)
    ||| bitWord 6 (pinT6eud s)

/-- One of three values, which one is free. -/
def oneOf (f a b c : Word) : Word :=
  match f.toNat % 3 with
  | 0 => a
  | 1 => b
  | _ => c

/-- One CPU clock of GPT1 (R525 to R535, order R554). The free values used: the three prescaler phases, and for each of T2
and T4 which value a capture sees that coincides with a count of T3, or with the reload of T3 by the other auxiliary timer:
T3 before the count, after it, or after the reload (log entry 41). -/
def clockGpt1 (s0 : State) : State :=
  let s := s0.advanceFree 5
  let sample := decide (s.gpt.sample1 ≤ 1)
  let in2 := pinT2in s
  let in3 := pinT3in s
  let in4 := pinT4in s
  let old := s.gpt
  let p3 := prescale (prescalerRuns old.t3con in3) (gpt1Factor old.t3con) old.psc3 (Config.freeWord s0.free)
  let p2 := prescale (prescalerRuns old.t2con in2) (gpt1Factor old.t2con) old.psc2 (Config.freeWord (s0.free + 1))
  let p4 := prescale (prescalerRuns old.t4con in4) (gpt1Factor old.t4con) old.psc4 (Config.freeWord (s0.free + 2))
  let count3 := p3.1 || (sample && timerMode old.t3con == 1 && bitOf old.t3con 6
    && edgeSelected (fieldNat old.t3con 0 3) old.t3in in3)
  let (s1, sig) := if count3 then countT3 s else (s, ToggleSignal.none)
  let reload4 := timerMode old.t4con == 4 && auxTrigger old.t4con sample old.t4in in4 sig
  let seen2 := oneOf (Config.freeWord (s0.free + 3)) old.t3 s1.gpt.t3 (if reload4 then old.t4 else s1.gpt.t3)
  let s2 := stepT2 s1 p2.1 sample old.t2in in2 sig seen2
  let seen4 := oneOf (Config.freeWord (s0.free + 4)) old.t3 s1.gpt.t3 s2.gpt.t3
  let s3 := stepT4 s2 p4.1 sample old.t4in in4 sig seen4
  { s3 with gpt := { s3.gpt with
      psc2 := p2.2, psc3 := p3.2, psc4 := p4.2
      sample1 := if sample then 8 else old.sample1 - 1
      t2in := if sample then in2 else old.t2in
      t3in := if sample then in3 else old.t3in
      t4in := if sample then in4 else old.t4in
      eud := if sample then merge 0x001C old.eud (eudLevels s) else old.eud } }

/-! ## GPT2 -/

/-- One count of T6 with its consequences (R523, R545, R551). -/
def countT6 (s : State) : State × ToggleSignal :=
  let down := countsDown s.gpt.t6con (pinT6eud s)
  let new := countOnce down s.gpt.t6
  let wraps := countWraps down new
  let otl := bitOf s.gpt.t6con 10
  let con := if wraps then withBit s.gpt.t6con 10 (!otl) else s.gpt.t6con
  let val := if wraps && bitOf s.gpt.t6con 15 then s.gpt.caprel else new
  (({ s with gpt := { s.gpt with t6 := val, t6con := con } }).requestIf wraps .t6,
   { rose := wraps && !otl, fell := wraps && otl })

/-- T5's count in one clock, after T6 (R547, R548). -/
def stepT5 (s : State) (tick sample old new : Bool) (sig : ToggleSignal) : State :=
  let con := s.gpt.t5con
  let counts := tick || (timerMode con == 1 && bitOf con 6 && auxTrigger con sample old new sig)
  if counts then
    let down := countsDown con (pinT5eud s)
    let v := countOnce down s.gpt.t5
    ({ s with gpt := { s.gpt with t5 := v } }).requestIf (countWraps down v) .t5
  else s

/-- A selected transition on CAPIN: capture, clear, request (R550). -/
def captureT5 (s : State) : State :=
  let caprel := if bitOf s.gpt.t5con 15 then s.gpt.t5 else s.gpt.caprel
  let t5 := if bitOf s.gpt.t5con 14 then 0 else s.gpt.t5
  ({ s with gpt := { s.gpt with caprel := caprel, t5 := t5 } }).request .cr

/-- One CPU clock of GPT2 (R525, R542 to R551, order R554): T6's count with its reload comes first, and whether a capture
that coincides with a count of T5 comes before or after it is free (log entry 41). -/
def clockGpt2 (s0 : State) : State :=
  let s := s0.advanceFree 3
  let sample := decide (s.gpt.sample2 ≤ 1)
  let in5 := pinT5in s
  let in6 := pinT6in s
  let cap := pinCapin s
  let old := s.gpt
  let p6 := prescale (prescalerRuns old.t6con in6) (gpt2Factor old.t6con) old.psc6 (Config.freeWord s0.free)
  let p5 := prescale (prescalerRuns old.t5con in5) (gpt2Factor old.t5con) old.psc5 (Config.freeWord (s0.free + 1))
  let count6 := p6.1 || (sample && timerMode old.t6con == 1 && bitOf old.t6con 6
    && edgeSelected (fieldNat old.t6con 0 3) old.t6in in6)
  let early := bitOf (Config.freeWord (s0.free + 2)) 0
  let captures := sample && edgeSelected (fieldNat old.t5con 12 2) old.capin cap
  let captureIf (now : Bool) (t : State) : State := if captures && now then captureT5 t else t
  let (s1, sig) := if count6 then countT6 s else (s, ToggleSignal.none)
  let s3 := captureIf (!early) (stepT5 (captureIf early s1) p5.1 sample old.t5in in5 sig)
  { s3 with gpt := { s3.gpt with
      psc5 := p5.2, psc6 := p6.2
      sample2 := if sample then 4 else old.sample2 - 1
      t5in := if sample then in5 else old.t5in
      t6in := if sample then in6 else old.t6in
      capin := if sample then cap else old.capin
      eud := if sample then merge 0x0060 old.eud (eudLevels s) else old.eud } }

/-! ## Writes by the CPU (R522) -/

/-- The register's value. -/
def TimerReg.get (r : TimerReg) (g : Gpt) : Word :=
  match r with
  | .t2 => g.t2
  | .t3 => g.t3
  | .t4 => g.t4
  | .t5 => g.t5
  | .t6 => g.t6
  | .caprel => g.caprel

/-- The timer units with that value in the register. -/
def TimerReg.set (r : TimerReg) (v : Word) (g : Gpt) : Gpt :=
  match r with
  | .t2 => { g with t2 := v }
  | .t3 => { g with t3 := v }
  | .t4 => { g with t4 := v }
  | .t5 => { g with t5 := v }
  | .t6 => { g with t6 := v }
  | .caprel => { g with caprel := v }

/-- A write of a timer register: its step, which has priority over timer events, lasts until the step's clocks have passed
(R522). -/
def State.writeTimer (s : State) (r : TimerReg) (v : Word) : State :=
  { s with gpt := r.set v s.gpt, marks := { s.marks with timerWrite := some { reg := r, before := r.get s.gpt } } }

/-- One CPU clock of both timer units. In the clocks of the step that wrote a timer register, of which the last one leaves
`clocks` at 0, the register keeps the value written whatever a count, reload or capture makes of it (R522, R55). DESIGN CHOICE:
"the same step" of R522 are all clocks of that step. DESIGN CHOICE: the timer events in these clocks happen all the same and act
on the register as it would be without the write, so that a request flag, a toggle, or a transfer to another register that they
cause is not lost; R522 speaks of the register's value only (log entry 66). -/
def clockTimers (s : State) : State :=
  match s.marks.timerWrite with
  | none => clockGpt2 (clockGpt1 s)
  | some w =>
    let t := clockGpt2 (clockGpt1 { s with gpt := w.reg.set w.before s.gpt })
    { t with
      gpt := w.reg.set (w.reg.get s.gpt) t.gpt
      marks := { t.marks with timerWrite := if s.clocks = 0 then none else some { w with before := w.reg.get t.gpt } } }

/-! ## Watchdog timer -/

/-- The watchdog's divider: 2 or 128 CPU clocks per count (R582). -/
def wdtFactor (wdtcon : Word) : Nat := if bitOf wdtcon 0 then 128 else 2

/-- One CPU clock of the watchdog (R582): the new state, and whether it overflowed (R583). -/
def clockWdt (s0 : State) : State × Bool :=
  let s := s0.advanceFree 1
  let p := prescale (!s.wdt.disabled) (wdtFactor s.wdt.wdtcon) s.wdt.psc (Config.freeWord s0.free)
  let w := { s.wdt with psc := p.2, wdt := if p.1 then s.wdt.wdt + 1 else s.wdt.wdt }
  ({ s with wdt := w }, p.1 && s.wdt.wdt == 0xFFFF)

/-- SRVWDT's service of the watchdog (R319, R584): WDT <- WDTREL : 00h, WDTR <- 0, DISWDT locked; the divider's phase
is free afterwards (D27). -/
def serviceWatchdog (w : Wdt) : Wdt :=
  { w with wdt := w.wdtcon &&& 0xFF00, wdtcon := withBit w.wdtcon 1 false, psc := none, disLocked := true }

end Sys2Proof.Machine
end

