-- ==== Sys2Proof/Machine/Sfr.lean ====
section
/-! DEFINITION. The special function registers: their addresses, what a read delivers and does, what a write does.
Spec: 10_state.md rules R27 to R58 (table R57), and the layout rule of each register. -/

namespace Sys2Proof.Machine

/-- Every SFR and ESFR of 10_state.md rule R57. -/
inductive Sfr where
  | dpp0 | dpp1 | dpp2 | dpp3 | csp | mdh | mdl | cp | sp | stkov | stkun | mdc | psw | syscon | zeros | ones | tfr
  | addrsel1 | addrsel2 | addrsel3 | addrsel4 | buscon0 | buscon1 | buscon2 | buscon3 | buscon4 | rp0h
  | t2 | t3 | t4 | t5 | t6 | caprel | t2con | t3con | t4con | t5con | t6con
  | wdt | wdtcon
  | s0tbuf | s0rbuf | s0bg | s0con
  | ssctb | sscrb | sscbr | ssccon
  | p0l | p0h | p1l | p1h | p2 | p3 | p4 | p5 | p6
  | dp0l | dp0h | dp1l | dp1h | dp2 | dp3 | dp4 | dp6 | odp2 | odp3 | odp6 | exicon
  | ic (n : IrqNode)
  | pecc (x : Fin 8)
deriving DecidableEq, Repr

/-- Address of a node's interrupt control register (R340). -/
def nodeAddr (n : IrqNode) : Nat :=
  match n with
  | .cc8 => 0xFF88 | .cc9 => 0xFF8A | .cc10 => 0xFF8C | .cc11 => 0xFF8E | .cc12 => 0xFF90 | .cc13 => 0xFF92
  | .cc14 => 0xFF94 | .cc15 => 0xFF96
  | .t2 => 0xFF60 | .t3 => 0xFF62 | .t4 => 0xFF64 | .t5 => 0xFF66 | .t6 => 0xFF68 | .cr => 0xFF6A
  | .s0t => 0xFF6C | .s0tb => 0xF19C | .s0r => 0xFF6E | .s0e => 0xFF70
  | .ssct => 0xFF72 | .sscr => 0xFF74 | .ssce => 0xFF76
  | .xp0 => 0xF186 | .xp1 => 0xF18E | .xp2 => 0xF196 | .xp3 => 0xF19E
  | .cc29 => 0xF184 | .cc30 => 0xF18C | .cc31 => 0xF194

/-- 16-bit address of a register (R57). -/
def sfrAddr (r : Sfr) : Nat :=
  match r with
  | .dpp0 => 0xFE00 | .dpp1 => 0xFE02 | .dpp2 => 0xFE04 | .dpp3 => 0xFE06 | .csp => 0xFE08 | .mdh => 0xFE0C
  | .mdl => 0xFE0E | .cp => 0xFE10 | .sp => 0xFE12 | .stkov => 0xFE14 | .stkun => 0xFE16
  | .addrsel1 => 0xFE18 | .addrsel2 => 0xFE1A | .addrsel3 => 0xFE1C | .addrsel4 => 0xFE1E
  | .t2 => 0xFE40 | .t3 => 0xFE42 | .t4 => 0xFE44 | .t5 => 0xFE46 | .t6 => 0xFE48 | .caprel => 0xFE4A
  | .wdt => 0xFEAE | .s0tbuf => 0xFEB0 | .s0rbuf => 0xFEB2 | .s0bg => 0xFEB4
  | .pecc x => 0xFEC0 + 2 * x.val
  | .p0l => 0xFF00 | .p0h => 0xFF02 | .p1l => 0xFF04 | .p1h => 0xFF06 | .buscon0 => 0xFF0C | .mdc => 0xFF0E
  | .psw => 0xFF10 | .syscon => 0xFF12 | .buscon1 => 0xFF14 | .buscon2 => 0xFF16 | .buscon3 => 0xFF18
  | .buscon4 => 0xFF1A | .zeros => 0xFF1C | .ones => 0xFF1E
  | .t2con => 0xFF40 | .t3con => 0xFF42 | .t4con => 0xFF44 | .t5con => 0xFF46 | .t6con => 0xFF48
  | .p5 => 0xFFA2 | .tfr => 0xFFAC | .wdtcon => 0xFFAE | .s0con => 0xFFB0 | .ssccon => 0xFFB2
  | .p2 => 0xFFC0 | .dp2 => 0xFFC2 | .p3 => 0xFFC4 | .dp3 => 0xFFC6 | .p4 => 0xFFC8 | .dp4 => 0xFFCA
  | .p6 => 0xFFCC | .dp6 => 0xFFCE
  | .ssctb => 0xF0B0 | .sscrb => 0xF0B2 | .sscbr => 0xF0B4
  | .dp0l => 0xF100 | .dp0h => 0xF102 | .dp1l => 0xF104 | .dp1h => 0xF106 | .rp0h => 0xF108
  | .exicon => 0xF1C0 | .odp2 => 0xF1C2 | .odp3 => 0xF1C6 | .odp6 => 0xF1CE
  | .ic n => nodeAddr n

/-- The registers that are not interrupt control or PEC control registers. -/
def plainSfrs : List Sfr :=
  [.dpp0, .dpp1, .dpp2, .dpp3, .csp, .mdh, .mdl, .cp, .sp, .stkov, .stkun, .mdc, .psw, .syscon, .zeros, .ones, .tfr,
   .addrsel1, .addrsel2, .addrsel3, .addrsel4, .buscon0, .buscon1, .buscon2, .buscon3, .buscon4, .rp0h]
  ++ [.t2, .t3, .t4, .t5, .t6, .caprel, .t2con, .t3con, .t4con, .t5con, .t6con, .wdt, .wdtcon,
   .s0tbuf, .s0rbuf, .s0bg, .s0con, .ssctb, .sscrb, .sscbr, .ssccon]
  ++ [.p0l, .p0h, .p1l, .p1h, .p2, .p3, .p4, .p5, .p6, .dp0l, .dp0h, .dp1l, .dp1h, .dp2, .dp3, .dp4, .dp6,
   .odp2, .odp3, .odp6, .exicon]

/-- All registers of R57. -/
def allSfrs : List Sfr :=
  plainSfrs ++ allNodes.map Sfr.ic ++ [.pecc 0, .pecc 1, .pecc 2, .pecc 3, .pecc 4, .pecc 5, .pecc 6, .pecc 7]

/-- Does the device have this register (R3, R57; of the interrupt control registers see `nodeRegisterPresent`)? -/
def sfrPresent (b : Board) (r : Sfr) : Bool :=
  match r with
  | .ssctb | .sscrb | .sscbr | .ssccon => b.device == .c165
  | .ic n => nodeRegisterPresent b n
  | _ => true

/-- The register at an even (E)SFR address of this device; none at an unimplemented address (R56). -/
def sfrAt (b : Board) (a : Nat) : Option Sfr := allSfrs.find? (fun r => sfrAddr r == a && sfrPresent b r)

/-! ## Values with tied bits -/

/-- CP after a write of `v` (R43). -/
def tieCp (v : Word) : Word := if v &&& 0x0E00 = 0 then 0xFC00 ||| (v &&& 0x01FE) else 0xF000 ||| (v &&& 0x0FFE)

/-- SP, STKOV or STKUN after a write of `v` (R44 to R46). -/
def tieStack (v : Word) : Word := 0xF000 ||| (v &&& 0x0FFE)

/-- Write the PSW, explicitly or implicitly: bits 9..7 do not exist (R29); HLDEN once 1 is remembered (R500). -/
def State.setPsw (s : State) (v : Word) : State :=
  { s with cpu := { s.cpu with psw := v &&& 0xFC7F }, ebc := { s.ebc with hldenOnce := s.ebc.hldenOnce || bitOf v 10 } }

/-! ## Where the running instruction comes from -/

/-- The code address of the instruction at IP: CSP : IP, as the preceding instruction found SYSCON (R28, R94, R717). With
segmentation disabled it is in segment 0 whatever CSP holds (R28, R92, R94), or in segment CSP (R366, of a vector). DESIGN
CHOICE: which of the two is the board's parameter `flatCodeInCsp` (log entry 42). -/
def codeAddr (s : State) (ip : Word) : PhysAddr :=
  if bitOf s.prev.cpu.syscon 11 && !s.board.flatCodeInCsp then ip.setWidth 24 else (s.cpu.csp.setWidth 8 ++ ip : BitVec 24)

/-- Size of the ROM image, 0 if there is none. -/
def romSize (s : State) : Nat :=
  match s.board.rom with
  | some bytes => bytes.length
  | none => 0

/-- The part of the internal ROM area that answers at `a` under this SYSCON: the offset into the image (R86). -/
def romOffset (s : State) (syscon : Word) (a : PhysAddr) : Option Nat :=
  let n := a.toNat
  if bitOf syscon 10 then
    let base := if bitOf syscon 12 then 0x10000 else 0
    if base ≤ n ∧ n < base + 0x8000 then some (n - base)
    else if 0x8000 < romSize s ∧ 0x18000 ≤ n ∧ n < 0x10000 + romSize s then some (n - 0x10000)
    else none
  else none

/-- The internal areas of segment 0, F000h..FFFFh (R83). -/
def inInternalArea (a : PhysAddr) : Bool := decide (0xF000 ≤ a.toNat ∧ a.toNat < 0x10000)

/-- The window of the external bus from which the running instruction was fetched, if it was (R718). -/
def fetchWindow (s : State) : Option Nat :=
  let a := codeAddr s s.cpu.ip
  if inInternalArea a || (romOffset s s.prev.cpu.syscon a).isSome then none else some (selectBuscon s.prev.bus a)

/-! ## Reads -/

/-- A word of the ports that the bus owns reads as any value (R431, R433, U20). -/
def busPortWord (s : State) (owned : Bool) (dir latch pin : Word) : Word :=
  if owned then s.freeWord &&& 0x00FF else readPortWord dir latch (levelP01 dir latch pin) &&& 0x00FF

/-- The value a read of the register delivers (R57 and the register's own rule). -/
def readSfr (r : Sfr) (s : State) : Word :=
  match r with
  | .dpp0 => s.cpu.dpp0
  | .dpp1 => s.cpu.dpp1
  | .dpp2 => s.cpu.dpp2
  | .dpp3 => s.cpu.dpp3
  | .csp => s.cpu.csp
  | .mdh => s.cpu.mdh
  | .mdl => s.cpu.mdl
  | .cp => s.cpu.cp
  | .sp => s.cpu.sp
  | .stkov => s.cpu.stkov
  | .stkun => s.cpu.stkun
  | .mdc => s.cpu.mdc
  | .psw => s.cpu.psw
  | .syscon => s.cpu.syscon
  | .zeros => 0
  | .ones => 0xFFFF
  | .tfr => s.cpu.tfr
  | .addrsel1 => s.bus.addrsel1
  | .addrsel2 => s.bus.addrsel2
  | .addrsel3 => s.bus.addrsel3
  | .addrsel4 => s.bus.addrsel4
  | .buscon0 => s.bus.buscon0
  | .buscon1 => s.bus.buscon1
  | .buscon2 => s.bus.buscon2
  | .buscon3 => s.bus.buscon3
  | .buscon4 => s.bus.buscon4
  | .rp0h => s.bus.rp0h
  | .t2 => s.gpt.t2
  | .t3 => s.gpt.t3
  | .t4 => s.gpt.t4
  | .t5 => s.gpt.t5
  | .t6 => s.gpt.t6
  | .caprel => s.gpt.caprel
  | .t2con => s.gpt.t2con
  | .t3con => s.gpt.t3con
  | .t4con => s.gpt.t4con
  | .t5con => s.gpt.t5con
  | .t6con => s.gpt.t6con
  | .wdt => s.wdt.wdt
  | .wdtcon => s.wdt.wdtcon
  | .s0tbuf => s.freeWord
  | .s0rbuf => s.asc.s0rbuf
  | .s0bg => s.asc.bgTimer.setWidth 16
  | .s0con => s.asc.s0con
  | .ssctb => s.freeWord
  | .sscrb => s.ssc.rb
  | .sscbr => if s.ssc.en then s.ssc.timer else s.ssc.br
  | .ssccon => readSsccon s.ssc
  | .p0l => busPortWord s (busEnabled s.prev.bus) s.prev.ports.dp0l s.ports.p0l s.pins.p0l
  | .p0h => busPortWord s (busUsesP0h s.prev.bus) s.prev.ports.dp0h s.ports.p0h s.pins.p0h
  | .p1l => busPortWord s (busUsesPort1 s.prev.bus) s.prev.ports.dp1l s.ports.p1l s.pins.p1l
  | .p1h => busPortWord s (busUsesPort1 s.prev.bus) s.prev.ports.dp1h s.ports.p1h s.pins.p1h
  | .p2 => readPortWord s.prev.ports.dp2 s.ports.p2 (levelP2 s) &&& 0xFF00
  | .p3 => readPortWord s.prev.ports.dp3 s.ports.p3 (levelP3 s (bitOf s.freeWord 15)) &&& 0xBFFF
  | .p4 => readPortWord s.prev.ports.dp4 s.ports.p4 (levelP4 s) &&& 0x00FF
  | .p5 => levelP5 s
  | .p6 => readPortWord s.prev.ports.dp6 s.ports.p6 (levelP6 s) &&& 0x00FF
  | .dp0l => s.ports.dp0l
  | .dp0h => s.ports.dp0h
  | .dp1l => s.ports.dp1l
  | .dp1h => s.ports.dp1h
  | .dp2 => s.ports.dp2
  | .dp3 => s.ports.dp3
  | .dp4 => s.ports.dp4
  | .dp6 => s.ports.dp6
  | .odp2 => s.ports.odp2
  | .odp3 => s.ports.odp3
  | .odp6 => s.ports.odp6
  | .exicon => s.ports.exicon
  | .ic n => (s.icOf n).setWidth 16
  | .pecc x => s.pecc[x]

/-- The read side effects (R106): MDL clears MDRIU, the receive buffers become read; a free value is used up. -/
def sfrReadEffect (r : Sfr) (s : State) : State :=
  match r with
  | .mdl => { s with cpu := { s.cpu with mdc := s.cpu.mdc &&& 0xFFEF } }
  | .s0rbuf => { s with asc := { s.asc with rbufUnread := false } }
  | .sscrb => { s with ssc := { s.ssc with rbUnread := false } }
  | .s0tbuf | .ssctb => s.advanceFree 1
  | .p3 => if bitOf s.prev.cpu.syscon 8 then s.advanceFree 1 else s
  | .p0l => if busEnabled s.prev.bus then s.advanceFree 1 else s
  | .p0h => if busUsesP0h s.prev.bus then s.advanceFree 1 else s
  | .p1l | .p1h => if busUsesPort1 s.prev.bus then s.advanceFree 1 else s
  | _ => s

/-! ## Writes -/

/-- A SYSCON write that changes the ROM mapping from an instruction in the internal ROM area, old or new, or by one, or by a PEC
transfer, that has read an operand in that area (R717, U10). -/
def remapFromRom (s : State) (v : Word) : Bool :=
  let a := codeAddr s s.cpu.ip
  decide ((s.cpu.syscon ^^^ v) &&& 0x1400 ≠ 0) && !s.sys.einitDone
    && (s.marks.romRead
      || !inInternalArea a && ((romOffset s s.prev.cpu.syscon a).isSome || (romOffset s v a).isSome))

/-- A BUSCONx or ADDRSELx write that changes the window the running instruction was fetched from (R718, U35). -/
def changesOwnWindow (s : State) (x : Nat) (old new : Word) : Bool := decide (old ≠ new) && fetchWindow s == some x

/-- The writes that 93_implementation_defined.md puts outside the model (U10, U20, U26, U35). -/
def sfrWriteRefusal (r : Sfr) (v : Word) (s : State) : Option Refusal :=
  match r with
  | .syscon => if remapFromRom s v then some .romRemapped else none
  | .buscon0 => if changesOwnWindow s 0 s.bus.buscon0 (v &&& 0xD6FF) then some .busWindowChanged else none
  | .buscon1 => if changesOwnWindow s 1 s.bus.buscon1 (v &&& 0xD6FF) then some .busWindowChanged else none
  | .buscon2 => if changesOwnWindow s 2 s.bus.buscon2 (v &&& 0xD6FF) then some .busWindowChanged else none
  | .buscon3 => if changesOwnWindow s 3 s.bus.buscon3 (v &&& 0xD6FF) then some .busWindowChanged else none
  | .buscon4 => if changesOwnWindow s 4 s.bus.buscon4 (v &&& 0xD6FF) then some .busWindowChanged else none
  | .addrsel1 => if changesOwnWindow s 1 s.bus.addrsel1 v then some .busWindowChanged else none
  | .addrsel2 => if changesOwnWindow s 2 s.bus.addrsel2 v then some .busWindowChanged else none
  | .addrsel3 => if changesOwnWindow s 3 s.bus.addrsel3 v then some .busWindowChanged else none
  | .addrsel4 => if changesOwnWindow s 4 s.bus.addrsel4 v then some .busWindowChanged else none
  | .p0l => if busEnabled s.prev.bus then some .portOwnedByBus else none
  | .p0h => if busUsesP0h s.prev.bus then some .portOwnedByBus else none
  | .p1l | .p1h => if busUsesPort1 s.prev.bus then some .portOwnedByBus else none
  | .sscbr => if s.ssc.en then some .sscBaudRate else none
  | _ => none

/-- The areas whose owner a change of SYSCON changes (R717). -/
def remapped (s : State) (old new : Word) (r : RemapSet) : RemapSet :=
  let at0 (w : Word) : Bool := bitOf w 10 && !bitOf w 12
  let at1 (w : Word) : Bool := bitOf w 10 && bitOf w 12
  { low0 := r.low0 || at0 old != at0 new
    low1 := r.low1 || at1 old != at1 new
    high1 := r.high1 || (decide (0x8000 < romSize s) && bitOf old 10 != bitOf new 10) }

/-- Write SYSCON (R39, R41, R717): locked after EINIT; a changed ROM mapping stays unusable until a far branch (code)
and the reload of the DPPs (data). -/
def writeSyscon (v : Word) (s : State) : State :=
  if s.sys.einitDone then s
  else
    let new := v &&& 0xFF87
    let changed := decide ((s.cpu.syscon ^^^ new) &&& 0x1400 ≠ 0)
    let hz := if changed then
        { s.hz with codeRemap := remapped s s.cpu.syscon new s.hz.codeRemap
                    dataRemap := remapped s s.cpu.syscon new s.hz.dataRemap
                    dppStale := [0, 1, 2, 3] }
      else s.hz
    { s with cpu := { s.cpu with syscon := new }, hz := hz }

/-- DPPx has been reloaded: with all four, the remapped areas are usable for data again (R717). -/
def dppReloaded (k : Nat) (h : Hazard) : Hazard :=
  let stale := h.dppStale.filter (· ≠ k)
  { h with dppStale := stale, dataRemap := if stale.isEmpty then RemapSet.empty else h.dataRemap }

/-- Window `x` has been changed (R718): no fetch from it before the next far branch. -/
def windowChanged (s : State) (x : Nat) (old new : Word) : Hazard :=
  if old = new then s.hz else { s.hz with busChanged := x :: s.hz.busChanged }

/-- The write of the register (R57 and the register's own rule), where `sfrWriteRefusal` does not refuse it. Reserved
bits stay 0, read-only registers stay as they are (R54). A count or capture register of the timers keeps the value against
timer events until the step's clocks have passed (R522, `clockTimers`). DESIGN CHOICE: a character written to S0TBUF while a synchronous
reception runs is dropped; R601 says no more than that it starts no transmission (log entry 33). -/
def writeSfr (r : Sfr) (v : Word) (s : State) : State :=
  match r with
  | .dpp0 => { s with cpu := { s.cpu with dpp0 := v &&& 0x03FF }, hz := dppReloaded 0 s.hz }
  | .dpp1 => { s with cpu := { s.cpu with dpp1 := v &&& 0x03FF }, hz := dppReloaded 1 s.hz }
  | .dpp2 => { s with cpu := { s.cpu with dpp2 := v &&& 0x03FF }, hz := dppReloaded 2 s.hz }
  | .dpp3 => { s with cpu := { s.cpu with dpp3 := v &&& 0x03FF }, hz := dppReloaded 3 s.hz }
  | .csp => s
  | .mdh => { s with cpu := { s.cpu with mdh := v, mdc := s.cpu.mdc ||| 0x0010 } }
  | .mdl => { s with cpu := { s.cpu with mdl := v, mdc := s.cpu.mdc ||| 0x0010 } }
  | .cp => { s with cpu := { s.cpu with cp := tieCp v } }
  | .sp => { s with cpu := { s.cpu with sp := tieStack v }, marks := { s.marks with spWritten := true } }
  | .stkov => { s with cpu := { s.cpu with stkov := tieStack v } }
  | .stkun => { s with cpu := { s.cpu with stkun := tieStack v } }
  | .mdc => { s with cpu := { s.cpu with mdc := v &&& 0x00FF } }
  | .psw => { s.setPsw v with marks := { s.marks with pswWritten := true } }
  | .syscon => writeSyscon v s
  | .zeros | .ones => s
  | .tfr => { s with cpu := { s.cpu with tfr := v &&& 0xE08F } }
  | .addrsel1 => { s with bus := { s.bus with addrsel1 := v }, hz := windowChanged s 1 s.bus.addrsel1 v }
  | .addrsel2 => { s with bus := { s.bus with addrsel2 := v }, hz := windowChanged s 2 s.bus.addrsel2 v }
  | .addrsel3 => { s with bus := { s.bus with addrsel3 := v }, hz := windowChanged s 3 s.bus.addrsel3 v }
  | .addrsel4 => { s with bus := { s.bus with addrsel4 := v }, hz := windowChanged s 4 s.bus.addrsel4 v }
  | .buscon0 => { s with bus := { s.bus with buscon0 := v &&& 0xD6FF }
                         hz := windowChanged s 0 s.bus.buscon0 (v &&& 0xD6FF) }
  | .buscon1 => { s with bus := { s.bus with buscon1 := v &&& 0xD6FF }
                         hz := windowChanged s 1 s.bus.buscon1 (v &&& 0xD6FF) }
  | .buscon2 => { s with bus := { s.bus with buscon2 := v &&& 0xD6FF }
                         hz := windowChanged s 2 s.bus.buscon2 (v &&& 0xD6FF) }
  | .buscon3 => { s with bus := { s.bus with buscon3 := v &&& 0xD6FF }
                         hz := windowChanged s 3 s.bus.buscon3 (v &&& 0xD6FF) }
  | .buscon4 => { s with bus := { s.bus with buscon4 := v &&& 0xD6FF }
                         hz := windowChanged s 4 s.bus.buscon4 (v &&& 0xD6FF) }
  | .rp0h => s
  | .t2 => s.writeTimer .t2 v
  | .t3 => s.writeTimer .t3 v
  | .t4 => s.writeTimer .t4 v
  | .t5 => s.writeTimer .t5 v
  | .t6 => s.writeTimer .t6 v
  | .caprel => s.writeTimer .caprel v
  | .t2con => { s with gpt := { s.gpt with t2con := v &&& 0x01FF, psc2 := none } }
  | .t3con => { s with gpt := { s.gpt with t3con := v &&& 0x07FF, psc3 := none } }
  | .t4con => { s with gpt := { s.gpt with t4con := v &&& 0x01FF, psc4 := none } }
  | .t5con => { s with gpt := { s.gpt with t5con := v &&& 0xF1DF, psc5 := none } }
  | .t6con => { s with gpt := { s.gpt with t6con := v &&& 0x87FF, psc6 := none } }
  | .wdt => s
  | .wdtcon => { s with wdt := { s.wdt with wdtcon := merge 0xFF01 s.wdt.wdtcon v, psc := none } }
  | .s0tbuf =>
    if ascMode s.asc.s0con = 0 && s.asc.rxActive then s
    else { s with asc := { s.asc with tbuf := v.setWidth 9, tbufFull := true } }
  | .s0rbuf => s
  | .s0bg =>
    if bitOf s.asc.s0con 15 then { s with asc := { s.asc with bgReload := v.setWidth 13, bgTimer := v.setWidth 13 } }
    else { s with asc := { s.asc with bgReload := v.setWidth 13, reloadPending := true } }
  | .s0con => { s with asc := writeS0con v s.asc }
  | .ssctb => { s with ssc := { s.ssc with tb := v, tbFull := true } }
  | .sscrb => s
  | .sscbr => { s with ssc := { s.ssc with br := v } }
  | .ssccon => { s with ssc := writeSsccon v s.ssc }
  | .p0l => { s with ports := { s.ports with p0l := v &&& 0x00FF } }
  | .p0h => { s with ports := { s.ports with p0h := v &&& 0x00FF } }
  | .p1l => { s with ports := { s.ports with p1l := v &&& 0x00FF } }
  | .p1h => { s with ports := { s.ports with p1h := v &&& 0x00FF } }
  | .p2 => { s with ports := { s.ports with p2 := v &&& 0xFF00 } }
  | .p3 => { s with ports := { s.ports with p3 := v &&& 0xBFFF } }
  | .p4 => { s with ports := { s.ports with p4 := v &&& 0x00FF } }
  | .p5 => s
  | .p6 => { s with ports := { s.ports with p6 := v &&& 0x00FF } }
  | .dp0l => { s with ports := { s.ports with dp0l := v &&& 0x00FF } }
  | .dp0h => { s with ports := { s.ports with dp0h := v &&& 0x00FF } }
  | .dp1l => { s with ports := { s.ports with dp1l := v &&& 0x00FF } }
  | .dp1h => { s with ports := { s.ports with dp1h := v &&& 0x00FF } }
  | .dp2 => { s with ports := { s.ports with dp2 := v &&& 0xFF00 } }
  | .dp3 => { s with ports := { s.ports with dp3 := v &&& 0xBFFF } }
  | .dp4 => { s with ports := { s.ports with dp4 := v &&& 0x00FF } }
  | .dp6 => { s with ports := { s.ports with dp6 := v &&& 0x00FF } }
  | .odp2 => { s with ports := { s.ports with odp2 := v &&& 0xFF00 } }
  | .odp3 => { s with ports := { s.ports with odp3 := v &&& 0x2FFF } }
  | .odp6 => { s with ports := { s.ports with odp6 := v &&& 0x00FF } }
  | .exicon => { s with ports := { s.ports with exicon := v } }
  | .ic n => s.setIc n (lowByte v)
  | .pecc x => { s with pecc := s.pecc.set x (v &&& 0x07FF) }

end Sys2Proof.Machine
end

