-- ==== Sys2Proof/Machine/External.lean ====
section
/-! DEFINITION. What an operation can end in, the memory areas, and the external bus: the board's memory and devices, bus
cycles, and other masters. Spec: 20_memory.md rules R83 to R90, R102, R106, R107, R109; 62_external_bus.md rules R474 to R501;
70_reset_and_hazards.md rules R681, R714. -/

namespace Sys2Proof.Machine

/-! ## What an operation can end in -/

/-- Why an instruction does not complete. -/
inductive Stop where
  /-- A class B trap on an operand: bit 2 of TFR is ILLOPA, bit 0 ILLBUS. The instruction has no other effect (D19). -/
  | trap (flag : Nat)
  /-- The external bus is lent to another master: BREQ is driven low and the instruction waits (R501). -/
  | busHeld
  /-- The selected window waits for READY (R486). -/
  | notReady
  /-- Outside the model's domain. -/
  | refused (r : Refusal)
deriving DecidableEq, Repr

/-- A state change that can stop. -/
abbrev Op (α : Type) := StateT State (Except Stop) α

/-- Stop. -/
def stop {α : Type} (e : Stop) : Op α := fun _ => .error e

/-- A value of the state. -/
def look {α : Type} (f : State → α) : Op α := fun s => .ok (f s, s)

/-- A change of the state. -/
def update (f : State → State) : Op Unit := fun s => .ok ((), f s)

/-- Refuse if the condition holds. -/
def refuseIf (b : State → Bool) (r : Refusal) : Op Unit := fun s => if b s then .error (.refused r) else .ok ((), s)

/-! ## Trap flags -/

/-- `TFR.X <- 1` (R380, R381). -/
def State.raise (s : State) (flag : Nat) : State := { s with cpu := { s.cpu with tfr := withBit s.cpu.tfr flag true } }

/-- Raise the flag if `b`. -/
def State.raiseIf (s : State) (b : Bool) (flag : Nat) : State := if b then s.raise flag else s

/-! ## Memory areas (R83) -/

/-- What answers at a physical address. -/
inductive Area where
  | sfr (word : Nat)      -- (E)SFR area: the even address
  | iram
  | reserved
  | rom (offset : Nat)
  | ssp (offset : Nat)
  | external
deriving DecidableEq, Repr

/-- First address of the IRAM (R84). -/
def iramBase (d : Device) : Nat :=
  match d with
  | .c165 => 0xF600
  | .c163 => 0xFA00

/-- The decode order of R83 and R104, under this SYSCON. -/
def areaOf (s : State) (syscon : Word) (a : PhysAddr) : Area :=
  let n := a.toNat
  if 0xF000 ≤ n ∧ n < 0x10000 then
    if 0xFE00 ≤ n ∨ n < 0xF200 then .sfr (n - n % 2)
    else if iramBase s.board.device ≤ n then .iram
    else .reserved
  else
    match romOffset s syscon a with
    | some o => .rom o
    | none =>
      if s.board.device = .c163 ∧ bitOf syscon 2 ∧ 0xEF00 ≤ n ∧ n < 0xF000 then .ssp (n - 0xEF00) else .external

/-- The `n` bytes at `a` lie in the IRAM. -/
def inIram (d : Device) (a n : Nat) : Bool := decide (iramBase d ≤ a ∧ a + n ≤ 0xFE00)

/-! ## The board (`EXT_BUS`, R88, R493) -/

/-- How many address lines are driven: 16, and the segment lines while segmentation is enabled (R88, R490, R681). -/
def addressLines (s : State) : Nat := 16 + if bitOf s.prev.cpu.syscon 11 then 0 else segmentLines s.prev.bus

/-- The address as the board sees it: the lines that are not driven do not count (R681). -/
def seenAddress (s : State) (a : PhysAddr) : Nat := a.toNat % 2 ^ addressLines s

/-- The cell of the byte at the external address `a`, in the bank behind the window that controls it (R88, R493). -/
def externalCell (s : State) (a : PhysAddr) : Nat :=
  Memory.boardCell s.board.banks[Fin.ofNat 5 (selectBuscon s.prev.bus a)] (seenAddress s a)

/-- The cell of the byte at `a`: the address itself inside the chip, else the board's. -/
def cellOf (s : State) (a : PhysAddr) : Nat :=
  match areaOf s s.prev.cpu.syscon a with
  | .external => externalCell s a
  | _ => a.toNat

/-- The region lies behind window `x` at the seen address `n`. -/
def Region.covers (r : Region) (x n : Nat) : Bool :=
  (r.window.isNone || r.window == some x) && decide (r.low ≤ n ∧ n < r.low + r.size)

/-- What the board has at the external address `a`. -/
def regionKind (s : State) (a : PhysAddr) : RegionKind :=
  match s.board.regions.find? (·.covers (selectBuscon s.prev.bus a) (seenAddress s a)) with
  | some r => r.kind
  | none => .ram

/-- The window that controls an access at `a` has a data bus of 8 bits (BTYP bit 1, R471). -/
def byteBus (s : State) (a : PhysAddr) : Bool := !bitOf (busconOf s.prev.bus (selectBuscon s.prev.bus a)) 7

/-! ## Other bus masters (R496, R501) -/

/-- A byte or a word written to the SSP's window: a byte write leaves the other byte (R650). -/
def writeSsp (offset : Nat) (wide : Bool) (v : Word) (s : State) : State :=
  if wide then writeSspMasked offset 0xFFFF v s
  else writeSspMasked (offset - offset % 2) (if offset % 2 = 1 then 0xFF00 else 0x00FF) v s

/-- The effect of a read in the SSP's window: one that takes in SSPRTB's low byte continues a continuous read (R654). -/
def touchSsp (offset : Nat) (s : State) : State := if offset = 4 then sspReadEffect s else s

/-- An external master reaches the SSP: XPER-SHARE = 1, the SSP enabled (R40, R496), the clocks running (R702). -/
def sspShared (s : State) : Bool := bitOf s.cpu.syscon 0 && sspOn s && !poweredDown s

/-- An access of another master. -/
def masterAccess (s : State) (m : MasterAccess) : State :=
  match m with
  | .write bank a b => { s with mem := Memory.write s.mem (Memory.boardCell bank a.toNat) b }
  | .sspRead offset wide =>
    if sspShared s then touchSsp (if wide then offset.toNat - offset.toNat % 2 else offset.toNat) s else s
  | .sspWrite offset wide v =>
    if sspShared s then writeSsp (if wide then offset.toNat - offset.toNat % 2 else offset.toNat) wide v s else s

/-- Between two bus cycles of one step the bus can be lent and come back, if HLDEN = 1 (R109, R501): the next gap of the
list of gaps says what the other master does meanwhile. -/
def State.betweenCycles (s : State) : State :=
  match s.gaps with
  | [] => s
  | g :: rest => if !s.ebc.cycles.isEmpty && bitOf s.cpu.psw 10 then g.foldl masterAccess { s with gaps := rest } else s

/-! ## Bus cycles (R88, R480 to R501) -/

/-- Some active window has a reserved size (U21). -/
def anyWindowReserved (b : Bus) : Bool :=
  windowReserved b 1 || windowReserved b 2 || windowReserved b 3 || windowReserved b 4

/-- Can an external access at `a` take place now? -/
def externalStop (s : State) (a : PhysAddr) : Option Stop :=
  let b := s.prev.bus
  if !busEnabled b then some (.trap 0)
  else if anyWindowReserved b then some (.refused .reservedWindowSize)
  else if windowsOverlap b a then some (.refused .windowOverlap)
  else if s.ebc.held then some .busHeld
  else if bitOf (busconOf b (selectBuscon b a)) 12 && s.pins.ready then some .notReady
  else none

/-- The last cycle was an external one on a demultiplexed bus (R484). -/
def afterDemultiplexed (s : State) : Bool :=
  match s.ebc.cycle with
  | some c => c.strobe && !c.mux
  | none => false

/-- `BusCycleClocks` (R485): the CPU clocks of a bus cycle under the BUSCONx `con`, the wait for READY apart. `demux`: the cycle
before was on a demultiplexed bus (R484). No functional rule depends on it, and a step of the CPU takes a free number of clocks
(D1, log entry 48). -/
def busCycleClocks (con : Word) (demux : Bool) : Nat :=
  let mux := bitOf con 6
  (if mux then 3 else 2) + (if bitOf con 12 then 7 - fieldNat con 0 3 else 15 - fieldNat con 0 4)
    + (if bitOf con 9 then 1 else 0) + (if bitOf con 5 then 0 else 1) + (if mux && demux then 1 else 0)

/-- A bus cycle leaves its traces: last address, BHE, chip select (R481, R492, R495) and the cycle itself, which the board
sees, in the order of the cycles (R480). Two points are free: the level of BHE after a cycle on an 8-bit bus, to which R481
gives none (log entry 46), and whether a byte read on a
16-bit bus reads the whole word (R102). -/
def externalTrace (a : PhysAddr) (wide : Bool) (data : Option Word) (s : State) : State :=
  let x := selectBuscon s.prev.bus a
  let con := busconOf s.prev.bus x
  let addressSelect := !bitOf con 15 && !bitOf con 14
  let f := s.freeWord
  let c : BusCycle :=
    { window := some x, addr := a, lines := addressLines s, bus16 := !byteBus s a, mux := bitOf con 6
      wide := wide || (data.isNone && !byteBus s a && bitOf f 1), write := data, read := none, strobe := true
      clocks := busCycleClocks con (afterDemultiplexed s) }
  { s.advanceFree 1 with ebc := { s.ebc with
      lastAddr := a
      bheLow := if byteBus s a then bitOf f 0 else wide || a.getLsbD 0
      cs := if addressSelect && decide (x < chipSelectLines s.prev.bus) then some x else none
      cycle := some c
      cycles := s.ebc.cycles ++ [c] } }

/-- An X-Peripheral access, on a demultiplexed bus with 16 bits of data, in two clocks (R496): its address and write data show
on the bus, every chip select goes inactive, RD and WR stay inactive (R450, R492, R495). R40 says no more of SYSCON.VISIBLE = 1
than that accesses "are made visible on the external pins", while R495 reflects address and write data without naming VISIBLE.
DESIGN CHOICE: address and write data show for both values of VISIBLE, RD and WR for neither; with VISIBLE = 1 a free value says
whether the data of a read show too, with VISIBLE = 0 they do not (log entry 55). -/
def xbusTrace (a : PhysAddr) (wide : Bool) (write read : Option Word) (s : State) : State :=
  if busEnabled s.prev.bus then
    { s.advanceFree 1 with ebc := { s.ebc with
        lastAddr := a, bheLow := wide || a.getLsbD 0, cs := none
        cycle := some { window := none, addr := a, lines := addressLines s, bus16 := true, mux := false, wide := wide, write := write
                        read := if bitOf s.prev.cpu.syscon 1 && bitOf s.freeWord 0 then read else none
                        strobe := false, clocks := 2 } } }
  else s

/-! ## The prefetcher (R90, R107, R714) -/

/-- One cycle of the prefetcher: its word goes nowhere, since the fetch reads memory again (log entry 49). -/
def prefetchWord (a : PhysAddr) (s : State) : State :=
  if (externalStop s a).isSome then s
  else if byteBus s a then externalTrace (a + 1) false none (externalTrace a false none s)
  else externalTrace a true none s

/-- The first `n` of the words that may still be read ahead are read. -/
def State.readAhead (n : Nat) (s : State) : State :=
  let t := (s.ebc.ahead.take n).foldl (fun u a => prefetchWord a u) s
  { t with ebc := { t.ebc with ahead := s.ebc.ahead.drop n } }

/-- The state after a turn of the prefetcher, in which it reads a free number of the words that it may still read ahead. -/
def State.turned (s : State) : State :=
  match s.ebc.ahead with
  | [] => s
  | _ :: _ => (s.advanceFree 1).readAhead (s.freeWord.toNat % (s.ebc.ahead.length + 1))

/-- The prefetcher's turn. Fetches and data accesses are not ordered on the bus (R714, D10), so that it has one before each
data cycle and one after the instruction. It changes nothing but the bus interface's traces, the words ahead and the count of
free values. -/
def State.prefetchTurn (s : State) : State :=
  let t := s.turned
  { s with ebc := { s.ebc with lastAddr := t.ebc.lastAddr, bheLow := t.ebc.bheLow, cs := t.ebc.cs, cycle := t.ebc.cycle
                               cycles := t.ebc.cycles, ahead := t.ebc.ahead }
           free := t.free }

/-- One bus cycle. -/
def busCycle (a : PhysAddr) (wide : Bool) (data : Option Word) : Op Unit := fun s =>
  match externalStop s a with
  | some e => .error e
  | none => .ok ((), externalTrace a wide data s.prefetchTurn.betweenCycles)

/-! ## Stores to plain memory -/

/-- The addresses whose byte a store changes (R110 speaks of modified bytes). -/
def changedBytes (m : List Host.Cell) (a : Nat) (l h : Byte) : List Nat :=
  (if Memory.read m a = l then [] else [a]) ++ (if Memory.read m (a + 1) = h then [] else [a + 1])

/-- Store a word in IRAM or external memory. -/
def State.storeWord (s : State) (a : Nat) (v : Word) : State :=
  { s with mem := Memory.writeWord s.mem a v
           marks := { s.marks with stores := changedBytes s.mem a (lowByte v) (highByte v) ++ s.marks.stores } }

/-- Store a byte in IRAM or external memory. -/
def State.storeByte (s : State) (a : Nat) (v : Byte) : State :=
  { s with mem := Memory.write s.mem a v
           marks := { s.marks with stores := (if Memory.read s.mem a = v then [] else [a]) ++ s.marks.stores } }

/-! ## External reads and writes (R102, R106, R480) -/

/-- Half of a word: the byte at an even or odd address (R81). -/
def halfOf (odd : Bool) (w : Word) : Byte := if odd then highByte w else lowByte w

/-- What a device of the board answers to a read whose data the chip uses: the next of the list of answers, any value at its
end. -/
def deviceAnswer : Op Word := fun s =>
  match s.answers with
  | w :: rest => .ok (w, { s with answers := rest })
  | [] => .ok (s.freeWord, s.advanceFree 1)

/-- Read a byte of the board: one cycle. -/
def readExternalByte (a : PhysAddr) : Op Byte := do
  busCycle a false none
  let kind ← look (regionKind · a)
  match kind with
  | .device =>
    let w ← deviceAnswer
    pure (halfOf (a.getLsbD 0) w)
  | .ram | .rom => look (fun s => Memory.read s.mem (externalCell s a))

/-- Read a word of the board at an even address: one cycle, or on an 8-bit bus two, the low byte first. -/
def readExternalWord (a : PhysAddr) : Op Word := do
  let split ← look (byteBus · a)
  if split then
    let l ← readExternalByte a
    let h ← readExternalByte (a + 1)
    pure (wordOfBytes l h)
  else
    busCycle a true none
    let kind ← look (regionKind · a)
    match kind with
    | .device => deviceAnswer
    | .ram | .rom => look (fun s => Memory.readWord s.mem (externalCell s a))

/-- Write a byte of the board: one cycle, with the byte on both halves of the data bus (R481). A ROM ignores it, a device
takes it as the cycle it is. -/
def writeExternalByte (a : PhysAddr) (v : Byte) : Op Unit := do
  busCycle a false (some (wordOfBytes v v))
  let kind ← look (regionKind · a)
  match kind with
  | .ram => update (fun s => s.storeByte (externalCell s a) v)
  | .rom | .device => pure ()

/-- Write a word of the board at an even address. -/
def writeExternalWord (a : PhysAddr) (v : Word) : Op Unit := do
  let split ← look (byteBus · a)
  if split then
    writeExternalByte a (lowByte v)
    writeExternalByte (a + 1) (highByte v)
  else
    busCycle a true (some v)
    let kind ← look (regionKind · a)
    match kind with
    | .ram => update (fun s => s.storeWord (externalCell s a) v)
    | .rom | .device => pure ()

end Sys2Proof.Machine
end

