-- ==== Sys2Proof/Machine/Ops.lean ====
section
/-! DEFINITION. The shared operations of the instructions: memory and register accesses, the system stack, taking an
exception and returning from one, and the frame in which every instruction runs.
Spec: 20_memory.md rules R82 to R114, 60_exceptions.md rules R361 to R392, 70_reset_and_hazards.md rules R710 to R718. -/

namespace Sys2Proof.Machine

/-! ## SFR accesses (R54 to R56) -/

/-- Read the (E)SFR word at an even address; an unimplemented one reads 0 (R56). -/
def readSfrWord (a : Nat) : Op Word := fun s =>
  match sfrAt s.board a with
  | some r => .ok (readSfr r s, sfrReadEffect r s)
  | none => .ok (0, s)

/-- Write the (E)SFR word at an even address; a write to an unimplemented one has no effect (R56). -/
def writeSfrWord (a : Nat) (v : Word) : Op Unit := fun s =>
  match sfrAt s.board a with
  | some r =>
    match sfrWriteRefusal r v s with
    | some e => .error (.refused e)
    | none => .ok ((), writeSfr r v s)
  | none => .ok ((), s)

/-- The word a byte write stores: the other byte is cleared (R54). -/
def byteInWord (odd : Bool) (v : Byte) : Word := if odd then wordOfBytes 0 v else wordOfBytes v 0

/-! ## Physical accesses (R104) -/

/-- A byte of the ROM image (R86). -/
def romByte (s : State) (o : Nat) : Byte :=
  match s.board.rom with
  | some bytes => bytes.getD o 0
  | none => 0

/-- An operand has been read in the enabled ROM area: this instruction must not change the ROM mapping (R717, U10). -/
def State.romWasRead (s : State) : State := { s with marks := { s.marks with romRead := true } }

/-- `MemRead(A, 2)` for an even address. -/
def readPhysWord (a : PhysAddr) : Op Word := do
  let area ← look (fun s => areaOf s s.prev.cpu.syscon a)
  match area with
  | .sfr w => readSfrWord w
  | .iram => look (fun s => Memory.readWord s.mem a.toNat)
  | .reserved =>
    let v ← look State.freeWord
    update (State.advanceFree · 1)
    pure v
  | .rom o =>
    let v ← look (fun s => if o + 1 < romSize s then wordOfBytes (romByte s o) (romByte s (o + 1)) else s.freeWord)
    update (fun s => (if o + 1 < romSize s then s else s.advanceFree 1).romWasRead)
    pure v
  | .ssp o =>
    let v ← look (readSspWord · o)
    update (fun s => xbusTrace a true none (some v) (touchSsp o (if 6 < o then s.advanceFree 1 else s)))
    pure v
  | .external => readExternalWord a

/-- `MemRead(A, 1)`. -/
def readPhysByte (a : PhysAddr) : Op Byte := do
  let area ← look (fun s => areaOf s s.prev.cpu.syscon a)
  let odd := a.getLsbD 0
  match area with
  | .sfr w =>
    let v ← readSfrWord w
    pure (halfOf odd v)
  | .iram => look (fun s => Memory.read s.mem a.toNat)
  | .reserved =>
    let v ← look State.freeWord
    update (State.advanceFree · 1)
    pure (lowByte v)
  | .rom o =>
    let v ← look (fun s => if o < romSize s then romByte s o else lowByte s.freeWord)
    update (fun s => (if o < romSize s then s else s.advanceFree 1).romWasRead)
    pure v
  | .ssp o =>
    let v ← look (readSspWord · (o - o % 2))
    update (fun s => xbusTrace a false none (some v) (touchSsp o (if 7 < o then s.advanceFree 1 else s)))
    pure (halfOf odd v)
  | .external => readExternalByte a

/-- `MemWrite(A, 2, v)` for an even address. -/
def writePhysWord (a : PhysAddr) (v : Word) : Op Unit := do
  let area ← look (fun s => areaOf s s.prev.cpu.syscon a)
  match area with
  | .sfr w => writeSfrWord w v
  | .iram => update (State.storeWord · a.toNat v)
  | .reserved => stop (.refused .writeToReserved)
  | .rom _ => stop (.refused .writeToRom)
  | .ssp o => update (fun s => xbusTrace a true (some v) none (writeSsp o true v s))
  | .external => writeExternalWord a v

/-- `MemWrite(A, 1, v)`: an SFR's other byte is cleared (R54), an SSP register's is not (R650). -/
def writePhysByte (a : PhysAddr) (v : Byte) : Op Unit := do
  let area ← look (fun s => areaOf s s.prev.cpu.syscon a)
  let odd := a.getLsbD 0
  match area with
  | .sfr w => writeSfrWord w (byteInWord odd v)
  | .iram => update (State.storeByte · a.toNat v)
  | .reserved => stop (.refused .writeToReserved)
  | .rom _ => stop (.refused .writeToRom)
  | .ssp o => update (fun s => xbusTrace a false (some (wordOfBytes v v)) none (writeSsp o false (wordOfBytes v v) s))
  | .external => writeExternalByte a v

/-! ## From data addresses to physical addresses (R91 to R93) -/

/-- DPPk (R42). -/
def dppOf (c : Cpu) (k : Nat) : Word :=
  match k with
  | 0 => c.dpp0
  | 1 => c.dpp1
  | 2 => c.dpp2
  | _ => c.dpp3

/-- The DPP that a 16-bit data address selects. -/
def dppIndex (a : Word) : Nat := a.toNat / 0x4000

/-- The page or segment override, while an extension sequence is active (R93, R329). -/
def activeOverride (e : Ext) : Override := if e.count = 0 then .none else e.override

/-- Short addresses reach the ESFR space, while an extension sequence says so (R95, R329). -/
def esfrMode (e : Ext) : Bool := decide (0 < e.count) && e.esfr

/-- `DataAddr(a16)`: an override, else the selected DPP, of which two bits count with segmentation disabled. The DPPs and
SGTDIS are those before the preceding instruction's writes (R712, R717). -/
def dataAddr (s : State) (a : Word) : PhysAddr :=
  match activeOverride s.ext with
  | .page p => p ++ a.setWidth 14
  | .segment sg => sg ++ a
  | .none =>
    let dpp := dppOf s.prev.cpu (dppIndex a)
    let page : BitVec 10 := if bitOf s.prev.cpu.syscon 11 then (dpp &&& 3).setWidth 10 else dpp.setWidth 10
    page ++ a.setWidth 14

/-- Has the owner of this address been changed by a SYSCON write that is not completed yet (R717)? The expansion from 01'8000h
ends with the image (R86). -/
def inRemapped (s : State) (r : RemapSet) (a : PhysAddr) : Bool :=
  let n := a.toNat
  (r.low0 && decide (n < 0x8000)) || (r.low1 && decide (0x10000 ≤ n ∧ n < 0x18000))
    || (r.high1 && decide (0x18000 ≤ n ∧ n < 0x10000 + romSize s))

/-- A data access into a remapped area, through a DPP that has not been reloaded, or past the DPPs while one of them has
not been (R717, U10). R717 speaks of "every DPP in use". DESIGN CHOICE: in use for an access through a DPP is that DPP; for one
past them, by a page or segment override or in a PEC transfer, all four (log entry 63). -/
def dataRemapped (s : State) (a : Word) : Bool :=
  (activeOverride s.ext != .none || s.hz.dppStale.contains (dppIndex a)) && inRemapped s s.hz.dataRemap (dataAddr s a)

/-- Translate a data address. -/
def translate (a : Word) : Op PhysAddr := do
  refuseIf (dataRemapped · a) .romRemapped
  look (dataAddr · a)

/-- `ReadWordOperand` (R82, R104). -/
def readWordOperand (a : Word) : Op Word := do
  if isOdd a then stop (.trap 2)
  else
    let p ← translate a
    readPhysWord p

/-- `WriteWordOperand` (R82, R104). -/
def writeWordOperand (a v : Word) : Op Unit := do
  if isOdd a then stop (.trap 2)
  else
    let p ← translate a
    writePhysWord p v

/-- `ReadByteOperand` (R104). -/
def readByteOperand (a : Word) : Op Byte := do
  let p ← translate a
  readPhysByte p

/-- `WriteByteOperand` (R104). -/
def writeByteOperand (a : Word) (v : Byte) : Op Unit := do
  let p ← translate a
  writePhysByte p v

/-! ## General purpose registers (R20 to R25, R97, R711) -/

/-- Address of Rw[n], by the CP that the preceding instruction found (R711). -/
def gprWordAddr (s : State) (n : BitVec 4) : Nat := (s.prev.cpu.cp + 2 * n.setWidth 16).toNat

/-- Address of Rb[n]. -/
def gprByteAddr (s : State) (n : BitVec 4) : Nat := (s.prev.cpu.cp + n.setWidth 16).toNat

/-- Rw[n] lies in the IRAM (R25, U4). -/
def gprWordOk (s : State) (n : BitVec 4) : Bool := inIram s.board.device (gprWordAddr s n) 2

/-- Rb[n] lies in the IRAM. -/
def gprByteOk (s : State) (n : BitVec 4) : Bool := inIram s.board.device (gprByteAddr s n) 1

/-- The value of Rw[n]. -/
def State.gprWord (s : State) (n : BitVec 4) : Word := Memory.readWord s.mem (gprWordAddr s n)

/-- The value of Rb[n]. -/
def State.gprByte (s : State) (n : BitVec 4) : Byte := Memory.read s.mem (gprByteAddr s n)

/-- `Rw[n] <- v`. -/
def State.setGprWord (s : State) (n : BitVec 4) (v : Word) : State := s.storeWord (gprWordAddr s n) v

/-- `Rb[n] <- v`: the other byte of the word keeps its value (R21). -/
def State.setGprByte (s : State) (n : BitVec 4) (v : Byte) : State := s.storeByte (gprByteAddr s n) v

/-- Read Rw[n]. -/
def readGpr (n : BitVec 4) : Op Word := do
  refuseIf (fun s => !gprWordOk s n) .gprOutsideIram
  look (State.gprWord · n)

/-- Write Rw[n]. -/
def writeGpr (n : BitVec 4) (v : Word) : Op Unit := do
  refuseIf (fun s => !gprWordOk s n) .gprOutsideIram
  update (State.setGprWord · n v)

/-- Read Rb[n]. -/
def readGprB (n : BitVec 4) : Op Byte := do
  refuseIf (fun s => !gprByteOk s n) .gprOutsideIram
  look (State.gprByte · n)

/-- Write Rb[n]. -/
def writeGprB (n : BitVec 4) (v : Byte) : Op Unit := do
  refuseIf (fun s => !gprByteOk s n) .gprOutsideIram
  update (State.setGprByte · n v)

/-! ## The system stack (R98 to R100) -/

/-- `StackPhys(SP)` by STKSZ (R98); none for a reserved size (U6). -/
def stackPhys (s : State) (sp : Word) : Option Nat :=
  match fieldNat s.prev.cpu.syscon 13 3, s.board.device with
  | 0, _ => some (0xFA00 + sp.toNat % 0x200)
  | 1, _ => some (0xFB00 + sp.toNat % 0x100)
  | 2, _ => some (0xFB80 + sp.toNat % 0x80)
  | 3, _ => some (0xFBC0 + sp.toNat % 0x40)
  | 4, .c165 => some (0xF800 + sp.toNat % 0x400)
  | 7, _ => some sp.toNat
  | _, _ => none

/-- The stack access at this SP is outside the model: a reserved size (U6), or outside the IRAM (U5). -/
def stackRefusal (s : State) (sp : Word) : Option Refusal :=
  match stackPhys s sp with
  | none => some .reservedStackSize
  | some a => if inIram s.board.device a 2 then none else some .stackOutsideIram

/-- SP before the next push's store, or after the next pop: moved inside its eleven bits (R44). -/
def spDown (s : State) : Word := tieStack (s.cpu.sp - 2)

/-- SP after a pop (R44). -/
def spUp (s : State) : Word := tieStack (s.cpu.sp + 2)

/-- The state after a push that is not refused (R99): the store, SP, and STKOF if SP < STKOV. -/
def State.pushed (s : State) (v : Word) : State :=
  let sp := spDown s
  let s1 := ({ s with cpu := { s.cpu with sp := sp } }).storeWord ((stackPhys s sp).getD 0) v
  s1.raiseIf (decide (sp < s.cpu.stkov)) 14

/-- `Push(v)` (R99). -/
def push (v : Word) : Op Unit := fun s =>
  match stackRefusal s (spDown s) with
  | some r => .error (.refused r)
  | none => .ok ((), s.pushed v)

/-- The word on top of the stack. -/
def State.stackTop (s : State) : Word := Memory.readWord s.mem ((stackPhys s s.cpu.sp).getD 0)

/-- The state after a pop that is not refused (R99): SP, and STKUF if SP > STKUN. -/
def State.popped (s : State) : State :=
  let sp := spUp s
  ({ s with cpu := { s.cpu with sp := sp } }).raiseIf (decide (s.cpu.stkun < sp)) 13

/-- `Pop()` (R99). -/
def pop : Op Word := fun s =>
  match stackRefusal s s.cpu.sp with
  | some r => .error (.refused r)
  | none => .ok (s.stackTop, s.popped)

/-! ## Branching (R28, R280) -/

/-- `IP <- target` in the current segment. -/
def State.jumpTo (s : State) (target : Word) : State :=
  { s with cpu := { s.cpu with ip := target }, marks := { s.marks with branched := true } }

/-- `CSP, IP <- target`: a branch that can change the segment. -/
def State.farJumpTo (s : State) (seg : Byte) (target : Word) : State :=
  { s with cpu := { s.cpu with csp := seg.setWidth 16, ip := target }
           marks := { s.marks with branched := true, farBranch := true } }

/-! ## Taking an exception (R366, R367) and returning from one (R305, R368) -/

/-- SGTDIS = 0: segmentation enabled, as the preceding instruction left it usable (R717). -/
def segmented (s : State) : Bool := !bitOf s.prev.cpu.syscon 11

/-- Push CSP in segmented mode. -/
def pushCspIfSegmented : Op Unit := do
  let seg ← look segmented
  if seg then
    let csp ← look (·.cpu.csp)
    push csp
  else pure ()

/-- The common part of every interrupt entry, hardware trap entry and TRAP (R366, R367): push PSW, CSP if segmented,
and the resume address; set ILVL if a level is given; CSP <- 0 if segmented; IP <- 4 * trap number. -/
def takeException (trap : Nat) (resume : Word) (level : Option Nat) : Op Unit := do
  let psw ← look (·.cpu.psw)
  push psw
  pushCspIfSegmented
  push resume
  update (fun s =>
    let psw' := match level with
      | some l => merge 0xF000 s.cpu.psw (BitVec.ofNat 16 (l * 0x1000))
      | none => s.cpu.psw
    let csp := if segmented s then 0 else s.cpu.csp
    { s with cpu := { s.cpu with psw := psw', csp := csp, ip := BitVec.ofNat 16 (4 * trap) }
             marks := { s.marks with branched := true, farBranch := true } })

/-- RETI (R305, R368): it pops IP, CSP if segmented, PSW. MULIP = 1 in the running PSW is outside the model (U15). Then
the class in service ends (R390). The restored IEN and ILVL govern the arbitration from this boundary on (R305, D24), or one
instruction runs before the next interrupt (R372): DESIGN CHOICE, which of the two is the board's parameter `oneAfterReti`
(log entry 65). -/
def returnFromException : Op Unit := do
  refuseIf (fun s => bitOf s.cpu.psw 5) .mulipReturned
  let ip ← pop
  let seg ← look segmented
  let csp ← if seg then pop else look (·.cpu.csp)
  let psw ← pop
  update (fun s =>
    let s1 := s.setPsw psw
    { s1 with cpu := { s1.cpu with ip := ip, csp := if seg then csp &&& 0x00FF else s1.cpu.csp }
              sys := { s1.sys with inA := false, inB := s1.sys.inA && s1.sys.inB }
              marks := { s1.marks with branched := true, farBranch := true, irqHold := s1.board.oneAfterReti } })

/-! ## The frame of an instruction -/

/-- The control registers as they are now, for the next instruction to work with (R710). -/
def State.snapshot (s : State) : Prev := { cpu := s.cpu, bus := s.bus, ports := s.ports }

/-- The marks that outlast an interrupt, a PEC transfer or a trap entry: the stack trap's delay, for exactly the next
instruction (R383), and that a cache jump's target is still to be fetched (R289). -/
def Marks.kept (m : Marks) : Marks := { Marks.clear with stackDelay := m.stackDelay, cacheJump := m.cacheJump }

/-- An interrupt, a PEC transfer or a trap entry ends the pending register updates (D31). -/
def State.settle (s : State) : State := { s with prev := s.snapshot, marks := s.marks.kept }

/-- The extension sequence after one more instruction (R329). -/
def Ext.tick (e : Ext) : Ext := if e.count ≤ 1 then Ext.idle else { e with count := e.count - 1 }

/-- The memory area of a code address (R90). -/
def codeArea (s : State) (a : PhysAddr) : CodeArea :=
  match areaOf s s.cpu.syscon a with
  | .iram => .iram
  | .rom _ => .rom (a.toNat / 0x10000)
  | _ => .external (a.toNat / 0x10000)

/-- The cells of the targets that the jump cache may hold at a boundary (R110, R289): those recorded, and the target at IP of a
cache jump just taken. Its cell is the one that a fetch at this boundary reads, with SYSCON and the windows as `prev` has them
(R717, R718). R289 speaks of a target instruction that has been fetched, and no rule says what the cache holds after a taken JMPA
to an odd address, where the fetch ends in ILLINA. DESIGN CHOICE: that address is recorded as any other target (log entry 60). -/
def cachedTargets (s : State) : List Nat :=
  if s.marks.cacheJump then
    let a := cellOf s (codeAddr s s.cpu.ip)
    a :: s.hz.cacheTargets.filter (· ≠ a)
  else s.hz.cacheTargets

/-- A store has changed a byte of an instruction that the jump cache may hold (R110, premise 2); both are cells. -/
def hitsCachedTarget (s : State) (stores : List Nat) : Bool :=
  stores.any (fun x => (cachedTargets s).any (fun a => decide (a ≤ x ∧ x < a + opcodeLength (Memory.read s.mem a))))

/-- The hazard state after an instruction that began in `s` and ended in `t` (R90, R110, R717, R718). A cache jump's target is
recorded with the instruction fetched there. DESIGN CHOICE: the
"absolute branch" after which R718 lets a changed window be used again is one of the instructions that R717 lists, JMPS, CALLS,
RETS, RETI and TRAP: no interrupt or hardware trap entry, and not JMPA, CALLA or PCALL. R718 gives no list, R108 and R284 name
JMPS, R281 has JMPA as "jump absolute" (log entry 58). DESIGN CHOICE: the pushes of CALLS and TRAP, which themselves invalidate
the jump cache, count as stores into a target cached up to then, as the pushes of any other instruction do; R110 and R289 do
not say which comes first. An interrupt entry's pushes do not count (`entryHazards`, log entry 45). DESIGN CHOICE: what a
branching instruction itself stores (the pushes of the calls and TRAP, the bit of JBC and JNBS, the register of RETP) counts as
stored before its branch, so that premise (1) of R110 does not hold it against the code behind; R110 speaks of a branch between
the store and the fetch and not of a store by the branch itself (log entry 11). -/
def hazardsAfter (s t : State) : Hazard :=
  { t.hz with
    seqArea := if t.marks.branched then none else some (codeArea s (codeAddr s s.cpu.ip))
    history := if t.marks.branched then [] else (t.marks.stores :: s.hz.history).take 4
    cacheTargets := if t.marks.farBranch then [] else cachedTargets s
    codeRemap := if t.marks.farBranch then RemapSet.empty else t.hz.codeRemap
    busChanged := if t.marks.farBranch then [] else t.hz.busChanged
    cacheBroken := s.hz.cacheBroken || hitsCachedTarget s t.marks.stores }

/-- The end of an instruction of `len` bytes that began in `s` and whose body ended in `t`: IP moves on unless the
instruction branched (R26), the extension sequence counts it (R329), and the registers as they were at its beginning
become the old values for the next one (R710). -/
def finish (len : Nat) (s t : State) : State :=
  { t with
    cpu := { t.cpu with ip := if t.marks.branched then t.cpu.ip else s.cpu.ip + BitVec.ofNat 16 len }
    ext := if t.marks.extStarted then t.ext else s.ext.tick
    prev := s.snapshot
    hz := hazardsAfter s t }

/-- The state in which an instruction's body begins: the marks of the preceding instruction are gone. -/
def State.begin (s : State) : State := { s with marks := Marks.clear }

/-- An instruction abandoned by a class B trap on an operand: the flag and the advance of IP, nothing else (D19). -/
def abandon (len : Nat) (flag : Nat) (s : State) : State := finish len s (s.begin.raise flag)

/-- An instruction that waits for the external bus asks for it (R501). -/
def waitForBus (s : State) : State := { s with ebc := { s.ebc with breqLow := true } }

/-- The CPU hangs on a bus cycle that waits for READY (R486). -/
def State.stalled (s : State) (x : Stall) : State := { s with sys := { s.sys with stall := x } }

/-- Run an instruction of `len` bytes. -/
def runInstr (len : Nat) (body : Op Unit) (s : State) : Host.Outcome State Fault Refusal :=
  match body s.begin with
  | .ok (_, t) => .next (finish len s t)
  | .error (.trap flag) => .next (abandon len flag s)
  | .error .busHeld => .next (waitForBus s)
  | .error .notReady => .next (s.stalled .instr)
  | .error (.refused r) => .refused r

/-- Run an instruction that pops: right after an explicit write of SP it is outside the model (R713, U34). -/
def runPopInstr (len : Nat) (body : Op Unit) (s : State) : Host.Outcome State Fault Refusal :=
  if s.marks.spWritten then .refused .popAfterSpWrite else runInstr len body s

end Sys2Proof.Machine
end

