-- ==== Sys2Proof/Machine/Flags.lean ====
section
/-! DEFINITION. The arithmetic of the instructions with every flag computation the spec gives.
Spec: 10_state.md rules R30 to R38, 40_arithmetic.md rules R180 to R198, 41_logical.md rule R210, 42_compare_loop.md rule
R220, 43_bit.md rule R230, 44_shift_rotate_prioritize.md rules R250 to R256, 45_data_movement.md rule R260. -/

namespace Sys2Proof.Machine

/-! ## The five flags -/

/-- What an instruction does to the flags E, Z, V, C, N: none leaves a flag as it is. -/
structure FlagUpdate where
  e : Option Bool
  z : Option Bool
  v : Option Bool
  c : Option Bool
  n : Option Bool
deriving DecidableEq, Repr

/-- One flag. -/
def putFlag (bit : Nat) (b : Option Bool) (psw : Word) : Word :=
  match b with
  | some x => withBit psw bit x
  | none => psw

/-- PSW with the flags updated: E is bit 4, Z 3, V 2, C 1, N 0 (R29). -/
def FlagUpdate.apply (f : FlagUpdate) (psw : Word) : Word :=
  putFlag 4 f.e (putFlag 3 f.z (putFlag 2 f.v (putFlag 1 f.c (putFlag 0 f.n psw))))

/-- The implicit flag update of an instruction; an explicit write of PSW by the same instruction supersedes it (R38). -/
def State.setFlags (s : State) (f : FlagUpdate) : State :=
  if s.marks.pswWritten then s else { s with cpu := { s.cpu with psw := f.apply s.cpu.psw } }

/-- All five flags. -/
def allFlags (e z v c n : Bool) : FlagUpdate := { e := some e, z := some z, v := some v, c := some c, n := some n }

/-- `min_N`, the lowest negative number: the operand that sets E (R34, R180). -/
def isMin {w : Nat} (b : BitVec w) : Bool := b == BitVec.intMin w

/-! ## Addition and subtraction (R180) -/

/-- Is the exact signed result outside the N-bit range? -/
def outOfRange (w : Nat) (x : Int) : Bool := decide (x < -(2 ^ (w - 1) : Int) ∨ (2 ^ (w - 1) : Int) ≤ x)

/-- `add_N(a, b, c)`: result, carry, overflow. -/
def addN {w : Nat} (a b : BitVec w) (c : Bool) : BitVec w × Bool × Bool :=
  let s := a.toNat + b.toNat + c.toNat
  (BitVec.ofNat w s, decide (2 ^ w ≤ s), outOfRange w (a.toInt + b.toInt + c.toNat))

/-- `sub_N(a, b, c)`: result, borrow, overflow. -/
def subN {w : Nat} (a b : BitVec w) (c : Bool) : BitVec w × Bool × Bool :=
  (BitVec.ofInt w ((a.toNat : Int) - b.toNat - c.toNat), decide (a.toNat < b.toNat + c.toNat),
   outOfRange w (a.toInt - b.toInt - c.toNat))

/-- The two-operand instructions of R180, R210 and R220. -/
inductive Alu where
  | add | addc | sub | subc | and | or | xor | cmp
deriving DecidableEq, Repr

/-- Flags of an addition or subtraction; the carry forms keep Z only if it was 1 (R183). -/
def sumFlags {w : Nat} (r : BitVec w × Bool × Bool) (b : BitVec w) (zBefore : Bool) : BitVec w × FlagUpdate :=
  (r.1, allFlags (isMin b) (zBefore && r.1 == 0) r.2.2 r.2.1 r.1.msb)

/-- Flags of a logical instruction (R210). -/
def logicFlags {w : Nat} (r b : BitVec w) : BitVec w × FlagUpdate :=
  (r, allFlags (isMin b) (r == 0) false false r.msb)

/-- Result and flags of `op1 op op2` with the carry and zero flags before the instruction (R181 to R188, R211 to R216,
R221, R222). -/
def aluResult {w : Nat} (op : Alu) (a b : BitVec w) (c z : Bool) : BitVec w × FlagUpdate :=
  match op with
  | .add => sumFlags (addN a b false) b true
  | .addc => sumFlags (addN a b c) b z
  | .sub => sumFlags (subN a b false) b true
  | .subc => sumFlags (subN a b c) b z
  | .and => logicFlags (a &&& b) b
  | .or => logicFlags (a ||| b) b
  | .xor => logicFlags (a ^^^ b) b
  | .cmp => sumFlags (subN a b false) b true

/-- One's complement (R195, R196): E is the operand's. -/
def cplResult {w : Nat} (a : BitVec w) : BitVec w × FlagUpdate := logicFlags (~~~a) a

/-- Two's complement (R197, R198): 0 - a. -/
def negResult {w : Nat} (a : BitVec w) : BitVec w × FlagUpdate := sumFlags (subN 0 a false) a true

/-! ## Data movement (R260, R263, R264) -/

/-- `* * - - *`: E, Z and N from the value moved. -/
def moveFlags {w : Nat} (v : BitVec w) : FlagUpdate :=
  { e := some (isMin v), z := some (v == 0), v := none, c := none, n := some v.msb }

/-- `0 * - - *` of the extended value, for MOVBS and MOVBZ. -/
def extendFlags (r : Word) : FlagUpdate :=
  { e := some false, z := some (r == 0), v := none, c := none, n := some r.msb }

/-! ## Bits (R230 to R240, R287) -/

/-- `0 !B 0 0 B`. -/
def oneBitFlags (b : Bool) : FlagUpdate := allFlags false (!b) false false b

/-- `0 NOR OR AND XOR`. -/
def twoBitFlags (d s : Bool) : FlagUpdate := allFlags false (!(d || s)) (d || s) (d && s) (d != s)

/-- `0 * 0 0 *` of the result word (R231, R232). -/
def fieldFlags (r : Word) : FlagUpdate := allFlags false (r == 0) false false r.msb

/-! ## Shifts and rotates (R250 to R255) -/

/-- The five shift and rotate instructions. -/
inductive Shift where
  | shr | shl | ror | rol | ashr
deriving DecidableEq, Repr

/-- The result for a count of 0..15. -/
def shiftValue (op : Shift) (a : Word) (k : Nat) : Word :=
  match op with
  | .shr => a >>> k
  | .shl => a <<< k
  | .ror => a.rotateRight k
  | .rol => a.rotateLeft k
  | .ashr => a.sshiftRight k

/-- The bits below position `n`. -/
def bitsBelow (a : Word) (n : Nat) : Nat := a.toNat % 2 ^ n

/-- The last bit shifted out (R250). -/
def shiftCarry (op : Shift) (a : Word) (k : Nat) : Bool :=
  match op with
  | .shr | .ror | .ashr => decide (k ≠ 0) && bitOf a (k - 1)
  | .shl | .rol => decide (k ≠ 0) && bitOf a (16 - k)

/-- V: the OR of the bits shifted out before the last one, for the right-moving instructions (R250). -/
def shiftSticky (op : Shift) (a : Word) (k : Nat) : Bool :=
  match op with
  | .shr | .ror | .ashr => decide (1 < k) && decide (bitsBelow a (k - 1) ≠ 0)
  | .shl | .rol => false

/-- Result and flags of a shift by `k` = 0..15. -/
def shiftResult (op : Shift) (a : Word) (k : Nat) : Word × FlagUpdate :=
  let r := shiftValue op a k
  (r, allFlags false (r == 0) (shiftSticky op a k) (shiftCarry op a k) r.msb)

/-- Number of zero bits above the highest 1 among bits n-1..0 of a 16-bit word, counted from bit 15; 0 if there is no 1. -/
def leadingZeros (b : Word) : Nat → Nat
  | 0 => 0
  | n + 1 => if bitOf b n then 15 - n else leadingZeros b n

/-- PRIOR (R256). -/
def priorResult (b : Word) : Word × FlagUpdate :=
  (BitVec.ofNat 16 (leadingZeros b 16), allFlags false (b == 0) false false false)

/-! ## Multiplication and division (R189 to R194) -/

/-- What a multiply or divide leaves in MDH, MDL and the flags. -/
structure MdResult where
  mdh : Word
  mdl : Word
  z : Bool
  v : Bool
  n : Bool
deriving DecidableEq, Repr

/-- A 32-bit product (R189, R190). -/
def productResult (p : BitVec 32) (v : Bool) : MdResult :=
  { mdh := (p >>> 16).setWidth 16, mdl := p.setWidth 16, z := p == 0, v := v, n := p.msb }

/-- MUL (R189, D11). -/
def mulResult (a b : Word) : MdResult :=
  let p := a.toInt * b.toInt
  productResult (BitVec.ofInt 32 p) (outOfRange 16 p)

/-- MULU (R190). -/
def muluResult (a b : Word) : MdResult :=
  let p := a.toNat * b.toNat
  productResult (BitVec.ofNat 32 p) (decide (0xFFFF < p))

/-- Quotient and remainder in MDL and MDH (R191). -/
def quotientResult (q r : Int) : MdResult :=
  { mdh := BitVec.ofInt 16 r, mdl := BitVec.ofInt 16 q, z := q == 0, v := false, n := (BitVec.ofInt 16 q : Word).msb }

/-- A signed division: none where the result is not valid (R191, R193, D7, D8). -/
def signedDivision (a b : Int) : Option MdResult :=
  if b = 0 ∨ outOfRange 16 (a.tdiv b) then none else some (quotientResult (a.tdiv b) (a.tmod b))

/-- An unsigned division: none where the result is not valid (R192, R194). -/
def unsignedDivision (a b : Nat) : Option MdResult :=
  if b = 0 ∨ 0xFFFF < a / b then none else some (quotientResult ((a / b : Nat) : Int) ((a % b : Nat) : Int))

/-- MD as one 32-bit value (R49). -/
def mdValue (c : Cpu) : BitVec 32 := c.mdh ++ c.mdl

/-- The state after a multiply or divide with this result: MDRIU is 1, the other bits of MDC 0 (R200, D12). -/
def State.setMd (s : State) (r : MdResult) : State :=
  ({ s with cpu := { s.cpu with mdh := r.mdh, mdl := r.mdl, mdc := s.cpu.mdc ||| 0x0010 } }).setFlags
    (allFlags false r.z r.v false r.n)

/-- After an overflow or a division by 0, MDL, MDH, Z and N are free values and V is 1 (R191, D8, U37). -/
def State.setMdInvalid (s : State) : State :=
  let f := Config.freeWord
  (s.advanceFree 3).setMd
    { mdh := f s.free, mdl := f (s.free + 1), z := bitOf (f (s.free + 2)) 3, v := true, n := bitOf (f (s.free + 2)) 0 }

/-! ## Condition codes (R141) -/

/-- `cond(cc)` on the flags of a PSW. -/
def condition (cc : BitVec 4) (psw : Word) : Bool :=
  let e := bitOf psw 4
  let z := bitOf psw 3
  let v := bitOf psw 2
  let c := bitOf psw 1
  let n := bitOf psw 0
  match cc.toNat with
  | 0 => true
  | 1 => !z && !e
  | 2 => z
  | 3 => !z
  | 4 => v
  | 5 => !v
  | 6 => n
  | 7 => !n
  | 8 => c
  | 9 => !c
  | 10 => !z && n == v
  | 11 => z || n != v
  | 12 => n != v
  | 13 => n == v
  | 14 => !z && !c
  | _ => z || c

end Sys2Proof.Machine
end

