-- ==== Sys2Proof/Machine/Operands.lean ====
section
/-! DEFINITION. The operand forms: short register and bit addresses, and the shared bodies of the instruction families.
Spec: 20_memory.md rules R95, R96, R103; 30_encoding.md rules R134 to R142; 40_arithmetic.md rule R180. -/

namespace Sys2Proof.Machine

/-! ## `reg` (R95, R135) -/

/-- `reg` F0h..FFh is a GPR. -/
def regIsGpr (reg : BitVec 8) : Bool := reg.extractLsb' 4 4 == 0xF

/-- The GPR number of a `reg` or `bitoff`. -/
def regGpr (reg : BitVec 8) : BitVec 4 := reg.setWidth 4

/-- The (E)SFR address of a `reg` below F0h (R95). -/
def regSfrAddr (s : State) (reg : BitVec 8) : Nat := (if esfrMode s.ext then 0xF000 else 0xFE00) + 2 * reg.toNat

/-- The word at `RegAddr(reg)`. -/
def readReg (reg : BitVec 8) : Op Word := do
  if regIsGpr reg then readGpr (regGpr reg)
  else
    let a ← look (regSfrAddr · reg)
    readSfrWord a

/-- Write the word at `RegAddr(reg)`. -/
def writeReg (reg : BitVec 8) (v : Word) : Op Unit := do
  if regIsGpr reg then writeGpr (regGpr reg) v
  else
    let a ← look (regSfrAddr · reg)
    writeSfrWord a v

/-- The byte at `RegAddr(reg)`: a byte GPR, or the low byte of the (E)SFR (R95). -/
def readRegB (reg : BitVec 8) : Op Byte := do
  if regIsGpr reg then readGprB (regGpr reg)
  else
    let a ← look (regSfrAddr · reg)
    let v ← readSfrWord a
    pure (lowByte v)

/-- Write the byte at `RegAddr(reg)`: an (E)SFR's high byte is cleared (R54). -/
def writeRegB (reg : BitVec 8) (v : Byte) : Op Unit := do
  if regIsGpr reg then writeGprB (regGpr reg) v
  else
    let a ← look (regSfrAddr · reg)
    writeSfrWord a (v.setWidth 16)

/-- `reg` = 09h outside ESFR mode is SP (R100). -/
def regIsSp (s : State) (reg : BitVec 8) : Bool := reg == 0x09 && !esfrMode s.ext

/-! ## `bitoff` (R96, R136) -/

/-- The (E)SFR address of a `bitoff` in 80h..EFh. -/
def bitSfrAddr (s : State) (bo : BitVec 8) : Nat := (if esfrMode s.ext then 0xF100 else 0xFF00) + 2 * (bo.toNat - 0x80)

/-- The IRAM address of a `bitoff` below 80h. -/
def bitIramAddr (bo : BitVec 8) : Nat := 0xFD00 + 2 * bo.toNat

/-- The word at `BitWordAddr(bitoff)`. -/
def readBitWord (bo : BitVec 8) : Op Word := do
  if regIsGpr bo then readGpr (regGpr bo)
  else if bo.toNat < 0x80 then look (fun s => Memory.readWord s.mem (bitIramAddr bo))
  else
    let a ← look (bitSfrAddr · bo)
    readSfrWord a

/-- The phases of T3's and T6's prescalers after a write of the bits `mask` of a word: a write that reaches none of TxI, TxM
and TxR leaves the timer running as it is (R524). -/
def State.keepPhases (mask : Word) (s t : State) : State :=
  if mask &&& 0x007F = 0 then { t with gpt := { t.gpt with psc3 := s.gpt.psc3, psc6 := s.gpt.psc6 } } else t

/-- A bit instruction's write of an (E)SFR word that holds `v` in the bits `mask` and elsewhere what was read: of T3CON and
T6CON, which have protected bits, it writes these bits only (R53). -/
def writeSfrBits (a : Nat) (mask v : Word) : Op Unit := fun s =>
  match writeSfrWord a v s with
  | .ok (_, t) => .ok ((), State.keepPhases mask s t)
  | .error e => .error e

/-- Write the word at `BitWordAddr(bitoff)`, of which the instruction targets the bits `mask`. -/
def writeBitWord (bo : BitVec 8) (mask v : Word) : Op Unit := do
  if regIsGpr bo then writeGpr (regGpr bo) v
  else if bo.toNat < 0x80 then update (State.storeWord · (bitIramAddr bo) v)
  else
    let a ← look (bitSfrAddr · bo)
    writeSfrBits a mask v

/-! ## Shared bodies of the two-operand instructions (R180, R210, R220) -/

/-- The flags of an instruction. -/
def setFlags (f : FlagUpdate) : Op Unit := update (State.setFlags · f)

/-- Compute, write the result (a comparison writes nothing), set the flags. -/
def aluFinish {w : Nat} (op : Alu) (a b : BitVec w) (write : BitVec w → Op Unit) : Op Unit := do
  let psw ← look (·.cpu.psw)
  let r := aluResult op a b (bitOf psw 1) (bitOf psw 3)
  if op = .cmp then setFlags r.2
  else
    write r.1
    setFlags r.2

/-- The check of SP against its limits after ADD, ADDC (STKUN) or SUB, SUBC (STKOV) on SP as `reg`, with the one
instruction delay (R100, R383, R384, D15, D23). Where the next instruction is such a violating one too, R383 ends the first
one's delay after it and starts one of its own with it. DESIGN CHOICE: the delay starts again, so that the trap comes after the
instruction behind the last of them (log entry 19). -/
def stackLimitCheck (op : Alu) (reg : BitVec 8) : Op Unit := update (fun s =>
  if regIsSp s reg then
    match op with
    | .add | .addc =>
      if s.cpu.stkun < s.cpu.sp then { s.raise 13 with marks := { s.marks with stackDelay := true } } else s
    | .sub | .subc =>
      if s.cpu.sp < s.cpu.stkov then { s.raise 14 with marks := { s.marks with stackDelay := true } } else s
    | _ => s
  else s)

/-- Write a word result to `reg` with the stack limit check. -/
def writeAluReg (op : Alu) (reg : BitVec 8) (r : Word) : Op Unit := do
  writeReg reg r
  stackLimitCheck op reg

/-- Form 1, `Rwn,Rwm`. -/
def aluRR (op : Alu) (n m : BitVec 4) : Op Unit := do
  let a ← readGpr n
  let b ← readGpr m
  aluFinish op a b (writeGpr n)

/-- Form 2, `Rwn,[Rwi]`. -/
def aluRInd (op : Alu) (n : BitVec 4) (i : BitVec 2) : Op Unit := do
  let a ← readGpr n
  let p ← readGpr (i.setWidth 4)
  let b ← readWordOperand p
  aluFinish op a b (writeGpr n)

/-- Form 3, `Rwn,[Rwi+]`: the pointer is incremented before the result is written. -/
def aluRIndInc (op : Alu) (n : BitVec 4) (i : BitVec 2) : Op Unit := do
  let a ← readGpr n
  let p ← readGpr (i.setWidth 4)
  let b ← readWordOperand p
  writeGpr (i.setWidth 4) (p + 2)
  aluFinish op a b (writeGpr n)

/-- Form 4, `Rwn,#data3`. -/
def aluRImm3 (op : Alu) (n : BitVec 4) (d : BitVec 3) : Op Unit := do
  let a ← readGpr n
  aluFinish op a (d.setWidth 16) (writeGpr n)

/-- Form 5, `reg,#data16`. -/
def aluRegImm (op : Alu) (reg : BitVec 8) (d : Word) : Op Unit := do
  let a ← readReg reg
  aluFinish op a d (writeAluReg op reg)

/-- Form 6, `reg,mem`. -/
def aluRegMem (op : Alu) (reg : BitVec 8) (mem : Word) : Op Unit := do
  let a ← readReg reg
  let b ← readWordOperand mem
  aluFinish op a b (writeAluReg op reg)

/-- Form 7, `mem,reg`. -/
def aluMemReg (op : Alu) (mem : Word) (reg : BitVec 8) : Op Unit := do
  let a ← readWordOperand mem
  let b ← readReg reg
  aluFinish op a b (writeWordOperand mem)

/-- Byte form 1, `Rbn,Rbm`. -/
def aluRRB (op : Alu) (n m : BitVec 4) : Op Unit := do
  let a ← readGprB n
  let b ← readGprB m
  aluFinish op a b (writeGprB n)

/-- Byte form 2, `Rbn,[Rwi]`. -/
def aluRIndB (op : Alu) (n : BitVec 4) (i : BitVec 2) : Op Unit := do
  let a ← readGprB n
  let p ← readGpr (i.setWidth 4)
  let b ← readByteOperand p
  aluFinish op a b (writeGprB n)

/-- Byte form 3, `Rbn,[Rwi+]`. -/
def aluRIndIncB (op : Alu) (n : BitVec 4) (i : BitVec 2) : Op Unit := do
  let a ← readGprB n
  let p ← readGpr (i.setWidth 4)
  let b ← readByteOperand p
  writeGpr (i.setWidth 4) (p + 1)
  aluFinish op a b (writeGprB n)

/-- Byte form 4, `Rbn,#data3`. -/
def aluRImm3B (op : Alu) (n : BitVec 4) (d : BitVec 3) : Op Unit := do
  let a ← readGprB n
  aluFinish op a (d.setWidth 8) (writeGprB n)

/-- Byte form 5, `reg,#data8`. -/
def aluRegImmB (op : Alu) (reg : BitVec 8) (d : Byte) : Op Unit := do
  let a ← readRegB reg
  aluFinish op a d (writeRegB reg)

/-- Byte form 6, `reg,mem`. -/
def aluRegMemB (op : Alu) (reg : BitVec 8) (mem : Word) : Op Unit := do
  let a ← readRegB reg
  let b ← readByteOperand mem
  aluFinish op a b (writeRegB reg)

/-- Byte form 7, `mem,reg`. -/
def aluMemRegB (op : Alu) (mem : Word) (reg : BitVec 8) : Op Unit := do
  let a ← readByteOperand mem
  let b ← readRegB reg
  aluFinish op a b (writeByteOperand mem)

/-! ## Shared bodies of the loop compares (R223 to R226) -/

/-- Compare Rwn with a value, then add a constant to Rwn; the flags are those of the comparison. -/
def cmpStep (n : BitVec 4) (b delta : Word) : Op Unit := do
  let a ← readGpr n
  writeGpr n (a + delta)
  setFlags (aluResult .cmp a b false false).2

/-- The `mem` form. -/
def cmpStepMem (n : BitVec 4) (mem delta : Word) : Op Unit := do
  let b ← readWordOperand mem
  cmpStep n b delta

/-! ## Shared bodies of the multiply and divide instructions (R189 to R194) -/

/-- MDC must hold no status bits (R200, U12). -/
def requireMdc : Op Unit := refuseIf (fun s => decide (s.cpu.mdc &&& 0x00EF ≠ 0)) .mdcNotInitialised

/-- A multiplication. -/
def multiply (f : Word → Word → MdResult) (n m : BitVec 4) : Op Unit := do
  requireMdc
  let a ← readGpr n
  let b ← readGpr m
  update (State.setMd · (f a b))

/-- A division of MD (or MDL) by Rwn. -/
def divide (f : Cpu → Word → Option MdResult) (n : BitVec 4) : Op Unit := do
  requireMdc
  let b ← readGpr n
  update (fun s =>
    match f s.cpu b with
    | some r => s.setMd r
    | none => s.setMdInvalid)

/-! ## One-operand arithmetic (R195 to R198), shifts (R250 to R256) -/

/-- Rwn <- f(Rwn). -/
def unaryWord (f : Word → Word × FlagUpdate) (n : BitVec 4) : Op Unit := do
  let a ← readGpr n
  writeGpr n (f a).1
  setFlags (f a).2

/-- Rbn <- f(Rbn). -/
def unaryByte (f : Byte → Byte × FlagUpdate) (n : BitVec 4) : Op Unit := do
  let a ← readGprB n
  writeGprB n (f a).1
  setFlags (f a).2

/-- Shift Rwn by the low four bits of Rwm. -/
def shiftByReg (op : Shift) (n m : BitVec 4) : Op Unit := do
  let k ← readGpr m
  unaryWord (shiftResult op · (k.toNat % 16)) n

/-- Shift Rwn by #data4. -/
def shiftByImm (op : Shift) (n k : BitVec 4) : Op Unit := unaryWord (shiftResult op · k.toNat) n

/-! ## Shared bodies of the moves (R261 to R264) -/

/-- `reg <- v` with the flags of a word move. -/
def moveToReg (reg : BitVec 8) (v : Word) : Op Unit := do
  writeReg reg v
  setFlags (moveFlags v)

/-- `reg <- v` with the flags of a byte move. -/
def moveToRegB (reg : BitVec 8) (v : Byte) : Op Unit := do
  writeRegB reg v
  setFlags (moveFlags v)

/-- `Rwn <- v` with the flags of a word move. -/
def moveToGpr (n : BitVec 4) (v : Word) : Op Unit := do
  writeGpr n v
  setFlags (moveFlags v)

/-- `Rbn <- v` with the flags of a byte move. -/
def moveToGprB (n : BitVec 4) (v : Byte) : Op Unit := do
  writeGprB n v
  setFlags (moveFlags v)

/-- A word store with the flags of a move. -/
def moveToMem (a v : Word) : Op Unit := do
  writeWordOperand a v
  setFlags (moveFlags v)

/-- A byte store with the flags of a move. -/
def moveToMemB (a : Word) (v : Byte) : Op Unit := do
  writeByteOperand a v
  setFlags (moveFlags v)

/-- The value `MOV [-Rwm],Rwn` stores: any value when the register is its own pointer (R261, U13). -/
def storedWord (own : Bool) (v : Word) : Op Word := do
  if own then
    let f ← look State.freeWord
    update (State.advanceFree · 1)
    pure f
  else pure v

/-- The value `MOVB [-Rwm],Rbn` stores: any value when Rbn is a half of Rwm (R262, U13). -/
def storedByte (own : Bool) (v : Byte) : Op Byte := do
  if own then
    let f ← look State.freeWord
    update (State.advanceFree · 1)
    pure (lowByte f)
  else pure v

/-- The value `PUSH SP` stores: SP before or after the decrement, which of the two is free (R271, U14). -/
def pushedSp (own : Bool) (v : Word) : Op Word := do
  if own then
    let f ← look State.freeWord
    let after ← look spDown
    update (State.advanceFree · 1)
    pure (if f.getLsbD 0 then after else v)
  else pure v

/-- Rbn is a half of Rwm (R21). -/
def isHalfOf (n m : BitVec 4) : Bool := decide (n.toNat / 2 = m.toNat)

/-! ## Bit operands (R230) -/

/-- The source bit and the destination word of a two-bit instruction; one read if both are in the same word. -/
def readTwoBitWords (zo : BitVec 8) (qo : BitVec 8) (q : BitVec 4) : Op (Bool × Word) := do
  let src ← readBitWord qo
  if qo = zo then pure (bitOf src q.toNat, src)
  else
    let dst ← readBitWord zo
    pure (bitOf src q.toNat, dst)

/-- A two-operand Boolean instruction that writes: the new bit and the flags from destination and source bit. -/
def twoBitOp (f : Bool → Bool → Bool) (fl : Bool → Bool → FlagUpdate) (zo : BitVec 8) (z : BitVec 4) (qo : BitVec 8)
    (q : BitVec 4) : Op Unit := do
  let (s, w) ← readTwoBitWords zo qo q
  let d := bitOf w z.toNat
  writeBitWord zo (bitWord z.toNat true) (withBit w z.toNat (f d s))
  setFlags (fl d s)

/-- BSET and BCLR (R233, R234). -/
def oneBitOp (v : Bool) (qo : BitVec 8) (q : BitVec 4) : Op Unit := do
  let w ← readBitWord qo
  writeBitWord qo (bitWord q.toNat true) (withBit w q.toNat v)
  setFlags (oneBitFlags (bitOf w q.toNat))

/-- BFLDH and BFLDL: masked bits of the word become 0, the data is ORed in (R231, R232). -/
def bitField (bo : BitVec 8) (mask data : Word) : Op Unit := do
  let w ← readBitWord bo
  let r := (w &&& ~~~mask) ||| data
  writeBitWord bo (mask ||| data) r
  setFlags (fieldFlags r)

/-! ## Branches (R280) -/

/-- `next_IP` (R26). -/
def nextIp (s : State) (len : Nat) : Word := s.cpu.ip + BitVec.ofNat 16 len

/-- The target of a relative branch. -/
def relTarget (next : Word) (rel : BitVec 8) : Word := next + 2 * rel.signExtend 16

/-- A taken cache jump (R289): the target may stay in the jump cache from now on (R110, `cachedTargets`). -/
def State.cacheJump (s : State) (target : Word) : State :=
  let s1 := s.jumpTo target
  { s1 with marks := { s1.marks with cacheJump := true } }

/-- A taken relative cache jump of an instruction of `len` bytes. -/
def jumpRelative (len : Nat) (rel : BitVec 8) : Op Unit := update (fun s => s.cacheJump (relTarget (nextIp s len) rel))

/-- JB, JNB: jump if the bit equals `v` (R285, R286). -/
def jumpOnBit (v : Bool) (qo : BitVec 8) (q : BitVec 4) (rel : BitVec 8) : Op Unit := do
  let w ← readBitWord qo
  if bitOf w q.toNat = v then jumpRelative 4 rel else pure ()

/-- JBC, JNBS: jump if the bit equals `v`, and invert it; the flags follow the tested bit either way (R287, R288). -/
def jumpOnBitAndChange (v : Bool) (qo : BitVec 8) (q : BitVec 4) (rel : BitVec 8) : Op Unit := do
  let w ← readBitWord qo
  if bitOf w q.toNat = v then
    writeBitWord qo (bitWord q.toNat true) (withBit w q.toNat (!v))
    setFlags (oneBitFlags v)
    jumpRelative 4 rel
  else setFlags (oneBitFlags (bitOf w q.toNat))

/-- Call a subroutine in the current segment from an instruction of `len` bytes: push next_IP, jump (R296 to R298). -/
def callTo (len : Nat) (target : Word) : Op Unit := do
  let next ← look (nextIp · len)
  push next
  update (State.jumpTo · target)

/-! ## Extension sequences (R323 to R329) -/

/-- Start a sequence: count, ESFR switch, override; it replaces a running one (D20). -/
def startSequence (count : Nat) (esfr : Bool) (o : Override) : Op Unit := update (fun s =>
  { s with ext := { count := count, esfr := esfr, override := o }, marks := { s.marks with extStarted := true } })

end Sys2Proof.Machine
end

