-- ==== Sys2Proof/Machine/Arithmetic.lean ====
section
/-! DEFINITION. The arithmetic instructions. Spec: 40_arithmetic.md. -/

namespace Sys2Proof.Machine

/-- ADD Rwn,Rwm (R181). -/
def execAddRwnRwm (n m : BitVec 4) (s : State) : Host.Outcome State Fault Refusal :=
  runInstr 2 (aluRR .add n m) s

/-- ADD reg,mem (R181). -/
def execAddRegMem (reg : BitVec 8) (mem : BitVec 16) (s : State) : Host.Outcome State Fault Refusal :=
  runInstr 4 (aluRegMem .add reg mem) s

/-- ADD mem,reg (R181). -/
def execAddMemReg (mem : BitVec 16) (reg : BitVec 8) (s : State) : Host.Outcome State Fault Refusal :=
  runInstr 4 (aluMemReg .add mem reg) s

/-- ADD reg,#data16 (R181). -/
def execAddRegData16 (reg : BitVec 8) (d : BitVec 16) (s : State) : Host.Outcome State Fault Refusal :=
  runInstr 4 (aluRegImm .add reg d) s

/-- ADD Rwn,[Rwi] (R181). -/
def execAddRwnIndRwi (n : BitVec 4) (i : BitVec 2) (s : State) : Host.Outcome State Fault Refusal :=
  runInstr 2 (aluRInd .add n i) s

/-- ADD Rwn,[Rwi+] (R181). -/
def execAddRwnIndRwiInc (n : BitVec 4) (i : BitVec 2) (s : State) : Host.Outcome State Fault Refusal :=
  runInstr 2 (aluRIndInc .add n i) s

/-- ADD Rwn,#data3 (R181). -/
def execAddRwnData3 (n : BitVec 4) (d : BitVec 3) (s : State) : Host.Outcome State Fault Refusal :=
  runInstr 2 (aluRImm3 .add n d) s

/-- ADDB Rbn,Rbm (R182). -/
def execAddbRbnRbm (n m : BitVec 4) (s : State) : Host.Outcome State Fault Refusal :=
  runInstr 2 (aluRRB .add n m) s

/-- ADDB reg,mem (R182). -/
def execAddbRegMem (reg : BitVec 8) (mem : BitVec 16) (s : State) : Host.Outcome State Fault Refusal :=
  runInstr 4 (aluRegMemB .add reg mem) s

/-- ADDB mem,reg (R182). -/
def execAddbMemReg (mem : BitVec 16) (reg : BitVec 8) (s : State) : Host.Outcome State Fault Refusal :=
  runInstr 4 (aluMemRegB .add mem reg) s

/-- ADDB reg,#data8 (R182). -/
def execAddbRegData8 (reg d : BitVec 8) (s : State) : Host.Outcome State Fault Refusal :=
  runInstr 4 (aluRegImmB .add reg d) s

/-- ADDB Rbn,[Rwi] (R182). -/
def execAddbRbnIndRwi (n : BitVec 4) (i : BitVec 2) (s : State) : Host.Outcome State Fault Refusal :=
  runInstr 2 (aluRIndB .add n i) s

/-- ADDB Rbn,[Rwi+] (R182). -/
def execAddbRbnIndRwiInc (n : BitVec 4) (i : BitVec 2) (s : State) : Host.Outcome State Fault Refusal :=
  runInstr 2 (aluRIndIncB .add n i) s

/-- ADDB Rbn,#data3 (R182). -/
def execAddbRbnData3 (n : BitVec 4) (d : BitVec 3) (s : State) : Host.Outcome State Fault Refusal :=
  runInstr 2 (aluRImm3B .add n d) s

/-- ADDC Rwn,Rwm (R183). -/
def execAddcRwnRwm (n m : BitVec 4) (s : State) : Host.Outcome State Fault Refusal :=
  runInstr 2 (aluRR .addc n m) s

/-- ADDC reg,mem (R183). -/
def execAddcRegMem (reg : BitVec 8) (mem : BitVec 16) (s : State) : Host.Outcome State Fault Refusal :=
  runInstr 4 (aluRegMem .addc reg mem) s

/-- ADDC mem,reg (R183). -/
def execAddcMemReg (mem : BitVec 16) (reg : BitVec 8) (s : State) : Host.Outcome State Fault Refusal :=
  runInstr 4 (aluMemReg .addc mem reg) s

/-- ADDC reg,#data16 (R183). -/
def execAddcRegData16 (reg : BitVec 8) (d : BitVec 16) (s : State) : Host.Outcome State Fault Refusal :=
  runInstr 4 (aluRegImm .addc reg d) s

/-- ADDC Rwn,[Rwi] (R183). -/
def execAddcRwnIndRwi (n : BitVec 4) (i : BitVec 2) (s : State) : Host.Outcome State Fault Refusal :=
  runInstr 2 (aluRInd .addc n i) s

/-- ADDC Rwn,[Rwi+] (R183). -/
def execAddcRwnIndRwiInc (n : BitVec 4) (i : BitVec 2) (s : State) : Host.Outcome State Fault Refusal :=
  runInstr 2 (aluRIndInc .addc n i) s

/-- ADDC Rwn,#data3 (R183). -/
def execAddcRwnData3 (n : BitVec 4) (d : BitVec 3) (s : State) : Host.Outcome State Fault Refusal :=
  runInstr 2 (aluRImm3 .addc n d) s

/-- ADDCB Rbn,Rbm (R184). -/
def execAddcbRbnRbm (n m : BitVec 4) (s : State) : Host.Outcome State Fault Refusal :=
  runInstr 2 (aluRRB .addc n m) s

/-- ADDCB reg,mem (R184). -/
def execAddcbRegMem (reg : BitVec 8) (mem : BitVec 16) (s : State) : Host.Outcome State Fault Refusal :=
  runInstr 4 (aluRegMemB .addc reg mem) s

/-- ADDCB mem,reg (R184). -/
def execAddcbMemReg (mem : BitVec 16) (reg : BitVec 8) (s : State) : Host.Outcome State Fault Refusal :=
  runInstr 4 (aluMemRegB .addc mem reg) s

/-- ADDCB reg,#data8 (R184). -/
def execAddcbRegData8 (reg d : BitVec 8) (s : State) : Host.Outcome State Fault Refusal :=
  runInstr 4 (aluRegImmB .addc reg d) s

/-- ADDCB Rbn,[Rwi] (R184). -/
def execAddcbRbnIndRwi (n : BitVec 4) (i : BitVec 2) (s : State) : Host.Outcome State Fault Refusal :=
  runInstr 2 (aluRIndB .addc n i) s

/-- ADDCB Rbn,[Rwi+] (R184). -/
def execAddcbRbnIndRwiInc (n : BitVec 4) (i : BitVec 2) (s : State) : Host.Outcome State Fault Refusal :=
  runInstr 2 (aluRIndIncB .addc n i) s

/-- ADDCB Rbn,#data3 (R184). -/
def execAddcbRbnData3 (n : BitVec 4) (d : BitVec 3) (s : State) : Host.Outcome State Fault Refusal :=
  runInstr 2 (aluRImm3B .addc n d) s

/-- SUB Rwn,Rwm (R185). -/
def execSubRwnRwm (n m : BitVec 4) (s : State) : Host.Outcome State Fault Refusal :=
  runInstr 2 (aluRR .sub n m) s

/-- SUB reg,mem (R185). -/
def execSubRegMem (reg : BitVec 8) (mem : BitVec 16) (s : State) : Host.Outcome State Fault Refusal :=
  runInstr 4 (aluRegMem .sub reg mem) s

/-- SUB mem,reg (R185). -/
def execSubMemReg (mem : BitVec 16) (reg : BitVec 8) (s : State) : Host.Outcome State Fault Refusal :=
  runInstr 4 (aluMemReg .sub mem reg) s

/-- SUB reg,#data16 (R185). -/
def execSubRegData16 (reg : BitVec 8) (d : BitVec 16) (s : State) : Host.Outcome State Fault Refusal :=
  runInstr 4 (aluRegImm .sub reg d) s

/-- SUB Rwn,[Rwi] (R185). -/
def execSubRwnIndRwi (n : BitVec 4) (i : BitVec 2) (s : State) : Host.Outcome State Fault Refusal :=
  runInstr 2 (aluRInd .sub n i) s

/-- SUB Rwn,[Rwi+] (R185). -/
def execSubRwnIndRwiInc (n : BitVec 4) (i : BitVec 2) (s : State) : Host.Outcome State Fault Refusal :=
  runInstr 2 (aluRIndInc .sub n i) s

/-- SUB Rwn,#data3 (R185). -/
def execSubRwnData3 (n : BitVec 4) (d : BitVec 3) (s : State) : Host.Outcome State Fault Refusal :=
  runInstr 2 (aluRImm3 .sub n d) s

/-- SUBB Rbn,Rbm (R186). -/
def execSubbRbnRbm (n m : BitVec 4) (s : State) : Host.Outcome State Fault Refusal :=
  runInstr 2 (aluRRB .sub n m) s

/-- SUBB reg,mem (R186). -/
def execSubbRegMem (reg : BitVec 8) (mem : BitVec 16) (s : State) : Host.Outcome State Fault Refusal :=
  runInstr 4 (aluRegMemB .sub reg mem) s

/-- SUBB mem,reg (R186). -/
def execSubbMemReg (mem : BitVec 16) (reg : BitVec 8) (s : State) : Host.Outcome State Fault Refusal :=
  runInstr 4 (aluMemRegB .sub mem reg) s

/-- SUBB reg,#data8 (R186). -/
def execSubbRegData8 (reg d : BitVec 8) (s : State) : Host.Outcome State Fault Refusal :=
  runInstr 4 (aluRegImmB .sub reg d) s

/-- SUBB Rbn,[Rwi] (R186). -/
def execSubbRbnIndRwi (n : BitVec 4) (i : BitVec 2) (s : State) : Host.Outcome State Fault Refusal :=
  runInstr 2 (aluRIndB .sub n i) s

/-- SUBB Rbn,[Rwi+] (R186). -/
def execSubbRbnIndRwiInc (n : BitVec 4) (i : BitVec 2) (s : State) : Host.Outcome State Fault Refusal :=
  runInstr 2 (aluRIndIncB .sub n i) s

/-- SUBB Rbn,#data3 (R186). -/
def execSubbRbnData3 (n : BitVec 4) (d : BitVec 3) (s : State) : Host.Outcome State Fault Refusal :=
  runInstr 2 (aluRImm3B .sub n d) s

/-- SUBC Rwn,Rwm (R187). -/
def execSubcRwnRwm (n m : BitVec 4) (s : State) : Host.Outcome State Fault Refusal :=
  runInstr 2 (aluRR .subc n m) s

/-- SUBC reg,mem (R187). -/
def execSubcRegMem (reg : BitVec 8) (mem : BitVec 16) (s : State) : Host.Outcome State Fault Refusal :=
  runInstr 4 (aluRegMem .subc reg mem) s

/-- SUBC mem,reg (R187). -/
def execSubcMemReg (mem : BitVec 16) (reg : BitVec 8) (s : State) : Host.Outcome State Fault Refusal :=
  runInstr 4 (aluMemReg .subc mem reg) s

/-- SUBC reg,#data16 (R187). -/
def execSubcRegData16 (reg : BitVec 8) (d : BitVec 16) (s : State) : Host.Outcome State Fault Refusal :=
  runInstr 4 (aluRegImm .subc reg d) s

/-- SUBC Rwn,[Rwi] (R187). -/
def execSubcRwnIndRwi (n : BitVec 4) (i : BitVec 2) (s : State) : Host.Outcome State Fault Refusal :=
  runInstr 2 (aluRInd .subc n i) s

/-- SUBC Rwn,[Rwi+] (R187). -/
def execSubcRwnIndRwiInc (n : BitVec 4) (i : BitVec 2) (s : State) : Host.Outcome State Fault Refusal :=
  runInstr 2 (aluRIndInc .subc n i) s

/-- SUBC Rwn,#data3 (R187). -/
def execSubcRwnData3 (n : BitVec 4) (d : BitVec 3) (s : State) : Host.Outcome State Fault Refusal :=
  runInstr 2 (aluRImm3 .subc n d) s

/-- SUBCB Rbn,Rbm (R188). -/
def execSubcbRbnRbm (n m : BitVec 4) (s : State) : Host.Outcome State Fault Refusal :=
  runInstr 2 (aluRRB .subc n m) s

/-- SUBCB reg,mem (R188). -/
def execSubcbRegMem (reg : BitVec 8) (mem : BitVec 16) (s : State) : Host.Outcome State Fault Refusal :=
  runInstr 4 (aluRegMemB .subc reg mem) s

/-- SUBCB mem,reg (R188). -/
def execSubcbMemReg (mem : BitVec 16) (reg : BitVec 8) (s : State) : Host.Outcome State Fault Refusal :=
  runInstr 4 (aluMemRegB .subc mem reg) s

/-- SUBCB reg,#data8 (R188). -/
def execSubcbRegData8 (reg d : BitVec 8) (s : State) : Host.Outcome State Fault Refusal :=
  runInstr 4 (aluRegImmB .subc reg d) s

/-- SUBCB Rbn,[Rwi] (R188). -/
def execSubcbRbnIndRwi (n : BitVec 4) (i : BitVec 2) (s : State) : Host.Outcome State Fault Refusal :=
  runInstr 2 (aluRIndB .subc n i) s

/-- SUBCB Rbn,[Rwi+] (R188). -/
def execSubcbRbnIndRwiInc (n : BitVec 4) (i : BitVec 2) (s : State) : Host.Outcome State Fault Refusal :=
  runInstr 2 (aluRIndIncB .subc n i) s

/-- SUBCB Rbn,#data3 (R188). -/
def execSubcbRbnData3 (n : BitVec 4) (d : BitVec 3) (s : State) : Host.Outcome State Fault Refusal :=
  runInstr 2 (aluRImm3B .subc n d) s

/-- NEG Rwn (R197). -/
def execNegRwn (n : BitVec 4) (s : State) : Host.Outcome State Fault Refusal :=
  runInstr 2 (unaryWord negResult n) s

/-- CPL Rwn (R195). -/
def execCplRwn (n : BitVec 4) (s : State) : Host.Outcome State Fault Refusal :=
  runInstr 2 (unaryWord cplResult n) s

/-- NEGB Rbn (R198). -/
def execNegbRbn (n : BitVec 4) (s : State) : Host.Outcome State Fault Refusal :=
  runInstr 2 (unaryByte negResult n) s

/-- CPLB Rbn (R196). -/
def execCplbRbn (n : BitVec 4) (s : State) : Host.Outcome State Fault Refusal :=
  runInstr 2 (unaryByte cplResult n) s

/-- MUL Rwn,Rwm (R189). -/
def execMulRwnRwm (n m : BitVec 4) (s : State) : Host.Outcome State Fault Refusal :=
  runInstr 2 (multiply mulResult n m) s

/-- MULU Rwn,Rwm (R190). -/
def execMuluRwnRwm (n m : BitVec 4) (s : State) : Host.Outcome State Fault Refusal :=
  runInstr 2 (multiply muluResult n m) s

/-- DIV Rwn (R191). -/
def execDivRwn (n : BitVec 4) (s : State) : Host.Outcome State Fault Refusal :=
  runInstr 2 (divide (fun c b => signedDivision c.mdl.toInt b.toInt) n) s

/-- DIVU Rwn (R192). -/
def execDivuRwn (n : BitVec 4) (s : State) : Host.Outcome State Fault Refusal :=
  runInstr 2 (divide (fun c b => unsignedDivision c.mdl.toNat b.toNat) n) s

/-- DIVL Rwn (R193). -/
def execDivlRwn (n : BitVec 4) (s : State) : Host.Outcome State Fault Refusal :=
  runInstr 2 (divide (fun c b => signedDivision (mdValue c).toInt b.toInt) n) s

/-- DIVLU Rwn (R194). -/
def execDivluRwn (n : BitVec 4) (s : State) : Host.Outcome State Fault Refusal :=
  runInstr 2 (divide (fun c b => unsignedDivision (mdValue c).toNat b.toNat) n) s

end Sys2Proof.Machine
end

