-- ==== Sys2Proof/Machine/BitOps.lean ====
section
/-! DEFINITION. The bit instructions. Spec: 43_bit.md. -/

namespace Sys2Proof.Machine

/-- BFLDL bitoff,#mask8,#data8 (R232). -/
def execBfldlBitoffMask8Data8 (bo mask d : BitVec 8) (s : State) : Host.Outcome State Fault Refusal :=
  runInstr 4 (bitField bo (mask.setWidth 16) (d.setWidth 16)) s

/-- BFLDH bitoff,#mask8,#data8 (R231). -/
def execBfldhBitoffMask8Data8 (bo mask d : BitVec 8) (s : State) : Host.Outcome State Fault Refusal :=
  runInstr 4 (bitField bo (mask.setWidth 16 <<< 8) (d.setWidth 16 <<< 8)) s

/-- BCMP bitaddrZ.z,bitaddrQ.q (R240). -/
def execBcmpBitZBitQ (zo : BitVec 8) (z : BitVec 4) (qo : BitVec 8) (q : BitVec 4) (s : State) : Host.Outcome State Fault Refusal :=
  runInstr 4 (do
    let (s, w) ← readTwoBitWords zo qo q
    setFlags (twoBitFlags (bitOf w z.toNat) s)) s

/-- BMOVN bitaddrZ.z,bitaddrQ.q (R236). -/
def execBmovnBitZBitQ (zo : BitVec 8) (z : BitVec 4) (qo : BitVec 8) (q : BitVec 4) (s : State) : Host.Outcome State Fault Refusal :=
  runInstr 4 (twoBitOp (fun _ s => !s) (fun _ s => oneBitFlags s) zo z qo q) s

/-- BMOV bitaddrZ.z,bitaddrQ.q (R235). -/
def execBmovBitZBitQ (zo : BitVec 8) (z : BitVec 4) (qo : BitVec 8) (q : BitVec 4) (s : State) : Host.Outcome State Fault Refusal :=
  runInstr 4 (twoBitOp (fun _ s => s) (fun _ s => oneBitFlags s) zo z qo q) s

/-- BOR bitaddrZ.z,bitaddrQ.q (R238). -/
def execBorBitZBitQ (zo : BitVec 8) (z : BitVec 4) (qo : BitVec 8) (q : BitVec 4) (s : State) : Host.Outcome State Fault Refusal :=
  runInstr 4 (twoBitOp (fun d s => d || s) twoBitFlags zo z qo q) s

/-- BAND bitaddrZ.z,bitaddrQ.q (R237). -/
def execBandBitZBitQ (zo : BitVec 8) (z : BitVec 4) (qo : BitVec 8) (q : BitVec 4) (s : State) : Host.Outcome State Fault Refusal :=
  runInstr 4 (twoBitOp (fun d s => d && s) twoBitFlags zo z qo q) s

/-- BXOR bitaddrZ.z,bitaddrQ.q (R239). -/
def execBxorBitZBitQ (zo : BitVec 8) (z : BitVec 4) (qo : BitVec 8) (q : BitVec 4) (s : State) : Host.Outcome State Fault Refusal :=
  runInstr 4 (twoBitOp (fun d s => d != s) twoBitFlags zo z qo q) s

/-- BCLR bitaddrQ.q (R234). -/
def execBclrBitQ (qo : BitVec 8) (q : BitVec 4) (s : State) : Host.Outcome State Fault Refusal :=
  runInstr 2 (oneBitOp false qo q) s

/-- BSET bitaddrQ.q (R233). -/
def execBsetBitQ (qo : BitVec 8) (q : BitVec 4) (s : State) : Host.Outcome State Fault Refusal :=
  runInstr 2 (oneBitOp true qo q) s

end Sys2Proof.Machine
end

