-- ==== Sys2Proof/Machine/Call.lean ====
section
/-! DEFINITION. The call, return and trap instructions. Spec: 48_call_return.md. -/

namespace Sys2Proof.Machine

/-- PCALL reg,caddr (R300). -/
def execPcallRegCaddr (reg : BitVec 8) (caddr : BitVec 16) (s : State) : Host.Outcome State Fault Refusal :=
  runInstr 4 (do
    let v ← readReg reg
    push v
    callTo 4 caddr
    setFlags (moveFlags v)) s

/-- CALLA cc,caddr (R296). -/
def execCallaCcCaddr (cc : BitVec 4) (caddr : BitVec 16) (s : State) : Host.Outcome State Fault Refusal :=
  runInstr 4 (do
    let psw ← look (·.cpu.psw)
    if condition cc psw then callTo 4 caddr else pure ()) s

/-- CALLS seg,caddr (R299). -/
def execCallsSegCaddr (seg : BitVec 8) (caddr : BitVec 16) (s : State) : Host.Outcome State Fault Refusal :=
  runInstr 4 (do
    let csp ← look (·.cpu.csp)
    let next ← look (nextIp · 4)
    push csp
    push next
    update (State.farJumpTo · seg caddr)) s

/-- TRAP #trap7 (R301). -/
def execTrapTrap7 (t : BitVec 7) (s : State) : Host.Outcome State Fault Refusal :=
  runInstr 2 (do
    let next ← look (nextIp · 2)
    takeException t.toNat next none) s

/-- CALLI cc,[Rwn] (R297). -/
def execCalliCcIndRwn (cc n : BitVec 4) (s : State) : Host.Outcome State Fault Refusal :=
  runInstr 2 (do
    let psw ← look (·.cpu.psw)
    if condition cc psw then
      let target ← readGpr n
      callTo 2 target
    else pure ()) s

/-- CALLR rel (R298). -/
def execCallrRel (rel : BitVec 8) (s : State) : Host.Outcome State Fault Refusal :=
  runInstr 2 (do
    let next ← look (nextIp · 2)
    callTo 2 (relTarget next rel)) s

/-- RET (R302). -/
def execRet (s : State) : Host.Outcome State Fault Refusal :=
  runPopInstr 2 (do
    let ip ← pop
    update (State.jumpTo · ip)) s

/-- RETS (R303). -/
def execRets (s : State) : Host.Outcome State Fault Refusal :=
  runPopInstr 2 (do
    let ip ← pop
    let csp ← pop
    update (State.farJumpTo · (lowByte csp) ip)) s

/-- RETP reg (R304). -/
def execRetpReg (reg : BitVec 8) (s : State) : Host.Outcome State Fault Refusal :=
  runPopInstr 2 (do
    let ip ← pop
    let v ← pop
    moveToReg reg v
    update (State.jumpTo · ip)) s

/-- RETI (R305). -/
def execReti (s : State) : Host.Outcome State Fault Refusal :=
  runPopInstr 2 returnFromException s

end Sys2Proof.Machine
end

