-- ==== Sys2Proof/Machine/Compare.lean ====
section
/-! DEFINITION. The compare and loop instructions. Spec: 42_compare_loop.md. -/

namespace Sys2Proof.Machine

/-- CMP Rwn,Rwm (R221). -/
def execCmpRwnRwm (n m : BitVec 4) (s : State) : Host.Outcome State Fault Refusal :=
  runInstr 2 (aluRR .cmp n m) s

/-- CMP reg,mem (R221). -/
def execCmpRegMem (reg : BitVec 8) (mem : BitVec 16) (s : State) : Host.Outcome State Fault Refusal :=
  runInstr 4 (aluRegMem .cmp reg mem) s

/-- CMP reg,#data16 (R221). -/
def execCmpRegData16 (reg : BitVec 8) (d : BitVec 16) (s : State) : Host.Outcome State Fault Refusal :=
  runInstr 4 (aluRegImm .cmp reg d) s

/-- CMP Rwn,[Rwi] (R221). -/
def execCmpRwnIndRwi (n : BitVec 4) (i : BitVec 2) (s : State) : Host.Outcome State Fault Refusal :=
  runInstr 2 (aluRInd .cmp n i) s

/-- CMP Rwn,[Rwi+] (R221). -/
def execCmpRwnIndRwiInc (n : BitVec 4) (i : BitVec 2) (s : State) : Host.Outcome State Fault Refusal :=
  runInstr 2 (aluRIndInc .cmp n i) s

/-- CMP Rwn,#data3 (R221). -/
def execCmpRwnData3 (n : BitVec 4) (d : BitVec 3) (s : State) : Host.Outcome State Fault Refusal :=
  runInstr 2 (aluRImm3 .cmp n d) s

/-- CMPB Rbn,Rbm (R222). -/
def execCmpbRbnRbm (n m : BitVec 4) (s : State) : Host.Outcome State Fault Refusal :=
  runInstr 2 (aluRRB .cmp n m) s

/-- CMPB reg,mem (R222). -/
def execCmpbRegMem (reg : BitVec 8) (mem : BitVec 16) (s : State) : Host.Outcome State Fault Refusal :=
  runInstr 4 (aluRegMemB .cmp reg mem) s

/-- CMPB reg,#data8 (R222). -/
def execCmpbRegData8 (reg d : BitVec 8) (s : State) : Host.Outcome State Fault Refusal :=
  runInstr 4 (aluRegImmB .cmp reg d) s

/-- CMPB Rbn,[Rwi] (R222). -/
def execCmpbRbnIndRwi (n : BitVec 4) (i : BitVec 2) (s : State) : Host.Outcome State Fault Refusal :=
  runInstr 2 (aluRIndB .cmp n i) s

/-- CMPB Rbn,[Rwi+] (R222). -/
def execCmpbRbnIndRwiInc (n : BitVec 4) (i : BitVec 2) (s : State) : Host.Outcome State Fault Refusal :=
  runInstr 2 (aluRIndIncB .cmp n i) s

/-- CMPB Rbn,#data3 (R222). -/
def execCmpbRbnData3 (n : BitVec 4) (d : BitVec 3) (s : State) : Host.Outcome State Fault Refusal :=
  runInstr 2 (aluRImm3B .cmp n d) s

/-- CMPI1 Rwn,#data4 (R223). -/
def execCmpi1RwnData4 (n d : BitVec 4) (s : State) : Host.Outcome State Fault Refusal :=
  runInstr 2 (cmpStep n (d.setWidth 16) 1) s

/-- CMPI1 Rwn,mem (R223). -/
def execCmpi1RwnMem (n : BitVec 4) (mem : BitVec 16) (s : State) : Host.Outcome State Fault Refusal :=
  runInstr 4 (cmpStepMem n mem 1) s

/-- CMPI1 Rwn,#data16 (R223). -/
def execCmpi1RwnData16 (n : BitVec 4) (d : BitVec 16) (s : State) : Host.Outcome State Fault Refusal :=
  runInstr 4 (cmpStep n d 1) s

/-- CMPI2 Rwn,#data4 (R224). -/
def execCmpi2RwnData4 (n d : BitVec 4) (s : State) : Host.Outcome State Fault Refusal :=
  runInstr 2 (cmpStep n (d.setWidth 16) 2) s

/-- CMPI2 Rwn,mem (R224). -/
def execCmpi2RwnMem (n : BitVec 4) (mem : BitVec 16) (s : State) : Host.Outcome State Fault Refusal :=
  runInstr 4 (cmpStepMem n mem 2) s

/-- CMPI2 Rwn,#data16 (R224). -/
def execCmpi2RwnData16 (n : BitVec 4) (d : BitVec 16) (s : State) : Host.Outcome State Fault Refusal :=
  runInstr 4 (cmpStep n d 2) s

/-- CMPD1 Rwn,#data4 (R225). -/
def execCmpd1RwnData4 (n d : BitVec 4) (s : State) : Host.Outcome State Fault Refusal :=
  runInstr 2 (cmpStep n (d.setWidth 16) (-1)) s

/-- CMPD1 Rwn,mem (R225). -/
def execCmpd1RwnMem (n : BitVec 4) (mem : BitVec 16) (s : State) : Host.Outcome State Fault Refusal :=
  runInstr 4 (cmpStepMem n mem (-1)) s

/-- CMPD1 Rwn,#data16 (R225). -/
def execCmpd1RwnData16 (n : BitVec 4) (d : BitVec 16) (s : State) : Host.Outcome State Fault Refusal :=
  runInstr 4 (cmpStep n d (-1)) s

/-- CMPD2 Rwn,#data4 (R226). -/
def execCmpd2RwnData4 (n d : BitVec 4) (s : State) : Host.Outcome State Fault Refusal :=
  runInstr 2 (cmpStep n (d.setWidth 16) (-2)) s

/-- CMPD2 Rwn,mem (R226). -/
def execCmpd2RwnMem (n : BitVec 4) (mem : BitVec 16) (s : State) : Host.Outcome State Fault Refusal :=
  runInstr 4 (cmpStepMem n mem (-2)) s

/-- CMPD2 Rwn,#data16 (R226). -/
def execCmpd2RwnData16 (n : BitVec 4) (d : BitVec 16) (s : State) : Host.Outcome State Fault Refusal :=
  runInstr 4 (cmpStep n d (-2)) s

end Sys2Proof.Machine
end

