-- ==== Sys2Proof/Machine/DataMove.lean ====
section
/-! DEFINITION. The move instructions. Spec: 45_data_movement.md. -/

namespace Sys2Proof.Machine

/-- MOVBZ Rwn,Rbm (R264). -/
def execMovbzRwnRbm (n m : BitVec 4) (s : State) : Host.Outcome State Fault Refusal :=
  runInstr 2 (do
    let v ← readGprB m
    let r : Word := v.setWidth 16
    writeGpr n r
    setFlags (extendFlags r)) s

/-- MOVBS Rwn,Rbm (R263). -/
def execMovbsRwnRbm (n m : BitVec 4) (s : State) : Host.Outcome State Fault Refusal :=
  runInstr 2 (do
    let v ← readGprB m
    let r : Word := v.signExtend 16
    writeGpr n r
    setFlags (extendFlags r)) s

/-- MOVBZ reg,mem (R264). -/
def execMovbzRegMem (reg : BitVec 8) (mem : BitVec 16) (s : State) : Host.Outcome State Fault Refusal :=
  runInstr 4 (do
    let v ← readByteOperand mem
    let r : Word := v.setWidth 16
    writeReg reg r
    setFlags (extendFlags r)) s

/-- MOVBS reg,mem (R263). -/
def execMovbsRegMem (reg : BitVec 8) (mem : BitVec 16) (s : State) : Host.Outcome State Fault Refusal :=
  runInstr 4 (do
    let v ← readByteOperand mem
    let r : Word := v.signExtend 16
    writeReg reg r
    setFlags (extendFlags r)) s

/-- MOVBZ mem,reg (R264). -/
def execMovbzMemReg (mem : BitVec 16) (reg : BitVec 8) (s : State) : Host.Outcome State Fault Refusal :=
  runInstr 4 (do
    let v ← readRegB reg
    let r : Word := v.setWidth 16
    writeWordOperand mem r
    setFlags (extendFlags r)) s

/-- MOVBS mem,reg (R263). -/
def execMovbsMemReg (mem : BitVec 16) (reg : BitVec 8) (s : State) : Host.Outcome State Fault Refusal :=
  runInstr 4 (do
    let v ← readRegB reg
    let r : Word := v.signExtend 16
    writeWordOperand mem r
    setFlags (extendFlags r)) s

/-- MOV Rwn,#data4 (R261). -/
def execMovRwnData4 (n d : BitVec 4) (s : State) : Host.Outcome State Fault Refusal :=
  runInstr 2 (moveToGpr n (d.setWidth 16)) s

/-- MOVB Rbn,#data4 (R262). -/
def execMovbRbnData4 (n d : BitVec 4) (s : State) : Host.Outcome State Fault Refusal :=
  runInstr 2 (moveToGprB n (d.setWidth 8)) s

/-- MOV Rwn,Rwm (R261). -/
def execMovRwnRwm (n m : BitVec 4) (s : State) : Host.Outcome State Fault Refusal :=
  runInstr 2 (do
    let v ← readGpr m
    moveToGpr n v) s

/-- MOVB Rbn,Rbm (R262). -/
def execMovbRbnRbm (n m : BitVec 4) (s : State) : Host.Outcome State Fault Refusal :=
  runInstr 2 (do
    let v ← readGprB m
    moveToGprB n v) s

/-- MOV reg,mem (R261). -/
def execMovRegMem (reg : BitVec 8) (mem : BitVec 16) (s : State) : Host.Outcome State Fault Refusal :=
  runInstr 4 (do
    let v ← readWordOperand mem
    moveToReg reg v) s

/-- MOVB reg,mem (R262). -/
def execMovbRegMem (reg : BitVec 8) (mem : BitVec 16) (s : State) : Host.Outcome State Fault Refusal :=
  runInstr 4 (do
    let v ← readByteOperand mem
    moveToRegB reg v) s

/-- MOV [Rwn],mem (R261). -/
def execMovIndRwnMem (n : BitVec 4) (mem : BitVec 16) (s : State) : Host.Outcome State Fault Refusal :=
  runInstr 4 (do
    let v ← readWordOperand mem
    let p ← readGpr n
    moveToMem p v) s

/-- MOV mem,[Rwn] (R261). -/
def execMovMemIndRwn (mem : BitVec 16) (n : BitVec 4) (s : State) : Host.Outcome State Fault Refusal :=
  runInstr 4 (do
    let p ← readGpr n
    let v ← readWordOperand p
    moveToMem mem v) s

/-- MOVB [Rwn],mem (R262). -/
def execMovbIndRwnMem (n : BitVec 4) (mem : BitVec 16) (s : State) : Host.Outcome State Fault Refusal :=
  runInstr 4 (do
    let v ← readByteOperand mem
    let p ← readGpr n
    moveToMemB p v) s

/-- MOVB mem,[Rwn] (R262). -/
def execMovbMemIndRwn (mem : BitVec 16) (n : BitVec 4) (s : State) : Host.Outcome State Fault Refusal :=
  runInstr 4 (do
    let p ← readGpr n
    let v ← readByteOperand p
    moveToMemB mem v) s

/-- MOV [Rwm+#data16],Rwn (R261). -/
def execMovIndRwmData16Rwn (m : BitVec 4) (d : BitVec 16) (n : BitVec 4) (s : State) : Host.Outcome State Fault Refusal :=
  runInstr 4 (do
    let v ← readGpr n
    let p ← readGpr m
    moveToMem (p + d) v) s

/-- MOV Rwn,[Rwm+#data16] (R261). -/
def execMovRwnIndRwmData16 (n m : BitVec 4) (d : BitVec 16) (s : State) : Host.Outcome State Fault Refusal :=
  runInstr 4 (do
    let p ← readGpr m
    let v ← readWordOperand (p + d)
    moveToGpr n v) s

/-- MOVB [Rwm+#data16],Rbn (R262). -/
def execMovbIndRwmData16Rbn (m : BitVec 4) (d : BitVec 16) (n : BitVec 4) (s : State) : Host.Outcome State Fault Refusal :=
  runInstr 4 (do
    let v ← readGprB n
    let p ← readGpr m
    moveToMemB (p + d) v) s

/-- MOVB Rbn,[Rwm+#data16] (R262). -/
def execMovbRbnIndRwmData16 (n m : BitVec 4) (d : BitVec 16) (s : State) : Host.Outcome State Fault Refusal :=
  runInstr 4 (do
    let p ← readGpr m
    let v ← readByteOperand (p + d)
    moveToGprB n v) s

/-- MOV reg,#data16 (R261). -/
def execMovRegData16 (reg : BitVec 8) (d : BitVec 16) (s : State) : Host.Outcome State Fault Refusal :=
  runInstr 4 (moveToReg reg d) s

/-- MOVB reg,#data8 (R262). -/
def execMovbRegData8 (reg d : BitVec 8) (s : State) : Host.Outcome State Fault Refusal :=
  runInstr 4 (moveToRegB reg d) s

/-- MOV mem,reg (R261). -/
def execMovMemReg (mem : BitVec 16) (reg : BitVec 8) (s : State) : Host.Outcome State Fault Refusal :=
  runInstr 4 (do
    let v ← readReg reg
    moveToMem mem v) s

/-- MOVB mem,reg (R262). -/
def execMovbMemReg (mem : BitVec 16) (reg : BitVec 8) (s : State) : Host.Outcome State Fault Refusal :=
  runInstr 4 (do
    let v ← readRegB reg
    moveToMemB mem v) s

/-- MOV [-Rwm],Rwn (R261). -/
def execMovIndDecRwmRwn (m n : BitVec 4) (s : State) : Host.Outcome State Fault Refusal :=
  runInstr 2 (do
    let old ← readGpr n
    let p ← readGpr m
    let v ← storedWord (decide (n = m)) old
    writeGpr m (p - 2)
    moveToMem (p - 2) v) s

/-- MOVB [-Rwm],Rbn (R262). -/
def execMovbIndDecRwmRbn (m n : BitVec 4) (s : State) : Host.Outcome State Fault Refusal :=
  runInstr 2 (do
    let old ← readGprB n
    let p ← readGpr m
    let v ← storedByte (isHalfOf n m) old
    writeGpr m (p - 1)
    moveToMemB (p - 1) v) s

/-- MOV Rwn,[Rwm+] (R261). -/
def execMovRwnIndRwmInc (n m : BitVec 4) (s : State) : Host.Outcome State Fault Refusal :=
  runInstr 2 (do
    let p ← readGpr m
    let v ← readWordOperand p
    writeGpr m (p + 2)
    moveToGpr n v) s

/-- MOVB Rbn,[Rwm+] (R262). -/
def execMovbRbnIndRwmInc (n m : BitVec 4) (s : State) : Host.Outcome State Fault Refusal :=
  runInstr 2 (do
    let p ← readGpr m
    let v ← readByteOperand p
    writeGpr m (p + 1)
    moveToGprB n v) s

/-- MOV Rwn,[Rwm] (R261). -/
def execMovRwnIndRwm (n m : BitVec 4) (s : State) : Host.Outcome State Fault Refusal :=
  runInstr 2 (do
    let p ← readGpr m
    let v ← readWordOperand p
    moveToGpr n v) s

/-- MOVB Rbn,[Rwm] (R262). -/
def execMovbRbnIndRwm (n m : BitVec 4) (s : State) : Host.Outcome State Fault Refusal :=
  runInstr 2 (do
    let p ← readGpr m
    let v ← readByteOperand p
    moveToGprB n v) s

/-- MOV [Rwm],Rwn (R261). -/
def execMovIndRwmRwn (m n : BitVec 4) (s : State) : Host.Outcome State Fault Refusal :=
  runInstr 2 (do
    let v ← readGpr n
    let p ← readGpr m
    moveToMem p v) s

/-- MOVB [Rwm],Rbn (R262). -/
def execMovbIndRwmRbn (m n : BitVec 4) (s : State) : Host.Outcome State Fault Refusal :=
  runInstr 2 (do
    let v ← readGprB n
    let p ← readGpr m
    moveToMemB p v) s

/-- MOV [Rwn],[Rwm] (R261). -/
def execMovIndRwnIndRwm (n m : BitVec 4) (s : State) : Host.Outcome State Fault Refusal :=
  runInstr 2 (do
    let p ← readGpr m
    let v ← readWordOperand p
    let q ← readGpr n
    moveToMem q v) s

/-- MOVB [Rwn],[Rwm] (R262). -/
def execMovbIndRwnIndRwm (n m : BitVec 4) (s : State) : Host.Outcome State Fault Refusal :=
  runInstr 2 (do
    let p ← readGpr m
    let v ← readByteOperand p
    let q ← readGpr n
    moveToMemB q v) s

/-- MOV [Rwn+],[Rwm] (R261). -/
def execMovIndRwnIncIndRwm (n m : BitVec 4) (s : State) : Host.Outcome State Fault Refusal :=
  runInstr 2 (do
    let p ← readGpr m
    let v ← readWordOperand p
    let q ← readGpr n
    writeGpr n (q + 2)
    moveToMem q v) s

/-- MOVB [Rwn+],[Rwm] (R262). -/
def execMovbIndRwnIncIndRwm (n m : BitVec 4) (s : State) : Host.Outcome State Fault Refusal :=
  runInstr 2 (do
    let p ← readGpr m
    let v ← readByteOperand p
    let q ← readGpr n
    writeGpr n (q + 1)
    moveToMemB q v) s

/-- MOV [Rwn],[Rwm+] (R261). -/
def execMovIndRwnIndRwmInc (n m : BitVec 4) (s : State) : Host.Outcome State Fault Refusal :=
  runInstr 2 (do
    let p ← readGpr m
    let v ← readWordOperand p
    let q ← readGpr n
    writeGpr m (p + 2)
    moveToMem q v) s

/-- MOVB [Rwn],[Rwm+] (R262). -/
def execMovbIndRwnIndRwmInc (n m : BitVec 4) (s : State) : Host.Outcome State Fault Refusal :=
  runInstr 2 (do
    let p ← readGpr m
    let v ← readByteOperand p
    let q ← readGpr n
    writeGpr m (p + 1)
    moveToMemB q v) s

end Sys2Proof.Machine
end

