-- ==== Sys2Proof/Machine/Jump.lean ====
section
/-! DEFINITION. The jump instructions. Spec: 47_jump.md. -/

namespace Sys2Proof.Machine

/-- JB bitaddrQ.q,rel (R285). -/
def execJbBitQRel (qo : BitVec 8) (q : BitVec 4) (rel : BitVec 8) (s : State) : Host.Outcome State Fault Refusal :=
  runInstr 4 (jumpOnBit true qo q rel) s

/-- JNB bitaddrQ.q,rel (R286). -/
def execJnbBitQRel (qo : BitVec 8) (q : BitVec 4) (rel : BitVec 8) (s : State) : Host.Outcome State Fault Refusal :=
  runInstr 4 (jumpOnBit false qo q rel) s

/-- JBC bitaddrQ.q,rel (R287). -/
def execJbcBitQRel (qo : BitVec 8) (q : BitVec 4) (rel : BitVec 8) (s : State) : Host.Outcome State Fault Refusal :=
  runInstr 4 (jumpOnBitAndChange true qo q rel) s

/-- JNBS bitaddrQ.q,rel (R288). -/
def execJnbsBitQRel (qo : BitVec 8) (q : BitVec 4) (rel : BitVec 8) (s : State) : Host.Outcome State Fault Refusal :=
  runInstr 4 (jumpOnBitAndChange false qo q rel) s

/-- JMPA cc,caddr (R281). -/
def execJmpaCcCaddr (cc : BitVec 4) (caddr : BitVec 16) (s : State) : Host.Outcome State Fault Refusal :=
  runInstr 4 (do
    let psw ← look (·.cpu.psw)
    if condition cc psw then update (State.cacheJump · caddr) else pure ()) s

/-- JMPS seg,caddr (R284). -/
def execJmpsSegCaddr (seg : BitVec 8) (caddr : BitVec 16) (s : State) : Host.Outcome State Fault Refusal :=
  runInstr 4 (update (State.farJumpTo · seg caddr)) s

/-- JMPI cc,[Rwn] (R282). -/
def execJmpiCcIndRwn (cc n : BitVec 4) (s : State) : Host.Outcome State Fault Refusal :=
  runInstr 2 (do
    let psw ← look (·.cpu.psw)
    if condition cc psw then
      let target ← readGpr n
      update (State.jumpTo · target)
    else pure ()) s

/-- JMPR cc,rel (R283). -/
def execJmprCcRel (cc : BitVec 4) (rel : BitVec 8) (s : State) : Host.Outcome State Fault Refusal :=
  runInstr 2 (do
    let psw ← look (·.cpu.psw)
    if condition cc psw then jumpRelative 2 rel else pure ()) s

end Sys2Proof.Machine
end

