-- ==== Sys2Proof/Machine/Logical.lean ====
section
/-! DEFINITION. The logical instructions. Spec: 41_logical.md. -/

namespace Sys2Proof.Machine

/-- XOR Rwn,Rwm (R215). -/
def execXorRwnRwm (n m : BitVec 4) (s : State) : Host.Outcome State Fault Refusal :=
  runInstr 2 (aluRR .xor n m) s

/-- XOR reg,mem (R215). -/
def execXorRegMem (reg : BitVec 8) (mem : BitVec 16) (s : State) : Host.Outcome State Fault Refusal :=
  runInstr 4 (aluRegMem .xor reg mem) s

/-- XOR mem,reg (R215). -/
def execXorMemReg (mem : BitVec 16) (reg : BitVec 8) (s : State) : Host.Outcome State Fault Refusal :=
  runInstr 4 (aluMemReg .xor mem reg) s

/-- XOR reg,#data16 (R215). -/
def execXorRegData16 (reg : BitVec 8) (d : BitVec 16) (s : State) : Host.Outcome State Fault Refusal :=
  runInstr 4 (aluRegImm .xor reg d) s

/-- XOR Rwn,[Rwi] (R215). -/
def execXorRwnIndRwi (n : BitVec 4) (i : BitVec 2) (s : State) : Host.Outcome State Fault Refusal :=
  runInstr 2 (aluRInd .xor n i) s

/-- XOR Rwn,[Rwi+] (R215). -/
def execXorRwnIndRwiInc (n : BitVec 4) (i : BitVec 2) (s : State) : Host.Outcome State Fault Refusal :=
  runInstr 2 (aluRIndInc .xor n i) s

/-- XOR Rwn,#data3 (R215). -/
def execXorRwnData3 (n : BitVec 4) (d : BitVec 3) (s : State) : Host.Outcome State Fault Refusal :=
  runInstr 2 (aluRImm3 .xor n d) s

/-- XORB Rbn,Rbm (R216). -/
def execXorbRbnRbm (n m : BitVec 4) (s : State) : Host.Outcome State Fault Refusal :=
  runInstr 2 (aluRRB .xor n m) s

/-- XORB reg,mem (R216). -/
def execXorbRegMem (reg : BitVec 8) (mem : BitVec 16) (s : State) : Host.Outcome State Fault Refusal :=
  runInstr 4 (aluRegMemB .xor reg mem) s

/-- XORB mem,reg (R216). -/
def execXorbMemReg (mem : BitVec 16) (reg : BitVec 8) (s : State) : Host.Outcome State Fault Refusal :=
  runInstr 4 (aluMemRegB .xor mem reg) s

/-- XORB reg,#data8 (R216). -/
def execXorbRegData8 (reg d : BitVec 8) (s : State) : Host.Outcome State Fault Refusal :=
  runInstr 4 (aluRegImmB .xor reg d) s

/-- XORB Rbn,[Rwi] (R216). -/
def execXorbRbnIndRwi (n : BitVec 4) (i : BitVec 2) (s : State) : Host.Outcome State Fault Refusal :=
  runInstr 2 (aluRIndB .xor n i) s

/-- XORB Rbn,[Rwi+] (R216). -/
def execXorbRbnIndRwiInc (n : BitVec 4) (i : BitVec 2) (s : State) : Host.Outcome State Fault Refusal :=
  runInstr 2 (aluRIndIncB .xor n i) s

/-- XORB Rbn,#data3 (R216). -/
def execXorbRbnData3 (n : BitVec 4) (d : BitVec 3) (s : State) : Host.Outcome State Fault Refusal :=
  runInstr 2 (aluRImm3B .xor n d) s

/-- AND Rwn,Rwm (R211). -/
def execAndRwnRwm (n m : BitVec 4) (s : State) : Host.Outcome State Fault Refusal :=
  runInstr 2 (aluRR .and n m) s

/-- AND reg,mem (R211). -/
def execAndRegMem (reg : BitVec 8) (mem : BitVec 16) (s : State) : Host.Outcome State Fault Refusal :=
  runInstr 4 (aluRegMem .and reg mem) s

/-- AND mem,reg (R211). -/
def execAndMemReg (mem : BitVec 16) (reg : BitVec 8) (s : State) : Host.Outcome State Fault Refusal :=
  runInstr 4 (aluMemReg .and mem reg) s

/-- AND reg,#data16 (R211). -/
def execAndRegData16 (reg : BitVec 8) (d : BitVec 16) (s : State) : Host.Outcome State Fault Refusal :=
  runInstr 4 (aluRegImm .and reg d) s

/-- AND Rwn,[Rwi] (R211). -/
def execAndRwnIndRwi (n : BitVec 4) (i : BitVec 2) (s : State) : Host.Outcome State Fault Refusal :=
  runInstr 2 (aluRInd .and n i) s

/-- AND Rwn,[Rwi+] (R211). -/
def execAndRwnIndRwiInc (n : BitVec 4) (i : BitVec 2) (s : State) : Host.Outcome State Fault Refusal :=
  runInstr 2 (aluRIndInc .and n i) s

/-- AND Rwn,#data3 (R211). -/
def execAndRwnData3 (n : BitVec 4) (d : BitVec 3) (s : State) : Host.Outcome State Fault Refusal :=
  runInstr 2 (aluRImm3 .and n d) s

/-- ANDB Rbn,Rbm (R212). -/
def execAndbRbnRbm (n m : BitVec 4) (s : State) : Host.Outcome State Fault Refusal :=
  runInstr 2 (aluRRB .and n m) s

/-- ANDB reg,mem (R212). -/
def execAndbRegMem (reg : BitVec 8) (mem : BitVec 16) (s : State) : Host.Outcome State Fault Refusal :=
  runInstr 4 (aluRegMemB .and reg mem) s

/-- ANDB mem,reg (R212). -/
def execAndbMemReg (mem : BitVec 16) (reg : BitVec 8) (s : State) : Host.Outcome State Fault Refusal :=
  runInstr 4 (aluMemRegB .and mem reg) s

/-- ANDB reg,#data8 (R212). -/
def execAndbRegData8 (reg d : BitVec 8) (s : State) : Host.Outcome State Fault Refusal :=
  runInstr 4 (aluRegImmB .and reg d) s

/-- ANDB Rbn,[Rwi] (R212). -/
def execAndbRbnIndRwi (n : BitVec 4) (i : BitVec 2) (s : State) : Host.Outcome State Fault Refusal :=
  runInstr 2 (aluRIndB .and n i) s

/-- ANDB Rbn,[Rwi+] (R212). -/
def execAndbRbnIndRwiInc (n : BitVec 4) (i : BitVec 2) (s : State) : Host.Outcome State Fault Refusal :=
  runInstr 2 (aluRIndIncB .and n i) s

/-- ANDB Rbn,#data3 (R212). -/
def execAndbRbnData3 (n : BitVec 4) (d : BitVec 3) (s : State) : Host.Outcome State Fault Refusal :=
  runInstr 2 (aluRImm3B .and n d) s

/-- OR Rwn,Rwm (R213). -/
def execOrRwnRwm (n m : BitVec 4) (s : State) : Host.Outcome State Fault Refusal :=
  runInstr 2 (aluRR .or n m) s

/-- OR reg,mem (R213). -/
def execOrRegMem (reg : BitVec 8) (mem : BitVec 16) (s : State) : Host.Outcome State Fault Refusal :=
  runInstr 4 (aluRegMem .or reg mem) s

/-- OR mem,reg (R213). -/
def execOrMemReg (mem : BitVec 16) (reg : BitVec 8) (s : State) : Host.Outcome State Fault Refusal :=
  runInstr 4 (aluMemReg .or mem reg) s

/-- OR reg,#data16 (R213). -/
def execOrRegData16 (reg : BitVec 8) (d : BitVec 16) (s : State) : Host.Outcome State Fault Refusal :=
  runInstr 4 (aluRegImm .or reg d) s

/-- OR Rwn,[Rwi] (R213). -/
def execOrRwnIndRwi (n : BitVec 4) (i : BitVec 2) (s : State) : Host.Outcome State Fault Refusal :=
  runInstr 2 (aluRInd .or n i) s

/-- OR Rwn,[Rwi+] (R213). -/
def execOrRwnIndRwiInc (n : BitVec 4) (i : BitVec 2) (s : State) : Host.Outcome State Fault Refusal :=
  runInstr 2 (aluRIndInc .or n i) s

/-- OR Rwn,#data3 (R213). -/
def execOrRwnData3 (n : BitVec 4) (d : BitVec 3) (s : State) : Host.Outcome State Fault Refusal :=
  runInstr 2 (aluRImm3 .or n d) s

/-- ORB Rbn,Rbm (R214). -/
def execOrbRbnRbm (n m : BitVec 4) (s : State) : Host.Outcome State Fault Refusal :=
  runInstr 2 (aluRRB .or n m) s

/-- ORB reg,mem (R214). -/
def execOrbRegMem (reg : BitVec 8) (mem : BitVec 16) (s : State) : Host.Outcome State Fault Refusal :=
  runInstr 4 (aluRegMemB .or reg mem) s

/-- ORB mem,reg (R214). -/
def execOrbMemReg (mem : BitVec 16) (reg : BitVec 8) (s : State) : Host.Outcome State Fault Refusal :=
  runInstr 4 (aluMemRegB .or mem reg) s

/-- ORB reg,#data8 (R214). -/
def execOrbRegData8 (reg d : BitVec 8) (s : State) : Host.Outcome State Fault Refusal :=
  runInstr 4 (aluRegImmB .or reg d) s

/-- ORB Rbn,[Rwi] (R214). -/
def execOrbRbnIndRwi (n : BitVec 4) (i : BitVec 2) (s : State) : Host.Outcome State Fault Refusal :=
  runInstr 2 (aluRIndB .or n i) s

/-- ORB Rbn,[Rwi+] (R214). -/
def execOrbRbnIndRwiInc (n : BitVec 4) (i : BitVec 2) (s : State) : Host.Outcome State Fault Refusal :=
  runInstr 2 (aluRIndIncB .or n i) s

/-- ORB Rbn,#data3 (R214). -/
def execOrbRbnData3 (n : BitVec 4) (d : BitVec 3) (s : State) : Host.Outcome State Fault Refusal :=
  runInstr 2 (aluRImm3B .or n d) s

end Sys2Proof.Machine
end

