-- ==== Sys2Proof/Machine/Shift.lean ====
section
/-! DEFINITION. The shift, rotate and prioritize instructions. Spec: 44_shift_rotate_prioritize.md. -/

namespace Sys2Proof.Machine

/-- PRIOR Rwn,Rwm (R256). -/
def execPriorRwnRwm (n m : BitVec 4) (s : State) : Host.Outcome State Fault Refusal :=
  runInstr 2 (do
    let b ← readGpr m
    writeGpr n (priorResult b).1
    setFlags (priorResult b).2) s

/-- ROL Rwn,Rwm (R254). -/
def execRolRwnRwm (n m : BitVec 4) (s : State) : Host.Outcome State Fault Refusal :=
  runInstr 2 (shiftByReg .rol n m) s

/-- ROL Rwn,#data4 (R254). -/
def execRolRwnData4 (n d : BitVec 4) (s : State) : Host.Outcome State Fault Refusal :=
  runInstr 2 (shiftByImm .rol n d) s

/-- ROR Rwn,Rwm (R253). -/
def execRorRwnRwm (n m : BitVec 4) (s : State) : Host.Outcome State Fault Refusal :=
  runInstr 2 (shiftByReg .ror n m) s

/-- ROR Rwn,#data4 (R253). -/
def execRorRwnData4 (n d : BitVec 4) (s : State) : Host.Outcome State Fault Refusal :=
  runInstr 2 (shiftByImm .ror n d) s

/-- SHL Rwn,Rwm (R252). -/
def execShlRwnRwm (n m : BitVec 4) (s : State) : Host.Outcome State Fault Refusal :=
  runInstr 2 (shiftByReg .shl n m) s

/-- SHL Rwn,#data4 (R252). -/
def execShlRwnData4 (n d : BitVec 4) (s : State) : Host.Outcome State Fault Refusal :=
  runInstr 2 (shiftByImm .shl n d) s

/-- SHR Rwn,Rwm (R251). -/
def execShrRwnRwm (n m : BitVec 4) (s : State) : Host.Outcome State Fault Refusal :=
  runInstr 2 (shiftByReg .shr n m) s

/-- SHR Rwn,#data4 (R251). -/
def execShrRwnData4 (n d : BitVec 4) (s : State) : Host.Outcome State Fault Refusal :=
  runInstr 2 (shiftByImm .shr n d) s

/-- ASHR Rwn,Rwm (R255). -/
def execAshrRwnRwm (n m : BitVec 4) (s : State) : Host.Outcome State Fault Refusal :=
  runInstr 2 (shiftByReg .ashr n m) s

/-- ASHR Rwn,#data4 (R255). -/
def execAshrRwnData4 (n d : BitVec 4) (s : State) : Host.Outcome State Fault Refusal :=
  runInstr 2 (shiftByImm .ashr n d) s

end Sys2Proof.Machine
end

