-- ==== Sys2Proof/Machine/Stack.lean ====
section
/-! DEFINITION. The stack instructions. Spec: 46_stack.md. -/

namespace Sys2Proof.Machine

/-- SCXT reg,#data16 (R273). -/
def execScxtRegData16 (reg : BitVec 8) (d : BitVec 16) (s : State) : Host.Outcome State Fault Refusal :=
  runInstr 4 (do
    let old ← readReg reg
    push old
    writeReg reg d) s

/-- SCXT reg,mem (R273). -/
def execScxtRegMem (reg : BitVec 8) (mem : BitVec 16) (s : State) : Host.Outcome State Fault Refusal :=
  runInstr 4 (do
    let old ← readReg reg
    let v ← readWordOperand mem
    push old
    writeReg reg v) s

/-- PUSH reg (R271). -/
def execPushReg (reg : BitVec 8) (s : State) : Host.Outcome State Fault Refusal :=
  runInstr 2 (do
    let own ← look (regIsSp · reg)
    let old ← readReg reg
    let v ← pushedSp own old
    push v
    setFlags (moveFlags v)) s

/-- POP reg (R272). -/
def execPopReg (reg : BitVec 8) (s : State) : Host.Outcome State Fault Refusal :=
  runPopInstr 2 (do
    let v ← pop
    moveToReg reg v) s

end Sys2Proof.Machine
end

