-- ==== Sys2Proof/Machine/Reset.lean ====
section
/-! DEFINITION. The reset sequence, and the bootstrap loader that can follow it.
Spec: 70_reset_and_hazards.md rules R670 to R696, 10_state.md rule R60, decisions D28 and D29. -/

namespace Sys2Proof.Machine

/-- Every register and all hidden state at its reset value, in the internal reset condition (R60, R671). Memory, the board,
the pins and what the outside does stay. A hardware reset alone ends the C163's run on the PLL base frequency (R684). -/
def State.resetRegisters (cause : ResetCause) (s : State) : State :=
  { s with
    cpu := Cpu.reset
    bus := Bus.reset
    ebc := Ebc.reset
    ports := Ports.reset
    gpt := Gpt.reset
    wdt := Wdt.reset (if cause = .watchdog then 2 else 0)
    asc := Asc.reset
    ssc := Ssc.reset
    ssp := Ssp.reset
    ic := Vector.replicate 28 0
    pecc := Vector.replicate 8 0
    ext := Ext.idle
    sys := { Sys.reset with power := .inReset cause, clockLost := s.sys.clockLost && decide (cause ≠ .hardware) }
    prev := { cpu := Cpu.reset, bus := Bus.reset, ports := Ports.reset }
    marks := Marks.clear
    hz := Hazard.clear }

/-- `Reset(cause)` from its start (R670, R671): hold is cancelled, pin RSTOUT goes low (`rstoutLevel`), nothing is pushed, and
the sequence takes 516 CPU clocks. -/
def startReset (cause : ResetCause) (s : State) : State := { s.resetRegisters cause with clocks := 516 }

/-- The edge detectors start at the levels the pins have at the end of the reset (log entry 6). -/
def State.resample (s : State) : State :=
  { s with
    sys := { s.sys with nmiSample := s.pins.nmi, exSample := levelP2 s }
    gpt := { s.gpt with t2in := pinT2in s, t3in := pinT3in s, t4in := pinT4in s, t5in := pinT5in s, t6in := pinT6in s
                        capin := pinCapin s, eud := eudLevels s }
    ssc := { s.ssc with sclk := pinSclk s, dataPrev := pinMtsr s } }

/-- The registers taken from the reset pins (R683, R475), and the CPU running. -/
def State.latchPins (s : State) : State :=
  let p := s.board.resetPins
  ({ s with
     cpu := Cpu.resetWith p
     bus := Bus.resetWith p
     ebc := Ebc.resetWith p
     prev := { cpu := Cpu.resetWith p, bus := Bus.resetWith p, ports := Ports.reset }
     sys := { s.sys with power := .running } }).resample

/-- The CPU registers the bootstrap loader sets (R692). -/
def Cpu.bootstrap : Cpu :=
  { Cpu.reset with syscon := 0x0E00, cp := 0xFA00, sp := 0xFA40, stkun := 0xFA40, stkov := 0xFA0C }

/-- Bootstrap loader mode is entered: the watchdog is disabled, the loader waits for the zero byte (R690, R692). BUSCON0 and
CS0, and with them PORT1, stay as `latchPins` has set them by the level of pin EA. R692 has BUSCON0 "acc. to startup config."
where R694 says that EA is not evaluated in this mode; DESIGN CHOICE: EA still counts for the bus (log entry 26). -/
def State.enterBootstrap (s : State) : State :=
  { s with
    cpu := Cpu.bootstrap
    prev := { s.prev with cpu := Cpu.bootstrap }
    wdt := { s.wdt with disabled := true, psc := none }
    sys := { s.sys with power := .awaitZeroByte, bsl := true } }

/-- The end of the reset sequence (R671, R676 to R678): the registers take their reset values, so that no request that came
up meanwhile is left, and the pins are latched; P0L.5 to P0L.0 count for a hardware reset only. -/
def finishReset (cause : ResetCause) (s0 : State) : Host.Outcome State Fault Refusal :=
  let s := s0.resetRegisters cause
  let p := s.board.resetPins.port0
  if cause = .hardware then
    if p &&& 0x0003 ≠ 0x0003 then .refused .emulationMode
    else if p &&& 0x002C ≠ 0x002C then .refused .reservedResetPins
    else if s.board.device = .c165 ∧ p &&& 0x0010 = 0 then .next s.latchPins.enterBootstrap
    else .next s.latchPins
  else .next s.latchPins

/-! ## The bootstrap loader (R691 to R693) -/

/-- S0BG's reload value from the length of the zero byte: (T6 - 36) / 72, the rounding free (R693); free altogether
where the formula has no value. -/
def bootstrapReload (t6 : Nat) (free : Word) : BitVec 13 :=
  if t6 < 36 then free.setWidth 13
  else BitVec.ofNat 13 ((t6 - 36) / 72 + (if free.getLsbD 0 && decide ((t6 - 36) % 72 ≠ 0) then 1 else 0))

/-- The zero byte has been measured: ASC0 is set up, TXD0 becomes an output, the identification byte B5h is sent
(R691 to R693). -/
def bootstrapZeroByte (t6 : Nat) (s : State) : Host.Outcome State Fault Refusal :=
  if 0x10000 ≤ t6 then .fault .bootstrapStuck
  else
    let reload := bootstrapReload t6 s.freeWord
    let ports := { s.ports with p3 := s.ports.p3 ||| 0x0400, dp3 := s.ports.dp3 ||| 0x0400 }
    .next { s.advanceFree 1 with
      ports := ports
      prev := { s.prev with ports := ports }
      asc := { Asc.reset with s0con := 0x8011, bgReload := reload, bgTimer := reload, tbuf := 0xB5, tbufFull := true }
      sys := { s.sys with power := .loading 0 } }

/-- `n` bytes of free values from address `a` up, two from each free word. -/
def freeBytes (m : List Host.Cell) (a start : Nat) : Nat → List Host.Cell
  | 0 => m
  | n + 1 => Memory.writeWord (freeBytes m a start n) (a + 2 * n) (Config.freeWord (start + n))

/-- The loader's jump to 00'FA40h. What its code leaves behind beyond R692's table is free (R692, D28): the GPRs and
stack words FA00h..FA3Fh, T6, T6CON, T6IR, S0RBUF (nine bits of which exist, R594), ASC0's request and error flags, E, Z, V, C
and N. -/
def bootstrapDone (s : State) : State :=
  let f := Config.freeWord
  let k := s.free
  let psw := f (k + 36) &&& 0x001F
  let asc := { Asc.reset with
    s0con := 0x8011 ||| (f (k + 32) &&& 0x0700), s0rbuf := f (k + 33) &&& 0x01FF, bgReload := s.asc.bgReload
    bgTimer := s.asc.bgReload }
  let s1 := { s.advanceFree 37 with
    mem := freeBytes s.mem 0xFA00 k 32
    asc := asc
    gpt := { s.gpt with t6 := f (k + 34), t6con := f (k + 35) &&& 0x87FF }
    cpu := { s.cpu with psw := psw, csp := 0, ip := 0xFA40 }
    prev := { s.prev with cpu := { s.prev.cpu with psw := psw } }
    marks := Marks.clear
    sys := { s.sys with power := .running } }
  let r := f (k + 32)
  ((((s1.setRequest .t6 (bitOf r 0)).setRequest .s0t (bitOf r 1)).setRequest .s0tb (bitOf r 2)).setRequest
    .s0r (bitOf r 3)).setRequest .s0e (bitOf r 4)

/-- Byte number `n` of the 32 that the loader receives (R691): its receiver is enabled when B5h has been sent, a byte that
comes earlier is lost. -/
def bootstrapByte (n : Nat) (b : Byte) (s : State) : State :=
  if s.asc.tbufFull || s.asc.txBusy then s
  else
  let s1 := { s with mem := Memory.write s.mem (0xFA40 + n) b }
  if n < 31 then { s1 with sys := { s1.sys with power := .loading (n + 1) } } else bootstrapDone s1

end Sys2Proof.Machine
end

