-- ==== Sys2Proof/Machine/System.lean ====
section
/-! DEFINITION. The system control instructions, NOP and the extension instructions. Spec: 49_system_misc.md. -/

namespace Sys2Proof.Machine

/-- ATOMIC #irang2 (R323). -/
def execAtomicIrang2 (k : Nat) (s : State) : Host.Outcome State Fault Refusal :=
  runInstr 2 (startSequence k false .none) s

/-- EXTR #irang2 (R324). -/
def execExtrIrang2 (k : Nat) (s : State) : Host.Outcome State Fault Refusal :=
  runInstr 2 (startSequence k true .none) s

/-- DISWDT (R320). -/
def execDiswdt (s : State) : Host.Outcome State Fault Refusal :=
  runInstr 4 (update (fun s => if s.wdt.disLocked then s else { s with wdt := { s.wdt with disabled := true, psc := none } })) s

/-- EINIT (R321): pin RSTOUT goes high with it (`rstoutLevel`). -/
def execEinit (s : State) : Host.Outcome State Fault Refusal :=
  runInstr 4 (update (fun s =>
    { s with sys := { s.sys with einitDone := true }, wdt := { s.wdt with disLocked := true } })) s

/-- IDLE (R317). -/
def execIdle (s : State) : Host.Outcome State Fault Refusal :=
  runInstr 4 (update (fun s => { s with sys := { s.sys with power := .idle } })) s

/-- PWRDN (R318). -/
def execPwrdn (s : State) : Host.Outcome State Fault Refusal :=
  runInstr 4 (update (fun s => if s.pins.nmi then s else { s with sys := { s.sys with power := .powerDown } })) s

/-- SRVWDT (R319). -/
def execSrvwdt (s : State) : Host.Outcome State Fault Refusal :=
  runInstr 4 (update (fun s => { s with wdt := serviceWatchdog s.wdt })) s

/-- SRST (R316). -/
def execSrst (s : State) : Host.Outcome State Fault Refusal :=
  .next (startReset .software s)

/-- EXTS #seg,#irang2 (R327). -/
def execExtsSegIrang2 (seg : BitVec 8) (k : Nat) (s : State) : Host.Outcome State Fault Refusal :=
  runInstr 4 (startSequence k false (.segment seg)) s

/-- EXTSR #seg,#irang2 (R328). -/
def execExtsrSegIrang2 (seg : BitVec 8) (k : Nat) (s : State) : Host.Outcome State Fault Refusal :=
  runInstr 4 (startSequence k true (.segment seg)) s

/-- EXTP #pag,#irang2 (R325). -/
def execExtpPagIrang2 (pag : BitVec 10) (k : Nat) (s : State) : Host.Outcome State Fault Refusal :=
  runInstr 4 (startSequence k false (.page pag)) s

/-- EXTPR #pag,#irang2 (R326). -/
def execExtprPagIrang2 (pag : BitVec 10) (k : Nat) (s : State) : Host.Outcome State Fault Refusal :=
  runInstr 4 (startSequence k true (.page pag)) s

/-- NOP (R322). -/
def execNop (s : State) : Host.Outcome State Fault Refusal :=
  runInstr 2 (pure ()) s

/-- EXTS Rwm,#irang2 (R327). -/
def execExtsRwmIrang2 (m : BitVec 4) (k : Nat) (s : State) : Host.Outcome State Fault Refusal :=
  runInstr 2 (do
    let p ← readGpr m
    startSequence k false (.segment (p.setWidth 8))) s

/-- EXTP Rwm,#irang2 (R325). -/
def execExtpRwmIrang2 (m : BitVec 4) (k : Nat) (s : State) : Host.Outcome State Fault Refusal :=
  runInstr 2 (do
    let p ← readGpr m
    startSequence k false (.page (p.setWidth 10))) s

/-- EXTSR Rwm,#irang2 (R328). -/
def execExtsrRwmIrang2 (m : BitVec 4) (k : Nat) (s : State) : Host.Outcome State Fault Refusal :=
  runInstr 2 (do
    let p ← readGpr m
    startSequence k true (.segment (p.setWidth 8))) s

/-- EXTPR Rwm,#irang2 (R326). -/
def execExtprRwmIrang2 (m : BitVec 4) (k : Nat) (s : State) : Host.Outcome State Fault Refusal :=
  runInstr 2 (do
    let p ← readGpr m
    startSequence k true (.page (p.setWidth 10))) s

end Sys2Proof.Machine
end

