-- ==== Sys2Proof/Machine/Dispatch.lean ====
section
/-! DEFINITION. One arm per instruction: a direct call of its meaning. -/

namespace Sys2Proof.Machine

/-- The meaning of one instruction in a state. -/
def exec (i : Instr) (s : State) : Host.Outcome State Fault Refusal :=
  match i with
  | .addRwnRwm n m => Sys2Proof.Machine.execAddRwnRwm n m s
  | .addRegMem reg mem => Sys2Proof.Machine.execAddRegMem reg mem s
  | .addMemReg mem reg => Sys2Proof.Machine.execAddMemReg mem reg s
  | .addRegData16 reg d => Sys2Proof.Machine.execAddRegData16 reg d s
  | .addRwnIndRwi n ri => Sys2Proof.Machine.execAddRwnIndRwi n ri s
  | .addRwnIndRwiInc n ri => Sys2Proof.Machine.execAddRwnIndRwiInc n ri s
  | .addRwnData3 n d => Sys2Proof.Machine.execAddRwnData3 n d s
  | .addbRbnRbm n m => Sys2Proof.Machine.execAddbRbnRbm n m s
  | .addbRegMem reg mem => Sys2Proof.Machine.execAddbRegMem reg mem s
  | .addbMemReg mem reg => Sys2Proof.Machine.execAddbMemReg mem reg s
  | .addbRegData8 reg d => Sys2Proof.Machine.execAddbRegData8 reg d s
  | .addbRbnIndRwi n ri => Sys2Proof.Machine.execAddbRbnIndRwi n ri s
  | .addbRbnIndRwiInc n ri => Sys2Proof.Machine.execAddbRbnIndRwiInc n ri s
  | .addbRbnData3 n d => Sys2Proof.Machine.execAddbRbnData3 n d s
  | .addcRwnRwm n m => Sys2Proof.Machine.execAddcRwnRwm n m s
  | .addcRegMem reg mem => Sys2Proof.Machine.execAddcRegMem reg mem s
  | .addcMemReg mem reg => Sys2Proof.Machine.execAddcMemReg mem reg s
  | .addcRegData16 reg d => Sys2Proof.Machine.execAddcRegData16 reg d s
  | .addcRwnIndRwi n ri => Sys2Proof.Machine.execAddcRwnIndRwi n ri s
  | .addcRwnIndRwiInc n ri => Sys2Proof.Machine.execAddcRwnIndRwiInc n ri s
  | .addcRwnData3 n d => Sys2Proof.Machine.execAddcRwnData3 n d s
  | .addcbRbnRbm n m => Sys2Proof.Machine.execAddcbRbnRbm n m s
  | .addcbRegMem reg mem => Sys2Proof.Machine.execAddcbRegMem reg mem s
  | .addcbMemReg mem reg => Sys2Proof.Machine.execAddcbMemReg mem reg s
  | .addcbRegData8 reg d => Sys2Proof.Machine.execAddcbRegData8 reg d s
  | .addcbRbnIndRwi n ri => Sys2Proof.Machine.execAddcbRbnIndRwi n ri s
  | .addcbRbnIndRwiInc n ri => Sys2Proof.Machine.execAddcbRbnIndRwiInc n ri s
  | .addcbRbnData3 n d => Sys2Proof.Machine.execAddcbRbnData3 n d s
  | .subRwnRwm n m => Sys2Proof.Machine.execSubRwnRwm n m s
  | .subRegMem reg mem => Sys2Proof.Machine.execSubRegMem reg mem s
  | .subMemReg mem reg => Sys2Proof.Machine.execSubMemReg mem reg s
  | .subRegData16 reg d => Sys2Proof.Machine.execSubRegData16 reg d s
  | .subRwnIndRwi n ri => Sys2Proof.Machine.execSubRwnIndRwi n ri s
  | .subRwnIndRwiInc n ri => Sys2Proof.Machine.execSubRwnIndRwiInc n ri s
  | .subRwnData3 n d => Sys2Proof.Machine.execSubRwnData3 n d s
  | .subbRbnRbm n m => Sys2Proof.Machine.execSubbRbnRbm n m s
  | .subbRegMem reg mem => Sys2Proof.Machine.execSubbRegMem reg mem s
  | .subbMemReg mem reg => Sys2Proof.Machine.execSubbMemReg mem reg s
  | .subbRegData8 reg d => Sys2Proof.Machine.execSubbRegData8 reg d s
  | .subbRbnIndRwi n ri => Sys2Proof.Machine.execSubbRbnIndRwi n ri s
  | .subbRbnIndRwiInc n ri => Sys2Proof.Machine.execSubbRbnIndRwiInc n ri s
  | .subbRbnData3 n d => Sys2Proof.Machine.execSubbRbnData3 n d s
  | .subcRwnRwm n m => Sys2Proof.Machine.execSubcRwnRwm n m s
  | .subcRegMem reg mem => Sys2Proof.Machine.execSubcRegMem reg mem s
  | .subcMemReg mem reg => Sys2Proof.Machine.execSubcMemReg mem reg s
  | .subcRegData16 reg d => Sys2Proof.Machine.execSubcRegData16 reg d s
  | .subcRwnIndRwi n ri => Sys2Proof.Machine.execSubcRwnIndRwi n ri s
  | .subcRwnIndRwiInc n ri => Sys2Proof.Machine.execSubcRwnIndRwiInc n ri s
  | .subcRwnData3 n d => Sys2Proof.Machine.execSubcRwnData3 n d s
  | .subcbRbnRbm n m => Sys2Proof.Machine.execSubcbRbnRbm n m s
  | .subcbRegMem reg mem => Sys2Proof.Machine.execSubcbRegMem reg mem s
  | .subcbMemReg mem reg => Sys2Proof.Machine.execSubcbMemReg mem reg s
  | .subcbRegData8 reg d => Sys2Proof.Machine.execSubcbRegData8 reg d s
  | .subcbRbnIndRwi n ri => Sys2Proof.Machine.execSubcbRbnIndRwi n ri s
  | .subcbRbnIndRwiInc n ri => Sys2Proof.Machine.execSubcbRbnIndRwiInc n ri s
  | .subcbRbnData3 n d => Sys2Proof.Machine.execSubcbRbnData3 n d s
  | .cmpRwnRwm n m => Sys2Proof.Machine.execCmpRwnRwm n m s
  | .cmpRegMem reg mem => Sys2Proof.Machine.execCmpRegMem reg mem s
  | .cmpRegData16 reg d => Sys2Proof.Machine.execCmpRegData16 reg d s
  | .cmpRwnIndRwi n ri => Sys2Proof.Machine.execCmpRwnIndRwi n ri s
  | .cmpRwnIndRwiInc n ri => Sys2Proof.Machine.execCmpRwnIndRwiInc n ri s
  | .cmpRwnData3 n d => Sys2Proof.Machine.execCmpRwnData3 n d s
  | .cmpbRbnRbm n m => Sys2Proof.Machine.execCmpbRbnRbm n m s
  | .cmpbRegMem reg mem => Sys2Proof.Machine.execCmpbRegMem reg mem s
  | .cmpbRegData8 reg d => Sys2Proof.Machine.execCmpbRegData8 reg d s
  | .cmpbRbnIndRwi n ri => Sys2Proof.Machine.execCmpbRbnIndRwi n ri s
  | .cmpbRbnIndRwiInc n ri => Sys2Proof.Machine.execCmpbRbnIndRwiInc n ri s
  | .cmpbRbnData3 n d => Sys2Proof.Machine.execCmpbRbnData3 n d s
  | .xorRwnRwm n m => Sys2Proof.Machine.execXorRwnRwm n m s
  | .xorRegMem reg mem => Sys2Proof.Machine.execXorRegMem reg mem s
  | .xorMemReg mem reg => Sys2Proof.Machine.execXorMemReg mem reg s
  | .xorRegData16 reg d => Sys2Proof.Machine.execXorRegData16 reg d s
  | .xorRwnIndRwi n ri => Sys2Proof.Machine.execXorRwnIndRwi n ri s
  | .xorRwnIndRwiInc n ri => Sys2Proof.Machine.execXorRwnIndRwiInc n ri s
  | .xorRwnData3 n d => Sys2Proof.Machine.execXorRwnData3 n d s
  | .xorbRbnRbm n m => Sys2Proof.Machine.execXorbRbnRbm n m s
  | .xorbRegMem reg mem => Sys2Proof.Machine.execXorbRegMem reg mem s
  | .xorbMemReg mem reg => Sys2Proof.Machine.execXorbMemReg mem reg s
  | .xorbRegData8 reg d => Sys2Proof.Machine.execXorbRegData8 reg d s
  | .xorbRbnIndRwi n ri => Sys2Proof.Machine.execXorbRbnIndRwi n ri s
  | .xorbRbnIndRwiInc n ri => Sys2Proof.Machine.execXorbRbnIndRwiInc n ri s
  | .xorbRbnData3 n d => Sys2Proof.Machine.execXorbRbnData3 n d s
  | .andRwnRwm n m => Sys2Proof.Machine.execAndRwnRwm n m s
  | .andRegMem reg mem => Sys2Proof.Machine.execAndRegMem reg mem s
  | .andMemReg mem reg => Sys2Proof.Machine.execAndMemReg mem reg s
  | .andRegData16 reg d => Sys2Proof.Machine.execAndRegData16 reg d s
  | .andRwnIndRwi n ri => Sys2Proof.Machine.execAndRwnIndRwi n ri s
  | .andRwnIndRwiInc n ri => Sys2Proof.Machine.execAndRwnIndRwiInc n ri s
  | .andRwnData3 n d => Sys2Proof.Machine.execAndRwnData3 n d s
  | .andbRbnRbm n m => Sys2Proof.Machine.execAndbRbnRbm n m s
  | .andbRegMem reg mem => Sys2Proof.Machine.execAndbRegMem reg mem s
  | .andbMemReg mem reg => Sys2Proof.Machine.execAndbMemReg mem reg s
  | .andbRegData8 reg d => Sys2Proof.Machine.execAndbRegData8 reg d s
  | .andbRbnIndRwi n ri => Sys2Proof.Machine.execAndbRbnIndRwi n ri s
  | .andbRbnIndRwiInc n ri => Sys2Proof.Machine.execAndbRbnIndRwiInc n ri s
  | .andbRbnData3 n d => Sys2Proof.Machine.execAndbRbnData3 n d s
  | .orRwnRwm n m => Sys2Proof.Machine.execOrRwnRwm n m s
  | .orRegMem reg mem => Sys2Proof.Machine.execOrRegMem reg mem s
  | .orMemReg mem reg => Sys2Proof.Machine.execOrMemReg mem reg s
  | .orRegData16 reg d => Sys2Proof.Machine.execOrRegData16 reg d s
  | .orRwnIndRwi n ri => Sys2Proof.Machine.execOrRwnIndRwi n ri s
  | .orRwnIndRwiInc n ri => Sys2Proof.Machine.execOrRwnIndRwiInc n ri s
  | .orRwnData3 n d => Sys2Proof.Machine.execOrRwnData3 n d s
  | .orbRbnRbm n m => Sys2Proof.Machine.execOrbRbnRbm n m s
  | .orbRegMem reg mem => Sys2Proof.Machine.execOrbRegMem reg mem s
  | .orbMemReg mem reg => Sys2Proof.Machine.execOrbMemReg mem reg s
  | .orbRegData8 reg d => Sys2Proof.Machine.execOrbRegData8 reg d s
  | .orbRbnIndRwi n ri => Sys2Proof.Machine.execOrbRbnIndRwi n ri s
  | .orbRbnIndRwiInc n ri => Sys2Proof.Machine.execOrbRbnIndRwiInc n ri s
  | .orbRbnData3 n d => Sys2Proof.Machine.execOrbRbnData3 n d s
  | .cmpi1RwnData4 n d => Sys2Proof.Machine.execCmpi1RwnData4 n d s
  | .cmpi1RwnMem n mem => Sys2Proof.Machine.execCmpi1RwnMem n mem s
  | .cmpi1RwnData16 n d => Sys2Proof.Machine.execCmpi1RwnData16 n d s
  | .cmpi2RwnData4 n d => Sys2Proof.Machine.execCmpi2RwnData4 n d s
  | .cmpi2RwnMem n mem => Sys2Proof.Machine.execCmpi2RwnMem n mem s
  | .cmpi2RwnData16 n d => Sys2Proof.Machine.execCmpi2RwnData16 n d s
  | .cmpd1RwnData4 n d => Sys2Proof.Machine.execCmpd1RwnData4 n d s
  | .cmpd1RwnMem n mem => Sys2Proof.Machine.execCmpd1RwnMem n mem s
  | .cmpd1RwnData16 n d => Sys2Proof.Machine.execCmpd1RwnData16 n d s
  | .cmpd2RwnData4 n d => Sys2Proof.Machine.execCmpd2RwnData4 n d s
  | .cmpd2RwnMem n mem => Sys2Proof.Machine.execCmpd2RwnMem n mem s
  | .cmpd2RwnData16 n d => Sys2Proof.Machine.execCmpd2RwnData16 n d s
  | .negRwn n => Sys2Proof.Machine.execNegRwn n s
  | .cplRwn n => Sys2Proof.Machine.execCplRwn n s
  | .negbRbn n => Sys2Proof.Machine.execNegbRbn n s
  | .cplbRbn n => Sys2Proof.Machine.execCplbRbn n s
  | .movbzRwnRbm n m => Sys2Proof.Machine.execMovbzRwnRbm n m s
  | .movbsRwnRbm n m => Sys2Proof.Machine.execMovbsRwnRbm n m s
  | .movbzRegMem reg mem => Sys2Proof.Machine.execMovbzRegMem reg mem s
  | .movbsRegMem reg mem => Sys2Proof.Machine.execMovbsRegMem reg mem s
  | .movbzMemReg mem reg => Sys2Proof.Machine.execMovbzMemReg mem reg s
  | .movbsMemReg mem reg => Sys2Proof.Machine.execMovbsMemReg mem reg s
  | .atomicIrang2 k => Sys2Proof.Machine.execAtomicIrang2 k s
  | .extrIrang2 k => Sys2Proof.Machine.execExtrIrang2 k s
  | .movRwnData4 n d => Sys2Proof.Machine.execMovRwnData4 n d s
  | .movbRbnData4 n d => Sys2Proof.Machine.execMovbRbnData4 n d s
  | .movRwnRwm n m => Sys2Proof.Machine.execMovRwnRwm n m s
  | .movbRbnRbm n m => Sys2Proof.Machine.execMovbRbnRbm n m s
  | .pcallRegCaddr reg caddr => Sys2Proof.Machine.execPcallRegCaddr reg caddr s
  | .movRegMem reg mem => Sys2Proof.Machine.execMovRegMem reg mem s
  | .movbRegMem reg mem => Sys2Proof.Machine.execMovbRegMem reg mem s
  | .movIndRwnMem n mem => Sys2Proof.Machine.execMovIndRwnMem n mem s
  | .movMemIndRwn mem n => Sys2Proof.Machine.execMovMemIndRwn mem n s
  | .movbIndRwnMem n mem => Sys2Proof.Machine.execMovbIndRwnMem n mem s
  | .movbMemIndRwn mem n => Sys2Proof.Machine.execMovbMemIndRwn mem n s
  | .movIndRwmData16Rwn m d n => Sys2Proof.Machine.execMovIndRwmData16Rwn m d n s
  | .movRwnIndRwmData16 n m d => Sys2Proof.Machine.execMovRwnIndRwmData16 n m d s
  | .movbIndRwmData16Rbn m d n => Sys2Proof.Machine.execMovbIndRwmData16Rbn m d n s
  | .movbRbnIndRwmData16 n m d => Sys2Proof.Machine.execMovbRbnIndRwmData16 n m d s
  | .diswdt => Sys2Proof.Machine.execDiswdt s
  | .einit => Sys2Proof.Machine.execEinit s
  | .idle => Sys2Proof.Machine.execIdle s
  | .pwrdn => Sys2Proof.Machine.execPwrdn s
  | .srvwdt => Sys2Proof.Machine.execSrvwdt s
  | .srst => Sys2Proof.Machine.execSrst s
  | .scxtRegData16 reg d => Sys2Proof.Machine.execScxtRegData16 reg d s
  | .scxtRegMem reg mem => Sys2Proof.Machine.execScxtRegMem reg mem s
  | .extsSegIrang2 seg k => Sys2Proof.Machine.execExtsSegIrang2 seg k s
  | .extsrSegIrang2 seg k => Sys2Proof.Machine.execExtsrSegIrang2 seg k s
  | .extpPagIrang2 pag k => Sys2Proof.Machine.execExtpPagIrang2 pag k s
  | .extprPagIrang2 pag k => Sys2Proof.Machine.execExtprPagIrang2 pag k s
  | .movRegData16 reg d => Sys2Proof.Machine.execMovRegData16 reg d s
  | .movbRegData8 reg d => Sys2Proof.Machine.execMovbRegData8 reg d s
  | .movMemReg mem reg => Sys2Proof.Machine.execMovMemReg mem reg s
  | .movbMemReg mem reg => Sys2Proof.Machine.execMovbMemReg mem reg s
  | .movIndDecRwmRwn m n => Sys2Proof.Machine.execMovIndDecRwmRwn m n s
  | .movbIndDecRwmRbn m n => Sys2Proof.Machine.execMovbIndDecRwmRbn m n s
  | .movRwnIndRwmInc n m => Sys2Proof.Machine.execMovRwnIndRwmInc n m s
  | .movbRbnIndRwmInc n m => Sys2Proof.Machine.execMovbRbnIndRwmInc n m s
  | .movRwnIndRwm n m => Sys2Proof.Machine.execMovRwnIndRwm n m s
  | .movbRbnIndRwm n m => Sys2Proof.Machine.execMovbRbnIndRwm n m s
  | .movIndRwmRwn m n => Sys2Proof.Machine.execMovIndRwmRwn m n s
  | .movbIndRwmRbn m n => Sys2Proof.Machine.execMovbIndRwmRbn m n s
  | .movIndRwnIndRwm n m => Sys2Proof.Machine.execMovIndRwnIndRwm n m s
  | .movbIndRwnIndRwm n m => Sys2Proof.Machine.execMovbIndRwnIndRwm n m s
  | .movIndRwnIncIndRwm n m => Sys2Proof.Machine.execMovIndRwnIncIndRwm n m s
  | .movbIndRwnIncIndRwm n m => Sys2Proof.Machine.execMovbIndRwnIncIndRwm n m s
  | .movIndRwnIndRwmInc n m => Sys2Proof.Machine.execMovIndRwnIndRwmInc n m s
  | .movbIndRwnIndRwmInc n m => Sys2Proof.Machine.execMovbIndRwnIndRwmInc n m s
  | .bfldlBitoffMask8Data8 bo mask d => Sys2Proof.Machine.execBfldlBitoffMask8Data8 bo mask d s
  | .bfldhBitoffMask8Data8 bo mask d => Sys2Proof.Machine.execBfldhBitoffMask8Data8 bo mask d s
  | .bcmpBitZBitQ zo z qo q => Sys2Proof.Machine.execBcmpBitZBitQ zo z qo q s
  | .bmovnBitZBitQ zo z qo q => Sys2Proof.Machine.execBmovnBitZBitQ zo z qo q s
  | .bmovBitZBitQ zo z qo q => Sys2Proof.Machine.execBmovBitZBitQ zo z qo q s
  | .borBitZBitQ zo z qo q => Sys2Proof.Machine.execBorBitZBitQ zo z qo q s
  | .bandBitZBitQ zo z qo q => Sys2Proof.Machine.execBandBitZBitQ zo z qo q s
  | .bxorBitZBitQ zo z qo q => Sys2Proof.Machine.execBxorBitZBitQ zo z qo q s
  | .jbBitQRel qo q rel => Sys2Proof.Machine.execJbBitQRel qo q rel s
  | .jnbBitQRel qo q rel => Sys2Proof.Machine.execJnbBitQRel qo q rel s
  | .jbcBitQRel qo q rel => Sys2Proof.Machine.execJbcBitQRel qo q rel s
  | .jnbsBitQRel qo q rel => Sys2Proof.Machine.execJnbsBitQRel qo q rel s
  | .callaCcCaddr cc caddr => Sys2Proof.Machine.execCallaCcCaddr cc caddr s
  | .callsSegCaddr seg caddr => Sys2Proof.Machine.execCallsSegCaddr seg caddr s
  | .jmpaCcCaddr cc caddr => Sys2Proof.Machine.execJmpaCcCaddr cc caddr s
  | .jmpsSegCaddr seg caddr => Sys2Proof.Machine.execJmpsSegCaddr seg caddr s
  | .mulRwnRwm n m => Sys2Proof.Machine.execMulRwnRwm n m s
  | .muluRwnRwm n m => Sys2Proof.Machine.execMuluRwnRwm n m s
  | .priorRwnRwm n m => Sys2Proof.Machine.execPriorRwnRwm n m s
  | .divRwn n => Sys2Proof.Machine.execDivRwn n s
  | .divuRwn n => Sys2Proof.Machine.execDivuRwn n s
  | .divlRwn n => Sys2Proof.Machine.execDivlRwn n s
  | .divluRwn n => Sys2Proof.Machine.execDivluRwn n s
  | .trapTrap7 t => Sys2Proof.Machine.execTrapTrap7 t s
  | .calliCcIndRwn cc n => Sys2Proof.Machine.execCalliCcIndRwn cc n s
  | .callrRel rel => Sys2Proof.Machine.execCallrRel rel s
  | .ret => Sys2Proof.Machine.execRet s
  | .rets => Sys2Proof.Machine.execRets s
  | .retpReg reg => Sys2Proof.Machine.execRetpReg reg s
  | .reti => Sys2Proof.Machine.execReti s
  | .rolRwnRwm n m => Sys2Proof.Machine.execRolRwnRwm n m s
  | .rolRwnData4 n d => Sys2Proof.Machine.execRolRwnData4 n d s
  | .rorRwnRwm n m => Sys2Proof.Machine.execRorRwnRwm n m s
  | .rorRwnData4 n d => Sys2Proof.Machine.execRorRwnData4 n d s
  | .shlRwnRwm n m => Sys2Proof.Machine.execShlRwnRwm n m s
  | .shlRwnData4 n d => Sys2Proof.Machine.execShlRwnData4 n d s
  | .shrRwnRwm n m => Sys2Proof.Machine.execShrRwnRwm n m s
  | .shrRwnData4 n d => Sys2Proof.Machine.execShrRwnData4 n d s
  | .ashrRwnRwm n m => Sys2Proof.Machine.execAshrRwnRwm n m s
  | .ashrRwnData4 n d => Sys2Proof.Machine.execAshrRwnData4 n d s
  | .jmpiCcIndRwn cc n => Sys2Proof.Machine.execJmpiCcIndRwn cc n s
  | .nop => Sys2Proof.Machine.execNop s
  | .extsRwmIrang2 m k => Sys2Proof.Machine.execExtsRwmIrang2 m k s
  | .extpRwmIrang2 m k => Sys2Proof.Machine.execExtpRwmIrang2 m k s
  | .extsrRwmIrang2 m k => Sys2Proof.Machine.execExtsrRwmIrang2 m k s
  | .extprRwmIrang2 m k => Sys2Proof.Machine.execExtprRwmIrang2 m k s
  | .pushReg reg => Sys2Proof.Machine.execPushReg reg s
  | .popReg reg => Sys2Proof.Machine.execPopReg reg s
  | .jmprCcRel cc rel => Sys2Proof.Machine.execJmprCcRel cc rel s
  | .bclrBitQ qo q => Sys2Proof.Machine.execBclrBitQ qo q s
  | .bsetBitQ qo q => Sys2Proof.Machine.execBsetBitQ qo q s

end Sys2Proof.Machine
end

