-- ==== Sys2Proof/Machine/Interrupts.lean ====
section
/-! DEFINITION. The interrupt controller at an instruction boundary: hardware traps, the arbitration of requests,
interrupt entry and the PEC. Spec: 60_exceptions.md rules R347 to R372, R379 to R394. -/

namespace Sys2Proof.Machine

/-! ## Entries -/

/-- The hazard state after an entry that began in `s` and ended in `t`: it is a taken branch (R90, R110). An interrupt entry
invalidates the jump cache. DESIGN CHOICE: a hardware trap entry, which R110, R111 and R289 do not list, leaves the cached
targets, that of a cache jump just taken among them, and its pushes count as stores that can break one, as those of a PEC
transfer do; R110 does not say whether an entry's pushes are stores (log entry 45). DESIGN CHOICE: under premise (1) of R110 the
pushes of every entry count as stored before its branch and are not held against the code behind it (log entry 11). -/
def entryHazards (isInterrupt : Bool) (s t : State) : Hazard :=
  { t.hz with
    seqArea := none
    history := []
    cacheTargets := if isInterrupt then [] else cachedTargets s
    cacheBroken := t.hz.cacheBroken || !isInterrupt && hitsCachedTarget s t.marks.stores }

/-- Make an entry: the pending register updates end (D31), then the frame is pushed and the vector loaded. What its pushes do
to code in the jump cache is said at `entryHazards` (log entry 45). -/
def runEntry (isInterrupt : Bool) (body : Op Unit) (s : State) : Host.Outcome State Fault Refusal :=
  match body s.settle with
  | .ok (_, t) =>
    .next { t with marks := { Marks.clear with stackDelay := s.marks.stackDelay }, hz := entryHazards isInterrupt s.settle t }
  | .error (.refused r) => .refused r
  | .error _ => .next s

/-- The CPU runs (again). -/
def State.wake (s : State) : State := { s with sys := { s.sys with power := .running } }

/-! ## Hardware traps (R380) -/

/-- TFR.NMI, STKOF or STKUF. -/
def classARequest (tfr : Word) : Bool := bitOf tfr 15 || bitOf tfr 14 || bitOf tfr 13

/-- TFR.UNDOPC, PRTFLT, ILLOPA, ILLINA or ILLBUS. -/
def classBRequest (tfr : Word) : Bool := decide (tfr &&& 0x008F ≠ 0)

/-- The trap number of a class A request: NMI before STKOF before STKUF (R380, R390). -/
def classATrap (tfr : Word) : Nat := if bitOf tfr 15 then 0x02 else if bitOf tfr 14 then 0x04 else 0x06

/-- A class A request can be taken (R380, R357, R383). -/
def classATakeable (s : State) : Bool :=
  classARequest s.cpu.tfr && !s.sys.inA && decide (s.ext.count = 0) && !s.marks.stackDelay

/-- A class B request can be taken (R380, R392). -/
def classBTakeable (s : State) : Bool := classBRequest s.cpu.tfr && !s.sys.inA && !s.sys.inB

/-- `HardwareTrapEntry` of class A (R367, R380, R390). -/
def enterClassA (s : State) : Host.Outcome State Fault Refusal :=
  runEntry false (do
    takeException (classATrap s.cpu.tfr) s.cpu.ip (some 15)
    update (fun t => { t with sys := { t.sys with inA := true } })) s.wake

/-- `HardwareTrapEntry` of class B: it ends an extension sequence (R330, R380, D21). -/
def enterClassB (s : State) : Host.Outcome State Fault Refusal :=
  runEntry false (do
    update (fun t => { t with ext := Ext.idle })
    takeException 0x0A s.cpu.ip (some 15)
    update (fun t => { t with sys := { t.sys with inB := true } })) s.wake

/-! ## Arbitration (R347, R348, R352) -/

/-- The 6-bit number ILVL : GLVL of a node. -/
def nodePriority (s : State) (n : IrqNode) : Nat := icLevel (s.icOf n) * 4 + icGroup (s.icOf n)

/-- A node takes part in the round: its device has it, its request and enable flags are set. -/
def isCandidate (s : State) (n : IrqNode) : Bool :=
  nodePresent s.board n && icRequest (s.icOf n) && icEnable (s.icOf n)

/-- The better of a node and the best so far. -/
def betterNode (s : State) (best : Option IrqNode) (n : IrqNode) : Option IrqNode :=
  match best with
  | none => some n
  | some b => if nodePriority s b < nodePriority s n then some n else some b

/-- The winner of the round (R352). -/
def winner (s : State) : Option IrqNode := (allNodes.filter (isCandidate s)).foldl (betterNode s) none

/-- Another enabled node has the same level and group (R347, R363, U17). -/
def sharesPriority (s : State) (w : IrqNode) : Bool :=
  allNodes.any (fun n => decide (n ≠ w) && nodePresent s.board n && icEnable (s.icOf n)
    && decide (nodePriority s n = nodePriority s w))

/-- The PSW that the arbitration hardware sees: it lags an explicit write by one instruction (R715). -/
def arbitrationPsw (s : State) : Word := if s.marks.pswWritten then s.prev.cpu.psw else s.cpu.psw

/-- The request is serviced: IEN = 1 and its level is above the CPU's (R350, R352). -/
def isServiceable (s : State) (w : IrqNode) : Bool :=
  let psw := arbitrationPsw s
  bitOf psw 11 && decide (fieldNat psw 12 4 < icLevel (s.icOf w))

/-- `PecChannel(ILVL, GLVL)` (R348). -/
def pecChannel (v : Byte) : Fin 8 := Fin.ofNat 8 (v.toNat % 8)

/-- The PEC serves the request: level 14 or 15 and COUNT not 0 (R348). -/
def isPecRequest (s : State) (w : IrqNode) : Bool :=
  decide (14 ≤ icLevel (s.icOf w)) && decide (fieldNat s.pecc[pecChannel (s.icOf w)] 0 8 ≠ 0)

/-- `InterruptEntry(w)` (R366). -/
def enterInterrupt (w : IrqNode) (s : State) : Host.Outcome State Fault Refusal :=
  runEntry true (do
    takeException (nodeTrap w) s.cpu.ip (some (icLevel (s.icOf w)))
    update (State.clearRequest · w)) s.wake

/-! ## The PEC (R358 to R364) -/

/-- IRAM address of SRCPx (R362); DSTPx is two bytes above. -/
def pecPointer (x : Fin 8) : Nat := 0xFCE0 + 4 * x.val

/-- An address of segment 0. -/
def segment0 (p : Word) : PhysAddr := p.setWidth 24

/-- The data movement of a transfer: a word, for which both pointers must be even (U19), or a byte. Its accesses to a
remapped area are outside the model as any other data access (R717, U10). -/
def pecMove (byte : Bool) (src dst : Word) : Op Unit := do
  refuseIf (fun s => inRemapped s s.hz.dataRemap (segment0 src) || inRemapped s s.hz.dataRemap (segment0 dst)) .romRemapped
  if byte then
    let v ← readPhysByte (segment0 src)
    writePhysByte (segment0 dst) v
  else if isOdd src || isOdd dst then stop (.trap 2)
  else
    let v ← readPhysWord (segment0 src)
    writePhysWord (segment0 dst) v

/-- `PECService(x, w)` (R361): the transfer, the pointer's increment, COUNT and the request flag (R360). -/
def pecService (x : Fin 8) (w : IrqNode) : Op Unit := do
  let c ← look (fun s => s.pecc[x])
  let src ← look (fun s => Memory.readWord s.mem (pecPointer x))
  let dst ← look (fun s => Memory.readWord s.mem (pecPointer x + 2))
  let byte := bitOf c 8
  pecMove byte src dst
  let size : Word := if byte then 1 else 2
  if fieldNat c 9 2 = 1 then update (State.storeWord · (pecPointer x + 2) (dst + size))
  else if fieldNat c 9 2 = 0 then pure ()
  else update (State.storeWord · (pecPointer x) (src + size))
  let count := fieldNat c 0 8
  update (fun s =>
    let s1 := if count = 0xFF then s
      else { s with pecc := s.pecc.set x (merge 0x00FF s.pecc[x] (BitVec.ofNat 16 (count - 1))) }
    if count = 1 then s1 else s1.clearRequest w)

/-- The stores of a PEC transfer between two instructions count as stores of the instruction before it (R110). -/
def pecHazards (s t : State) : Hazard :=
  { t.hz with
    history := match t.hz.history with
      | [] => []
      | h :: rest => (t.marks.stores ++ h) :: rest
    cacheBroken := t.hz.cacheBroken || hitsCachedTarget s t.marks.stores }

/-- Run a PEC transfer. It can wait for the external bus or for READY; a trap on a pointer or on the bus leaves everything but
the trap flag as it was (U19). It ends the pending register updates of the instruction before it (D31). What the transfer
itself writes to CP, a DPP, SYSCON, BUSCONx, ADDRSELx or a direction register is pending in its turn: the next instruction
still works with the values from before the transfer. R710 speaks of writes by instructions only, so that this is a DESIGN
CHOICE (log entry 10). DESIGN CHOICE: a transfer that itself writes PSW or SP leaves no mark, since R713 and R715 too speak of
instructions only: the next round sees the new PSW at once, and a POP or a return may follow (same entry). DESIGN CHOICE: its
write of a timer register has the priority of R522 as a write by an instruction has (log entry 66). -/
def runPec (w : IrqNode) (s : State) : Host.Outcome State Fault Refusal :=
  match pecService (pecChannel (s.icOf w)) w s.settle with
  | .ok (_, t) =>
    .next { t with marks := { s.marks.kept with timerWrite := t.marks.timerWrite }, hz := pecHazards s.settle t }
  | .error (.trap flag) => .next (s.settle.raise flag)
  | .error .busHeld => .next (waitForBus s)
  | .error .notReady => .next (s.stalled (.pec w))
  | .error (.refused r) => .refused r

/-- Serve the winner (R352). -/
def serve (w : IrqNode) (s : State) : Host.Outcome State Fault Refusal :=
  if sharesPriority s w then .refused .equalPriorities
  else if isPecRequest s w then runPec w s
  else enterInterrupt w s

/-! ## Bus arbitration (R500 to R502) -/

/-- The hold state changes at a boundary between bus cycles (R501), also in Idle mode (`idleStep`, log entry 62). -/
def holdChange (s : State) : Option State :=
  if s.ebc.held then
    if pinHold s then some { s with ebc := { s.ebc with held := false, breqLow := false } } else none
  else if bitOf s.cpu.psw 10 && !pinHold s then some { s with ebc := { s.ebc with held := true } }
  else none

/-! ## What the hardware does at an instruction boundary before the next instruction -/

/-- The request that the round accepts at this boundary, if any: none during an extension sequence (R357), none where
acceptance is put off (D24), and none right after RETI on a board with `oneAfterReti` (R372); on another board a request is
accepted there as at every boundary (R305, D24). DESIGN CHOICE: the board says which of the two rules holds (log entry 65). -/
def acceptedRequest (s : State) : Option IrqNode :=
  if s.ext.count ≠ 0 || s.marks.irqHold then none
  else
    match winner s with
    | some w => if isServiceable s w then some w else none
    | none => none

/-- The hardware's own action at a boundary, in the order hold, traps, requests (R352, R380, R501); none if the next
instruction runs. R352 makes one PEC transfer or interrupt entry per boundary, and no rule says whether the end of a PEC
transfer is a boundary of its own or still the one between the two instructions (R9). DESIGN CHOICE: it is a new one, so that
several transfers, or an entry after a transfer, can come between two instructions (log entry 61). -/
def boundaryAction (s : State) : Option (Host.Outcome State Fault Refusal) :=
  match holdChange s with
  | some t => some (.next t)
  | none =>
    if classATakeable s then some (enterClassA s)
    else if classBTakeable s then some (enterClassB s)
    else
      match acceptedRequest s with
      | some w => some (serve w s)
      | none => none

/-- Idle mode (R701): traps and serviceable requests are taken as at a boundary, an interrupt entry wakes the CPU and a
PEC transfer does not; an enabled request that cannot be serviced wakes the CPU without service. DESIGN CHOICE: HOLD is answered
here too, with HLDEN = 1, since R501 lets it be answered at any boundary between bus cycles. HLDA, and with it the lines that a
bus hold floats, then change in Idle mode with an external bus, where R703's table has the last value of HLDA; and a PEC transfer
that waits for the bus asks for it (`waitForBus`), which the pin BREQ, high by that table (`p6AutoVal`), shows only once the CPU
runs again (log entry 62). -/
def idleStep (s : State) : Host.Outcome State Fault Refusal :=
  match boundaryAction s with
  | some o => o
  | none =>
    if s.marks.irqHold then .next { s with marks := { s.marks with irqHold := false } }
    else
      match winner s with
      | some _ => .next s.wake
      | none => .next s

end Sys2Proof.Machine
end

