-- ==== Sys2Proof/Machine/Events.lean ====
section
/-! DEFINITION. The agents other than the CPU: one CPU clock of all peripherals, the pins, the board, other bus masters,
resets. Spec: 00_scope.md rules R5, R9, R10; 60_exceptions.md rules R374 to R376, R382;
61_ports.md rule R451; 62_external_bus.md rule R501; 64_serial.md rule R660; 70_reset_and_hazards.md. -/

namespace Sys2Proof.Machine

/-! ## One CPU clock -/

/-- A reserved code in a peripheral that runs (U22, U23, U26, U28). -/
def clockRefusal (s : State) : Option Refusal :=
  if timerCodeReserved s.gpt then some .reservedTimerMode
  else if bitOf s.asc.s0con 15 && ascModeReserved s.asc.s0con then some .reservedSerialMode
  else
    match sscRefusal s with
    | some r => some r
    | none => sspRefusal s

/-- The node of fast external interrupt input EXxIN (R375). -/
def externalNode (x : Nat) : IrqNode :=
  match x with
  | 0 => .cc8
  | 1 => .cc9
  | 2 => .cc10
  | 3 => .cc11
  | 4 => .cc12
  | 5 => .cc13
  | 6 => .cc14
  | _ => .cc15

/-- One fast external interrupt input in one clock (R374 to R376). -/
def clockExternalInput (new : Word) (s : State) (x : Nat) : State :=
  s.requestIf (edgeSelected (fieldNat s.ports.exicon (2 * x) 2) (bitOf s.sys.exSample (8 + x)) (bitOf new (8 + x)))
    (externalNode x)

/-- The eight fast external interrupt inputs in one clock. -/
def clockExternalInputs (s : State) : State :=
  let new := levelP2 s
  let t := [0, 1, 2, 3, 4, 5, 6, 7].foldl (clockExternalInput new) s
  { t with sys := { t.sys with exSample := new } }

/-- Pin NMI in one clock: a falling edge sets TFR.NMI and ends Idle mode (R382, R701). -/
def clockNmi (s : State) : State :=
  let fell := s.sys.nmiSample && !s.pins.nmi
  let t := s.raiseIf fell 15
  { t with sys := { t.sys with
      nmiSample := s.pins.nmi
      power := if fell && t.sys.power == .idle then .running else t.sys.power } }

/-- One CPU clock of every peripheral; a watchdog overflow resets the machine (R583). -/
def clockPeripherals (s : State) : State :=
  let (t, overflow) := clockWdt (clockSsp (clockSsc (clockAsc (clockTimers (clockNmi (clockExternalInputs s))))))
  if overflow then startReset .watchdog t else t

/-- The clocks of the peripherals run: not in Power Down mode (R702), not during a reset (R671). -/
def peripheralsRun (p : Power) : Bool :=
  match p with
  | .powerDown | .inReset _ => false
  | _ => true

/-- A CPU clock. -/
def clockStep (s : State) : Host.Outcome State Fault Refusal :=
  if peripheralsRun s.sys.power then
    match clockRefusal s with
    | some r => .refused r
    | none => .next (clockPeripherals s)
  else .next s

/-! ## What the outside does -/

/-- New pin levels; RSTIN low starts a hardware reset in every state of the machine (R670). -/
def setPins (p : Pins) (s : State) : State :=
  let t := { s with pins := p }
  if p.rstin then t else startReset .hardware t

/-- A device of the board changes a byte of its memory (R88). -/
def boardWrite (bank : Fin 5) (a : PhysAddr) (b : Byte) (s : State) : State :=
  { s with mem := Memory.write s.mem (Memory.boardCell bank a.toNat) b }

/-- CLKCFG selects direct drive or the prescaler on the C163, so that the oscillator watchdog guards the clock (R684). -/
def oscillatorWatchdogMode (s : State) : Bool :=
  let k := fieldNat s.bus.rp0h 5 3
  k == 3 || k == 1

/-- `CLOCK_FAIL` (R684, D30): C163 only; with the oscillator watchdog in charge and OWE low nothing happens, nor in Power Down
mode, where the clocks are stopped and no request flag is set (R702). -/
def clockFails (s : State) : State :=
  if s.board.device = .c163 ∧ !poweredDown s ∧ !(oscillatorWatchdogMode s && !s.board.resetPins.owe) then
    let t := s.request .xp3
    { t with sys := { t.sys with clockLost := true } }
  else s

/-- What an agent outside the chip does. -/
def agentStep (e : Event) (s : State) : Host.Outcome State Fault Refusal :=
  match e with
  | .pass => .next s
  | .setPins p => .next (setPins p s)
  | .setResetPins p => .next { s with board := { s.board with resetPins := p } }
  | .boardWrite bank a b => .next (boardWrite bank a b s)
  | .master m => .next (if s.ebc.held then masterAccess s m else s)
  | .bslZeroByte t6 => if s.sys.power = .awaitZeroByte then bootstrapZeroByte t6 s else .next s
  | .bslByte b =>
    match s.sys.power with
    | .loading n => .next (bootstrapByte n b s)
    | _ => .next s
  | .clockFail => .next (clockFails s)
  | .deferInterrupts => .next { s with marks := { s.marks with irqHold := true } }

end Sys2Proof.Machine
end

