-- ==== Sys2Proof/Machine/Fetch.lean ====
section
/-! DEFINITION. Fetching and decoding the next instruction.
Spec: 20_memory.md rules R85 to R90, R107, R110; 30_encoding.md rules R130 to R147; 60_exceptions.md rules R385 to R389;
70_reset_and_hazards.md rules R694, R717, R718. -/

namespace Sys2Proof.Machine

/-- What a fetch ends in. -/
inductive Fetched where
  /-- An instruction, and the state in which it runs: an external fetch leaves its traces on the bus interface. -/
  | instr (i : Instr) (s : State)
  /-- No instruction: a trap flag is set, or the CPU waits for the external bus. -/
  | none (s : State)
  | refused (r : Refusal)
deriving DecidableEq, Repr

/-- The address of the instruction at IP. -/
def fetchAddr (s : State) : PhysAddr := codeAddr s s.cpu.ip

/-- The address of its second word. -/
def fetchAddr2 (s : State) : PhysAddr := codeAddr s (s.cpu.ip + 2)

/-- The memory area from which a fetch at `a` is served. -/
def fetchArea (s : State) (a : PhysAddr) : Area := areaOf s s.prev.cpu.syscon a

/-- The word at `a` is among those the last four instructions stored since a branch (R110). -/
def recentlyStored (s : State) (a : PhysAddr) : Bool :=
  let c := cellOf s a
  s.hz.history.any (fun h => h.any (fun x => decide (c ≤ x ∧ x < c + 2)))

/-- A fetch from a window that has been changed since the last far branch (R718). -/
def fetchFromChangedWindow (s : State) (a : PhysAddr) : Bool :=
  s.hz.busChanged.contains (selectBuscon s.prev.bus a) || s.hz.busChanged.contains (selectBuscon s.bus a)

/-- What forbids the fetch of the word at `a`, wherever it comes from (U1, U8, U10, U32, U35). A fetch from the reserved range
between the ESFRs and the IRAM: R90 lists the ROM area, the IRAM and external memory as the places of code, while R104 and U8
except the SFR, ESFR and X-Peripheral areas only, and U3 has a read there deliver any value. DESIGN CHOICE: it is refused as a
fetch from the register areas is (log entry 59). -/
def fetchRefusal (s : State) (a : PhysAddr) : Option Refusal :=
  if inRemapped s s.hz.codeRemap a then some .romRemapped
  else
    match fetchArea s a with
    | .sfr _ | .reserved | .ssp _ => some .fetchFromRegisters
    | .iram => none
    | .rom o =>
      if s.sys.bsl then some .fetchFromBootRom else if romSize s ≤ o + 1 then some .fetchFromAbsentRom else none
    | .external => if fetchFromChangedWindow s a then some .busWindowChanged else none

/-- Sequential arrival at another memory area or at the start of a segment (R90, U7). -/
def crossesBoundary (s : State) : Bool :=
  match s.hz.seqArea with
  | some area => decide (codeArea s (fetchAddr s) ≠ area) || s.cpu.ip == 0
  | none => false

/-- The second word of an instruction lies in another area, page or segment (R82, U7). -/
def straddles (s : State) : Bool :=
  decide (s.cpu.ip.toNat % 0x4000 = 0x3FFE) || decide (codeArea s (fetchAddr s) ≠ codeArea s (codeAddr s (s.cpu.ip + 2)))

/-- Read the word of code at `a`: from the ROM image, the IRAM or the external bus. -/
def codeWord (a : PhysAddr) : Op Word := do
  let area ← look (fetchArea · a)
  match area with
  | .external => readExternalWord a
  | .rom o => look (fun s => wordOfBytes (romByte s o) (romByte s (o + 1)))
  | _ => look (fun s => Memory.readWord s.mem a.toNat)

/-- Fetch the word of code at `a`. -/
def fetchWord (a : PhysAddr) : Op Word := do
  let forbidden ← look (fetchRefusal · a)
  match forbidden with
  | some r => stop (.refused r)
  | none => codeWord a

/-- ILLBUS on a fetch: the IP that will be stacked is any value (R389, U18). Where no entry follows at once, since a trap routine
is in service, R389 and U18 do not say where the CPU goes on. DESIGN CHOICE: at the same free IP (log entry 24). A cache jump that led to this IP counts as taken (R110, `cachedTargets`). -/
def fetchBusTrap (s : State) : State :=
  let t := (s.advanceFree 1).raise 0
  { t with cpu := { t.cpu with ip := s.freeWord }
           marks := { t.marks with cacheJump := false }
           hz := { t.hz with seqArea := none, cacheTargets := cachedTargets s } }

/-- A fetch that does not deliver an instruction leaves no trace: it is made again. -/
def fetchStopped (s : State) (e : Stop) : Fetched :=
  match e with
  | .trap _ => .none (fetchBusTrap s)
  | .busHeld => .none (waitForBus s)
  | .notReady => .none (s.stalled .instr)
  | .refused r => .refused r

/-- ILLINA, UNDOPC, PRTFLT: the flag is set and IP stays (R385, R386, R388); inside a class A trap routine the
continuation is not known (U16). R383 and R384 put a stack trap off for the instruction after ADD or SUB on SP, and do not say
whether one that is cancelled at its fetch counts. DESIGN CHOICE: it does not, here and in `fetchBusTrap`: the delay stays, so
that the class B trap is entered first; an instruction abandoned for an operand (`abandon`) counts (log entry 19). -/
def fetchTrap (s : State) (flag : Nat) : Fetched :=
  if s.sys.inA then .refused .trapLostInClassA else .none (s.raise flag)

/-- The instruction that was decoded, or the trap that the bytes raise; `s` has the traces of the fetch. -/
def fetchDecode (d : Decoded) (s : State) : Fetched :=
  match d with
  | .instr i => .instr i s
  | .undefinedOpcode => fetchTrap s 7
  | .protectionFault => fetchTrap s 3
  | .nonCanonical => .refused .nonCanonicalEncoding

/-- A first word that tells by itself what it is: a two byte instruction, or an undefined opcode, of which no more is
fetched (R385). -/
def firstWordDecides (w : Word) : Bool :=
  opcodeLength (lowByte w) == 2 || decodeBytes (lowByte w) (highByte w) 0 0 == .undefinedOpcode

/-- The fetch of the second word, in the state `s` after the first word `w`; it began in `s0`. -/
def fetchSecond (s0 : State) (w : Word) (s : State) : Fetched :=
  if straddles s then .refused .sequentialBoundary
  else
    match fetchWord (fetchAddr2 s) s with
    | .error e => fetchStopped s0 e
    | .ok (w2, t) =>
      if recentlyStored s (fetchAddr2 s) then .refused .codeModified
      else fetchDecode (decodeBytes (lowByte w) (highByte w) (lowByte w2) (highByte w2)) t

/-- Fetch and decode the instruction at CSP:IP. An odd IP sets ILLINA when the fetch comes to it (R280): a class A trap or a
request at the boundary after the branch comes first, and stacks the odd IP. R140 and R388 with R380 could also be read so that
the branch sets the flag; DESIGN CHOICE: R280's words are followed (log entry 47). -/
def fetch (s : State) : Fetched :=
  if isOdd s.cpu.ip then fetchTrap s 1
  else if s.hz.cacheBroken then .refused .codeModified
  else if crossesBoundary s then .refused .sequentialBoundary
  else
    match fetchWord (fetchAddr s) s with
    | .error e => fetchStopped s e
    | .ok (w, t) =>
      if recentlyStored s (fetchAddr s) then .refused .codeModified
      else if firstWordDecides w then fetchDecode (decodeBytes (lowByte w) (highByte w) 0 0) t
      else fetchSecond s w t

/-! ## The prefetcher (R90, R107) -/

/-- The words that the prefetcher may read with an instruction of `len` bytes at IP: of the two behind it, wherever the
instruction itself comes from, those that the external bus serves and that no rule on code forbids (R90). -/
def wordsAhead (s : State) (len : Nat) : List PhysAddr :=
  ([len, len + 2].map (fun k => codeAddr s (s.cpu.ip + BitVec.ofNat 16 k))).filter
    (fun a => decide (fetchArea s a = .external) && (fetchRefusal s a).isNone)

/-- From now on the prefetcher may read these words. -/
def State.mayReadAhead (s : State) (words : List PhysAddr) : State := { s with ebc := { s.ebc with ahead := words } }

/-! ## Placing an instruction -/

/-- The ROM image with one byte replaced (a byte beyond the image is dropped). -/
def romWithByte (rom : Option (List Byte)) (o : Nat) (b : Byte) : Option (List Byte) := rom.map (·.set o b)

/-- Put a byte where a fetch at `a` reads it. -/
def State.placeCodeByte (s : State) (a : PhysAddr) (b : Byte) : State :=
  match fetchArea s a with
  | .rom o => { s with board := { s.board with rom := romWithByte s.board.rom o b } }
  | _ => { s with mem := Memory.write s.mem (cellOf s a) b }

/-- Put the four bytes of `w`, bits 7..0 first, where the next fetch reads them (R130). -/
def State.placeCode (s : State) (w : Nat) : State :=
  let a := fetchAddr s
  (((s.placeCodeByte a (BitVec.ofNat 8 w)).placeCodeByte (a + 1) (BitVec.ofNat 8 (w / 0x100))).placeCodeByte
    (fetchAddr2 s) (BitVec.ofNat 8 (w / 0x10000))).placeCodeByte (fetchAddr2 s + 1) (BitVec.ofNat 8 (w / 0x1000000))

end Sys2Proof.Machine
end

