-- ==== Sys2Proof/Machine/Step.lean ====
section
/-! DEFINITION. One step of the machine, and the placing of an instruction for the next fetch.
Spec: 00_scope.md rules R9 and R10, 60_exceptions.md rules R352 and R380, 62_external_bus.md rule R486,
70_reset_and_hazards.md rules R671, R700 to R704, R731. -/

namespace Sys2Proof.Machine

/-- The prefetcher after an instruction that ended in `u`: it has a turn, unless the CPU hangs on READY. Before the CPU enters
Idle or Power Down mode all bus actions are completed (R700), so that no word is left that could be read ahead there. -/
def afterInstruction (u : State) : State :=
  if u.sys.stall ≠ .none then u
  else if u.sys.power = .running then u.prefetchTurn
  else u.prefetchTurn.mayReadAhead []

/-- Run an instruction that was fetched from the state `s`, where the fetch ended in `t`. Words behind it may be read ahead in
it and after it, until the next fetch (R90, R714). -/
def runFetched (s : State) (i : Instr) (t : State) : Host.Outcome State Fault Refusal :=
  match wordsAhead s i.length with
  | [] => exec i (t.mayReadAhead [])
  | a :: rest =>
    match exec i (t.mayReadAhead (a :: rest)) with
    | .next u => .next (afterInstruction u)
    | .fault e => .fault e
    | .refused r => .refused r

/-- Fetch, decode and run one instruction. -/
def instructionStep (s : State) : Host.Outcome State Fault Refusal :=
  match fetch s with
  | .instr i t => runFetched s i t
  | .none t => .next t
  | .refused r => .refused r

/-- The running CPU: what the hardware does at this boundary, else the next instruction. -/
def runningStep (s : State) : Host.Outcome State Fault Refusal :=
  match boundaryAction s with
  | some o => o
  | none => instructionStep s

/-- One step of the CPU in its power state (R700 to R704); a reset ends when RSTIN is high (R671). A CPU that hangs on READY
makes no other step than to try that bus cycle again (R486). -/
def cpuStep (s : State) : Host.Outcome State Fault Refusal :=
  match s.sys.stall with
  | .instr => instructionStep (s.stalled .none)
  | .pec w => runPec w (s.stalled .none)
  | .none =>
    match s.sys.power with
    | .running => runningStep s
    | .idle => idleStep s
    | .inReset cause => if s.pins.rstin then finishReset cause s else .next s
    | .powerDown | .awaitZeroByte | .loading _ => .next s

/-- The CPU clocks that a step of the CPU takes: two and any number more (D1, R731). They pass before its next step. The
board has seen the step's external cycles (R480). -/
def State.lapsed (t : State) : State :=
  { t.advanceFree 1 with clocks := t.clocks + 2 + Config.extraClocks t.free
                         ebc := { t.ebc with cycles := [], stepCycles := t.ebc.cycles } }

/-- The outcome of a step of the CPU with its clocks. -/
def lapse (o : Host.Outcome State Fault Refusal) : Host.Outcome State Fault Refusal :=
  match o with
  | .next t => .next t.lapsed
  | .fault e => .fault e
  | .refused r => .refused r

/-- One step of the chip: a CPU clock of the peripherals, until the clocks of the CPU's last step have passed; then the next
step of the CPU. -/
def chipStep (s : State) : Host.Outcome State Fault Refusal :=
  if s.clocks = 0 then lapse (cpuStep s) else clockStep { s with clocks := s.clocks - 1 }

/-- One step of the machine: the outside acts as the agenda says, `pass` and an empty agenda leave the step to the chip. -/
def step (s : State) : Host.Outcome State Fault Refusal :=
  match s.agenda with
  | [] => chipStep s
  | .pass :: rest => chipStep { s with agenda := rest }
  | e :: rest => agentStep e { s with agenda := rest }

/-- `s` with the instruction whose bits are `w` stored where the next fetch reads it. -/
def State.withFetchWord (s : State) (nbits w : Nat) : State := s.placeCode (w % 2 ^ nbits)

end Sys2Proof.Machine
end

