-- ==== Sys2Proof/Safety.lean ====
section
/-! DEFINITION. The terms in which claims about the machine are stated: the invariant of the registers and of memory,
what an instruction leaves alone, and results written as the spec writes them. -/

namespace Sys2Proof.Machine

/-! ## The invariant -/

/-- The bits of the CPU's registers that no write changes: CP, SP, STKOV and STKUN keep bits 15..12 at 1 and bit 0 at 0
(R43 to R46), the DPPs have 10 bits (R42), CSP and MDC 8 (R27, R50), reserved bits of PSW, SYSCON and TFR read 0 (R29,
R39, R381). -/
def Cpu.Tied (c : Cpu) : Prop :=
  c.cp &&& 0xF001 = 0xF000 ∧ c.sp &&& 0xF001 = 0xF000 ∧ c.stkov &&& 0xF001 = 0xF000 ∧ c.stkun &&& 0xF001 = 0xF000
    ∧ c.dpp0 &&& 0xFC00 = 0 ∧ c.dpp1 &&& 0xFC00 = 0 ∧ c.dpp2 &&& 0xFC00 = 0 ∧ c.dpp3 &&& 0xFC00 = 0
    ∧ c.csp &&& 0xFF00 = 0 ∧ c.mdc &&& 0xFF00 = 0 ∧ c.psw &&& 0x0380 = 0 ∧ c.syscon &&& 0x0078 = 0
    ∧ c.tfr &&& 0x1F70 = 0

/-- Memory lists bytes of the IRAM and of the board only: of the chip's own addresses nothing else, not the SFR, ESFR and
reserved areas nor the ROM area (R83 to R86). -/
def memoryInRam (d : Device) (m : List Host.Cell) : Prop :=
  ∀ c ∈ m, (iramBase d ≤ c.1 ∧ c.1 < 0xFE00) ∨ 2 ^ 24 ≤ c.1

/-- The loader never stores more than its 32 bytes (R691). -/
def loaderInRange (p : Power) : Prop := ∀ n, p = .loading n → n < 32

/-- What holds in every state the machine reaches: canonical memory, the tied register bits in the current registers and
in the values the next instruction still uses, and an extension count of 0..4 (R329). -/
def Inv (s : State) : Prop :=
  Memory.wf s.mem ∧ memoryInRam s.board.device s.mem ∧ s.cpu.Tied ∧ s.prev.cpu.Tied ∧ s.ext.count ≤ 4
    ∧ loaderInRange s.sys.power

/-! ## What an instruction leaves alone -/

/-- The bus registers, ports, pins, peripherals, interrupt control, PEC control, system state, board, and what the outside
has in store are the same; the bus interface's traces may differ. -/
structure SameChip (s t : State) : Prop where
  bus : t.bus = s.bus
  ports : t.ports = s.ports
  pins : t.pins = s.pins
  gpt : t.gpt = s.gpt
  wdt : t.wdt = s.wdt
  asc : t.asc = s.asc
  ssc : t.ssc = s.ssc
  ssp : t.ssp = s.ssp
  ic : t.ic = s.ic
  pecc : t.pecc = s.pecc
  sys : t.sys = s.sys
  board : t.board = s.board
  clocks : t.clocks = s.clocks
  agenda : t.agenda = s.agenda
  answers : t.answers = s.answers
  gaps : t.gaps = s.gaps

/-- The same with the bus interface. -/
def SameOutside (s t : State) : Prop := SameChip s t ∧ t.ebc = s.ebc

/-- Every byte of memory outside `changed` is the same. -/
def SameMemoryBut (changed : Nat → Prop) (s t : State) : Prop :=
  ∀ x, ¬ changed x → Memory.read t.mem x = Memory.read s.mem x

/-- The two bytes of the word at `a`. -/
def wordAt (a x : Nat) : Prop := x = a ∨ x = a + 1

/-- A byte memory with the word `v` at `a`, every other byte as before. -/
def patchWord (m : Nat → Byte) (a : Nat) (v : Word) (x : Nat) : Byte :=
  if x = a then lowByte v else if x = a + 1 then highByte v else m x

/-- A byte memory with the byte `v` at `a`, every other byte as before. -/
def patchByte (m : Nat → Byte) (a : Nat) (v : Byte) (x : Nat) : Byte := if x = a then v else m x

/-- The bytes of memory of a state. -/
def bytesOf (s : State) (x : Nat) : Byte := Memory.read s.mem x

/-- The address `p` is one of the IRAM. -/
def inIramAt (s : State) (p : PhysAddr) : Prop := areaOf s s.prev.cpu.syscon p = .iram

/-- The address `p` is one of external RAM. -/
def inBoardRam (s : State) (p : PhysAddr) : Prop :=
  areaOf s s.prev.cpu.syscon p = .external ∧ regionKind s p = .ram

/-- The memory at `p` is plain: the IRAM or external RAM. -/
def plainMemory (s : State) (p : PhysAddr) : Prop := inIramAt s p ∨ inBoardRam s p

/-- No other master comes between the bus cycles of this step: none has anything in store, or HLDEN = 0 (R109, R501). -/
def Undisturbed (s : State) : Prop := s.gaps = [] ∨ bitOf s.cpu.psw 10 = false

/-- What reading an operand can change: MDRIU (R106), the read marks of the serial receive buffers, the SSP by a continuous
read (R654), the traces of an external access on the bus interface, the devices' answers (R106), the count of free values, the
mark of a read in the ROM area (R717).
Memory stays; only another master that gets the bus between two bus cycles can change the board's part of it (R109). -/
structure OnlyRead (s t : State) : Prop where
  mem : Undisturbed s → t.mem = s.mem
  inside : ∀ x, x < 2 ^ 24 → Memory.read t.mem x = Memory.read s.mem x
  gaps : t.gaps <:+ s.gaps
  answers : t.answers <:+ s.answers
  clocks : t.clocks = s.clocks
  prev : t.prev = s.prev
  board : t.board = s.board
  marks : t.marks = { s.marks with romRead := t.marks.romRead }
  hz : t.hz = s.hz
  ext : t.ext = s.ext
  sys : t.sys = s.sys
  bus : t.bus = s.bus
  ports : t.ports = s.ports
  pins : t.pins = s.pins
  gpt : t.gpt = s.gpt
  wdt : t.wdt = s.wdt
  ic : t.ic = s.ic
  pecc : t.pecc = s.pecc
  agenda : t.agenda = s.agenda
  asc : t.asc = { s.asc with rbufUnread := t.asc.rbufUnread }
  ssc : t.ssc = { s.ssc with rbUnread := t.ssc.rbUnread }
  cpu : t.cpu = { s.cpu with mdc := t.cpu.mdc }
  mdriu : t.cpu.mdc = s.cpu.mdc ∨ t.cpu.mdc = s.cpu.mdc &&& 0xFFEF

/-! ## Condition flags -/

/-- The five condition flags. -/
structure Cond where
  e : Bool
  z : Bool
  v : Bool
  c : Bool
  n : Bool
deriving DecidableEq, Repr

/-- The condition flags of a PSW (R29). -/
def condFlags (psw : Word) : Cond :=
  { e := bitOf psw 4, z := bitOf psw 3, v := bitOf psw 2, c := bitOf psw 1, n := bitOf psw 0 }

/-- PSW with these five condition flags and every other bit as before (R29). -/
def putCond (psw : Word) (f : Cond) : Word :=
  (psw &&& 0xFFE0) ||| BitVec.ofNat 16 (16 * f.e.toNat + 8 * f.z.toNat + 4 * f.v.toNat + 2 * f.c.toNat + f.n.toNat)

/-! ## What an instruction does, in one sentence -/

/-- The instruction `i` runs in `s`. Afterwards the CPU's registers, all of them, are `cpu`; the extension sequence is
`ext`; every byte of memory is as `mem` says; everything outside the CPU is as in `w`. -/
def RunsTo (i : Instr) (s : State) (cpu : Cpu) (ext : Ext) (mem : Nat → Byte) (w : State) : Prop :=
  ∃ t, exec i s = .next t ∧ t.cpu = cpu ∧ t.ext = ext ∧ (∀ x, bytesOf t x = mem x) ∧ SameOutside w t

/-- The instruction `i` runs in `s`. Its operands have been read in `u`, and reading changes only what reads change. The
extension sequence counts the instruction (R329); everything outside the CPU is as in `u`. -/
def Runs (i : Instr) (s u : State) (cpu : Cpu) (mem : Nat → Byte) : Prop :=
  OnlyRead s.begin u ∧ RunsTo i s cpu s.ext.tick mem u

/-- IP after an instruction of `len` bytes that does not branch (R26). -/
def ipAfter (len : Nat) (s : State) : Word := s.cpu.ip + BitVec.ofNat 16 len

/-- `Runs` for an instruction that changes no CPU register but IP and the condition flags. -/
def Computes (i : Instr) (ip : Word) (s u : State) (fl : Cond) (mem : Nat → Byte) : Prop :=
  Runs i s u { u.cpu with ip := ip, psw := putCond s.cpu.psw fl } mem

/-- The instruction `i` runs in `s`; all its reads and writes of operands have led to `w`. Afterwards everything is as in
`w` but for IP, the condition flags, which an instruction that wrote PSW leaves as written (R38), and the extension
sequence. -/
def Finishes (i : Instr) (ip : Word) (s w : State) (fl : Cond) : Prop :=
  RunsTo i s { w.cpu with ip := ip, psw := if w.marks.pswWritten then w.cpu.psw else putCond w.cpu.psw fl } s.ext.tick
    (bytesOf w) w

/-- The instruction leaves the word `v` in the register that `reg` names, after its operands have been read in `u`: in a
GPR, with everything else as in `u`; or in an (E)SFR, with the effects of that write and no byte of memory changed. -/
def SetsReg (i : Instr) (ip : Word) (s u : State) (reg : BitVec 8) (v : Word) (fl : Cond) : Prop :=
  OnlyRead s.begin u
    ∧ (regIsGpr reg = true → gprWordOk s (regGpr reg) = true →
        Computes i ip s u fl (patchWord (bytesOf u) (gprWordAddr s (regGpr reg)) v))
    ∧ ∀ w, regIsGpr reg = false → writeReg reg v u = .ok ((), w) →
        Finishes i ip s w fl ∧ SameMemoryBut (fun _ => False) u w

/-- The same for a byte. -/
def SetsRegB (i : Instr) (ip : Word) (s u : State) (reg : BitVec 8) (v : Byte) (fl : Cond) : Prop :=
  OnlyRead s.begin u
    ∧ (regIsGpr reg = true → gprByteOk s (regGpr reg) = true →
        Computes i ip s u fl (patchByte (bytesOf u) (gprByteAddr s (regGpr reg)) v))
    ∧ ∀ w, regIsGpr reg = false → writeRegB reg v u = .ok ((), w) →
        Finishes i ip s w fl ∧ SameMemoryBut (fun _ => False) u w

/-- The instruction leaves the word `v`, of which it targets the bits `mask`, in the word that a `bitoff` names: a GPR, a
word of the bit-addressable IRAM, or a bit-addressable (E)SFR. -/
def SetsBitWord (i : Instr) (ip : Word) (s u : State) (bo : BitVec 8) (mask v : Word) (fl : Cond) : Prop :=
  OnlyRead s.begin u
    ∧ (regIsGpr bo = true → gprWordOk s (regGpr bo) = true →
        Computes i ip s u fl (patchWord (bytesOf u) (gprWordAddr s (regGpr bo)) v))
    ∧ (bo.toNat < 0x80 → Computes i ip s u fl (patchWord (bytesOf u) (bitIramAddr bo) v))
    ∧ ∀ w, regIsGpr bo = false → 0x80 ≤ bo.toNat → writeBitWord bo mask v u = .ok ((), w) →
        Finishes i ip s w fl ∧ SameMemoryBut (fun _ => False) u w

/-- What a store at the physical address `p` that leads from `u` to `w` changes of memory: the cells `stored`. Another master
that gets the bus meanwhile can change the board's memory, never what is inside the chip. -/
def StoreFrame (stored : Nat → Prop) (p : PhysAddr) (s u w : State) : Prop :=
  (∀ x, x < 2 ^ 24 → ¬ stored x → bytesOf w x = bytesOf u x)
    ∧ (Undisturbed u ∨ inIramAt s p → SameMemoryBut stored u w)

/-- The instruction stores the word `v` at the data address `a`, from the state `u` in which its operands have been read
and its pointers updated. The physical address is `dataAddr s a`, its cells of memory begin at `cellOf s` of that; no other
byte of memory changes. Where both bytes are plain memory the word stands there and nothing else in the CPU or on the chip
has changed; elsewhere the write has its own effects. -/
def StoresWord (i : Instr) (ip : Word) (s u : State) (a v : Word) (fl : Cond) : Prop :=
  ∀ w, writeWordOperand a v u = .ok ((), w) →
    Finishes i ip s w fl ∧ StoreFrame (wordAt (cellOf s (dataAddr s a))) (dataAddr s a) s u w
      ∧ (plainMemory s (dataAddr s a) → plainMemory s (dataAddr s a + 1) → w.cpu = u.cpu
        ∧ (Undisturbed u ∨ inIramAt s (dataAddr s a) →
            SameChip u w ∧ ∀ x, bytesOf w x = patchWord (bytesOf u) (cellOf s (dataAddr s a)) v x))

/-- The same for a byte. It stands in plain memory afterwards, whatever another master does. -/
def StoresByte (i : Instr) (ip : Word) (s u : State) (a : Word) (v : Byte) (fl : Cond) : Prop :=
  ∀ w, writeByteOperand a v u = .ok ((), w) →
    Finishes i ip s w fl ∧ StoreFrame (fun x => x = cellOf s (dataAddr s a)) (dataAddr s a) s u w
      ∧ (plainMemory s (dataAddr s a) → w.cpu = u.cpu ∧ bytesOf w (cellOf s (dataAddr s a)) = v
        ∧ (Undisturbed u ∨ inIramAt s (dataAddr s a) →
            SameChip u w ∧ ∀ x, bytesOf w x = patchByte (bytesOf u) (cellOf s (dataAddr s a)) v x))

/-! ## The system stack -/

/-- SP after a push: two less, in its eleven variable bits (R44, R99). -/
def pushedPointer (sp : Word) : Word := 0xF000 ||| ((sp - 2) &&& 0x0FFE)

/-- SP after a pop. -/
def poppedPointer (sp : Word) : Word := 0xF000 ||| ((sp + 2) &&& 0x0FFE)

/-- The word of the stack at `sp` is the one at `a`, inside the IRAM (R98). -/
def StackSlot (s : State) (sp : Word) (a : Nat) : Prop := stackPhys s sp = some a ∧ inIram s.board.device a 2 = true

/-- TFR after a push has moved SP to `sp`: STKOF if SP is below STKOV (R99, R384). -/
def pushTfr (c : Cpu) (sp : Word) : Word := if sp < c.stkov then c.tfr ||| 0x4000 else c.tfr

/-- TFR after a pop has moved SP to `sp`: STKUF if SP is above STKUN (R99, R383). -/
def popTfr (c : Cpu) (sp : Word) : Word := if c.stkun < sp then c.tfr ||| 0x2000 else c.tfr

/-- The registers after one push. -/
def Cpu.push (c : Cpu) : Cpu := { c with sp := pushedPointer c.sp, tfr := pushTfr c (pushedPointer c.sp) }

/-- The registers after one pop. -/
def Cpu.pop (c : Cpu) : Cpu := { c with sp := poppedPointer c.sp, tfr := popTfr c (poppedPointer c.sp) }

/-! ## Results, written as the spec writes them -/

/-- The value a two-operand instruction leaves in its first operand. -/
def aluValue {w : Nat} (op : Alu) (a b : BitVec w) (c : Bool) : BitVec w :=
  match op with
  | .add => a + b
  | .addc => a + b + BitVec.ofNat w c.toNat
  | .sub => a - b
  | .subc => a - b - BitVec.ofNat w c.toNat
  | .and => a &&& b
  | .or => a ||| b
  | .xor => a ^^^ b
  | .cmp => a

/-- The value from which the flags are taken: the difference for a comparison. -/
def aluTested {w : Nat} (op : Alu) (a b : BitVec w) (c : Bool) : BitVec w :=
  match op with
  | .cmp => a - b
  | _ => aluValue op a b c

/-- C: the carry out of the addition, the borrow of the subtraction (R31, R180). -/
def aluCarry {w : Nat} (op : Alu) (a b : BitVec w) (c : Bool) : Bool :=
  match op with
  | .add => decide (2 ^ w ≤ a.toNat + b.toNat)
  | .addc => decide (2 ^ w ≤ a.toNat + b.toNat + c.toNat)
  | .sub | .cmp => decide (a.toNat < b.toNat)
  | .subc => decide (a.toNat < b.toNat + c.toNat)
  | .and | .or | .xor => false

/-- V: two operands of equal sign give a sum of the other sign, or two of unequal sign a difference of the sign of the
second (R32, R180). -/
def aluOverflow {w : Nat} (op : Alu) (a b : BitVec w) (c : Bool) : Bool :=
  let r := aluTested op a b c
  match op with
  | .add | .addc => a.msb == b.msb && r.msb != a.msb
  | .sub | .subc | .cmp => a.msb != b.msb && r.msb != a.msb
  | .and | .or | .xor => false

/-- Does the instruction use the carry and keep a cleared Z (R183, R187)? -/
def aluChains (op : Alu) : Bool :=
  match op with
  | .addc | .subc => true
  | _ => false

/-- The flags of a two-operand instruction (R180, R210, R220). -/
def aluCond {w : Nat} (op : Alu) (a b : BitVec w) (old : Cond) : Cond :=
  let r := aluTested op a b old.c
  { e := b == BitVec.intMin w
    z := r == 0 && (!aluChains op || old.z)
    v := aluOverflow op a b old.c
    c := aluCarry op a b old.c
    n := r.msb }

/-- The byte memory after `op` has left the word `v` at `dst`: a comparison leaves everything. -/
def aluBytes (op : Alu) (m : Nat → Byte) (dst : Nat) (v : Word) : Nat → Byte :=
  if op = .cmp then m else patchWord m dst v

/-- The same for a byte. -/
def aluBytesB (op : Alu) (m : Nat → Byte) (dst : Nat) (v : Byte) : Nat → Byte :=
  if op = .cmp then m else patchByte m dst v

/-- The flags of a data movement: E, Z and N from the value, V and C as before (R260). -/
def moveCond {w : Nat} (v : BitVec w) (old : Cond) : Cond :=
  { old with e := v == BitVec.intMin w, z := v == 0, n := v.msb }

/-- The flags of a byte extension (R263, R264). -/
def extendCond (r : Word) (old : Cond) : Cond := { old with e := false, z := r == 0, n := r.msb }

/-- Bit `j` of a shifted word, from the bits of the operand (R251 to R255). -/
def shiftBit (op : Shift) (a : Word) (k j : Nat) : Bool :=
  match op with
  | .shr => bitOf a (j + k)
  | .shl => decide (k ≤ j) && bitOf a (j - k)
  | .ror => bitOf a ((j + k) % 16)
  | .rol => bitOf a ((j + 16 - k) % 16)
  | .ashr => bitOf a (min (j + k) 15)

/-- The last bit shifted out, 0 for a count of 0 (R250). -/
def shiftedOut (op : Shift) (a : Word) (k : Nat) : Bool :=
  match op with
  | .shl | .rol => decide (0 < k) && bitOf a (16 - k)
  | .shr | .ror | .ashr => decide (0 < k) && bitOf a (k - 1)

/-- V of a shift: some 1 was shifted out to the right before the last bit (R32, R250). -/
def shiftedOutBefore (op : Shift) (a : Word) (k : Nat) : Bool :=
  match op with
  | .shl | .rol => false
  | .shr | .ror | .ashr => (List.range (k - 1)).any (bitOf a ·)

/-! ## Instructions named by operation and operand form -/

/-- `op Rwn,Rwm`. -/
def aluRwnRwm (op : Alu) (n m : BitVec 4) : Instr :=
  match op with
  | .add => .addRwnRwm n m
  | .addc => .addcRwnRwm n m
  | .sub => .subRwnRwm n m
  | .subc => .subcRwnRwm n m
  | .and => .andRwnRwm n m
  | .or => .orRwnRwm n m
  | .xor => .xorRwnRwm n m
  | .cmp => .cmpRwnRwm n m

/-- `op Rwn,#data3`. -/
def aluRwnData3 (op : Alu) (n : BitVec 4) (d : BitVec 3) : Instr :=
  match op with
  | .add => .addRwnData3 n d
  | .addc => .addcRwnData3 n d
  | .sub => .subRwnData3 n d
  | .subc => .subcRwnData3 n d
  | .and => .andRwnData3 n d
  | .or => .orRwnData3 n d
  | .xor => .xorRwnData3 n d
  | .cmp => .cmpRwnData3 n d

/-- `op Rwn,[Rwi]`. -/
def aluRwnInd (op : Alu) (n : BitVec 4) (i : BitVec 2) : Instr :=
  match op with
  | .add => .addRwnIndRwi n i
  | .addc => .addcRwnIndRwi n i
  | .sub => .subRwnIndRwi n i
  | .subc => .subcRwnIndRwi n i
  | .and => .andRwnIndRwi n i
  | .or => .orRwnIndRwi n i
  | .xor => .xorRwnIndRwi n i
  | .cmp => .cmpRwnIndRwi n i

/-- `op Rwn,[Rwi+]`. -/
def aluRwnIndInc (op : Alu) (n : BitVec 4) (i : BitVec 2) : Instr :=
  match op with
  | .add => .addRwnIndRwiInc n i
  | .addc => .addcRwnIndRwiInc n i
  | .sub => .subRwnIndRwiInc n i
  | .subc => .subcRwnIndRwiInc n i
  | .and => .andRwnIndRwiInc n i
  | .or => .orRwnIndRwiInc n i
  | .xor => .xorRwnIndRwiInc n i
  | .cmp => .cmpRwnIndRwiInc n i

/-- `op reg,#data16`. -/
def aluRegData16 (op : Alu) (reg : BitVec 8) (d : Word) : Instr :=
  match op with
  | .add => .addRegData16 reg d
  | .addc => .addcRegData16 reg d
  | .sub => .subRegData16 reg d
  | .subc => .subcRegData16 reg d
  | .and => .andRegData16 reg d
  | .or => .orRegData16 reg d
  | .xor => .xorRegData16 reg d
  | .cmp => .cmpRegData16 reg d

/-- `op reg,mem`, words. -/
def aluRegWithMem (op : Alu) (reg : BitVec 8) (mem : Word) : Instr :=
  match op with
  | .add => .addRegMem reg mem
  | .addc => .addcRegMem reg mem
  | .sub => .subRegMem reg mem
  | .subc => .subcRegMem reg mem
  | .and => .andRegMem reg mem
  | .or => .orRegMem reg mem
  | .xor => .xorRegMem reg mem
  | .cmp => .cmpRegMem reg mem

/-- `op mem,reg`, words; there is no such comparison. -/
def aluMemWithReg (op : Alu) (mem : Word) (reg : BitVec 8) : Option Instr :=
  match op with
  | .add => some (.addMemReg mem reg)
  | .addc => some (.addcMemReg mem reg)
  | .sub => some (.subMemReg mem reg)
  | .subc => some (.subcMemReg mem reg)
  | .and => some (.andMemReg mem reg)
  | .or => some (.orMemReg mem reg)
  | .xor => some (.xorMemReg mem reg)
  | .cmp => none

/-- `op Rbn,Rbm`. -/
def aluRbnRbm (op : Alu) (n m : BitVec 4) : Instr :=
  match op with
  | .add => .addbRbnRbm n m
  | .addc => .addcbRbnRbm n m
  | .sub => .subbRbnRbm n m
  | .subc => .subcbRbnRbm n m
  | .and => .andbRbnRbm n m
  | .or => .orbRbnRbm n m
  | .xor => .xorbRbnRbm n m
  | .cmp => .cmpbRbnRbm n m

/-- `op Rbn,#data3`. -/
def aluRbnData3 (op : Alu) (n : BitVec 4) (d : BitVec 3) : Instr :=
  match op with
  | .add => .addbRbnData3 n d
  | .addc => .addcbRbnData3 n d
  | .sub => .subbRbnData3 n d
  | .subc => .subcbRbnData3 n d
  | .and => .andbRbnData3 n d
  | .or => .orbRbnData3 n d
  | .xor => .xorbRbnData3 n d
  | .cmp => .cmpbRbnData3 n d

/-- `op Rbn,[Rwi]`. -/
def aluRbnInd (op : Alu) (n : BitVec 4) (i : BitVec 2) : Instr :=
  match op with
  | .add => .addbRbnIndRwi n i
  | .addc => .addcbRbnIndRwi n i
  | .sub => .subbRbnIndRwi n i
  | .subc => .subcbRbnIndRwi n i
  | .and => .andbRbnIndRwi n i
  | .or => .orbRbnIndRwi n i
  | .xor => .xorbRbnIndRwi n i
  | .cmp => .cmpbRbnIndRwi n i

/-- `op Rbn,[Rwi+]`. -/
def aluRbnIndInc (op : Alu) (n : BitVec 4) (i : BitVec 2) : Instr :=
  match op with
  | .add => .addbRbnIndRwiInc n i
  | .addc => .addcbRbnIndRwiInc n i
  | .sub => .subbRbnIndRwiInc n i
  | .subc => .subcbRbnIndRwiInc n i
  | .and => .andbRbnIndRwiInc n i
  | .or => .orbRbnIndRwiInc n i
  | .xor => .xorbRbnIndRwiInc n i
  | .cmp => .cmpbRbnIndRwiInc n i

/-- `op reg,#data8`. -/
def aluRegData8 (op : Alu) (reg : BitVec 8) (d : Byte) : Instr :=
  match op with
  | .add => .addbRegData8 reg d
  | .addc => .addcbRegData8 reg d
  | .sub => .subbRegData8 reg d
  | .subc => .subcbRegData8 reg d
  | .and => .andbRegData8 reg d
  | .or => .orbRegData8 reg d
  | .xor => .xorbRegData8 reg d
  | .cmp => .cmpbRegData8 reg d

/-- `op reg,mem`, bytes. -/
def aluRegWithMemB (op : Alu) (reg : BitVec 8) (mem : Word) : Instr :=
  match op with
  | .add => .addbRegMem reg mem
  | .addc => .addcbRegMem reg mem
  | .sub => .subbRegMem reg mem
  | .subc => .subcbRegMem reg mem
  | .and => .andbRegMem reg mem
  | .or => .orbRegMem reg mem
  | .xor => .xorbRegMem reg mem
  | .cmp => .cmpbRegMem reg mem

/-- `op mem,reg`, bytes; there is no such comparison. -/
def aluMemWithRegB (op : Alu) (mem : Word) (reg : BitVec 8) : Option Instr :=
  match op with
  | .add => some (.addbMemReg mem reg)
  | .addc => some (.addcbMemReg mem reg)
  | .sub => some (.subbMemReg mem reg)
  | .subc => some (.subcbMemReg mem reg)
  | .and => some (.andbMemReg mem reg)
  | .or => some (.orbMemReg mem reg)
  | .xor => some (.xorbMemReg mem reg)
  | .cmp => none

/-- The loop compares: the constant they add to their register (R223 to R226). -/
inductive LoopCompare where
  | cmpi1 | cmpi2 | cmpd1 | cmpd2
deriving DecidableEq, Repr

/-- The register after a loop compare. -/
def LoopCompare.next (l : LoopCompare) (a : Word) : Word :=
  match l with
  | .cmpi1 => a + 1
  | .cmpi2 => a + 2
  | .cmpd1 => a - 1
  | .cmpd2 => a - 2

/-- `CMPxy Rwn,#data4`. -/
def LoopCompare.data4 (l : LoopCompare) (n d : BitVec 4) : Instr :=
  match l with
  | .cmpi1 => .cmpi1RwnData4 n d
  | .cmpi2 => .cmpi2RwnData4 n d
  | .cmpd1 => .cmpd1RwnData4 n d
  | .cmpd2 => .cmpd2RwnData4 n d

/-- `CMPxy Rwn,#data16`. -/
def LoopCompare.data16 (l : LoopCompare) (n : BitVec 4) (d : Word) : Instr :=
  match l with
  | .cmpi1 => .cmpi1RwnData16 n d
  | .cmpi2 => .cmpi2RwnData16 n d
  | .cmpd1 => .cmpd1RwnData16 n d
  | .cmpd2 => .cmpd2RwnData16 n d

/-- `CMPxy Rwn,mem`. -/
def LoopCompare.mem (l : LoopCompare) (n : BitVec 4) (m : Word) : Instr :=
  match l with
  | .cmpi1 => .cmpi1RwnMem n m
  | .cmpi2 => .cmpi2RwnMem n m
  | .cmpd1 => .cmpd1RwnMem n m
  | .cmpd2 => .cmpd2RwnMem n m

/-- `shift Rwn,Rwm`. -/
def shiftRwnRwm (op : Shift) (n m : BitVec 4) : Instr :=
  match op with
  | .shr => .shrRwnRwm n m
  | .shl => .shlRwnRwm n m
  | .ror => .rorRwnRwm n m
  | .rol => .rolRwnRwm n m
  | .ashr => .ashrRwnRwm n m

/-- `shift Rwn,#data4`. -/
def shiftRwnData4 (op : Shift) (n d : BitVec 4) : Instr :=
  match op with
  | .shr => .shrRwnData4 n d
  | .shl => .shlRwnData4 n d
  | .ror => .rorRwnData4 n d
  | .rol => .rolRwnData4 n d
  | .ashr => .ashrRwnData4 n d

end Sys2Proof.Machine
end

