-- ==== Sys2Proof/Certificates/Slice0/Obligations.lean ====
section
/-! DEFINITION. The statements about the model, for the provers. Every statement about an instruction is an equation for
the state after it: `Computes`, `Runs`, `RunsTo`, `Finishes`, `SetsReg`, `StoresWord` (Safety.lean) say that `exec`
answers a next state, give every CPU register and every byte of memory of it, and say that everything else is as before. -/

open Sys2Proof Sys2Proof.Machine

/-! ## Vocabulary -/

namespace Sys2Proof.Claims

/-- The condition flags before the instruction. -/
def old (s : State) : Cond := condFlags s.cpu.psw

/-- TFR after ADD, ADDC, SUB or SUBC has left `w` with SP as its destination: STKUF if SP is above STKUN after an
addition, STKOF if it is below STKOV after a subtraction (R100). -/
def limitTfr (op : Alu) (s w : State) (reg : BitVec 8) : Word :=
  if regIsSp s reg then
    match op with
    | .add | .addc => if w.cpu.stkun < w.cpu.sp then w.cpu.tfr ||| 0x2000 else w.cpu.tfr
    | .sub | .subc => if w.cpu.sp < w.cpu.stkov then w.cpu.tfr ||| 0x4000 else w.cpu.tfr
    | _ => w.cpu.tfr
  else w.cpu.tfr

/-- `op` on words with a `reg` destination that holds `a`, and the second operand `b`, both read in `u`. -/
def AluReg (op : Alu) (i : Instr) (s u : State) (reg : BitVec 8) (a b : Word) : Prop :=
  (regIsGpr reg = true →
      Computes i (ipAfter 4 s) s u (aluCond op a b (old s))
        (aluBytes op (bytesOf u) (gprWordAddr s (regGpr reg)) (aluValue op a b (old s).c)))
    ∧ (regIsGpr reg = false → op = .cmp → Computes i (ipAfter 4 s) s u (aluCond op a b (old s)) (bytesOf u))
    ∧ ∀ w, regIsGpr reg = false → op ≠ .cmp → writeReg reg (aluValue op a b (old s).c) u = .ok ((), w) →
        Finishes i (ipAfter 4 s) s { w with cpu := { w.cpu with tfr := limitTfr op s w reg } } (aluCond op a b (old s))
          ∧ SameMemoryBut (fun _ => False) u w

/-- The same on bytes; there is no check of SP. -/
def AluRegB (op : Alu) (i : Instr) (s u : State) (reg : BitVec 8) (a b : Byte) : Prop :=
  (regIsGpr reg = true →
      Computes i (ipAfter 4 s) s u (aluCond op a b (old s))
        (aluBytesB op (bytesOf u) (gprByteAddr s (regGpr reg)) (aluValue op a b (old s).c)))
    ∧ (regIsGpr reg = false → op = .cmp → Computes i (ipAfter 4 s) s u (aluCond op a b (old s)) (bytesOf u))
    ∧ ∀ w, regIsGpr reg = false → op ≠ .cmp → writeRegB reg (aluValue op a b (old s).c) u = .ok ((), w) →
        Finishes i (ipAfter 4 s) s w (aluCond op a b (old s)) ∧ SameMemoryBut (fun _ => False) u w

/-- The flags of a one's complement (R195, R196). -/
def complementCond {w : Nat} (a : BitVec w) : Cond :=
  { e := a == BitVec.intMin w, z := ~~~a == 0, v := false, c := false, n := (~~~a).msb }

/-- The registers after a multiply or divide (R189 to R194, R200): MDRIU is set; E and C are 0. -/
def mdCpu (s : State) (mdh mdl : Word) (z v n : Bool) : Cpu :=
  { s.cpu with ip := ipAfter 2 s, mdh := mdh, mdl := mdl, mdc := s.cpu.mdc ||| 0x0010
               psw := putCond s.cpu.psw { e := false, z := z, v := v, c := false, n := n } }

/-- The word before a shift, shifted by `k`, stands in Rwn, with the flags of R250. -/
def Shifted (op : Shift) (i : Instr) (s : State) (n : BitVec 4) (k : Nat) : Prop :=
  ∃ r : Word, (∀ j < 16, bitOf r j = shiftBit op (s.gprWord n) k j)
    ∧ Computes i (ipAfter 2 s) s s.begin
        { e := false, z := r == 0, v := shiftedOutBefore op (s.gprWord n) k, c := shiftedOut op (s.gprWord n) k
          n := bitOf r 15 }
        (patchWord (bytesOf s) (gprWordAddr s n) r)

/-- The flags of a bit instruction with one operand bit: `0 !B 0 0 B` (R230). -/
def bitCond (b : Bool) : Cond := { e := false, z := !b, v := false, c := false, n := b }

/-- The flags of a bit instruction with two operand bits: `0 NOR OR AND XOR` (R230). -/
def twoBitCond (d s : Bool) : Cond := { e := false, z := !(d || s), v := d || s, c := d && s, n := d != s }

/-- The words of a two-bit instruction: `x` holds the source bit, `y` the destination bit; one read if they are the same
word. -/
def TwoBitWords (zo qo : BitVec 8) (s u : State) (x y : Word) : Prop :=
  ∃ r, readBitWord qo s.begin = .ok (x, r) ∧ if qo = zo then y = x ∧ u = r else readBitWord zo r = .ok (y, u)

/-- The word `y` with bit `z` made `b`. -/
def setBit (y : Word) (z : BitVec 4) (b : Bool) : Word :=
  if b then y ||| (1#16 <<< z.toNat) else y &&& ~~~(1#16 <<< z.toNat)

/-- The target of a relative branch whose next instruction is at `next` (R140, R280). -/
def target (next : Word) (rel : BitVec 8) : Word := next + 2 * rel.signExtend 16

/-- The state with the registers of now as those that the next instruction works with: an interrupt or trap entry ends
the pending register updates (D31). -/
def settled (s : State) : State := { s with prev := s.snapshot }

/-- The frame of an entry from `s` (R366, R367): PSW, CSP if segmentation is enabled, and `resume` have been pushed, the
level in PSW is `level`, CSP is 0 if segmentation is enabled, IP is the vector; everything outside the CPU is as in `w`. -/
def Enters (out : Host.Outcome State Fault Refusal) (s w : State) (resume : Word) (level : Nat) (vector : Word) : Prop :=
  (bitOf s.cpu.syscon 11 = false → ∀ a b c : Nat, StackSlot (settled s) (pushedPointer s.cpu.sp) a →
      StackSlot (settled s) (pushedPointer (pushedPointer s.cpu.sp)) b →
      StackSlot (settled s) (pushedPointer (pushedPointer (pushedPointer s.cpu.sp))) c →
      ∃ t, out = .next t ∧ t.ext = w.ext ∧ SameOutside w t
        ∧ t.cpu = { s.cpu.push.push.push with
            csp := 0, ip := vector, psw := (s.cpu.psw &&& 0x0FFF) ||| BitVec.ofNat 16 (level * 0x1000) }
        ∧ ∀ x, bytesOf t x = patchWord (patchWord (patchWord (bytesOf s) a s.cpu.psw) b s.cpu.csp) c resume x)
    ∧ (bitOf s.cpu.syscon 11 = true → ∀ a b : Nat, StackSlot (settled s) (pushedPointer s.cpu.sp) a →
      StackSlot (settled s) (pushedPointer (pushedPointer s.cpu.sp)) b →
      ∃ t, out = .next t ∧ t.ext = w.ext ∧ SameOutside w t
        ∧ t.cpu = { s.cpu.push.push with
            ip := vector, psw := (s.cpu.psw &&& 0x0FFF) ||| BitVec.ofNat 16 (level * 0x1000) }
        ∧ ∀ x, bytesOf t x = patchWord (patchWord (bytesOf s) a s.cpu.psw) b resume x)

/-- PUSH of `reg` stores the value `x` at `a`, with SP, STKOF and the flags of `x`. -/
def PushStores (reg : BitVec 8) (s u : State) (a : Nat) (x : Word) : Prop :=
  Runs (.pushReg reg) s u { u.cpu.push with ip := ipAfter 2 s, psw := putCond s.cpu.psw (moveCond x (old s)) }
    (patchWord (bytesOf u) a x)

/-- SCXT: the value `o` of `reg` is pushed to `a`, then `reg` takes `x`; the operands have been read in `r`. -/
def Switches (i : Instr) (reg : BitVec 8) (s r : State) (a : Nat) (o x : Word) : Prop :=
  (regIsGpr reg = true → gprWordOk s (regGpr reg) = true →
    Runs i s r { r.cpu.push with ip := ipAfter 4 s }
      (patchWord (patchWord (bytesOf r) a o) (gprWordAddr s (regGpr reg)) x))
  ∧ ∀ w, regIsGpr reg = false → writeReg reg x (r.pushed o) = .ok ((), w) →
    Finishes i (ipAfter 4 s) s w (condFlags w.cpu.psw) ∧ ∀ y, bytesOf w y = patchWord (bytesOf r) a o y

/-- What RETI leaves outside the CPU when it pops `p` for PSW: the class of trap routine in service, A before B, ends;
HLDEN is remembered once it has been 1. -/
def afterReturn (s : State) (p : Word) : State :=
  { s with sys := { s.sys with inA := false, inB := s.sys.inA && s.sys.inB }
           ebc := { s.ebc with hldenOnce := s.ebc.hldenOnce || bitOf p 10 } }

/-- A four byte instruction that changes nothing of the CPU but IP; what is outside the CPU becomes as in `w`. -/
def Controls (i : Instr) (s w : State) : Prop :=
  RunsTo i s { s.cpu with ip := ipAfter 4 s } s.ext.tick (bytesOf s) w

/-- An instruction of `len` bytes that starts an extension sequence, and changes nothing else but IP. -/
def StartsSequence (i : Instr) (len : Nat) (s : State) (e : Ext) : Prop :=
  RunsTo i s { s.cpu with ip := ipAfter len s } e (bytesOf s) s

/-- MOV reg,#data16 leaves the CPU's registers as in `c`, with IP and the flags of the move. -/
def MovesToCpu (reg : BitVec 8) (d : Word) (s : State) (c : Cpu) : Prop :=
  RunsTo (.movRegData16 reg d) s { c with ip := ipAfter 4 s, psw := putCond s.cpu.psw (moveCond d (old s)) } s.ext.tick
    (bytesOf s) s

/-- MOV reg,#data16 into a register outside the CPU: of the CPU's registers only IP and the flags of the move change; what is
outside becomes as in `w`. -/
def MovesOutside (reg : BitVec 8) (d : Word) (s w : State) : Prop :=
  RunsTo (.movRegData16 reg d) s { s.cpu with ip := ipAfter 4 s, psw := putCond s.cpu.psw (moveCond d (old s)) } s.ext.tick
    (bytesOf s) w

/-- The CPU's own registers, all in the SFR space: the bits that a write of `d` leaves in them. -/
def CpuWrites (d : Word) (s : State) : Prop :=
  MovesToCpu 0x00 d s { s.cpu with dpp0 := d &&& 0x03FF } ∧ MovesToCpu 0x01 d s { s.cpu with dpp1 := d &&& 0x03FF }
  ∧ MovesToCpu 0x02 d s { s.cpu with dpp2 := d &&& 0x03FF } ∧ MovesToCpu 0x03 d s { s.cpu with dpp3 := d &&& 0x03FF }
  ∧ MovesToCpu 0x04 d s s.cpu ∧ MovesToCpu 0x8E d s s.cpu ∧ MovesToCpu 0x8F d s s.cpu
  ∧ MovesToCpu 0x06 d s { s.cpu with mdh := d, mdc := s.cpu.mdc ||| 0x0010 }
  ∧ MovesToCpu 0x07 d s { s.cpu with mdl := d, mdc := s.cpu.mdc ||| 0x0010 }
  ∧ MovesToCpu 0x08 d s { s.cpu with cp := if d &&& 0x0E00 = 0 then 0xFC00 ||| (d &&& 0x01FE) else 0xF000 ||| (d &&& 0x0FFE) }
  ∧ MovesToCpu 0x09 d s { s.cpu with sp := 0xF000 ||| (d &&& 0x0FFE) }
  ∧ MovesToCpu 0x0A d s { s.cpu with stkov := 0xF000 ||| (d &&& 0x0FFE) }
  ∧ MovesToCpu 0x0B d s { s.cpu with stkun := 0xF000 ||| (d &&& 0x0FFE) }
  ∧ MovesToCpu 0x87 d s { s.cpu with mdc := d &&& 0x00FF } ∧ MovesToCpu 0xD6 d s { s.cpu with tfr := d &&& 0xE08F }
  ∧ (s.sys.einitDone = false → sfrWriteRefusal .syscon d s.begin = none →
      MovesToCpu 0x89 d s { s.cpu with syscon := d &&& 0xFF87 })
  ∧ (s.sys.einitDone = true → MovesToCpu 0x89 d s s.cpu)
  ∧ RunsTo (.movRegData16 0x88 d) s { s.cpu with ip := ipAfter 4 s, psw := d &&& 0xFC7F } s.ext.tick (bytesOf s)
        { s with ebc := { s.ebc with hldenOnce := s.ebc.hldenOnce || bitOf d 10 } }

/-- The same of BUSCONx and ADDRSELx (R471, R473), where the write does not change the window the instruction comes from
(U35). -/
def BusWrites (d : Word) (s : State) : Prop :=
  (sfrWriteRefusal .buscon0 d s.begin = none → MovesOutside 0x86 d s { s with bus := { s.bus with buscon0 := d &&& 0xD6FF } })
  ∧ (sfrWriteRefusal .buscon1 d s.begin = none → MovesOutside 0x8A d s { s with bus := { s.bus with buscon1 := d &&& 0xD6FF } })
  ∧ (sfrWriteRefusal .buscon2 d s.begin = none → MovesOutside 0x8B d s { s with bus := { s.bus with buscon2 := d &&& 0xD6FF } })
  ∧ (sfrWriteRefusal .buscon3 d s.begin = none → MovesOutside 0x8C d s { s with bus := { s.bus with buscon3 := d &&& 0xD6FF } })
  ∧ (sfrWriteRefusal .buscon4 d s.begin = none → MovesOutside 0x8D d s { s with bus := { s.bus with buscon4 := d &&& 0xD6FF } })
  ∧ (sfrWriteRefusal .addrsel1 d s.begin = none → MovesOutside 0x0C d s { s with bus := { s.bus with addrsel1 := d } })
  ∧ (sfrWriteRefusal .addrsel2 d s.begin = none → MovesOutside 0x0D d s { s with bus := { s.bus with addrsel2 := d } })
  ∧ (sfrWriteRefusal .addrsel3 d s.begin = none → MovesOutside 0x0E d s { s with bus := { s.bus with addrsel3 := d } })
  ∧ (sfrWriteRefusal .addrsel4 d s.begin = none → MovesOutside 0x0F d s { s with bus := { s.bus with addrsel4 := d } })

/-- The same of the ports in the SFR space (R425): PORT0 and PORT1 where the bus does not own them (U20). -/
def PortWrites (d : Word) (s : State) : Prop :=
  (busEnabled s.prev.bus = false → MovesOutside 0x80 d s { s with ports := { s.ports with p0l := d &&& 0x00FF } })
  ∧ (busUsesP0h s.prev.bus = false → MovesOutside 0x81 d s { s with ports := { s.ports with p0h := d &&& 0x00FF } })
  ∧ (busUsesPort1 s.prev.bus = false → MovesOutside 0x82 d s { s with ports := { s.ports with p1l := d &&& 0x00FF } }
      ∧ MovesOutside 0x83 d s { s with ports := { s.ports with p1h := d &&& 0x00FF } })
  ∧ MovesOutside 0xE0 d s { s with ports := { s.ports with p2 := d &&& 0xFF00 } }
  ∧ MovesOutside 0xE1 d s { s with ports := { s.ports with dp2 := d &&& 0xFF00 } }
  ∧ MovesOutside 0xE2 d s { s with ports := { s.ports with p3 := d &&& 0xBFFF } }
  ∧ MovesOutside 0xE3 d s { s with ports := { s.ports with dp3 := d &&& 0xBFFF } }
  ∧ MovesOutside 0xE4 d s { s with ports := { s.ports with p4 := d &&& 0x00FF } }
  ∧ MovesOutside 0xE5 d s { s with ports := { s.ports with dp4 := d &&& 0x00FF } }
  ∧ MovesOutside 0xE6 d s { s with ports := { s.ports with p6 := d &&& 0x00FF } }
  ∧ MovesOutside 0xE7 d s { s with ports := { s.ports with dp6 := d &&& 0x00FF } }
  ∧ MovesOutside 0xD1 d s s

/-- The same of the timers and the watchdog (R521, R526, R531, R541, R546, R580, R581): WDT takes nothing, WDTCON keeps WDTR. A
control register's write leaves the phase of its prescaler open (the spec's choice D27). -/
def TimerWrites (d : Word) (s : State) : Prop :=
  MovesOutside 0x20 d s { s with gpt := { s.gpt with t2 := d } } ∧ MovesOutside 0x21 d s { s with gpt := { s.gpt with t3 := d } }
  ∧ MovesOutside 0x22 d s { s with gpt := { s.gpt with t4 := d } } ∧ MovesOutside 0x23 d s { s with gpt := { s.gpt with t5 := d } }
  ∧ MovesOutside 0x24 d s { s with gpt := { s.gpt with t6 := d } }
  ∧ MovesOutside 0x25 d s { s with gpt := { s.gpt with caprel := d } }
  ∧ MovesOutside 0xA0 d s { s with gpt := { s.gpt with t2con := d &&& 0x01FF, psc2 := none } }
  ∧ MovesOutside 0xA1 d s { s with gpt := { s.gpt with t3con := d &&& 0x07FF, psc3 := none } }
  ∧ MovesOutside 0xA2 d s { s with gpt := { s.gpt with t4con := d &&& 0x01FF, psc4 := none } }
  ∧ MovesOutside 0xA3 d s { s with gpt := { s.gpt with t5con := d &&& 0xF1DF, psc5 := none } }
  ∧ MovesOutside 0xA4 d s { s with gpt := { s.gpt with t6con := d &&& 0x87FF, psc6 := none } }
  ∧ MovesOutside 0x57 d s s
  ∧ MovesOutside 0xD7 d s { s with wdt := { s.wdt with wdtcon := (s.wdt.wdtcon &&& 0x00FE) ||| (d &&& 0xFF01), psc := none } }

/-- The same of the serial units in the SFR space (R591, R593, R595, R621, R623): S0TBUF, which takes nothing while a
synchronous reception runs; S0CON, where a change between the synchronous and an asynchronous mode ends the transfers under way,
with both lines high; S0BG, whose timer is reloaded at once only with S0R = 1; SSCCON of the C165, whose bits are others before
and after SSCEN; the C163 has none. That a write which sets SSCEN loads the SSC's baud rate timer from its reload value (`timer`)
and begins the division by 2 anew (`half`) is the model's DESIGN CHOICE (log entry 33): R626 says only that SSCEN starts and
stops the timer. -/
def SerialWrites (d : Word) (s : State) : Prop :=
  (fieldNat s.asc.s0con 0 3 ≠ 0 ∨ s.asc.rxActive = false →
    MovesOutside 0x58 d s { s with asc := { s.asc with tbuf := d.extractLsb' 0 9, tbufFull := true } })
  ∧ (fieldNat s.asc.s0con 0 3 = 0 → s.asc.rxActive = true → MovesOutside 0x58 d s s)
  ∧ MovesOutside 0x59 d s s
  ∧ (bitOf s.asc.s0con 15 = true → MovesOutside 0x5A d s
      { s with asc := { s.asc with bgReload := d.extractLsb' 0 13, bgTimer := d.extractLsb' 0 13 } })
  ∧ (bitOf s.asc.s0con 15 = false → MovesOutside 0x5A d s
      { s with asc := { s.asc with bgReload := d.extractLsb' 0 13, reloadPending := true } })
  ∧ ((fieldNat d 0 3 = 0 ↔ fieldNat s.asc.s0con 0 3 = 0) →
      MovesOutside 0xD8 d s { s with asc := { s.asc with s0con := d &&& 0xF7FF } })
  ∧ (¬(fieldNat d 0 3 = 0 ↔ fieldNat s.asc.s0con 0 3 = 0) →
      MovesOutside 0xD8 d s { s with asc := { s.asc with
        s0con := d &&& 0xF7FF, tx := [], txBusy := false, txd := true, rxdOut := true, rxActive := false, rx := none } })
  ∧ (s.board.device = .c165 → s.ssc.en = false → MovesOutside 0xD9 d s { s with ssc := { s.ssc with
      ctl := d &&& 0x1F7F, ms := bitOf d 14, en := bitOf d 15, timer := if bitOf d 15 then s.ssc.br else s.ssc.timer
      half := s.ssc.half && !bitOf d 15 } })
  ∧ (s.board.device = .c165 → s.ssc.en = true → MovesOutside 0xD9 d s { s with ssc := { s.ssc with
      stat := (s.ssc.stat &&& 0xF0FF) ||| (d &&& 0x0F00), ms := bitOf d 14, en := bitOf d 15 } })
  ∧ (s.board.device = .c163 → MovesOutside 0xD9 d s s)

/-- The 8-bit number of a node's interrupt control register, in the SFR or the ESFR space (R340). -/
def icReg (n : IrqNode) : BitVec 8 :=
  match n with
  | .cc8 => 0xC4 | .cc9 => 0xC5 | .cc10 => 0xC6 | .cc11 => 0xC7 | .cc12 => 0xC8 | .cc13 => 0xC9 | .cc14 => 0xCA | .cc15 => 0xCB
  | .t2 => 0xB0 | .t3 => 0xB1 | .t4 => 0xB2 | .t5 => 0xB3 | .t6 => 0xB4 | .cr => 0xB5
  | .s0t => 0xB6 | .s0tb => 0xCE | .s0r => 0xB7 | .s0e => 0xB8 | .ssct => 0xB9 | .sscr => 0xBA | .ssce => 0xBB
  | .xp0 => 0xC3 | .xp1 => 0xC7 | .xp2 => 0xCB | .xp3 => 0xCF | .cc29 => 0xC2 | .cc30 => 0xC6 | .cc31 => 0xCA

/-- The nodes whose control registers are in the ESFR space (R340). -/
def icInEsfr (n : IrqNode) : Bool :=
  match n with
  | .s0tb | .xp0 | .xp1 | .xp2 | .xp3 | .cc29 | .cc30 | .cc31 => true
  | _ => false

/-- The interrupt control registers of one space: eight bits each (R345); nothing where the device lacks the
register (R56, log entry 44). -/
def RequestWrites (esfr : Bool) (d : Word) (s : State) : Prop :=
  ∀ n, icInEsfr n = esfr →
    (nodeRegisterPresent s.board n = true → MovesOutside (icReg n) d s (s.setIc n (d.extractLsb' 0 8)))
    ∧ (nodeRegisterPresent s.board n = false → MovesOutside (icReg n) d s s)

/-- The registers of the ESFR space (R57), in an ESFR mode. -/
def EsfrWrites (d : Word) (s : State) : Prop :=
  MovesOutside 0x80 d s { s with ports := { s.ports with dp0l := d &&& 0x00FF } }
  ∧ MovesOutside 0x81 d s { s with ports := { s.ports with dp0h := d &&& 0x00FF } }
  ∧ MovesOutside 0x82 d s { s with ports := { s.ports with dp1l := d &&& 0x00FF } }
  ∧ MovesOutside 0x83 d s { s with ports := { s.ports with dp1h := d &&& 0x00FF } }
  ∧ MovesOutside 0x84 d s s
  ∧ MovesOutside 0xE0 d s { s with ports := { s.ports with exicon := d } }
  ∧ MovesOutside 0xE1 d s { s with ports := { s.ports with odp2 := d &&& 0xFF00 } }
  ∧ MovesOutside 0xE3 d s { s with ports := { s.ports with odp3 := d &&& 0x2FFF } }
  ∧ MovesOutside 0xE7 d s { s with ports := { s.ports with odp6 := d &&& 0x00FF } }
  ∧ (s.board.device = .c165 → MovesOutside 0x58 d s { s with ssc := { s.ssc with tb := d, tbFull := true } }
      ∧ MovesOutside 0x59 d s s ∧ (s.ssc.en = false → MovesOutside 0x5A d s { s with ssc := { s.ssc with br := d } }))
  ∧ (s.board.device = .c163 → MovesOutside 0x58 d s s ∧ MovesOutside 0x59 d s s ∧ MovesOutside 0x5A d s s)

/-- The SFRs that a read takes as they stand, with no other effect: their 8-bit numbers and values. -/
def plainReads (s : State) : List (BitVec 8 × Word) :=
  ([(0x00, s.cpu.dpp0), (0x01, s.cpu.dpp1), (0x02, s.cpu.dpp2), (0x03, s.cpu.dpp3), (0x04, s.cpu.csp), (0x06, s.cpu.mdh),
   (0x08, s.cpu.cp), (0x09, s.cpu.sp), (0x0A, s.cpu.stkov), (0x0B, s.cpu.stkun), (0x87, s.cpu.mdc), (0x88, s.cpu.psw),
   (0x89, s.cpu.syscon), (0x8E, 0), (0x8F, 0xFFFF), (0xD6, s.cpu.tfr)] : List (BitVec 8 × Word))
  ++ ([(0x0C, s.bus.addrsel1), (0x0D, s.bus.addrsel2), (0x0E, s.bus.addrsel3), (0x0F, s.bus.addrsel4), (0x86, s.bus.buscon0),
   (0x8A, s.bus.buscon1), (0x8B, s.bus.buscon2), (0x8C, s.bus.buscon3), (0x8D, s.bus.buscon4)] : List (BitVec 8 × Word))
  ++ ([(0x20, s.gpt.t2), (0x21, s.gpt.t3), (0x22, s.gpt.t4), (0x23, s.gpt.t5), (0x24, s.gpt.t6), (0x25, s.gpt.caprel),
   (0xA0, s.gpt.t2con), (0xA1, s.gpt.t3con), (0xA2, s.gpt.t4con), (0xA3, s.gpt.t5con), (0xA4, s.gpt.t6con),
   (0x57, s.wdt.wdt), (0xD7, s.wdt.wdtcon), (0xD8, s.asc.s0con), (0x5A, 0#3 ++ s.asc.bgTimer)] : List (BitVec 8 × Word))
  ++ ([(0xE1, s.ports.dp2), (0xE3, s.ports.dp3), (0xE5, s.ports.dp4), (0xE7, s.ports.dp6), (0xD1, s.pins.p5 &&& 0xFC00),
   (0x60, s.pecc[0]), (0x61, s.pecc[1]), (0x62, s.pecc[2]), (0x63, s.pecc[3]), (0x64, s.pecc[4]), (0x65, s.pecc[5]),
   (0x66, s.pecc[6]), (0x67, s.pecc[7])] : List (BitVec 8 × Word))

/-- The same of the ESFR space. -/
def plainEsfrReads (s : State) : List (BitVec 8 × Word) :=
  [(0x80, s.ports.dp0l), (0x81, s.ports.dp0h), (0x82, s.ports.dp1l), (0x83, s.ports.dp1h), (0x84, s.bus.rp0h),
   (0xE0, s.ports.exicon), (0xE1, s.ports.odp2), (0xE3, s.ports.odp3), (0xE7, s.ports.odp6)]

/-- What the lines of a port read: an output line its latch, an input line its pin (R421). -/
def linesRead (dir latch pin mask : Word) : Word := ((dir &&& latch) ||| (~~~dir &&& pin)) &&& mask

/-- Reads of the port registers: PORT0 and PORT1 where the bus does not own them (R430, R433), any value in the low byte where it
does (U20); Port 2; Ports 3, 4 and 6, whose input lines read the levels of the pins, which functions of the chip can drive (R421;
the level of CLKOUT on P3.15 at the time of the read is open). -/
def PortReads (s : State) : Prop :=
  (busEnabled s.prev.bus = false → readReg 0x80 s = .ok (linesRead s.prev.ports.dp0l s.ports.p0l s.pins.p0l 0x00FF, s))
  ∧ (busUsesP0h s.prev.bus = false → readReg 0x81 s = .ok (linesRead s.prev.ports.dp0h s.ports.p0h s.pins.p0h 0x00FF, s))
  ∧ (busUsesPort1 s.prev.bus = false →
      readReg 0x82 s = .ok (linesRead s.prev.ports.dp1l s.ports.p1l s.pins.p1l 0x00FF, s)
      ∧ readReg 0x83 s = .ok (linesRead s.prev.ports.dp1h s.ports.p1h s.pins.p1h 0x00FF, s))
  ∧ (∀ r ∈ [(0x80 : BitVec 8), 0x81, 0x82, 0x83],
      ∃ v u, readReg r s = .ok (v, u) ∧ v &&& 0xFF00 = 0 ∧ (u = s ∨ u = s.advanceFree 1))
  ∧ readReg 0xE0 s = .ok (linesRead s.prev.ports.dp2 s.ports.p2 s.pins.p2 0xFF00, s)
  ∧ (∃ clk u, readReg 0xE2 s = .ok (linesRead s.prev.ports.dp3 s.ports.p3 (levelP3 s clk) 0xBFFF, u)
      ∧ (u = s ∨ u = s.advanceFree 1))
  ∧ readReg 0xE4 s = .ok (linesRead s.prev.ports.dp4 s.ports.p4 (levelP4 s) 0x00FF, s)
  ∧ readReg 0xE6 s = .ok (linesRead s.prev.ports.dp6 s.ports.p6 (levelP6 s) 0x00FF, s)

/-- What reading a register of the SFR space delivers beside `plainReads`: MDL, whose read clears MDRIU, S0RBUF, whose read
marks it as read (R106), S0TBUF, which reads as any value, SSCCON with its control bits while SSCEN = 0 and its status bits
while SSCEN = 1 (R623; 0 on the C163, which has none), and the ports. -/
def SfrReads (s : State) : Prop :=
  (∀ p ∈ plainReads s, readReg p.1 s = .ok (p.2, s))
  ∧ readReg 0x07 s = .ok (s.cpu.mdl, { s with cpu := { s.cpu with mdc := s.cpu.mdc &&& 0xFFEF } })
  ∧ readReg 0x59 s = .ok (s.asc.s0rbuf, { s with asc := { s.asc with rbufUnread := false } })
  ∧ (∃ v, readReg 0x58 s = .ok (v, s.advanceFree 1))
  ∧ (s.board.device = .c165 → s.ssc.en = false →
      readReg 0xD9 s = .ok ((s.ssc.ctl &&& 0x1F7F) ||| (if s.ssc.ms then 0x4000 else 0), s))
  ∧ (s.board.device = .c165 → s.ssc.en = true →
      readReg 0xD9 s = .ok ((s.ssc.stat &&& 0x1F0F) ||| (if s.ssc.ms then 0xC000 else 0x8000), s))
  ∧ (s.board.device = .c163 → readReg 0xD9 s = .ok (0, s))
  ∧ PortReads s

/-- What reading a register of the ESFR space delivers, in an ESFR mode: beside `plainEsfrReads` the SSC's SSCTB, which reads as
any value, SSCRB, whose read marks it as read, and SSCBR, which gives the timer while SSCEN = 1 and the reload value else (R626);
0 for all three on the C163. -/
def EsfrReads (s : State) : Prop :=
  (∀ p ∈ plainEsfrReads s, readReg p.1 s = .ok (p.2, s))
  ∧ (s.board.device = .c165 → (∃ v, readReg 0x58 s = .ok (v, s.advanceFree 1))
      ∧ readReg 0x59 s = .ok (s.ssc.rb, { s with ssc := { s.ssc with rbUnread := false } })
      ∧ readReg 0x5A s = .ok (if s.ssc.en then s.ssc.timer else s.ssc.br, s))
  ∧ (s.board.device = .c163 → readReg 0x58 s = .ok (0, s) ∧ readReg 0x59 s = .ok (0, s) ∧ readReg 0x5A s = .ok (0, s))

/-- Reading an interrupt control register of one space delivers its eight bits. -/
def RequestReads (esfr : Bool) (s : State) : Prop :=
  ∀ n, icInEsfr n = esfr → readReg (icReg n) s = .ok (if nodeRegisterPresent s.board n then 0x00#8 ++ s.icOf n else 0, s)

/-- The DPP that the 16-bit address `a` selects (R91). -/
def dppFor (c : Cpu) (a : Word) : Word :=
  if a.toNat < 0x4000 then c.dpp0 else if a.toNat < 0x8000 then c.dpp1 else if a.toNat < 0xC000 then c.dpp2 else c.dpp3

/-- A bit instruction's write of the word `v` to the register at `a`, of which it targets the bits `mask`: what the write of the
word leaves, but the prescalers of T3 and T6 keep their phase where `mask` reaches none of the bits TxI, TxM and TxR (R53, R524,
log entry 25); it stops where that write stops. -/
def BitWrite (s : State) (a : Nat) (mask v : Word) (out : Except Stop (Unit × State)) : Prop :=
  (∀ t, writeSfrWord a v s = .ok ((), t) → out = .ok ((), { t with gpt := { t.gpt with
      psc3 := if mask &&& 0x007F = 0 then s.gpt.psc3 else t.gpt.psc3
      psc6 := if mask &&& 0x007F = 0 then s.gpt.psc6 else t.gpt.psc6 } }))
    ∧ ∀ e, writeSfrWord a v s = .error e → out = .error e

/-- The short address `r` names the register at `a`: as `reg`, for bytes its low byte, and from 80h up as `bitoff` too (R95,
R96). -/
def NamesSfr (s : State) (r : BitVec 8) (a : Nat) : Prop :=
  readReg r s = readSfrWord a s ∧ (∀ v, writeReg r v s = writeSfrWord a v s)
    ∧ (∀ w t, readSfrWord a s = .ok (w, t) → readRegB r s = .ok (w.extractLsb' 0 8, t))
    ∧ (0x80 ≤ r.toNat → readBitWord r s = readSfrWord a s ∧ ∀ mask v, BitWrite s a mask v (writeBitWord r mask v s))

/-- The write `out` from `s` leaves the bytes `m` in memory and everything else in the CPU and outside it as it was. -/
def LeavesBytes (s : State) (out : Except Stop (Unit × State)) (m : Nat → Byte) : Prop :=
  ∃ w, out = .ok ((), w) ∧ w.cpu = s.cpu ∧ w.ext = s.ext ∧ SameOutside s w ∧ ∀ x, bytesOf w x = m x

/-- A word that a short address reads and writes at `a` of memory. -/
def NamesWord (s : State) (a : Nat) (read : Op Word) (write : Word → Op Unit) : Prop :=
  read s = .ok (Memory.readWord s.mem a, s) ∧ ∀ v, LeavesBytes s (write v s) (patchWord (bytesOf s) a v)

/-- The short address `r`, F0h to FFh, names a GPR, as `reg` and as `bitoff`: the word GPR at CP + 2n; for bytes the byte GPR at
CP + n, whose other half stays. CP is that which the instruction works with (R95, R96, R97, R711). -/
def NamesGpr (s : State) (r : BitVec 8) : Prop :=
  (gprWordOk s (regGpr r) = true →
    NamesWord s (s.prev.cpu.cp + 2 * (regGpr r).setWidth 16).toNat (readReg r) (writeReg r)
    ∧ ∀ mask, NamesWord s (s.prev.cpu.cp + 2 * (regGpr r).setWidth 16).toNat (readBitWord r) (writeBitWord r mask))
  ∧ (gprByteOk s (regGpr r) = true →
    readRegB r s = .ok (bytesOf s (s.prev.cpu.cp + (regGpr r).setWidth 16).toNat, s)
    ∧ ∀ b, LeavesBytes s (writeRegB r b s) (patchByte (bytesOf s) (s.prev.cpu.cp + (regGpr r).setWidth 16).toNat b))

/-- Is `a` an address of the SFR or the ESFR space (R83)? -/
def inSfrSpaces (a : Nat) : Prop := (0xF000 ≤ a ∧ a < 0xF200) ∨ (0xFE00 ≤ a ∧ a < 0x10000)

/-- The bytes of memory after the PEC has moved its datum: a byte if BWT is 1, else a word (R358, R361). -/
def pecMoved (s : State) (c src dst : Word) : Nat → Byte :=
  if bitOf c 8 then patchByte (bytesOf s) dst.toNat (bytesOf s src.toNat)
  else patchWord (bytesOf s) dst.toNat (Memory.readWord s.mem src.toNat)

/-- The bytes of memory after the PEC's pointer update on channel `x`: INC = 1 moves the destination pointer, INC = 2 or
3 the source pointer, by the size of the datum. -/
def pecBytes (s : State) (x : Fin 8) (c src dst : Word) : Nat → Byte :=
  if fieldNat c 9 2 = 0 then pecMoved s c src dst
  else if fieldNat c 9 2 = 1 then
    patchWord (pecMoved s c src dst) (0xFCE2 + 4 * x.val) (dst + if bitOf c 8 then 1 else 2)
  else patchWord (pecMoved s c src dst) (0xFCE0 + 4 * x.val) (src + if bitOf c 8 then 1 else 2)

/-- What a PEC transfer leaves outside memory and the CPU: COUNT goes down unless it is FFh; the request flag is cleared
unless COUNT was 1. -/
def pecCounted (s : State) (x : Fin 8) (c : Word) (w : IrqNode) : State :=
  let v := if c &&& 0x00FF = 0x00FF then s else { s with pecc := s.pecc.set x (c - 1) }
  if c &&& 0x00FF = 1 then v else v.clearRequest w

/-- The CPU's own step comes next, at an instruction boundary at which the external bus does not change hands: nothing of
the outside comes first, the clocks of its last step have passed, it does not hang on READY. -/
def AtBoundary (s : State) : Prop :=
  s.agenda = [] ∧ s.clocks = 0 ∧ s.sys.stall = .none ∧ s.sys.power = .running ∧ holdChange s = none

/-- No hardware trap is taken at this boundary: none is requested, or it has to wait (R380). -/
def NoTrap (s : State) : Prop := classATakeable s = false ∧ classBTakeable s = false

/-- Node `w` wins the round (R347, R352): it requests, is enabled, and every other such node has a lower priority; no
enabled node has the same priority. -/
def Wins (s : State) (w : IrqNode) : Prop :=
  isCandidate s w = true ∧ (∀ n, isCandidate s n = true → n ≠ w → nodePriority s n < nodePriority s w)
    ∧ sharesPriority s w = false

/-- The winner is serviced (R350, R352): IEN is 1 and its level is above the CPU's, as the arbitration sees PSW; no
extension sequence or RETI holds it off. -/
def Serviced (s : State) (w : IrqNode) : Prop :=
  s.ext.count = 0 ∧ s.marks.irqHold = false ∧ bitOf (arbitrationPsw s) 11 = true
    ∧ fieldNat (arbitrationPsw s) 12 4 < icLevel (s.icOf w)

/-- The word of code at `a`: of the ROM image, the IRAM or the board's memory (R86, R89). -/
def codeAt (s : State) (a : PhysAddr) : Word :=
  match fetchArea s a with
  | .rom o => wordOfBytes (romByte s o) (romByte s (o + 1))
  | _ => Memory.readWord s.mem (cellOf s a)

/-- The word of code at `a` can be fetched: no rule on code forbids it, and outside the chip the bus is free and memory
stands there, no device. -/
def CodeReady (s : State) (a : PhysAddr) : Prop :=
  fetchRefusal s a = none ∧ recentlyStored s a = false
    ∧ (fetchArea s a = .external →
      externalStop s a = none ∧ regionKind s a ≠ .device ∧ regionKind s (a + 1) ≠ .device)

/-- The first word of the instruction at IP tells what it is: it has two bytes, or its opcode is undefined. -/
def short (s : State) : Prop := firstWordDecides (codeAt s (fetchAddr s)) = true

/-- An instruction can be fetched at IP: IP is even, its words can be fetched, and no other master comes between two bus
cycles. -/
def Fetchable (s : State) : Prop :=
  isOdd s.cpu.ip = false ∧ s.hz.cacheBroken = false ∧ crossesBoundary s = false ∧ CodeReady s (fetchAddr s)
    ∧ (¬ short s → straddles s = false ∧ CodeReady s (fetchAddr2 s)) ∧ Undisturbed s

/-- The words of the instruction at IP are inside the chip. -/
def CodeInside (s : State) : Prop :=
  fetchArea s (fetchAddr s) ≠ .external ∧ (¬ short s → fetchArea s (fetchAddr2 s) ≠ .external)

/-- What the words at IP mean; a first word that tells by itself is not followed by a second. -/
def decodedAt (s : State) : Decoded :=
  let w := codeAt s (fetchAddr s)
  let v := if firstWordDecides w then 0 else codeAt s (fetchAddr2 s)
  decodeBytes (lowByte w) (highByte w) (lowByte v) (highByte v)

/-- `t` differs from `s` at most as fetching and prefetching change a state: in the traces of the external bus, the devices'
answers and the count of free values. -/
def OnlyTraces (s t : State) : Prop :=
  t = { s with ebc := t.ebc, answers := t.answers, free := t.free } ∧ t.answers <:+ s.answers
    ∧ t.ebc.held = s.ebc.held ∧ t.ebc.breqLow = s.ebc.breqLow ∧ t.ebc.hldenOnce = s.ebc.hldenOnce

/-- The instruction `i` of `len` bytes is abandoned: `flag` of TFR is set, IP moves on, nothing else changes (D19). -/
def Abandoned (flag : Word) (i : Instr) (len : Nat) (s : State) : Prop :=
  RunsTo i s { s.cpu with ip := ipAfter len s, tfr := s.cpu.tfr ||| flag } s.ext.tick (bytesOf s) s

/-- A word operand in memory whose data address is `bad` abandons the instruction with `flag`, in every form that has one, as a
source and as a destination. Where an operand is read before that one, the read must not itself stop. -/
def WordOperandTraps (flag : Word) (bad : State → Word → Prop) : Prop :=
  ∀ (op : Alu) (l : LoopCompare) (n m : BitVec 4) (i : BitVec 2) (reg : BitVec 8) (d mem : Word) (s : State),
    (bad s mem →
      Abandoned flag (.movRegMem reg mem) 4 s ∧ Abandoned flag (.movIndRwnMem n mem) 4 s ∧ Abandoned flag (l.mem n mem) 4 s
      ∧ (∀ j, aluMemWithReg op mem reg = some j → Abandoned flag j 4 s)
      ∧ (∀ (v : Word) (u : State), readReg reg s.begin = .ok (v, u) →
        Abandoned flag (aluRegWithMem op reg mem) 4 s ∧ Abandoned flag (.movMemReg mem reg) 4 s
          ∧ Abandoned flag (.scxtRegMem reg mem) 4 s)
      ∧ (∀ (v : Byte) (u : State), readRegB reg s.begin = .ok (v, u) →
        Abandoned flag (.movbsMemReg mem reg) 4 s ∧ Abandoned flag (.movbzMemReg mem reg) 4 s)
      ∧ ∀ (v : Word) (u : State), gprWordOk s m = true → readWordOperand (s.gprWord m) s.begin = .ok (v, u) →
        Abandoned flag (.movMemIndRwn mem m) 4 s)
    ∧ (gprWordOk s m = true → bad s (s.gprWord m) →
      Abandoned flag (.movRwnIndRwm n m) 2 s ∧ Abandoned flag (.movRwnIndRwmInc n m) 2 s
      ∧ Abandoned flag (.movMemIndRwn mem m) 4 s ∧ Abandoned flag (.movIndRwnIndRwm n m) 2 s
      ∧ Abandoned flag (.movIndRwnIncIndRwm n m) 2 s ∧ Abandoned flag (.movIndRwnIndRwmInc n m) 2 s
      ∧ (gprWordOk s n = true → Abandoned flag (.movIndRwmRwn m n) 2 s))
    ∧ (gprWordOk s m = true → gprWordOk s n = true → bad s (s.gprWord m - 2) → Abandoned flag (.movIndDecRwmRwn m n) 2 s)
    ∧ (gprWordOk s m = true → bad s (s.gprWord m + d) →
      Abandoned flag (.movRwnIndRwmData16 n m d) 4 s
      ∧ (gprWordOk s n = true → Abandoned flag (.movIndRwmData16Rwn m d n) 4 s))
    ∧ (gprWordOk s n = true → gprWordOk s (i.setWidth 4) = true → bad s (s.gprWord (i.setWidth 4)) →
      Abandoned flag (aluRwnInd op n i) 2 s ∧ Abandoned flag (aluRwnIndInc op n i) 2 s)
    ∧ (gprWordOk s n = true → bad s (s.gprWord n) →
      (∀ (v : Word) (u : State), readWordOperand mem s.begin = .ok (v, u) → Abandoned flag (.movIndRwnMem n mem) 4 s)
      ∧ ∀ (v : Word) (u : State), gprWordOk s m = true → readWordOperand (s.gprWord m) s.begin = .ok (v, u) →
        Abandoned flag (.movIndRwnIndRwm n m) 2 s ∧ Abandoned flag (.movIndRwnIncIndRwm n m) 2 s
          ∧ Abandoned flag (.movIndRwnIndRwmInc n m) 2 s)

/-- The same of a byte operand. -/
def ByteOperandTraps (flag : Word) (bad : State → Word → Prop) : Prop :=
  ∀ (op : Alu) (n m : BitVec 4) (i : BitVec 2) (reg : BitVec 8) (d mem : Word) (s : State),
    (bad s mem →
      Abandoned flag (.movbRegMem reg mem) 4 s ∧ Abandoned flag (.movbsRegMem reg mem) 4 s
      ∧ Abandoned flag (.movbzRegMem reg mem) 4 s ∧ Abandoned flag (.movbIndRwnMem n mem) 4 s
      ∧ (∀ j, aluMemWithRegB op mem reg = some j → Abandoned flag j 4 s)
      ∧ (∀ (v : Byte) (u : State), readRegB reg s.begin = .ok (v, u) →
        Abandoned flag (aluRegWithMemB op reg mem) 4 s ∧ Abandoned flag (.movbMemReg mem reg) 4 s)
      ∧ ∀ (v : Byte) (u : State), gprWordOk s m = true → readByteOperand (s.gprWord m) s.begin = .ok (v, u) →
        Abandoned flag (.movbMemIndRwn mem m) 4 s)
    ∧ (gprWordOk s m = true → bad s (s.gprWord m) →
      Abandoned flag (.movbRbnIndRwm n m) 2 s ∧ Abandoned flag (.movbRbnIndRwmInc n m) 2 s
      ∧ Abandoned flag (.movbMemIndRwn mem m) 4 s ∧ Abandoned flag (.movbIndRwnIndRwm n m) 2 s
      ∧ Abandoned flag (.movbIndRwnIncIndRwm n m) 2 s ∧ Abandoned flag (.movbIndRwnIndRwmInc n m) 2 s
      ∧ (gprByteOk s n = true → Abandoned flag (.movbIndRwmRbn m n) 2 s))
    ∧ (gprWordOk s m = true → gprByteOk s n = true → bad s (s.gprWord m - 1) → Abandoned flag (.movbIndDecRwmRbn m n) 2 s)
    ∧ (gprWordOk s m = true → bad s (s.gprWord m + d) →
      Abandoned flag (.movbRbnIndRwmData16 n m d) 4 s
      ∧ (gprByteOk s n = true → Abandoned flag (.movbIndRwmData16Rbn m d n) 4 s))
    ∧ (gprByteOk s n = true → gprWordOk s (i.setWidth 4) = true → bad s (s.gprWord (i.setWidth 4)) →
      Abandoned flag (aluRbnInd op n i) 2 s ∧ Abandoned flag (aluRbnIndInc op n i) 2 s)
    ∧ (gprWordOk s n = true → bad s (s.gprWord n) →
      (∀ (v : Byte) (u : State), readByteOperand mem s.begin = .ok (v, u) → Abandoned flag (.movbIndRwnMem n mem) 4 s)
      ∧ ∀ (v : Byte) (u : State), gprWordOk s m = true → readByteOperand (s.gprWord m) s.begin = .ok (v, u) →
        Abandoned flag (.movbIndRwnIndRwm n m) 2 s ∧ Abandoned flag (.movbIndRwnIncIndRwm n m) 2 s
          ∧ Abandoned flag (.movbIndRwnIndRwmInc n m) 2 s)

/-- The data address `a` leads to the external bus, of which no window is enabled (R389, D13). -/
def NeedsMissingBus (s : State) (a : Word) : Prop :=
  dataRemapped s a = false ∧ areaOf s s.prev.cpu.syscon (dataAddr s a) = .external ∧ busEnabled s.prev.bus = false

/-- The registers, memory and surroundings at the start of a reset from `s` and in its 516 clocks: every register and every
piece of hidden state at its reset value but for the pins' share, which is latched at the end; memory, board, pins and what the
outside has in store as before (R671). The model's own choices among these values: S0RBUF, SSCRB, SSPRTB and SSPTBH, printed
XXXXh in R57 (log entry 3), the samples of the edge detectors and the sample counters in `Gpt.reset` and `Sys.reset` (log entry 6),
the hidden registers of the serial units (log entry 7). -/
def ResetUnderWay (cause : ResetCause) (s t : State) : Prop :=
  t.mem = s.mem ∧ t.pins = s.pins ∧ t.board = s.board ∧ t.answers = s.answers ∧ t.gaps = s.gaps
    ∧ t.cpu = Cpu.reset ∧ t.bus = Bus.reset ∧ t.ebc = Ebc.reset ∧ t.ports = Ports.reset
    ∧ t.ic = Vector.replicate 28 0 ∧ t.pecc = Vector.replicate 8 0 ∧ t.gpt = Gpt.reset
    ∧ t.wdt = Wdt.reset (if cause = .watchdog then 0x0002 else 0) ∧ t.asc = Asc.reset ∧ t.ssc = Ssc.reset
    ∧ t.ssp = Ssp.reset ∧ t.ext = Ext.idle ∧ t.clocks = 516
    ∧ t.sys = { Sys.reset with power := .inReset cause, clockLost := s.sys.clockLost && decide (cause ≠ .hardware) }
    ∧ t.prev.cpu = Cpu.reset ∧ t.prev.bus = Bus.reset ∧ t.prev.ports = Ports.reset
    ∧ t.marks = Marks.clear ∧ t.hz = Hazard.clear

/-- The 20 bytes that name no instruction (R145). -/
def unassigned : List Byte :=
  [0xC1, 0x83, 0x93, 0xA3, 0xB3, 0xC3, 0xD3, 0xE3, 0x44, 0x45, 0x85, 0x95, 0xE5, 0xF5, 0xC7, 0xF8, 0xF9, 0x3B, 0x8B, 0x8C]

/-- The six protected opcode bytes (R146). -/
def protectedBytes : List Byte := [0xA5, 0xB5, 0x87, 0x97, 0xB7, 0xA7]

/-- The first bytes of the nine `reg,#data8` forms, whose fourth byte is read as any value (R139, R147). -/
def regData8Bytes : List Byte := [0x07, 0x17, 0x27, 0x37, 0x47, 0x57, 0x67, 0x77, 0xE7]

end Sys2Proof.Claims

open Sys2Proof.Claims

/-! ## Two-operand arithmetic, logic and comparison -/

/-- ADD, ADDC, SUB, SUBC, AND, OR, XOR and CMP on words in GPRs or with #data3: result, all five flags, frame. -/
def Obligations.AluWordsOnRegisters : Prop :=
  ∀ (op : Alu) (n m : BitVec 4) (d : BitVec 3) (s : State), gprWordOk s n = true →
    (gprWordOk s m = true →
      Computes (aluRwnRwm op n m) (ipAfter 2 s) s s.begin (aluCond op (s.gprWord n) (s.gprWord m) (old s))
        (aluBytes op (bytesOf s) (gprWordAddr s n) (aluValue op (s.gprWord n) (s.gprWord m) (old s).c)))
    ∧ Computes (aluRwnData3 op n d) (ipAfter 2 s) s s.begin (aluCond op (s.gprWord n) (d.setWidth 16) (old s))
        (aluBytes op (bytesOf s) (gprWordAddr s n) (aluValue op (s.gprWord n) (d.setWidth 16) (old s).c))

/-- The byte forms on byte GPRs or with #data3. -/
def Obligations.AluBytesOnRegisters : Prop :=
  ∀ (op : Alu) (n m : BitVec 4) (d : BitVec 3) (s : State), gprByteOk s n = true →
    (gprByteOk s m = true →
      Computes (aluRbnRbm op n m) (ipAfter 2 s) s s.begin (aluCond op (s.gprByte n) (s.gprByte m) (old s))
        (aluBytesB op (bytesOf s) (gprByteAddr s n) (aluValue op (s.gprByte n) (s.gprByte m) (old s).c)))
    ∧ Computes (aluRbnData3 op n d) (ipAfter 2 s) s s.begin (aluCond op (s.gprByte n) (d.setWidth 8) (old s))
        (aluBytesB op (bytesOf s) (gprByteAddr s n) (aluValue op (s.gprByte n) (d.setWidth 8) (old s).c))

/-- The word forms with the second operand at [Rwi] and at [Rwi+]: the pointer Rwi is incremented by 2 after the read and
before the result is written. -/
def Obligations.AluWordsIndirect : Prop :=
  ∀ (op : Alu) (n : BitVec 4) (i : BitVec 2) (s u : State) (b : Word),
    gprWordOk s n = true → gprWordOk s (i.setWidth 4) = true →
    readWordOperand (s.gprWord (i.setWidth 4)) s.begin = .ok (b, u) →
    Computes (aluRwnInd op n i) (ipAfter 2 s) s u (aluCond op (s.gprWord n) b (old s))
        (aluBytes op (bytesOf u) (gprWordAddr s n) (aluValue op (s.gprWord n) b (old s).c))
    ∧ Computes (aluRwnIndInc op n i) (ipAfter 2 s) s u (aluCond op (s.gprWord n) b (old s))
        (aluBytes op (patchWord (bytesOf u) (gprWordAddr s (i.setWidth 4)) (s.gprWord (i.setWidth 4) + 2))
          (gprWordAddr s n) (aluValue op (s.gprWord n) b (old s).c))

/-- The byte forms with the second operand at [Rwi] and at [Rwi+]: the pointer is incremented by 1. -/
def Obligations.AluBytesIndirect : Prop :=
  ∀ (op : Alu) (n : BitVec 4) (i : BitVec 2) (s u : State) (b : Byte),
    gprByteOk s n = true → gprWordOk s (i.setWidth 4) = true →
    readByteOperand (s.gprWord (i.setWidth 4)) s.begin = .ok (b, u) →
    Computes (aluRbnInd op n i) (ipAfter 2 s) s u (aluCond op (s.gprByte n) b (old s))
        (aluBytesB op (bytesOf u) (gprByteAddr s n) (aluValue op (s.gprByte n) b (old s).c))
    ∧ Computes (aluRbnIndInc op n i) (ipAfter 2 s) s u (aluCond op (s.gprByte n) b (old s))
        (aluBytesB op (patchWord (bytesOf u) (gprWordAddr s (i.setWidth 4)) (s.gprWord (i.setWidth 4) + 1))
          (gprByteAddr s n) (aluValue op (s.gprByte n) b (old s).c))

/-- The word forms with a `reg` destination and #data16 or mem as second operand. That the result is checked against one stack
limit where `reg` is SP, by ADD and ADDC against STKUN, by SUB and SUBC against STKOV and by no other operation, is the spec's
choice D15 (log entry 19). -/
def Obligations.AluWordsOnReg : Prop :=
  ∀ (op : Alu) (reg : BitVec 8) (d mem : Word) (s u : State) (a : Word), readReg reg s.begin = .ok (a, u) →
    AluReg op (aluRegData16 op reg d) s u reg a d
    ∧ ∀ (u2 : State) (b : Word), readWordOperand mem u = .ok (b, u2) → AluReg op (aluRegWithMem op reg mem) s u2 reg a b

/-- The byte forms with a `reg` destination and #data8 or mem as second operand. -/
def Obligations.AluBytesOnReg : Prop :=
  ∀ (op : Alu) (reg : BitVec 8) (d : Byte) (mem : Word) (s u : State) (a : Byte), readRegB reg s.begin = .ok (a, u) →
    AluRegB op (aluRegData8 op reg d) s u reg a d
    ∧ ∀ (u2 : State) (b : Byte), readByteOperand mem u = .ok (b, u2) →
        AluRegB op (aluRegWithMemB op reg mem) s u2 reg a b

/-- The forms with a memory destination and a `reg` source, on words and on bytes. -/
def Obligations.AluToMemory : Prop :=
  (∀ (op : Alu) (i : Instr) (reg : BitVec 8) (mem : Word) (s r u : State) (a b : Word), aluMemWithReg op mem reg = some i →
    readWordOperand mem s.begin = .ok (a, r) → readReg reg r = .ok (b, u) →
    OnlyRead s.begin u ∧ StoresWord i (ipAfter 4 s) s u mem (aluValue op a b (old s).c) (aluCond op a b (old s)))
  ∧ ∀ (op : Alu) (i : Instr) (reg : BitVec 8) (mem : Word) (s r u : State) (a b : Byte),
    aluMemWithRegB op mem reg = some i →
    readByteOperand mem s.begin = .ok (a, r) → readRegB reg r = .ok (b, u) →
    OnlyRead s.begin u ∧ StoresByte i (ipAfter 4 s) s u mem (aluValue op a b (old s).c) (aluCond op a b (old s))

/-! ## Loop compares, complements, multiplication, division -/

/-- CMPI1, CMPI2, CMPD1 and CMPD2: Rwn is compared as it was, then changed by the constant. -/
def Obligations.LoopCompares : Prop :=
  ∀ (l : LoopCompare) (n d : BitVec 4) (d16 mem : Word) (s : State), gprWordOk s n = true →
    Computes (l.data4 n d) (ipAfter 2 s) s s.begin (aluCond .cmp (s.gprWord n) (d.setWidth 16) (old s))
      (patchWord (bytesOf s) (gprWordAddr s n) (l.next (s.gprWord n)))
    ∧ Computes (l.data16 n d16) (ipAfter 4 s) s s.begin (aluCond .cmp (s.gprWord n) d16 (old s))
      (patchWord (bytesOf s) (gprWordAddr s n) (l.next (s.gprWord n)))
    ∧ ∀ (u : State) (b : Word), readWordOperand mem s.begin = .ok (b, u) →
      Computes (l.mem n mem) (ipAfter 4 s) s u (aluCond .cmp (s.gprWord n) b (old s))
        (patchWord (bytesOf u) (gprWordAddr s n) (l.next (s.gprWord n)))

/-- CPL, CPLB, NEG and NEGB: encoding, result, flags. -/
def Obligations.Complements : Prop :=
  ∀ (n : BitVec 4) (s : State),
    encodeBytes (.negRwn n) = [0x81, n ++ 0#4] ∧ encodeBytes (.cplRwn n) = [0x91, n ++ 0#4]
    ∧ encodeBytes (.negbRbn n) = [0xA1, n ++ 0#4] ∧ encodeBytes (.cplbRbn n) = [0xB1, n ++ 0#4]
    ∧ (gprWordOk s n = true →
      Computes (.cplRwn n) (ipAfter 2 s) s s.begin (complementCond (s.gprWord n))
        (patchWord (bytesOf s) (gprWordAddr s n) (~~~(s.gprWord n)))
      ∧ Computes (.negRwn n) (ipAfter 2 s) s s.begin (aluCond .sub 0 (s.gprWord n) (old s))
        (patchWord (bytesOf s) (gprWordAddr s n) (-(s.gprWord n))))
    ∧ (gprByteOk s n = true →
      Computes (.cplbRbn n) (ipAfter 2 s) s s.begin (complementCond (s.gprByte n))
        (patchByte (bytesOf s) (gprByteAddr s n) (~~~(s.gprByte n)))
      ∧ Computes (.negbRbn n) (ipAfter 2 s) s s.begin (aluCond .sub 0 (s.gprByte n) (old s))
        (patchByte (bytesOf s) (gprByteAddr s n) (-(s.gprByte n))))

/-- MUL and MULU: the 32-bit product in MDH and MDL; V says that it does not fit a word (the spec's choice D11). That
MDC's bits beside MDRIU are 0 before and after is its choice D12 (DESIGN CHOICE, log entry 12). -/
def Obligations.Multiplication : Prop :=
  ∀ (n m : BitVec 4) (s : State), gprWordOk s n = true → gprWordOk s m = true → s.cpu.mdc &&& 0x00EF = 0 →
    (∀ p : BitVec 32, p = (s.gprWord n).signExtend 32 * (s.gprWord m).signExtend 32 →
      Runs (.mulRwnRwm n m) s s.begin
        (mdCpu s (p.extractLsb' 16 16) (p.extractLsb' 0 16) (p == 0) (p != (p.extractLsb' 0 16).signExtend 32) p.msb)
        (bytesOf s))
    ∧ ∀ p : BitVec 32, p = (s.gprWord n).setWidth 32 * (s.gprWord m).setWidth 32 →
      Runs (.muluRwnRwm n m) s s.begin
        (mdCpu s (p.extractLsb' 16 16) (p.extractLsb' 0 16) (p == 0) (p.extractLsb' 16 16 != 0) p.msb) (bytesOf s)

/-- DIV, DIVL, DIVU and DIVLU: quotient in MDL and remainder in MDH, where the quotient fits a word; in the signed ones
the remainder has the sign of the dividend (the spec's choice D7, log entry 18; D12 on MDC, log entry 12). -/
def Obligations.Division : Prop :=
  ∀ (n : BitVec 4) (s : State), gprWordOk s n = true → s.cpu.mdc &&& 0x00EF = 0 →
    (∀ q r : Int, r.natAbs < (s.gprWord n).toInt.natAbs → -0x8000 ≤ q → q < 0x8000 →
      (s.cpu.mdl.toInt = q * (s.gprWord n).toInt + r → 0 ≤ r * s.cpu.mdl.toInt →
        Runs (.divRwn n) s s.begin (mdCpu s (BitVec.ofInt 16 r) (BitVec.ofInt 16 q) (q == 0) false (decide (q < 0)))
          (bytesOf s))
      ∧ ((s.cpu.mdh ++ s.cpu.mdl : BitVec 32).toInt = q * (s.gprWord n).toInt + r →
          0 ≤ r * (s.cpu.mdh ++ s.cpu.mdl : BitVec 32).toInt →
        Runs (.divlRwn n) s s.begin (mdCpu s (BitVec.ofInt 16 r) (BitVec.ofInt 16 q) (q == 0) false (decide (q < 0)))
          (bytesOf s)))
    ∧ ∀ q r : Nat, r < (s.gprWord n).toNat → q < 0x10000 →
      (s.cpu.mdl.toNat = q * (s.gprWord n).toNat + r →
        Runs (.divuRwn n) s s.begin
          (mdCpu s (BitVec.ofNat 16 r) (BitVec.ofNat 16 q) (q == 0) false (decide (0x8000 ≤ q))) (bytesOf s))
      ∧ ((s.cpu.mdh ++ s.cpu.mdl : BitVec 32).toNat = q * (s.gprWord n).toNat + r →
        Runs (.divluRwn n) s s.begin
          (mdCpu s (BitVec.ofNat 16 r) (BitVec.ofNat 16 q) (q == 0) false (decide (0x8000 ≤ q))) (bytesOf s))

/-- A division by 0, or one whose quotient does not fit: V is set, E and C are cleared, MDH, MDL, Z and N hold some
values, free in the model (D8, log entry 18), everything else is as after a valid division. -/
def Obligations.InvalidDivision : Prop :=
  ∀ (n : BitVec 4) (s : State), gprWordOk s n = true → s.cpu.mdc &&& 0x00EF = 0 →
    (s.gprWord n = 0 → ∀ i ∈ [Instr.divRwn n, .divuRwn n, .divlRwn n, .divluRwn n],
      ∃ h l z neg, Runs i s s.begin (mdCpu s h l z true neg) (bytesOf s))
    ∧ (s.cpu.mdl = 0x8000 → s.gprWord n = 0xFFFF →
      ∃ h l z neg, Runs (.divRwn n) s s.begin (mdCpu s h l z true neg) (bytesOf s))
    ∧ (∀ q r : Int, r.natAbs < (s.gprWord n).toInt.natAbs → (q < -0x8000 ∨ 0x8000 ≤ q) →
      (s.cpu.mdh ++ s.cpu.mdl : BitVec 32).toInt = q * (s.gprWord n).toInt + r →
      0 ≤ r * (s.cpu.mdh ++ s.cpu.mdl : BitVec 32).toInt →
      ∃ h l z neg, Runs (.divlRwn n) s s.begin (mdCpu s h l z true neg) (bytesOf s))
    ∧ ((s.gprWord n).toNat * 0x10000 ≤ (s.cpu.mdh ++ s.cpu.mdl : BitVec 32).toNat →
      ∃ h l z neg, Runs (.divluRwn n) s s.begin (mdCpu s h l z true neg) (bytesOf s))

/-! ## Shifts, PRIOR -/

/-- SHL, SHR, ROL, ROR and ASHR, by the low four bits of Rwm or by #data4: encoding, every result bit, flags. -/
def Obligations.Shifts : Prop :=
  (∀ n m d : BitVec 4,
    encodeBytes (.rolRwnRwm n m) = [0x0C, n ++ m] ∧ encodeBytes (.rolRwnData4 n d) = [0x1C, d ++ n]
    ∧ encodeBytes (.rorRwnRwm n m) = [0x2C, n ++ m] ∧ encodeBytes (.rorRwnData4 n d) = [0x3C, d ++ n]
    ∧ encodeBytes (.shlRwnRwm n m) = [0x4C, n ++ m] ∧ encodeBytes (.shlRwnData4 n d) = [0x5C, d ++ n]
    ∧ encodeBytes (.shrRwnRwm n m) = [0x6C, n ++ m] ∧ encodeBytes (.shrRwnData4 n d) = [0x7C, d ++ n]
    ∧ encodeBytes (.ashrRwnRwm n m) = [0xAC, n ++ m] ∧ encodeBytes (.ashrRwnData4 n d) = [0xBC, d ++ n])
  ∧ ∀ (op : Shift) (n m d : BitVec 4) (s : State), gprWordOk s n = true →
    (gprWordOk s m = true → Shifted op (shiftRwnRwm op n m) s n ((s.gprWord m).toNat % 16))
    ∧ Shifted op (shiftRwnData4 op n d) s n d.toNat

/-- PRIOR: the number of shifts that would bring the highest 1 of Rwm to bit 15; 0 with Z = 1 if Rwm is 0. -/
def Obligations.Prioritize : Prop :=
  ∀ (n m : BitVec 4) (s : State), gprWordOk s n = true → gprWordOk s m = true →
    encodeBytes (.priorRwnRwm n m) = [0x2B, n ++ m]
    ∧ (∀ k < 16, bitOf (s.gprWord m) (15 - k) = true → (∀ j < k, bitOf (s.gprWord m) (15 - j) = false) →
      Computes (.priorRwnRwm n m) (ipAfter 2 s) s s.begin { e := false, z := false, v := false, c := false, n := false }
        (patchWord (bytesOf s) (gprWordAddr s n) (BitVec.ofNat 16 k)))
    ∧ (s.gprWord m = 0 →
      Computes (.priorRwnRwm n m) (ipAfter 2 s) s s.begin { e := false, z := true, v := false, c := false, n := false }
        (patchWord (bytesOf s) (gprWordAddr s n) 0))

/-! ## Bits -/

/-- BSET and BCLR: the bit is 1 or 0, the flags show it as it was. -/
def Obligations.SingleBits : Prop :=
  ∀ (qo : BitVec 8) (q : BitVec 4) (s u : State) (x : Word), readBitWord qo s.begin = .ok (x, u) →
    encodeBytes (.bsetBitQ qo q) = [q ++ 0xF#4, qo] ∧ encodeBytes (.bclrBitQ qo q) = [q ++ 0xE#4, qo]
    ∧ SetsBitWord (.bsetBitQ qo q) (ipAfter 2 s) s u qo (1#16 <<< q.toNat) (setBit x q true) (bitCond (bitOf x q.toNat))
    ∧ SetsBitWord (.bclrBitQ qo q) (ipAfter 2 s) s u qo (1#16 <<< q.toNat) (setBit x q false) (bitCond (bitOf x q.toNat))

/-- BMOV, BMOVN, BAND, BOR and BXOR write the destination bit; BCMP writes nothing; the flags come from both bits, for
BMOV and BMOVN from the source bit. -/
def Obligations.TwoBits : Prop :=
  ∀ (zo qo : BitVec 8) (z q : BitVec 4) (s u : State) (x y : Word), TwoBitWords zo qo s u x y →
    encodeBytes (.bmovBitZBitQ zo z qo q) = [0x4A, qo, zo, q ++ z]
    ∧ encodeBytes (.bmovnBitZBitQ zo z qo q) = [0x3A, qo, zo, q ++ z]
    ∧ encodeBytes (.bandBitZBitQ zo z qo q) = [0x6A, qo, zo, q ++ z]
    ∧ encodeBytes (.borBitZBitQ zo z qo q) = [0x5A, qo, zo, q ++ z]
    ∧ encodeBytes (.bxorBitZBitQ zo z qo q) = [0x7A, qo, zo, q ++ z]
    ∧ encodeBytes (.bcmpBitZBitQ zo z qo q) = [0x2A, qo, zo, q ++ z]
    ∧ SetsBitWord (.bmovBitZBitQ zo z qo q) (ipAfter 4 s) s u zo (1#16 <<< z.toNat) (setBit y z (bitOf x q.toNat)) (bitCond (bitOf x q.toNat))
    ∧ SetsBitWord (.bmovnBitZBitQ zo z qo q) (ipAfter 4 s) s u zo (1#16 <<< z.toNat) (setBit y z (!(bitOf x q.toNat)))
        (bitCond (bitOf x q.toNat))
    ∧ SetsBitWord (.bandBitZBitQ zo z qo q) (ipAfter 4 s) s u zo (1#16 <<< z.toNat) (setBit y z (bitOf y z.toNat && bitOf x q.toNat))
        (twoBitCond (bitOf y z.toNat) (bitOf x q.toNat))
    ∧ SetsBitWord (.borBitZBitQ zo z qo q) (ipAfter 4 s) s u zo (1#16 <<< z.toNat) (setBit y z (bitOf y z.toNat || bitOf x q.toNat))
        (twoBitCond (bitOf y z.toNat) (bitOf x q.toNat))
    ∧ SetsBitWord (.bxorBitZBitQ zo z qo q) (ipAfter 4 s) s u zo (1#16 <<< z.toNat) (setBit y z (bitOf y z.toNat != bitOf x q.toNat))
        (twoBitCond (bitOf y z.toNat) (bitOf x q.toNat))
    ∧ Computes (.bcmpBitZBitQ zo z qo q) (ipAfter 4 s) s u (twoBitCond (bitOf y z.toNat) (bitOf x q.toNat)) (bytesOf u)

/-- BFLDL and BFLDH: the masked bits of the byte become 0, then the data is ORed in, even where the mask is 0. -/
def Obligations.BitFields : Prop :=
  ∀ (bo mask d : BitVec 8) (s u : State) (x : Word), readBitWord bo s.begin = .ok (x, u) →
    encodeBytes (.bfldlBitoffMask8Data8 bo mask d) = [0x0A, bo, mask, d]
    ∧ encodeBytes (.bfldhBitoffMask8Data8 bo mask d) = [0x1A, bo, d, mask]
    ∧ (∀ v : Word, v = (x &&& ~~~(0x00#8 ++ mask)) ||| (0x00#8 ++ d) →
      SetsBitWord (.bfldlBitoffMask8Data8 bo mask d) (ipAfter 4 s) s u bo (0x00#8 ++ (mask ||| d)) v
        { e := false, z := v == 0, v := false, c := false, n := v.msb })
    ∧ ∀ v : Word, v = (x &&& ~~~(mask ++ 0x00#8)) ||| (d ++ 0x00#8) →
      SetsBitWord (.bfldhBitoffMask8Data8 bo mask d) (ipAfter 4 s) s u bo ((mask ||| d) ++ 0x00#8) v
        { e := false, z := v == 0, v := false, c := false, n := v.msb }

/-! ## Moves -/

/-- MOV Rwn and MOVB Rbn from #data4 or a register; MOVBS and MOVBZ Rwn from a byte register. -/
def Obligations.MovesBetweenRegisters : Prop :=
  ∀ (n m d : BitVec 4) (s : State),
    (gprWordOk s n = true →
      Computes (.movRwnData4 n d) (ipAfter 2 s) s s.begin (moveCond (d.setWidth 16 : Word) (old s))
        (patchWord (bytesOf s) (gprWordAddr s n) (d.setWidth 16))
      ∧ (gprWordOk s m = true →
        Computes (.movRwnRwm n m) (ipAfter 2 s) s s.begin (moveCond (s.gprWord m) (old s))
          (patchWord (bytesOf s) (gprWordAddr s n) (s.gprWord m)))
      ∧ (gprByteOk s m = true →
        Computes (.movbsRwnRbm n m) (ipAfter 2 s) s s.begin (extendCond ((s.gprByte m).signExtend 16) (old s))
          (patchWord (bytesOf s) (gprWordAddr s n) ((s.gprByte m).signExtend 16))
        ∧ Computes (.movbzRwnRbm n m) (ipAfter 2 s) s s.begin (extendCond ((s.gprByte m).setWidth 16) (old s))
          (patchWord (bytesOf s) (gprWordAddr s n) ((s.gprByte m).setWidth 16))))
    ∧ (gprByteOk s n = true →
      Computes (.movbRbnData4 n d) (ipAfter 2 s) s s.begin (moveCond (d.setWidth 8 : Byte) (old s))
        (patchByte (bytesOf s) (gprByteAddr s n) (d.setWidth 8))
      ∧ (gprByteOk s m = true →
        Computes (.movbRbnRbm n m) (ipAfter 2 s) s s.begin (moveCond (s.gprByte m) (old s))
          (patchByte (bytesOf s) (gprByteAddr s n) (s.gprByte m))))

/-- MOV Rwn and MOVB Rbn from [Rwm], [Rwm+] and [Rwm+#data16]; [Rwm+] adds 2 or 1 to Rwm before the result is written. -/
def Obligations.Loads : Prop :=
  ∀ (n m : BitVec 4) (d : Word) (s : State), gprWordOk s m = true →
    (gprWordOk s n = true → ∀ (u : State) (v : Word),
      (readWordOperand (s.gprWord m) s.begin = .ok (v, u) →
        Computes (.movRwnIndRwm n m) (ipAfter 2 s) s u (moveCond v (old s)) (patchWord (bytesOf u) (gprWordAddr s n) v)
        ∧ Computes (.movRwnIndRwmInc n m) (ipAfter 2 s) s u (moveCond v (old s))
            (patchWord (patchWord (bytesOf u) (gprWordAddr s m) (s.gprWord m + 2)) (gprWordAddr s n) v))
      ∧ (readWordOperand (s.gprWord m + d) s.begin = .ok (v, u) →
        Computes (.movRwnIndRwmData16 n m d) (ipAfter 4 s) s u (moveCond v (old s))
          (patchWord (bytesOf u) (gprWordAddr s n) v)))
    ∧ (gprByteOk s n = true → ∀ (u : State) (v : Byte),
      (readByteOperand (s.gprWord m) s.begin = .ok (v, u) →
        Computes (.movbRbnIndRwm n m) (ipAfter 2 s) s u (moveCond v (old s)) (patchByte (bytesOf u) (gprByteAddr s n) v)
        ∧ Computes (.movbRbnIndRwmInc n m) (ipAfter 2 s) s u (moveCond v (old s))
            (patchByte (patchWord (bytesOf u) (gprWordAddr s m) (s.gprWord m + 1)) (gprByteAddr s n) v))
      ∧ (readByteOperand (s.gprWord m + d) s.begin = .ok (v, u) →
        Computes (.movbRbnIndRwmData16 n m d) (ipAfter 4 s) s u (moveCond v (old s))
          (patchByte (bytesOf u) (gprByteAddr s n) v)))

/-- MOV and MOVB to `reg` from immediate data or memory; MOVBS and MOVBZ to `reg` from memory. -/
def Obligations.MovesToReg : Prop :=
  ∀ (reg : BitVec 8) (d mem : Word) (d8 : Byte) (s : State),
    SetsReg (.movRegData16 reg d) (ipAfter 4 s) s s.begin reg d (moveCond d (old s))
    ∧ SetsRegB (.movbRegData8 reg d8) (ipAfter 4 s) s s.begin reg d8 (moveCond d8 (old s))
    ∧ (∀ (u : State) (v : Word), readWordOperand mem s.begin = .ok (v, u) →
        SetsReg (.movRegMem reg mem) (ipAfter 4 s) s u reg v (moveCond v (old s)))
    ∧ ∀ (u : State) (v : Byte), readByteOperand mem s.begin = .ok (v, u) →
        SetsRegB (.movbRegMem reg mem) (ipAfter 4 s) s u reg v (moveCond v (old s))
        ∧ SetsReg (.movbsRegMem reg mem) (ipAfter 4 s) s u reg (v.signExtend 16) (extendCond (v.signExtend 16) (old s))
        ∧ SetsReg (.movbzRegMem reg mem) (ipAfter 4 s) s u reg (v.setWidth 16) (extendCond (v.setWidth 16) (old s))

/-- Stores of registers: MOV and MOVB [Rwm], [Rwm+#data16] and mem; MOVBS and MOVBZ mem. -/
def Obligations.Stores : Prop :=
  ∀ (n m : BitVec 4) (reg : BitVec 8) (d mem : Word) (s : State),
    (gprWordOk s m = true → gprWordOk s n = true →
      StoresWord (.movIndRwmRwn m n) (ipAfter 2 s) s s.begin (s.gprWord m) (s.gprWord n) (moveCond (s.gprWord n) (old s))
      ∧ StoresWord (.movIndRwmData16Rwn m d n) (ipAfter 4 s) s s.begin (s.gprWord m + d) (s.gprWord n)
          (moveCond (s.gprWord n) (old s)))
    ∧ (gprWordOk s m = true → gprByteOk s n = true →
      StoresByte (.movbIndRwmRbn m n) (ipAfter 2 s) s s.begin (s.gprWord m) (s.gprByte n) (moveCond (s.gprByte n) (old s))
      ∧ StoresByte (.movbIndRwmData16Rbn m d n) (ipAfter 4 s) s s.begin (s.gprWord m + d) (s.gprByte n)
          (moveCond (s.gprByte n) (old s)))
    ∧ (∀ (u : State) (v : Word), readReg reg s.begin = .ok (v, u) →
        OnlyRead s.begin u ∧ StoresWord (.movMemReg mem reg) (ipAfter 4 s) s u mem v (moveCond v (old s)))
    ∧ ∀ (u : State) (v : Byte), readRegB reg s.begin = .ok (v, u) →
        OnlyRead s.begin u ∧ StoresByte (.movbMemReg mem reg) (ipAfter 4 s) s u mem v (moveCond v (old s))
        ∧ StoresWord (.movbsMemReg mem reg) (ipAfter 4 s) s u mem (v.signExtend 16) (extendCond (v.signExtend 16) (old s))
        ∧ StoresWord (.movbzMemReg mem reg) (ipAfter 4 s) s u mem (v.setWidth 16) (extendCond (v.setWidth 16) (old s))

/-- MOV [-Rwm],Rwn and MOVB [-Rwm],Rbn: Rwm is decremented by 2 or 1, then the store is made there. Where the register
stored is the pointer, or a half of it, some value is stored: a free value of the model (U13, log entry 35). -/
def Obligations.PredecrementStores : Prop :=
  ∀ (n m : BitVec 4) (s : State), gprWordOk s m = true →
    (gprWordOk s n = true →
      (n ≠ m → StoresWord (.movIndDecRwmRwn m n) (ipAfter 2 s) s (s.begin.setGprWord m (s.gprWord m - 2)) (s.gprWord m - 2)
        (s.gprWord n) (moveCond (s.gprWord n) (old s)))
      ∧ (n = m → ∃ v k, StoresWord (.movIndDecRwmRwn m n) (ipAfter 2 s) s
          ((s.begin.advanceFree k).setGprWord m (s.gprWord m - 2)) (s.gprWord m - 2) v (moveCond v (old s))))
    ∧ (gprByteOk s n = true →
      (n.toNat / 2 ≠ m.toNat → StoresByte (.movbIndDecRwmRbn m n) (ipAfter 2 s) s
        (s.begin.setGprWord m (s.gprWord m - 1)) (s.gprWord m - 1) (s.gprByte n) (moveCond (s.gprByte n) (old s)))
      ∧ (n.toNat / 2 = m.toNat → ∃ v k, StoresByte (.movbIndDecRwmRbn m n) (ipAfter 2 s) s
          ((s.begin.advanceFree k).setGprWord m (s.gprWord m - 1)) (s.gprWord m - 1) v (moveCond v (old s))))

/-- The word and byte moves from memory to memory; [Rwn+] and [Rwm+] add 2 or 1 to the pointer before the store. -/
def Obligations.MemoryToMemory : Prop :=
  (∀ (n m : BitVec 4) (mem : Word) (s u : State) (v : Word),
    (gprWordOk s m = true → readWordOperand (s.gprWord m) s.begin = .ok (v, u) →
      OnlyRead s.begin u
      ∧ StoresWord (.movMemIndRwn mem m) (ipAfter 4 s) s u mem v (moveCond v (old s))
      ∧ (gprWordOk s n = true →
        StoresWord (.movIndRwnIndRwm n m) (ipAfter 2 s) s u (s.gprWord n) v (moveCond v (old s))
        ∧ StoresWord (.movIndRwnIncIndRwm n m) (ipAfter 2 s) s (u.setGprWord n (s.gprWord n + 2)) (s.gprWord n) v
            (moveCond v (old s))
        ∧ StoresWord (.movIndRwnIndRwmInc n m) (ipAfter 2 s) s (u.setGprWord m (s.gprWord m + 2)) (s.gprWord n) v
            (moveCond v (old s))))
    ∧ (gprWordOk s n = true → readWordOperand mem s.begin = .ok (v, u) →
      OnlyRead s.begin u ∧ StoresWord (.movIndRwnMem n mem) (ipAfter 4 s) s u (s.gprWord n) v (moveCond v (old s))))
  ∧ ∀ (n m : BitVec 4) (mem : Word) (s u : State) (v : Byte),
    (gprWordOk s m = true → readByteOperand (s.gprWord m) s.begin = .ok (v, u) →
      OnlyRead s.begin u
      ∧ StoresByte (.movbMemIndRwn mem m) (ipAfter 4 s) s u mem v (moveCond v (old s))
      ∧ (gprWordOk s n = true →
        StoresByte (.movbIndRwnIndRwm n m) (ipAfter 2 s) s u (s.gprWord n) v (moveCond v (old s))
        ∧ StoresByte (.movbIndRwnIncIndRwm n m) (ipAfter 2 s) s (u.setGprWord n (s.gprWord n + 1)) (s.gprWord n) v
            (moveCond v (old s))
        ∧ StoresByte (.movbIndRwnIndRwmInc n m) (ipAfter 2 s) s (u.setGprWord m (s.gprWord m + 1)) (s.gprWord n) v
            (moveCond v (old s))))
    ∧ (gprWordOk s n = true → readByteOperand mem s.begin = .ok (v, u) →
      OnlyRead s.begin u ∧ StoresByte (.movbIndRwnMem n mem) (ipAfter 4 s) s u (s.gprWord n) v (moveCond v (old s)))

/-! ## The system stack -/

/-- PUSH: SP moves down, the word is stored there, STKOF if SP is below STKOV. PUSH SP stores SP as before or as after
(a free value decides: U14, log entry 34). -/
def Obligations.Pushes : Prop :=
  ∀ (reg : BitVec 8) (a : Nat) (s u : State) (v : Word), readReg reg s.begin = .ok (v, u) →
    StackSlot s (pushedPointer s.cpu.sp) a →
    (regIsSp s reg = false → PushStores reg s u a v)
    ∧ (regIsSp s reg = true → PushStores reg s u a s.cpu.sp ∨ PushStores reg s u a (pushedPointer s.cpu.sp))

/-- POP: the word at SP, then SP moves up, STKUF if SP is above STKUN; the word goes to a GPR or to an (E)SFR. -/
def Obligations.Pops : Prop :=
  ∀ (reg : BitVec 8) (a : Nat) (s : State) (v : Word), s.marks.spWritten = false → StackSlot s s.cpu.sp a →
    v = Memory.readWord s.mem a →
    (regIsGpr reg = true → gprWordOk s (regGpr reg) = true →
      Runs (.popReg reg) s s.begin { s.cpu.pop with ip := ipAfter 2 s, psw := putCond s.cpu.psw (moveCond v (old s)) }
        (patchWord (bytesOf s) (gprWordAddr s (regGpr reg)) v))
    ∧ ∀ w, regIsGpr reg = false → writeReg reg v { s.begin with cpu := s.cpu.pop } = .ok ((), w) →
      Finishes (.popReg reg) (ipAfter 2 s) s w (moveCond v (old s)) ∧ SameMemoryBut (fun _ => False) s w

/-- SCXT: the register is pushed, then it takes #data16 or the word at mem, read before the push. No flag changes. -/
def Obligations.SwitchesContext : Prop :=
  ∀ (reg : BitVec 8) (d mem o : Word) (a : Nat) (s u : State), readReg reg s.begin = .ok (o, u) →
    StackSlot s (pushedPointer s.cpu.sp) a →
    Switches (.scxtRegData16 reg d) reg s u a o d
    ∧ ∀ (r : State) (x : Word), readWordOperand mem u = .ok (x, r) → Switches (.scxtRegMem reg mem) reg s r a o x

/-! ## Jumps, calls, returns -/

/-- The sixteen condition codes on the flags of PSW. -/
def Obligations.ConditionCodes : Prop :=
  ∀ p : Word,
    condition 0x0 p = true
    ∧ condition 0x1 p = (!(condFlags p).z && !(condFlags p).e)
    ∧ condition 0x2 p = (condFlags p).z ∧ condition 0x3 p = !(condFlags p).z
    ∧ condition 0x4 p = (condFlags p).v ∧ condition 0x5 p = !(condFlags p).v
    ∧ condition 0x6 p = (condFlags p).n ∧ condition 0x7 p = !(condFlags p).n
    ∧ condition 0x8 p = (condFlags p).c ∧ condition 0x9 p = !(condFlags p).c
    ∧ condition 0xA p = (!(condFlags p).z && (condFlags p).n == (condFlags p).v)
    ∧ condition 0xB p = ((condFlags p).z || (condFlags p).n != (condFlags p).v)
    ∧ condition 0xC p = ((condFlags p).n != (condFlags p).v) ∧ condition 0xD p = ((condFlags p).n == (condFlags p).v)
    ∧ condition 0xE p = (!(condFlags p).z && !(condFlags p).c) ∧ condition 0xF p = ((condFlags p).z || (condFlags p).c)

/-- JMPA, JMPR, JMPI on their condition; JMPS always, to another segment. -/
def Obligations.Jumps : Prop :=
  ∀ (cc n : BitVec 4) (rel seg : BitVec 8) (caddr : Word) (s : State),
    Runs (.jmpaCcCaddr cc caddr) s s.begin
      { s.cpu with ip := if condition cc s.cpu.psw then caddr else ipAfter 4 s } (bytesOf s)
    ∧ Runs (.jmprCcRel cc rel) s s.begin
      { s.cpu with ip := if condition cc s.cpu.psw then target (ipAfter 2 s) rel else ipAfter 2 s } (bytesOf s)
    ∧ ((condition cc s.cpu.psw = true → gprWordOk s n = true) →
      Runs (.jmpiCcIndRwn cc n) s s.begin
        { s.cpu with ip := if condition cc s.cpu.psw then s.gprWord n else ipAfter 2 s } (bytesOf s))
    ∧ Runs (.jmpsSegCaddr seg caddr) s s.begin { s.cpu with csp := seg.setWidth 16, ip := caddr } (bytesOf s)

/-- JB and JNB: the jump is taken if the bit is 1, or 0; nothing is written. -/
def Obligations.JumpsOnBit : Prop :=
  ∀ (qo rel : BitVec 8) (q : BitVec 4) (s u : State) (x : Word), readBitWord qo s.begin = .ok (x, u) →
    encodeBytes (.jbBitQRel qo q rel) = [0x8A, qo, rel, q ++ 0#4]
    ∧ encodeBytes (.jnbBitQRel qo q rel) = [0x9A, qo, rel, q ++ 0#4]
    ∧ Runs (.jbBitQRel qo q rel) s u
      { u.cpu with ip := if bitOf x q.toNat then target (ipAfter 4 s) rel else ipAfter 4 s } (bytesOf u)
    ∧ Runs (.jnbBitQRel qo q rel) s u
      { u.cpu with ip := if bitOf x q.toNat then ipAfter 4 s else target (ipAfter 4 s) rel } (bytesOf u)

/-- JBC and JNBS: where the jump is taken, the bit is inverted; the flags show the bit as it was, taken or not. That
nothing is written where it is not taken is the spec's own choice (R287, log entry 40). -/
def Obligations.JumpsChangingBit : Prop :=
  ∀ (qo rel : BitVec 8) (q : BitVec 4) (s u : State) (x : Word), readBitWord qo s.begin = .ok (x, u) →
    encodeBytes (.jbcBitQRel qo q rel) = [0xAA, qo, rel, q ++ 0#4]
    ∧ encodeBytes (.jnbsBitQRel qo q rel) = [0xBA, qo, rel, q ++ 0#4]
    ∧ (bitOf x q.toNat = true →
      SetsBitWord (.jbcBitQRel qo q rel) (target (ipAfter 4 s) rel) s u qo (1#16 <<< q.toNat) (setBit x q false) (bitCond true)
      ∧ Computes (.jnbsBitQRel qo q rel) (ipAfter 4 s) s u (bitCond true) (bytesOf u))
    ∧ (bitOf x q.toNat = false →
      Computes (.jbcBitQRel qo q rel) (ipAfter 4 s) s u (bitCond false) (bytesOf u)
      ∧ SetsBitWord (.jnbsBitQRel qo q rel) (target (ipAfter 4 s) rel) s u qo (1#16 <<< q.toNat) (setBit x q true) (bitCond false))

/-- CALLA and CALLI on their condition, CALLR always: the address of the next instruction is pushed. -/
def Obligations.Calls : Prop :=
  ∀ (cc n : BitVec 4) (rel : BitVec 8) (caddr : Word) (a : Nat) (s : State),
    (condition cc s.cpu.psw = false →
      Runs (.callaCcCaddr cc caddr) s s.begin { s.cpu with ip := ipAfter 4 s } (bytesOf s)
      ∧ Runs (.calliCcIndRwn cc n) s s.begin { s.cpu with ip := ipAfter 2 s } (bytesOf s))
    ∧ (StackSlot s (pushedPointer s.cpu.sp) a →
      (condition cc s.cpu.psw = true →
        Runs (.callaCcCaddr cc caddr) s s.begin { s.cpu.push with ip := caddr } (patchWord (bytesOf s) a (ipAfter 4 s))
        ∧ (gprWordOk s n = true →
          Runs (.calliCcIndRwn cc n) s s.begin { s.cpu.push with ip := s.gprWord n }
            (patchWord (bytesOf s) a (ipAfter 2 s))))
      ∧ Runs (.callrRel rel) s s.begin { s.cpu.push with ip := target (ipAfter 2 s) rel }
          (patchWord (bytesOf s) a (ipAfter 2 s)))

/-- CALLS pushes CSP and the address of the next instruction; PCALL pushes a register, whose value sets the flags, and
that address. -/
def Obligations.CallsPushingTwo : Prop :=
  ∀ (seg reg : BitVec 8) (caddr v : Word) (a b : Nat) (s u : State), StackSlot s (pushedPointer s.cpu.sp) a →
    StackSlot s (pushedPointer (pushedPointer s.cpu.sp)) b →
    Runs (.callsSegCaddr seg caddr) s s.begin { s.cpu.push.push with csp := seg.setWidth 16, ip := caddr }
      (patchWord (patchWord (bytesOf s) a s.cpu.csp) b (ipAfter 4 s))
    ∧ (readReg reg s.begin = .ok (v, u) →
      Runs (.pcallRegCaddr reg caddr) s u
        { u.cpu.push.push with ip := caddr, psw := putCond s.cpu.psw (moveCond v (old s)) }
        (patchWord (patchWord (bytesOf u) a v) b (ipAfter 4 s)))

/-- TRAP: PSW, CSP in segmented mode and the address of the next instruction are pushed; PSW does not change. -/
def Obligations.SoftwareTraps : Prop :=
  ∀ (n : BitVec 7) (a b c : Nat) (s : State), StackSlot s (pushedPointer s.cpu.sp) a →
    StackSlot s (pushedPointer (pushedPointer s.cpu.sp)) b →
    (segmented s = true → StackSlot s (pushedPointer (pushedPointer (pushedPointer s.cpu.sp))) c →
      Runs (.trapTrap7 n) s s.begin { s.cpu.push.push.push with csp := 0, ip := BitVec.ofNat 16 (4 * n.toNat) }
        (patchWord (patchWord (patchWord (bytesOf s) a s.cpu.psw) b s.cpu.csp) c (ipAfter 2 s)))
    ∧ (segmented s = false →
      Runs (.trapTrap7 n) s s.begin { s.cpu.push.push with ip := BitVec.ofNat 16 (4 * n.toNat) }
        (patchWord (patchWord (bytesOf s) a s.cpu.psw) b (ipAfter 2 s)))

/-- RET pops IP; RETS pops IP and CSP; RETP pops IP and a register, whose value sets the flags. -/
def Obligations.Returns : Prop :=
  ∀ (reg : BitVec 8) (a b : Nat) (s : State) (v : Word), s.marks.spWritten = false → StackSlot s s.cpu.sp a →
    Runs .ret s s.begin { s.cpu.pop with ip := Memory.readWord s.mem a } (bytesOf s)
    ∧ (StackSlot s (poppedPointer s.cpu.sp) b → v = Memory.readWord s.mem b →
      Runs .rets s s.begin { s.cpu.pop.pop with csp := v &&& 0x00FF, ip := Memory.readWord s.mem a } (bytesOf s)
      ∧ (regIsGpr reg = true → gprWordOk s (regGpr reg) = true →
        Runs (.retpReg reg) s s.begin
          { s.cpu.pop.pop with ip := Memory.readWord s.mem a, psw := putCond s.cpu.psw (moveCond v (old s)) }
          (patchWord (bytesOf s) (gprWordAddr s (regGpr reg)) v))
      ∧ ∀ w, regIsGpr reg = false → writeReg reg v { s.begin with cpu := s.cpu.pop.pop } = .ok ((), w) →
        Finishes (.retpReg reg) (Memory.readWord s.mem a) s w (moveCond v (old s))
          ∧ SameMemoryBut (fun _ => False) s w)

/-- RETI pops IP, CSP in segmented mode and PSW; the class of trap routine in service, A before B, ends
(the spec's latches D22, log entry 23). Whether a request waits for one instruction after it (R372) or not (R305) is the
board's parameter `oneAfterReti`, the model's own (log entry 65). -/
def Obligations.InterruptReturns : Prop :=
  ∀ (a b c : Nat) (s : State), s.marks.spWritten = false → bitOf s.cpu.psw 5 = false → StackSlot s s.cpu.sp a →
    StackSlot s (poppedPointer s.cpu.sp) b →
    (segmented s = true → StackSlot s (poppedPointer (poppedPointer s.cpu.sp)) c →
      RunsTo .reti s
        { s.cpu.pop.pop.pop with ip := Memory.readWord s.mem a, csp := Memory.readWord s.mem b &&& 0x00FF
                                 psw := Memory.readWord s.mem c &&& 0xFC7F }
        s.ext.tick (bytesOf s) (afterReturn s (Memory.readWord s.mem c)))
    ∧ (segmented s = false →
      RunsTo .reti s
        { s.cpu.pop.pop with ip := Memory.readWord s.mem a, psw := Memory.readWord s.mem b &&& 0xFC7F }
        s.ext.tick (bytesOf s) (afterReturn s (Memory.readWord s.mem b)))
    ∧ ((segmented s = true → StackSlot s (poppedPointer (poppedPointer s.cpu.sp)) c) →
      ∃ t, exec .reti s = .next t ∧ t.marks.irqHold = s.board.oneAfterReti)

/-! ## System control and extension sequences -/

/-- NOP, IDLE, PWRDN, SRVWDT, DISWDT and EINIT: IP moves on; the CPU enters its power state (Power Down only with NMI
low), the watchdog is serviced, or disabled unless that is locked, the initialization ends; nothing else changes. That a
serviced or disabled watchdog forgets the phase of its prescaler is the spec's choice D27 (log entry 25). -/
def Obligations.SystemControl : Prop :=
  ∀ s : State,
    Runs .nop s s.begin { s.cpu with ip := ipAfter 2 s } (bytesOf s)
    ∧ Controls .idle s { s with sys := { s.sys with power := .idle } }
    ∧ (s.pins.nmi = true → Controls .pwrdn s s)
    ∧ (s.pins.nmi = false → Controls .pwrdn s { s with sys := { s.sys with power := .powerDown } })
    ∧ Controls .srvwdt s { s with wdt := { s.wdt with
        wdt := s.wdt.wdtcon &&& 0xFF00, wdtcon := s.wdt.wdtcon &&& 0xFFFD, psc := none, disLocked := true } }
    ∧ (s.wdt.disLocked = true → Controls .diswdt s s)
    ∧ (s.wdt.disLocked = false → Controls .diswdt s { s with wdt := { s.wdt with disabled := true, psc := none } })
    ∧ Controls .einit s { s with sys := { s.sys with einitDone := true }, wdt := { s.wdt with disLocked := true } }

/-- SRST: the reset sequence starts; registers and hidden state take their reset values, memory and the outside keep theirs. Its
clocks pass one by one; then it waits for RSTIN high, and ends with SYSCON, BUSCON0 and RP0H taken from the reset pins and the
CPU running from 00'0000h. The passage through a state of reset and its end at a step of the CPU with RSTIN high are the model's
choice (log entry 36), the samples of the edge detectors are those of log entry 6, the active chip select is that of log entry 53, and registers whose value the spec does not give have the model's (log entries 3,
7). -/
def Obligations.SoftwareReset : Prop :=
  ∀ s : State, ∃ t, exec .srst s = .next t ∧ t.agenda = s.agenda ∧ ResetUnderWay .software s t
    ∧ (s.agenda = [] → ∀ k, step { t with clocks := k + 1 } = .next { t with clocks := k })
    ∧ (s.agenda = [] → s.pins.rstin = false → step { t with clocks := 0 } = lapse (.next { t with clocks := 0 }))
    ∧ (s.agenda = [] → s.pins.rstin = true → ∃ r, step { t with clocks := 0 } = lapse (.next r)
        ∧ r.mem = s.mem ∧ r.pins = s.pins ∧ r.board = s.board ∧ r.answers = s.answers ∧ r.gaps = s.gaps
        ∧ r.sys = { Sys.reset with nmiSample := s.pins.nmi, exSample := r.sys.exSample, clockLost := s.sys.clockLost }
        ∧ r.cpu = { Cpu.reset with syscon := resetSyscon s.board.resetPins }
        ∧ r.bus = { Bus.reset with buscon0 := resetBuscon0 s.board.resetPins, rp0h := resetRp0h s.board.resetPins }
        ∧ r.prev.cpu = r.cpu ∧ r.prev.bus = r.bus ∧ r.prev.ports = Ports.reset
        ∧ r.ports = Ports.reset ∧ r.ic = Vector.replicate 28 0 ∧ r.pecc = Vector.replicate 8 0 ∧ r.wdt = Wdt.reset 0
        ∧ r.asc = Asc.reset ∧ r.ssp = Ssp.reset ∧ r.ext = Ext.idle ∧ r.marks = Marks.clear ∧ r.hz = Hazard.clear
        ∧ r.gpt = { Gpt.reset with t2in := r.gpt.t2in, t3in := r.gpt.t3in, t4in := r.gpt.t4in, t5in := r.gpt.t5in
                                   t6in := r.gpt.t6in, capin := r.gpt.capin, eud := r.gpt.eud }
        ∧ r.ssc = { Ssc.reset with sclk := r.ssc.sclk, dataPrev := r.ssc.dataPrev }
        ∧ r.ebc = { Ebc.reset with cs := if s.board.resetPins.ea then none else some 0 })

/-- ATOMIC and the EXT instructions: the sequence takes the given length, ESFR switch and page or segment, in place of a
running one (that they replace all of it is the spec's choice D20, log entry 22). Each other instruction counts it down, and
with the last one the switch and the override end. While it runs, data addresses go to its page or segment, whatever SGTDIS is
(the spec's choice D17, log entry 22), and without an override through the DPP, of which two bits count with SGTDIS = 1; short
register and bit addresses reach the ESFR space where it says so, the SFR space otherwise; a byte read through one takes the
register's low byte, and a bit instruction writes the word but for the phases of T3's and T6's prescalers (log entry 25). DPPs
and SGTDIS are those that the instruction works with (D31, log entry 10). -/
def Obligations.ExtensionSequences : Prop :=
  ∀ (k : Nat) (m : BitVec 4) (seg : Byte) (pag : BitVec 10) (s : State),
    StartsSequence (.atomicIrang2 k) 2 s ⟨k, false, .none⟩
    ∧ StartsSequence (.extrIrang2 k) 2 s ⟨k, true, .none⟩
    ∧ StartsSequence (.extsSegIrang2 seg k) 4 s ⟨k, false, .segment seg⟩
    ∧ StartsSequence (.extsrSegIrang2 seg k) 4 s ⟨k, true, .segment seg⟩
    ∧ StartsSequence (.extpPagIrang2 pag k) 4 s ⟨k, false, .page pag⟩
    ∧ StartsSequence (.extprPagIrang2 pag k) 4 s ⟨k, true, .page pag⟩
    ∧ (gprWordOk s m = true →
      StartsSequence (.extsRwmIrang2 m k) 2 s ⟨k, false, .segment ((s.gprWord m).extractLsb' 0 8)⟩
      ∧ StartsSequence (.extsrRwmIrang2 m k) 2 s ⟨k, true, .segment ((s.gprWord m).extractLsb' 0 8)⟩
      ∧ StartsSequence (.extpRwmIrang2 m k) 2 s ⟨k, false, .page ((s.gprWord m).extractLsb' 0 10)⟩
      ∧ StartsSequence (.extprRwmIrang2 m k) 2 s ⟨k, true, .page ((s.gprWord m).extractLsb' 0 10)⟩)
    ∧ s.ext.tick = (if 1 < s.ext.count then { s.ext with count := s.ext.count - 1 } else ⟨0, false, .none⟩)
    ∧ (∀ a : Word,
      (0 < s.ext.count → s.ext.override = .page pag → dataAddr s a = pag ++ a.extractLsb' 0 14)
      ∧ (0 < s.ext.count → s.ext.override = .segment seg → dataAddr s a = seg ++ a)
      ∧ (s.ext.count = 0 ∨ s.ext.override = .none →
        (bitOf s.prev.cpu.syscon 11 = false →
          dataAddr s a = (dppFor s.prev.cpu a).extractLsb' 0 10 ++ a.extractLsb' 0 14)
        ∧ (bitOf s.prev.cpu.syscon 11 = true →
          dataAddr s a = 0x00#8 ++ (dppFor s.prev.cpu a).extractLsb' 0 2 ++ a.extractLsb' 0 14)))
    ∧ ∀ r : BitVec 8, regIsGpr r = false →
      (0 < s.ext.count → s.ext.esfr = true → NamesSfr s r (0xF000 + 2 * r.toNat))
      ∧ (s.ext.count = 0 ∨ s.ext.esfr = false → NamesSfr s r (0xFE00 + 2 * r.toNat))

/-! ## Operands -/

/-- Operands in memory that trap, in every form that has one, as a source and as a destination: a word operand at an odd address
sets ILLOPA; an operand, word or byte, that needs the external bus sets ILLBUS where no window of it is enabled (that this is the
condition is the spec's choice D13, log entry 24). IP moves on, and the instruction has no other effect (the spec's choice D19,
log entry 15). -/
def Obligations.OperandTraps : Prop :=
  WordOperandTraps 0x0004 (fun _ a => isOdd a = true)
  ∧ WordOperandTraps 0x0001 (fun s a => isOdd a = false ∧ NeedsMissingBus s a)
  ∧ ByteOperandTraps 0x0001 NeedsMissingBus

/-- An operand in plain memory, where the external bus is free if it is needed and no other master comes between: a word is
read and written at an even address, a byte at any address; a word stored reads back, as a word and as two bytes, the low byte
at the even address. The cells of memory are those of the physical address (`cellOf`): the address itself inside the chip, on the
board the cell of the bank behind the window (the model's choice, log entry 52). Short addresses of memory: F0h to FFh are the
GPRs as `reg` and as `bitoff`, a `bitoff` below 80h the words of the IRAM from FD00h on. -/
def Obligations.MemoryOperands : Prop :=
  (∀ (a v : Word) (b : Byte) (s : State), dataRemapped s a = false → plainMemory s (dataAddr s a) → Undisturbed s →
    (areaOf s s.prev.cpu.syscon (dataAddr s a) = .external → externalStop s (dataAddr s a) = none) →
    (isOdd a = false → plainMemory s (dataAddr s a + 1) →
      (∃ u, readWordOperand a s = .ok (Memory.readWord s.mem (cellOf s (dataAddr s a)), u))
      ∧ ∃ w, writeWordOperand a v s = .ok ((), w)
        ∧ (∀ x, bytesOf w x = patchWord (bytesOf s) (cellOf s (dataAddr s a)) v x)
        ∧ (∃ u, readWordOperand a w = .ok (v, u)) ∧ (∃ u, readByteOperand a w = .ok (v.extractLsb' 0 8, u))
        ∧ ∃ u, readByteOperand (a + 1) w = .ok (v.extractLsb' 8 8, u))
    ∧ (∃ u, readByteOperand a s = .ok (bytesOf s (cellOf s (dataAddr s a)), u))
    ∧ ∃ w, writeByteOperand a b s = .ok ((), w)
      ∧ (∀ x, bytesOf w x = patchByte (bytesOf s) (cellOf s (dataAddr s a)) b x)
      ∧ ∃ u, readByteOperand a w = .ok (b, u))
  ∧ ∀ (r : BitVec 8) (s : State),
    (regIsGpr r = true → NamesGpr s r)
    ∧ (r.toNat < 0x80 → ∀ mask, NamesWord s (0xFD00 + 2 * r.toNat) (readBitWord r) (writeBitWord r mask))

/-- MOV reg,#data16 into every register of the SFR space, and in an ESFR mode of the ESFR space: which bits the register takes,
and nothing else; and what reading a register delivers. MDH and MDL set MDRIU; CSP, ZEROS, ONES, RP0H, WDT, S0RBUF, SSCRB and P5
take nothing; PSW keeps the flags as written; SYSCON takes all but its reserved bits 6..3 before EINIT, where the write is not
refused (`sfrWriteRefusal`: U10), and stays after it; ADDRSELx and BUSCONx where the instruction does not come from their window
(U35), PORT0 and PORT1 where the bus does not own them (U20). A timer control register forgets the phase of its prescaler (the
spec's choice D27, log entry 25), S0CON's change of mode ends a transfer, and S0TBUF takes nothing during a synchronous
reception (the model's choices, log entry 33). A write of SSCCON that sets SSCEN loads the SSC's baud rate timer from its reload
value and begins the division by 2 anew: this clause is the model's DESIGN CHOICE too (log entry 33), since R626 says only that
SSCEN starts and stops the timer. A register that the device lacks takes nothing and reads 0 (the spec's choice D4, log entry 16);
which nodes a C163 lacks is said in log entry 44; a read of a port goes by the direction that the instruction works with (D31,
log entry 10). -/
def Obligations.RegisterWrites : Prop :=
  ∀ (d : Word) (s : State),
    (esfrMode s.ext = false →
      CpuWrites d s ∧ BusWrites d s ∧ PortWrites d s ∧ TimerWrites d s ∧ SerialWrites d s ∧ RequestWrites false d s
      ∧ (∀ x : Fin 8, MovesOutside (BitVec.ofNat 8 (0x60 + x.val)) d s { s with pecc := s.pecc.set x (d &&& 0x07FF) })
      ∧ SfrReads s ∧ RequestReads false s)
    ∧ (esfrMode s.ext = true →
      EsfrWrites d s ∧ RequestWrites true d s ∧ EsfrReads s ∧ RequestReads true s)

/-- Operands at an address of the SFR and ESFR spaces: a word is read and written as the register there, a byte read takes its
half of it, the high one at an odd address, with the same effect of the read. A byte write to an SFR through `reg` writes the low
byte and clears the high byte. A byte write to any address of the two spaces writes its byte of the register there and clears the
other (R54); that it has no effect where no register is, is the spec's own choice D4 (R56, N12, log entry 16). MOVB MDH,#data8
shows it whole. -/
def Obligations.SfrOperands : Prop :=
  (∀ (a v : Word) (s : State) (n : Nat), dataRemapped s a = false → n = (dataAddr s a).toNat → inSfrSpaces n →
    (isOdd a = false → readWordOperand a s = readSfrWord n s ∧ writeWordOperand a v s = writeSfrWord n v s)
    ∧ ∀ w t, readSfrWord (n - n % 2) s = .ok (w, t) →
      readByteOperand a s = .ok (if isOdd a then w.extractLsb' 8 8 else w.extractLsb' 0 8, t))
  ∧ (∀ (reg : BitVec 8) (d : Byte) (s : State), regIsGpr reg = false → writeRegB reg d s = writeReg reg (0x00#8 ++ d) s)
  ∧ (∀ (a : Word) (d : Byte) (s : State) (n : Nat) (v : Word), dataRemapped s a = false → n = (dataAddr s a).toNat → inSfrSpaces n →
    v = (if isOdd a then d ++ 0x00#8 else 0x00#8 ++ d) →
    (∀ r, sfrAt s.board (n - n % 2) = some r → sfrWriteRefusal r v s = none →
      writeByteOperand a d s = .ok ((), writeSfr r v s))
    ∧ (sfrAt s.board (n - n % 2) = none → writeByteOperand a d s = .ok ((), s)))
  ∧ ∀ (d : Byte) (s : State), esfrMode s.ext = false →
    RunsTo (.movbRegData8 0x06 d) s
      { s.cpu with mdh := 0x00#8 ++ d, mdc := s.cpu.mdc ||| 0x0010, ip := ipAfter 4 s
                   psw := putCond s.cpu.psw (moveCond d (old s)) } s.ext.tick (bytesOf s) s

/-- ADD, ADDC, SUB and SUBC on SP as `reg`: SP takes the result's eleven bits; STKUF after an addition that leaves SP
above STKUN, STKOF after a subtraction that leaves it below STKOV; that trap waits for one more instruction
(D15, D23, log entry 19). -/
def Obligations.StackLimitsOnArithmetic : Prop :=
  ∀ (op : Alu) (d sp : Word) (s : State), esfrMode s.ext = false → op ∈ [Alu.add, .addc, .sub, .subc] →
    sp = 0xF000 ||| (aluValue op s.cpu.sp d (old s).c &&& 0x0FFE) →
    ∃ t, exec (aluRegData16 op 0x09 d) s = .next t
      ∧ t.cpu = { s.cpu with
          sp := sp, ip := ipAfter 4 s, psw := putCond s.cpu.psw (aluCond op s.cpu.sp d (old s))
          tfr := if op ∈ [Alu.add, .addc] then popTfr s.cpu sp else pushTfr s.cpu sp }
      ∧ (∀ x, bytesOf t x = bytesOf s x) ∧ SameOutside s t
      ∧ (t.cpu.tfr ≠ s.cpu.tfr → classATakeable t = false)

/-- The instruction after a write of CP or of a DPP still uses the old value (D31, log entry 10). -/
def Obligations.OldValuesForOneInstruction : Prop :=
  ∀ (reg : BitVec 8) (d : Word) (s : State), esfrMode s.ext = false → reg ∈ [(0x00 : BitVec 8), 0x01, 0x02, 0x03, 0x08] →
    ∃ t, exec (.movRegData16 reg d) s = .next t
      ∧ (∀ n, gprWordAddr t n = (s.cpu.cp + 2 * n.setWidth 16).toNat)
      ∧ (s.ext.count ≤ 1 → bitOf s.cpu.syscon 11 = false → ∀ a : Word,
          dataAddr t a = (dppFor s.cpu a).extractLsb' 0 10 ++ a.extractLsb' 0 14)

/-! ## Decoding -/

/-- Decoding an encoded well-formed instruction gives the instruction back, every operand at every value. -/
def Obligations.DecodeOfEncode : Prop := ∀ i : Instr, i.wellFormed = true → decode (encode i) = .instr i

/-- What decodes to an instruction is a well-formed one whose encoding has exactly the bytes read: all of them, but for
the fourth byte of a `reg,#data8` form, which is read as any value. That no other fixed bits than the encoding's decode is the
spec's choice D6 (R147, log entry 17). -/
def Obligations.EncodeOfDecode : Prop :=
  ∀ (b0 b1 b2 b3 : Byte) (i : Instr), decodeBytes b0 b1 b2 b3 = .instr i →
    i.wellFormed = true
    ∧ (i.length = 2 → encodeBytes i = [b0, b1])
    ∧ (i.length = 4 → (encodeBytes i).take 3 = [b0, b1, b2])
    ∧ (i.length = 4 → b0 ∉ regData8Bytes → encodeBytes i = [b0, b1, b2, b3])
    ∧ (i.length = 2 ∨ i.length = 4)

/-- The 20 unassigned opcode bytes, and no other, decode to an undefined opcode, whatever follows them (the spec's choice
D5, log entry 17). -/
def Obligations.UnassignedOpcodes : Prop :=
  unassigned.length = 20 ∧ unassigned.Nodup
    ∧ ∀ b0 b1 b2 b3 : Byte, decodeBytes b0 b1 b2 b3 = .undefinedOpcode ↔ b0 ∈ unassigned

/-- The six protected instructions decode only with byte 1 the complement of byte 0 and bytes 2 and 3 equal to byte 0;
otherwise, and for no other byte 0, the decoder reports a protection fault (D16, log entry 17). -/
def Obligations.ProtectedOpcodes : Prop :=
  ∀ b0 b1 b2 b3 : Byte,
    (decodeBytes b0 b1 b2 b3 = .protectionFault ↔ b0 ∈ protectedBytes ∧ ¬ (b1 = ~~~b0 ∧ b2 = b0 ∧ b3 = b0))
    ∧ (b1 = ~~~b0 → b2 = b0 → b3 = b0 →
      (b0 = 0xB7 → decodeBytes b0 b1 b2 b3 = .instr .srst) ∧ (b0 = 0x87 → decodeBytes b0 b1 b2 b3 = .instr .idle)
      ∧ (b0 = 0x97 → decodeBytes b0 b1 b2 b3 = .instr .pwrdn) ∧ (b0 = 0xA7 → decodeBytes b0 b1 b2 b3 = .instr .srvwdt)
      ∧ (b0 = 0xA5 → decodeBytes b0 b1 b2 b3 = .instr .diswdt) ∧ (b0 = 0xB5 → decodeBytes b0 b1 b2 b3 = .instr .einit))

/-- Words written out from the spec's encodings and examples decode to the instructions they stand for. -/
def Obligations.DecodedWords : Prop :=
  decode [0x1200] = .instr (.addRwnRwm 1 2)                          -- ADD R1,R2 = 00 12 (R181)
    ∧ decode [0xF0E6, 0x1234] = .instr (.movRegData16 0xF0 0x1234)   -- MOV R0,#1234h = E6 F0 34 12 (R323)
    ∧ decode [0x010B] = .instr (.mulRwnRwm 0 1)                      -- MUL R0,R1 = 0B 01 (R323)
    ∧ decode [0x105C] = .instr (.shlRwnData4 0 1)                    -- SHL R0,#1 = 5C 10 (R252)
    ∧ decode [0x88BF] = .instr (.bsetBitQ 0x88 0xB)                  -- BSET PSW.11 = BF 88 (R233)
    ∧ decode [0xF04A, 0xF0F1] ≠ decode [0xF14A, 0xF0F0]
    ∧ decode [0xF14A, 0xF0F0] = .instr (.bmovBitZBitQ 0xF0 0 0xF1 0xF)  -- BMOV R0.0,R1.15 = 4A F1 F0 F0 (R235)
    ∧ decode [0x9080] = .instr (.cmpi1RwnData4 0 9)                  -- CMPI1 R0,#9 = 80 90 (R223)
    ∧ decode [0x09EC] = .instr (.pushReg 0x09)                       -- PUSH SP = EC 09 (R271)
    ∧ decode [0xF08A, 0x3004] = .instr (.jbBitQRel 0xF0 3 4)         -- JB R0.3,+4 = 8A F0 04 30 (R285)
    ∧ decode [0x00CA, 0x2000] = .instr (.callaCcCaddr 0 0x2000)      -- CALLA cc_UC,2000h = CA 00 00 20 (R296)
    ∧ decode [0x88FB] = .instr .reti                                 -- RETI = FB 88 (R305)
    ∧ decode [0x20D1] = .instr (.atomicIrang2 3)                     -- ATOMIC #3 = D1 20 (R323)

/-! ## The step -/

/-- Where the words at IP decode to an instruction and the hardware does nothing of its own at this boundary, the step runs that
instruction, and then its clocks pass (`lapse`). Code inside the chip, with no external word behind it, runs in the very state
`s` but that nothing is left to be read ahead; otherwise the fetch and the prefetcher leave traces around it (R90), and nothing
else. -/
def Obligations.StepRunsDecoded : Prop :=
  ∀ (i : Instr) (s : State), AtBoundary s → NoTrap s → acceptedRequest s = none → Fetchable s → decodedAt s = .instr i →
    i.wellFormed = true ∧ (CodeInside s →
      (∀ k ∈ [i.length, i.length + 2], fetchArea s (codeAddr s (s.cpu.ip + BitVec.ofNat 16 k)) ≠ .external) →
      step s = lapse (exec i (s.mayReadAhead [])))
    ∧ ∃ t, OnlyTraces s t ∧ (∀ u, exec i t = .next u → ∃ w, OnlyTraces u w ∧ step s = lapse (.next w))
      ∧ ((∀ u, exec i t ≠ .next u) → step s = exec i t)

/-- An odd IP, an undefined opcode or a protection fault sets ILLINA, UNDOPC or PRTFLT and does nothing else, IP stays; a fetch
from the external bus has left its traces. An undefined opcode is found in its first word alone. In a class B routine the flag
is set just so, and the fetch comes again (DEDUCED, log entry 23); an odd IP is found by the fetch (log entry 47). -/
def Obligations.FetchTraps : Prop :=
  ∀ s : State, AtBoundary s → NoTrap s → acceptedRequest s = none → s.sys.inA = false →
    (isOdd s.cpu.ip = true → step s = lapse (.next { s with cpu := { s.cpu with tfr := s.cpu.tfr ||| 0x0002 } }))
    ∧ ∀ bit, Fetchable s → (decodedAt s = .undefinedOpcode ∧ bit = 0x0080) ∨ (decodedAt s = .protectionFault ∧ bit = 0x0008) →
        ∃ t, OnlyTraces s t ∧ (CodeInside s → t = s)
          ∧ step s = lapse (.next { t with cpu := { s.cpu with tfr := s.cpu.tfr ||| bit } })

/-- Taking a hardware trap: class A (NMI before STKOF before STKUF) unless a class A routine is in service, a sequence
runs or the stack trap is delayed; else class B unless a trap routine is in service; at level 15, with the class
recorded, and TFR as it is (latches and delay are the spec's D22, D23, log entries 19, 23). Class B ends an extension sequence
(D21, log entry 22). The entry works with the registers as they are now, pending updates done (`settled`: D31, log entry 10). -/
def Obligations.HardwareTraps : Prop :=
  ∀ s : State, AtBoundary s → step s = lapse (cpuStep s)
    ∧ (s.cpu.tfr &&& 0xE000 ≠ 0 → s.sys.inA = false → s.ext.count = 0 → s.marks.stackDelay = false →
      Enters (cpuStep s) s { s with sys := { s.sys with inA := true } } s.cpu.ip 15
        (if bitOf s.cpu.tfr 15 then 0x0008 else if bitOf s.cpu.tfr 14 then 0x0010 else 0x0018))
    ∧ (classATakeable s = false → s.cpu.tfr &&& 0x008F ≠ 0 → s.sys.inA = false → s.sys.inB = false →
      Enters (cpuStep s) s { s with sys := { s.sys with inB := true }, ext := Ext.idle } s.cpu.ip 15 0x0028)

/-- The entry of an interrupt that the PEC does not serve: the frame, the node's level in PSW, its vector, its request
flag cleared. It is taken at the first boundary at which nothing defers it (D24, log entry 9). The arbitration sees PSW as
`arbitrationPsw` says, and the entry works with the registers as they are now (D31, R710, R715, log entry 10). -/
def Obligations.InterruptEntries : Prop :=
  ∀ (s : State) (w : IrqNode), AtBoundary s → NoTrap s → Wins s w → Serviced s w → isPecRequest s w = false →
    step s = lapse (cpuStep s)
    ∧ Enters (cpuStep s) s (s.clearRequest w) s.cpu.ip (icLevel (s.icOf w)) (BitVec.ofNat 16 (4 * nodeTrap w))

/-- No request is accepted with IEN = 0, or with the CPU's level at or above that of every candidate, both as the arbitration
sees PSW, which is one instruction late after an explicit write of it (`arbitrationPsw`: R715, D31, log entry 10); nor during
an extension sequence, nor where requests are held off at this boundary: right after RETI on a board with `oneAfterReti` (R372,
log entry 65), or deferred (D24, log entry 9). The step is then the next instruction's. -/
def Obligations.RequestsHeldOff : Prop :=
  ∀ s : State, AtBoundary s → NoTrap s →
    (bitOf (arbitrationPsw s) 11 = false ∨ 0 < s.ext.count ∨ s.marks.irqHold = true
      ∨ ∀ n, isCandidate s n = true → icLevel (s.icOf n) ≤ fieldNat (arbitrationPsw s) 12 4) →
    step s = lapse (instructionStep s)

/-- A PEC transfer of a word between two even addresses of the IRAM, or of a byte: the datum moves, the selected pointer
goes up by the size, modulo 2^16 (the spec's choice D25, log entry 28), COUNT goes down unless it is FFh, the request flag is
cleared unless COUNT was 1; the CPU's registers stay, and one step does no more. It is made at the first boundary at which
nothing defers it (D24, log entry 9), and the arbitration sees PSW as `arbitrationPsw` says (R715, D31, log entry 10). -/
def Obligations.PecTransfers : Prop :=
  ∀ (s : State) (w : IrqNode) (x : Fin 8) (c src dst : Word), AtBoundary s → NoTrap s → Wins s w → Serviced s w →
    14 ≤ icLevel (s.icOf w) → x.val = (s.icOf w).toNat % 8 → c = s.pecc[x] → c &&& 0x00FF ≠ 0 →
    src = Memory.readWord s.mem (0xFCE0 + 4 * x.val) → dst = Memory.readWord s.mem (0xFCE2 + 4 * x.val) →
    inIram s.board.device src.toNat 1 = true → inIram s.board.device dst.toNat 1 = true →
    (bitOf c 8 = false → isOdd src = false ∧ isOdd dst = false) →
    ∃ t, step s = lapse (.next t) ∧ t.cpu = s.cpu ∧ t.ext = s.ext ∧ (∀ y, bytesOf t y = pecBytes s x c src dst y)
      ∧ SameOutside (pecCounted s x c w) t

/-! ## Peripherals -/

/-- A count of T3 that wraps sets T3IR and toggles T3OTL; any other count changes only T3. A write of T2 to T6 or CAPREL, by MOV
with the register as `reg`, has priority over timer events (R522): through every clock of its step the timer units leave the
register as it was written, and with the last clock this ends. The model's choices (log entry 66): the events of these clocks act
on the register as it would be without the write, and a "step" of R522 is the instruction with all its clocks. -/
def Obligations.TimerThreeCounts : Prop :=
  (∀ (s : State) (down : Bool), down = (bitOf s.gpt.t3con 7 != (bitOf s.gpt.t3con 8 && pinT3eud s)) →
    ∀ new : Word, new = (if down then s.gpt.t3 - 1 else s.gpt.t3 + 1) →
      (new = (if down then 0xFFFF else 0) →
        (countT3 s).1 =
          ({ s with gpt := { s.gpt with t3 := new, t3con := s.gpt.t3con ^^^ 0x0400 } }).request .t3)
      ∧ (new ≠ (if down then 0xFFFF else 0) → (countT3 s).1 = { s with gpt := { s.gpt with t3 := new } }))
  ∧ (∀ (n : BitVec 8) (r : TimerReg) (d : Word) (s : State), esfrMode s.ext = false →
      (n, r) ∈ [(0x20, TimerReg.t2), (0x21, .t3), (0x22, .t4), (0x23, .t5), (0x24, .t6), (0x25, .caprel)] →
      ∃ t, exec (.movRegData16 n d) s = .next t ∧ r.get t.gpt = d ∧ t.marks.timerWrite = some ⟨r, r.get s.gpt⟩)
  ∧ ∀ (s : State) (w : TimerWrite), s.marks.timerWrite = some w →
      w.reg.get (clockTimers s).gpt = w.reg.get s.gpt
      ∧ (s.clocks = 0 → (clockTimers s).marks.timerWrite = none)
      ∧ (s.clocks ≠ 0 → ∃ b, (clockTimers s).marks.timerWrite = some ⟨w.reg, b⟩)

/-- A clock in which the watchdog, enabled and due, wraps from FFFFh starts a reset: every register at its reset value, with
WDTR set; memory and the outside keep their state. The passage through a state of reset is the model's choice (log entry 36),
and so are the values that the spec does not give at reset (`ResetUnderWay`: S0RBUF, SSCRB, SSPRTB, SSPTBH, log entry 3; edge
samples, log entry 6; hidden registers of the serial units, log entry 7). -/
def Obligations.WatchdogResets : Prop :=
  ∀ (s : State) (n : Nat) (rest : List Event), s.agenda = .pass :: rest ∨ (s.agenda = [] ∧ rest = []) → s.clocks = n + 1 →
    s.sys.power = .running ∨ s.sys.power = .idle →
    s.wdt.disabled = false → s.wdt.psc = some 1 → s.wdt.wdt = 0xFFFF → clockRefusal s = none →
    ∃ t, step s = .next t ∧ t.agenda = rest ∧ ResetUnderWay .watchdog s t

/-! ## Reset and the invariant -/

/-- The machine right after reset: every register of R57's table at the value printed there, but for those printed XXXXh (S0RBUF,
SSCRB, SSPRTB, SSPTBH, whose values are the model's, log entry 3, and P5, which reads its pins), and the hidden state that R60
lists. SYSCON, BUSCON0 and RP0H are what the reset pins say, for every setting of the pins (R475, R683); which setting the state
of reset has is the model's choice (log entry 2). -/
def Obligations.ResetValues : Prop :=
  (∀ s : State, s = State.reset →
    s.cpu = { ip := 0, csp := 0, psw := 0, syscon := (Cpu.resetWith s.board.resetPins).syscon, dpp0 := 0, dpp1 := 1, dpp2 := 2
              dpp3 := 3, cp := 0xFC00, sp := 0xFC00, stkov := 0xFA00, stkun := 0xFC00, mdh := 0, mdl := 0, mdc := 0, tfr := 0 }
    ∧ s.bus = { buscon0 := (Bus.resetWith s.board.resetPins).buscon0, buscon1 := 0, buscon2 := 0, buscon3 := 0, buscon4 := 0
                addrsel1 := 0, addrsel2 := 0, addrsel3 := 0, addrsel4 := 0, rp0h := (Bus.resetWith s.board.resetPins).rp0h }
    ∧ s.ports = { p0l := 0, p0h := 0, p1l := 0, p1h := 0, p2 := 0, p3 := 0, p4 := 0, p6 := 0, dp0l := 0, dp0h := 0, dp1l := 0
                  dp1h := 0, dp2 := 0, dp3 := 0, dp4 := 0, dp6 := 0, odp2 := 0, odp3 := 0, odp6 := 0, exicon := 0 }
    ∧ readSfr .zeros s = 0 ∧ readSfr .ones s = 0xFFFF
    ∧ (∀ n : IrqNode, s.icOf n = 0) ∧ (∀ x : Fin 8, s.pecc[x] = 0)
    ∧ s.gpt.t2 = 0 ∧ s.gpt.t3 = 0 ∧ s.gpt.t4 = 0 ∧ s.gpt.t5 = 0 ∧ s.gpt.t6 = 0 ∧ s.gpt.caprel = 0
    ∧ s.gpt.t2con = 0 ∧ s.gpt.t3con = 0 ∧ s.gpt.t4con = 0 ∧ s.gpt.t5con = 0 ∧ s.gpt.t6con = 0
    ∧ s.wdt.wdt = 0 ∧ s.wdt.wdtcon = 0 ∧ s.wdt.disabled = false ∧ s.wdt.disLocked = false
    ∧ s.asc.s0con = 0 ∧ s.asc.tbuf = 0 ∧ readSfr .s0bg s = 0 ∧ s.asc.bgReload = 0
    ∧ readSfr .ssccon s = 0 ∧ s.ssc.tb = 0 ∧ readSfr .sscbr s = 0 ∧ s.ssp.con0 = 0 ∧ s.ssp.con1 = 0
    ∧ s.sys.einitDone = false ∧ s.sys.inA = false ∧ s.sys.inB = false ∧ s.sys.power = .running
    ∧ s.ext = ⟨0, false, .none⟩ ∧ s.ebc.held = false ∧ s.ebc.hldenOnce = false
    ∧ s.prev.cpu = s.cpu ∧ s.prev.bus = s.bus ∧ s.prev.ports = s.ports
    ∧ s.marks.pswWritten = false ∧ s.marks.spWritten = false ∧ s.marks.stackDelay = false)
  ∧ ∀ p : ResetPins, (Bus.resetWith p).rp0h = 0x00#8 ++ p.port0.extractLsb' 8 8
    ∧ (p.ea = false → (Bus.resetWith p).buscon0 = 0x0600 ||| (p.port0 &&& 0x00C0)
      ∧ (Cpu.resetWith p).syscon = (if bitOf p.port0 7 then 0 else 0x0200) ||| (if bitOf p.port0 8 then 0 else 0x0080))
    ∧ (p.ea = true → (Bus.resetWith p).buscon0 = 0
      ∧ (Cpu.resetWith p).syscon = 0x0400 ||| (if bitOf p.port0 8 then 0 else 0x0080))

/-- The invariant holds right after reset. -/
def Obligations.InvAtReset : Prop := Inv State.reset

/-- Every step keeps the invariant: canonical memory inside the RAM areas, the tied register bits, the range of the
extension counter, the loader's range. -/
def Obligations.InvKeptByStep : Prop := ∀ s t : State, Inv s → step s = .next t → Inv t
end

