-- ==== Sys2Proof/Laws/Memory.lean ====
section
/-! SUPPORT. Reads after writes, and the canonical form of memory. -/

namespace Sys2Proof.Machine

theorem Memory.read_erase_self (m : List Host.Cell) (k : Nat) : Memory.read (Memory.erase m k) k = Memory.unlisted := by
  induction m with
  | nil => rfl
  | cons c m ih =>
    obtain ⟨a, b⟩ := c
    by_cases h : a = k
    · simpa [Memory.erase, h] using ih
    · simpa [Memory.erase, Memory.read, h] using ih

theorem Memory.read_erase_of_ne (m : List Host.Cell) {k j : Nat} (h : j ≠ k) :
    Memory.read (Memory.erase m k) j = Memory.read m j := by
  induction m with
  | nil => rfl
  | cons c m ih =>
    obtain ⟨a, b⟩ := c
    by_cases hk : a = k
    · subst hk; simpa [Memory.erase, Memory.read, Ne.symm h] using ih
    · rw [show Memory.erase ((a, b) :: m) k = (a, b) :: Memory.erase m k by simp [Memory.erase, hk]]
      simp only [Memory.read, ih]

theorem Memory.read_insert_of_ne (m : List Host.Cell) {k j : Nat} (v : Byte) (h : j ≠ k) :
    Memory.read (Memory.insert m k v) j = Memory.read m j := by
  induction m with
  | nil => simp [Memory.insert, Memory.read, Ne.symm h]
  | cons c m ih =>
    obtain ⟨a, b⟩ := c
    by_cases hk : k < a
    · simp [Memory.insert, hk, Memory.read, Ne.symm h]
    · rw [show Memory.insert ((a, b) :: m) k v = (a, b) :: Memory.insert m k v by simp [Memory.insert, hk]]
      simp only [Memory.read, ih]

theorem Memory.read_insert_self (m : List Host.Cell) (k : Nat) (v : Byte) (h : ∀ c ∈ m, c.1 ≠ k) :
    Memory.read (Memory.insert m k v) k = v := by
  induction m with
  | nil => simp [Memory.insert, Memory.read]
  | cons c m ih =>
    obtain ⟨a, b⟩ := c
    have ha : a ≠ k := h (a, b) (by simp)
    by_cases hk : k < a
    · simp [Memory.insert, hk, Memory.read]
    · simpa [Memory.insert, hk, Memory.read, ha] using ih (fun c hc => h c (by simp [hc]))

theorem Memory.mem_erase {m : List Host.Cell} {k : Nat} {c : Host.Cell} :
    c ∈ Memory.erase m k ↔ c ∈ m ∧ c.1 ≠ k := by
  induction m with
  | nil => simp [Memory.erase]
  | cons d m ih =>
    obtain ⟨a, b⟩ := d
    by_cases h : a = k
    · subst h
      simp only [Memory.erase, if_true, ih, List.mem_cons]
      constructor
      · rintro ⟨h1, h2⟩; exact ⟨.inr h1, h2⟩
      · rintro ⟨h1 | h1, h2⟩
        · subst h1; exact absurd rfl h2
        · exact ⟨h1, h2⟩
    · simp only [Memory.erase, h, if_false, List.mem_cons, ih]
      constructor
      · rintro (h1 | ⟨h1, h2⟩)
        · subst h1; exact ⟨.inl rfl, h⟩
        · exact ⟨.inr h1, h2⟩
      · rintro ⟨h1 | h1, h2⟩
        · exact .inl h1
        · exact .inr ⟨h1, h2⟩

theorem Memory.mem_insert {m : List Host.Cell} {k : Nat} {v : Byte} {c : Host.Cell} :
    c ∈ Memory.insert m k v ↔ c = (k, v) ∨ c ∈ m := by
  induction m with
  | nil => simp [Memory.insert]
  | cons d m ih =>
    obtain ⟨a, b⟩ := d
    by_cases h : k < a
    · simp [Memory.insert, h]
    · simp only [Memory.insert, h, if_false, List.mem_cons, ih]
      tauto

/-- A byte that has just been written reads as written. -/
@[simp] theorem Memory.read_write_self (m : List Host.Cell) (k : Nat) (v : Byte) :
    Memory.read (Memory.write m k v) k = v := by
  unfold Memory.write
  split
  · next h => rw [Memory.read_erase_self, h]
  · exact Memory.read_insert_self _ _ _ (fun c hc => (Memory.mem_erase.1 hc).2)

/-- A write leaves every other byte alone. -/
theorem Memory.read_write_of_ne (m : List Host.Cell) {k j : Nat} (v : Byte) (h : j ≠ k) :
    Memory.read (Memory.write m k v) j = Memory.read m j := by
  unfold Memory.write
  split
  · exact Memory.read_erase_of_ne _ h
  · rw [Memory.read_insert_of_ne _ _ h, Memory.read_erase_of_ne _ h]

/-- A byte read after a byte write. -/
theorem Memory.read_write (m : List Host.Cell) (k j : Nat) (v : Byte) :
    Memory.read (Memory.write m k v) j = if j = k then v else Memory.read m j := by
  split
  · next h => subst h; exact Memory.read_write_self m j v
  · next h => exact Memory.read_write_of_ne m v h

/-- A byte read after a word write. -/
theorem Memory.read_writeWord (m : List Host.Cell) (k j : Nat) (v : Word) :
    Memory.read (Memory.writeWord m k v) j
      = if j = k + 1 then highByte v else if j = k then lowByte v else Memory.read m j := by
  simp only [Memory.writeWord, Memory.read_write]

/-- A word write leaves every other byte alone. -/
theorem Memory.read_writeWord_of_ne (m : List Host.Cell) {k j : Nat} (v : Word) (h : j ≠ k) (h1 : j ≠ k + 1) :
    Memory.read (Memory.writeWord m k v) j = Memory.read m j := by
  rw [Memory.read_writeWord, if_neg h1, if_neg h]

/-- The bytes of a word, joined again. -/
theorem wordOfBytes_split (v : Word) : wordOfBytes (lowByte v) (highByte v) = v := by
  apply BitVec.eq_of_getLsbD_eq
  intro i hi
  simp only [wordOfBytes, lowByte, highByte, BitVec.getLsbD_append, BitVec.getLsbD_setWidth, BitVec.getLsbD_ushiftRight]
  by_cases h : i < 8
  · simp [h]
  · have h2 : i - 8 < 8 := by omega
    have h3 : 8 + (i - 8) = i := by omega
    simp [h, h2, h3]

/-- A word that has just been written reads as written. -/
@[simp] theorem Memory.readWord_writeWord_self (m : List Host.Cell) (k : Nat) (v : Word) :
    Memory.readWord (Memory.writeWord m k v) k = v := by
  simp [Memory.readWord, Memory.read_writeWord, wordOfBytes_split]

/-! ## The canonical form -/

theorem Memory.erase_wf {m : List Host.Cell} (k : Nat) (h : Memory.wf m) : Memory.wf (Memory.erase m k) := by
  obtain ⟨h1, h2⟩ := h
  refine ⟨?_, fun c hc => h2 c (Memory.mem_erase.1 hc).1⟩
  induction m with
  | nil => exact List.Pairwise.nil
  | cons d m ih =>
    obtain ⟨a, b⟩ := d
    obtain ⟨h3, h4⟩ := List.pairwise_cons.1 h1
    have hm : ∀ c ∈ m, c.1 < Memory.size ∧ c.2 ≠ Memory.unlisted := fun c hc => h2 c (by simp [hc])
    by_cases hk : a = k
    · simpa [Memory.erase, hk] using ih h4 hm
    · simp only [Memory.erase, hk, if_false]
      exact List.pairwise_cons.2 ⟨fun c hc => h3 c (Memory.mem_erase.1 hc).1, ih h4 hm⟩

theorem Memory.insert_pairwise {m : List Host.Cell} (k : Nat) (v : Byte)
    (h : m.Pairwise (fun c d => c.1 < d.1)) (hk : ∀ c ∈ m, c.1 ≠ k) :
    (Memory.insert m k v).Pairwise (fun c d => c.1 < d.1) := by
  induction m with
  | nil => simp [Memory.insert]
  | cons d m ih =>
    obtain ⟨a, b⟩ := d
    obtain ⟨h3, h4⟩ := List.pairwise_cons.1 h
    have ha : a ≠ k := hk (a, b) (by simp)
    by_cases hlt : k < a
    · simp only [Memory.insert, hlt, if_true]
      refine List.pairwise_cons.2 ⟨?_, h⟩
      intro c hc
      rcases List.mem_cons.1 hc with rfl | hc
      · exact hlt
      · exact Nat.lt_trans hlt (h3 c hc)
    · simp only [Memory.insert, hlt, if_false]
      refine List.pairwise_cons.2 ⟨?_, ih h4 (fun c hc => hk c (by simp [hc]))⟩
      intro c hc
      rcases Memory.mem_insert.1 hc with rfl | hc
      · simp only; omega
      · exact h3 c hc

/-- Every byte write keeps the canonical form. -/
theorem Memory.write_wf {m : List Host.Cell} {k : Nat} (v : Byte) (h : Memory.wf m) (hk : k < Memory.size) :
    Memory.wf (Memory.write m k v) := by
  have he := Memory.erase_wf k h
  unfold Memory.write
  split
  · exact he
  · next hv =>
    refine ⟨Memory.insert_pairwise k v he.1 (fun c hc => (Memory.mem_erase.1 hc).2), fun c hc => ?_⟩
    rcases Memory.mem_insert.1 hc with rfl | hc
    · exact ⟨hk, hv⟩
    · exact he.2 c hc

/-- Every word write keeps the canonical form. -/
theorem Memory.writeWord_wf {m : List Host.Cell} {k : Nat} (v : Word) (h : Memory.wf m) (hk : k + 1 < Memory.size) :
    Memory.wf (Memory.writeWord m k v) :=
  Memory.write_wf _ (Memory.write_wf _ h (by omega)) hk

end Sys2Proof.Machine
end

