-- ==== Sys2Proof/Laws/State.lean ====
section
/-! SUPPORT. What each update of the state leaves as it was, field by field. -/

namespace Sys2Proof.Machine

@[simp] theorem State.begin_cpu (s : State) : (s.begin).cpu = s.cpu := rfl
@[simp] theorem State.begin_bus (s : State) : (s.begin).bus = s.bus := rfl
@[simp] theorem State.begin_ebc (s : State) : (s.begin).ebc = s.ebc := rfl
@[simp] theorem State.begin_ports (s : State) : (s.begin).ports = s.ports := rfl
@[simp] theorem State.begin_pins (s : State) : (s.begin).pins = s.pins := rfl
@[simp] theorem State.begin_gpt (s : State) : (s.begin).gpt = s.gpt := rfl
@[simp] theorem State.begin_wdt (s : State) : (s.begin).wdt = s.wdt := rfl
@[simp] theorem State.begin_asc (s : State) : (s.begin).asc = s.asc := rfl
@[simp] theorem State.begin_ssc (s : State) : (s.begin).ssc = s.ssc := rfl
@[simp] theorem State.begin_ssp (s : State) : (s.begin).ssp = s.ssp := rfl
@[simp] theorem State.begin_ic (s : State) : (s.begin).ic = s.ic := rfl
@[simp] theorem State.begin_pecc (s : State) : (s.begin).pecc = s.pecc := rfl
@[simp] theorem State.begin_ext (s : State) : (s.begin).ext = s.ext := rfl
@[simp] theorem State.begin_sys (s : State) : (s.begin).sys = s.sys := rfl
@[simp] theorem State.begin_prev (s : State) : (s.begin).prev = s.prev := rfl
@[simp] theorem State.begin_hz (s : State) : (s.begin).hz = s.hz := rfl
@[simp] theorem State.begin_board (s : State) : (s.begin).board = s.board := rfl
@[simp] theorem State.begin_mem (s : State) : (s.begin).mem = s.mem := rfl
@[simp] theorem State.begin_clocks (s : State) : (s.begin).clocks = s.clocks := rfl
@[simp] theorem State.begin_agenda (s : State) : (s.begin).agenda = s.agenda := rfl
@[simp] theorem State.begin_answers (s : State) : (s.begin).answers = s.answers := rfl
@[simp] theorem State.begin_gaps (s : State) : (s.begin).gaps = s.gaps := rfl
@[simp] theorem State.begin_free (s : State) : (s.begin).free = s.free := rfl

@[simp] theorem State.storeWord_cpu (s : State) (a : Nat) (v : Word) : (s.storeWord a v).cpu = s.cpu := rfl
@[simp] theorem State.storeWord_bus (s : State) (a : Nat) (v : Word) : (s.storeWord a v).bus = s.bus := rfl
@[simp] theorem State.storeWord_ebc (s : State) (a : Nat) (v : Word) : (s.storeWord a v).ebc = s.ebc := rfl
@[simp] theorem State.storeWord_ports (s : State) (a : Nat) (v : Word) : (s.storeWord a v).ports = s.ports := rfl
@[simp] theorem State.storeWord_pins (s : State) (a : Nat) (v : Word) : (s.storeWord a v).pins = s.pins := rfl
@[simp] theorem State.storeWord_gpt (s : State) (a : Nat) (v : Word) : (s.storeWord a v).gpt = s.gpt := rfl
@[simp] theorem State.storeWord_wdt (s : State) (a : Nat) (v : Word) : (s.storeWord a v).wdt = s.wdt := rfl
@[simp] theorem State.storeWord_asc (s : State) (a : Nat) (v : Word) : (s.storeWord a v).asc = s.asc := rfl
@[simp] theorem State.storeWord_ssc (s : State) (a : Nat) (v : Word) : (s.storeWord a v).ssc = s.ssc := rfl
@[simp] theorem State.storeWord_ssp (s : State) (a : Nat) (v : Word) : (s.storeWord a v).ssp = s.ssp := rfl
@[simp] theorem State.storeWord_ic (s : State) (a : Nat) (v : Word) : (s.storeWord a v).ic = s.ic := rfl
@[simp] theorem State.storeWord_pecc (s : State) (a : Nat) (v : Word) : (s.storeWord a v).pecc = s.pecc := rfl
@[simp] theorem State.storeWord_ext (s : State) (a : Nat) (v : Word) : (s.storeWord a v).ext = s.ext := rfl
@[simp] theorem State.storeWord_sys (s : State) (a : Nat) (v : Word) : (s.storeWord a v).sys = s.sys := rfl
@[simp] theorem State.storeWord_prev (s : State) (a : Nat) (v : Word) : (s.storeWord a v).prev = s.prev := rfl
@[simp] theorem State.storeWord_hz (s : State) (a : Nat) (v : Word) : (s.storeWord a v).hz = s.hz := rfl
@[simp] theorem State.storeWord_board (s : State) (a : Nat) (v : Word) : (s.storeWord a v).board = s.board := rfl
@[simp] theorem State.storeWord_clocks (s : State) (a : Nat) (v : Word) : (s.storeWord a v).clocks = s.clocks := rfl
@[simp] theorem State.storeWord_agenda (s : State) (a : Nat) (v : Word) : (s.storeWord a v).agenda = s.agenda := rfl
@[simp] theorem State.storeWord_answers (s : State) (a : Nat) (v : Word) : (s.storeWord a v).answers = s.answers := rfl
@[simp] theorem State.storeWord_gaps (s : State) (a : Nat) (v : Word) : (s.storeWord a v).gaps = s.gaps := rfl
@[simp] theorem State.storeWord_free (s : State) (a : Nat) (v : Word) : (s.storeWord a v).free = s.free := rfl

@[simp] theorem State.storeByte_cpu (s : State) (a : Nat) (v : Byte) : (s.storeByte a v).cpu = s.cpu := rfl
@[simp] theorem State.storeByte_bus (s : State) (a : Nat) (v : Byte) : (s.storeByte a v).bus = s.bus := rfl
@[simp] theorem State.storeByte_ebc (s : State) (a : Nat) (v : Byte) : (s.storeByte a v).ebc = s.ebc := rfl
@[simp] theorem State.storeByte_ports (s : State) (a : Nat) (v : Byte) : (s.storeByte a v).ports = s.ports := rfl
@[simp] theorem State.storeByte_pins (s : State) (a : Nat) (v : Byte) : (s.storeByte a v).pins = s.pins := rfl
@[simp] theorem State.storeByte_gpt (s : State) (a : Nat) (v : Byte) : (s.storeByte a v).gpt = s.gpt := rfl
@[simp] theorem State.storeByte_wdt (s : State) (a : Nat) (v : Byte) : (s.storeByte a v).wdt = s.wdt := rfl
@[simp] theorem State.storeByte_asc (s : State) (a : Nat) (v : Byte) : (s.storeByte a v).asc = s.asc := rfl
@[simp] theorem State.storeByte_ssc (s : State) (a : Nat) (v : Byte) : (s.storeByte a v).ssc = s.ssc := rfl
@[simp] theorem State.storeByte_ssp (s : State) (a : Nat) (v : Byte) : (s.storeByte a v).ssp = s.ssp := rfl
@[simp] theorem State.storeByte_ic (s : State) (a : Nat) (v : Byte) : (s.storeByte a v).ic = s.ic := rfl
@[simp] theorem State.storeByte_pecc (s : State) (a : Nat) (v : Byte) : (s.storeByte a v).pecc = s.pecc := rfl
@[simp] theorem State.storeByte_ext (s : State) (a : Nat) (v : Byte) : (s.storeByte a v).ext = s.ext := rfl
@[simp] theorem State.storeByte_sys (s : State) (a : Nat) (v : Byte) : (s.storeByte a v).sys = s.sys := rfl
@[simp] theorem State.storeByte_prev (s : State) (a : Nat) (v : Byte) : (s.storeByte a v).prev = s.prev := rfl
@[simp] theorem State.storeByte_hz (s : State) (a : Nat) (v : Byte) : (s.storeByte a v).hz = s.hz := rfl
@[simp] theorem State.storeByte_board (s : State) (a : Nat) (v : Byte) : (s.storeByte a v).board = s.board := rfl
@[simp] theorem State.storeByte_clocks (s : State) (a : Nat) (v : Byte) : (s.storeByte a v).clocks = s.clocks := rfl
@[simp] theorem State.storeByte_agenda (s : State) (a : Nat) (v : Byte) : (s.storeByte a v).agenda = s.agenda := rfl
@[simp] theorem State.storeByte_answers (s : State) (a : Nat) (v : Byte) : (s.storeByte a v).answers = s.answers := rfl
@[simp] theorem State.storeByte_gaps (s : State) (a : Nat) (v : Byte) : (s.storeByte a v).gaps = s.gaps := rfl
@[simp] theorem State.storeByte_free (s : State) (a : Nat) (v : Byte) : (s.storeByte a v).free = s.free := rfl

@[simp] theorem State.setGprWord_cpu (s : State) (n : BitVec 4) (v : Word) : (s.setGprWord n v).cpu = s.cpu := rfl
@[simp] theorem State.setGprWord_bus (s : State) (n : BitVec 4) (v : Word) : (s.setGprWord n v).bus = s.bus := rfl
@[simp] theorem State.setGprWord_ebc (s : State) (n : BitVec 4) (v : Word) : (s.setGprWord n v).ebc = s.ebc := rfl
@[simp] theorem State.setGprWord_ports (s : State) (n : BitVec 4) (v : Word) : (s.setGprWord n v).ports = s.ports := rfl
@[simp] theorem State.setGprWord_pins (s : State) (n : BitVec 4) (v : Word) : (s.setGprWord n v).pins = s.pins := rfl
@[simp] theorem State.setGprWord_gpt (s : State) (n : BitVec 4) (v : Word) : (s.setGprWord n v).gpt = s.gpt := rfl
@[simp] theorem State.setGprWord_wdt (s : State) (n : BitVec 4) (v : Word) : (s.setGprWord n v).wdt = s.wdt := rfl
@[simp] theorem State.setGprWord_asc (s : State) (n : BitVec 4) (v : Word) : (s.setGprWord n v).asc = s.asc := rfl
@[simp] theorem State.setGprWord_ssc (s : State) (n : BitVec 4) (v : Word) : (s.setGprWord n v).ssc = s.ssc := rfl
@[simp] theorem State.setGprWord_ssp (s : State) (n : BitVec 4) (v : Word) : (s.setGprWord n v).ssp = s.ssp := rfl
@[simp] theorem State.setGprWord_ic (s : State) (n : BitVec 4) (v : Word) : (s.setGprWord n v).ic = s.ic := rfl
@[simp] theorem State.setGprWord_pecc (s : State) (n : BitVec 4) (v : Word) : (s.setGprWord n v).pecc = s.pecc := rfl
@[simp] theorem State.setGprWord_ext (s : State) (n : BitVec 4) (v : Word) : (s.setGprWord n v).ext = s.ext := rfl
@[simp] theorem State.setGprWord_sys (s : State) (n : BitVec 4) (v : Word) : (s.setGprWord n v).sys = s.sys := rfl
@[simp] theorem State.setGprWord_prev (s : State) (n : BitVec 4) (v : Word) : (s.setGprWord n v).prev = s.prev := rfl
@[simp] theorem State.setGprWord_hz (s : State) (n : BitVec 4) (v : Word) : (s.setGprWord n v).hz = s.hz := rfl
@[simp] theorem State.setGprWord_board (s : State) (n : BitVec 4) (v : Word) : (s.setGprWord n v).board = s.board := rfl
@[simp] theorem State.setGprWord_clocks (s : State) (n : BitVec 4) (v : Word) : (s.setGprWord n v).clocks = s.clocks := rfl
@[simp] theorem State.setGprWord_agenda (s : State) (n : BitVec 4) (v : Word) : (s.setGprWord n v).agenda = s.agenda := rfl
@[simp] theorem State.setGprWord_answers (s : State) (n : BitVec 4) (v : Word) : (s.setGprWord n v).answers = s.answers := rfl
@[simp] theorem State.setGprWord_gaps (s : State) (n : BitVec 4) (v : Word) : (s.setGprWord n v).gaps = s.gaps := rfl
@[simp] theorem State.setGprWord_free (s : State) (n : BitVec 4) (v : Word) : (s.setGprWord n v).free = s.free := rfl

@[simp] theorem State.setGprByte_cpu (s : State) (n : BitVec 4) (v : Byte) : (s.setGprByte n v).cpu = s.cpu := rfl
@[simp] theorem State.setGprByte_bus (s : State) (n : BitVec 4) (v : Byte) : (s.setGprByte n v).bus = s.bus := rfl
@[simp] theorem State.setGprByte_ebc (s : State) (n : BitVec 4) (v : Byte) : (s.setGprByte n v).ebc = s.ebc := rfl
@[simp] theorem State.setGprByte_ports (s : State) (n : BitVec 4) (v : Byte) : (s.setGprByte n v).ports = s.ports := rfl
@[simp] theorem State.setGprByte_pins (s : State) (n : BitVec 4) (v : Byte) : (s.setGprByte n v).pins = s.pins := rfl
@[simp] theorem State.setGprByte_gpt (s : State) (n : BitVec 4) (v : Byte) : (s.setGprByte n v).gpt = s.gpt := rfl
@[simp] theorem State.setGprByte_wdt (s : State) (n : BitVec 4) (v : Byte) : (s.setGprByte n v).wdt = s.wdt := rfl
@[simp] theorem State.setGprByte_asc (s : State) (n : BitVec 4) (v : Byte) : (s.setGprByte n v).asc = s.asc := rfl
@[simp] theorem State.setGprByte_ssc (s : State) (n : BitVec 4) (v : Byte) : (s.setGprByte n v).ssc = s.ssc := rfl
@[simp] theorem State.setGprByte_ssp (s : State) (n : BitVec 4) (v : Byte) : (s.setGprByte n v).ssp = s.ssp := rfl
@[simp] theorem State.setGprByte_ic (s : State) (n : BitVec 4) (v : Byte) : (s.setGprByte n v).ic = s.ic := rfl
@[simp] theorem State.setGprByte_pecc (s : State) (n : BitVec 4) (v : Byte) : (s.setGprByte n v).pecc = s.pecc := rfl
@[simp] theorem State.setGprByte_ext (s : State) (n : BitVec 4) (v : Byte) : (s.setGprByte n v).ext = s.ext := rfl
@[simp] theorem State.setGprByte_sys (s : State) (n : BitVec 4) (v : Byte) : (s.setGprByte n v).sys = s.sys := rfl
@[simp] theorem State.setGprByte_prev (s : State) (n : BitVec 4) (v : Byte) : (s.setGprByte n v).prev = s.prev := rfl
@[simp] theorem State.setGprByte_hz (s : State) (n : BitVec 4) (v : Byte) : (s.setGprByte n v).hz = s.hz := rfl
@[simp] theorem State.setGprByte_board (s : State) (n : BitVec 4) (v : Byte) : (s.setGprByte n v).board = s.board := rfl
@[simp] theorem State.setGprByte_clocks (s : State) (n : BitVec 4) (v : Byte) : (s.setGprByte n v).clocks = s.clocks := rfl
@[simp] theorem State.setGprByte_agenda (s : State) (n : BitVec 4) (v : Byte) : (s.setGprByte n v).agenda = s.agenda := rfl
@[simp] theorem State.setGprByte_answers (s : State) (n : BitVec 4) (v : Byte) : (s.setGprByte n v).answers = s.answers := rfl
@[simp] theorem State.setGprByte_gaps (s : State) (n : BitVec 4) (v : Byte) : (s.setGprByte n v).gaps = s.gaps := rfl
@[simp] theorem State.setGprByte_free (s : State) (n : BitVec 4) (v : Byte) : (s.setGprByte n v).free = s.free := rfl

@[simp] theorem State.raise_bus (s : State) (k : Nat) : (s.raise k).bus = s.bus := rfl
@[simp] theorem State.raise_ebc (s : State) (k : Nat) : (s.raise k).ebc = s.ebc := rfl
@[simp] theorem State.raise_ports (s : State) (k : Nat) : (s.raise k).ports = s.ports := rfl
@[simp] theorem State.raise_pins (s : State) (k : Nat) : (s.raise k).pins = s.pins := rfl
@[simp] theorem State.raise_gpt (s : State) (k : Nat) : (s.raise k).gpt = s.gpt := rfl
@[simp] theorem State.raise_wdt (s : State) (k : Nat) : (s.raise k).wdt = s.wdt := rfl
@[simp] theorem State.raise_asc (s : State) (k : Nat) : (s.raise k).asc = s.asc := rfl
@[simp] theorem State.raise_ssc (s : State) (k : Nat) : (s.raise k).ssc = s.ssc := rfl
@[simp] theorem State.raise_ssp (s : State) (k : Nat) : (s.raise k).ssp = s.ssp := rfl
@[simp] theorem State.raise_ic (s : State) (k : Nat) : (s.raise k).ic = s.ic := rfl
@[simp] theorem State.raise_pecc (s : State) (k : Nat) : (s.raise k).pecc = s.pecc := rfl
@[simp] theorem State.raise_ext (s : State) (k : Nat) : (s.raise k).ext = s.ext := rfl
@[simp] theorem State.raise_sys (s : State) (k : Nat) : (s.raise k).sys = s.sys := rfl
@[simp] theorem State.raise_prev (s : State) (k : Nat) : (s.raise k).prev = s.prev := rfl
@[simp] theorem State.raise_marks (s : State) (k : Nat) : (s.raise k).marks = s.marks := rfl
@[simp] theorem State.raise_hz (s : State) (k : Nat) : (s.raise k).hz = s.hz := rfl
@[simp] theorem State.raise_board (s : State) (k : Nat) : (s.raise k).board = s.board := rfl
@[simp] theorem State.raise_mem (s : State) (k : Nat) : (s.raise k).mem = s.mem := rfl
@[simp] theorem State.raise_clocks (s : State) (k : Nat) : (s.raise k).clocks = s.clocks := rfl
@[simp] theorem State.raise_agenda (s : State) (k : Nat) : (s.raise k).agenda = s.agenda := rfl
@[simp] theorem State.raise_answers (s : State) (k : Nat) : (s.raise k).answers = s.answers := rfl
@[simp] theorem State.raise_gaps (s : State) (k : Nat) : (s.raise k).gaps = s.gaps := rfl
@[simp] theorem State.raise_free (s : State) (k : Nat) : (s.raise k).free = s.free := rfl
@[simp] theorem State.raise_cpu_ip (s : State) (k : Nat) : (s.raise k).cpu.ip = s.cpu.ip := rfl
@[simp] theorem State.raise_cpu_csp (s : State) (k : Nat) : (s.raise k).cpu.csp = s.cpu.csp := rfl
@[simp] theorem State.raise_cpu_psw (s : State) (k : Nat) : (s.raise k).cpu.psw = s.cpu.psw := rfl
@[simp] theorem State.raise_cpu_syscon (s : State) (k : Nat) : (s.raise k).cpu.syscon = s.cpu.syscon := rfl
@[simp] theorem State.raise_cpu_dpp0 (s : State) (k : Nat) : (s.raise k).cpu.dpp0 = s.cpu.dpp0 := rfl
@[simp] theorem State.raise_cpu_dpp1 (s : State) (k : Nat) : (s.raise k).cpu.dpp1 = s.cpu.dpp1 := rfl
@[simp] theorem State.raise_cpu_dpp2 (s : State) (k : Nat) : (s.raise k).cpu.dpp2 = s.cpu.dpp2 := rfl
@[simp] theorem State.raise_cpu_dpp3 (s : State) (k : Nat) : (s.raise k).cpu.dpp3 = s.cpu.dpp3 := rfl
@[simp] theorem State.raise_cpu_cp (s : State) (k : Nat) : (s.raise k).cpu.cp = s.cpu.cp := rfl
@[simp] theorem State.raise_cpu_sp (s : State) (k : Nat) : (s.raise k).cpu.sp = s.cpu.sp := rfl
@[simp] theorem State.raise_cpu_stkov (s : State) (k : Nat) : (s.raise k).cpu.stkov = s.cpu.stkov := rfl
@[simp] theorem State.raise_cpu_stkun (s : State) (k : Nat) : (s.raise k).cpu.stkun = s.cpu.stkun := rfl
@[simp] theorem State.raise_cpu_mdh (s : State) (k : Nat) : (s.raise k).cpu.mdh = s.cpu.mdh := rfl
@[simp] theorem State.raise_cpu_mdl (s : State) (k : Nat) : (s.raise k).cpu.mdl = s.cpu.mdl := rfl
@[simp] theorem State.raise_cpu_mdc (s : State) (k : Nat) : (s.raise k).cpu.mdc = s.cpu.mdc := rfl

@[simp] theorem State.setPsw_bus (s : State) (v : Word) : (s.setPsw v).bus = s.bus := rfl
@[simp] theorem State.setPsw_ports (s : State) (v : Word) : (s.setPsw v).ports = s.ports := rfl
@[simp] theorem State.setPsw_pins (s : State) (v : Word) : (s.setPsw v).pins = s.pins := rfl
@[simp] theorem State.setPsw_gpt (s : State) (v : Word) : (s.setPsw v).gpt = s.gpt := rfl
@[simp] theorem State.setPsw_wdt (s : State) (v : Word) : (s.setPsw v).wdt = s.wdt := rfl
@[simp] theorem State.setPsw_asc (s : State) (v : Word) : (s.setPsw v).asc = s.asc := rfl
@[simp] theorem State.setPsw_ssc (s : State) (v : Word) : (s.setPsw v).ssc = s.ssc := rfl
@[simp] theorem State.setPsw_ssp (s : State) (v : Word) : (s.setPsw v).ssp = s.ssp := rfl
@[simp] theorem State.setPsw_ic (s : State) (v : Word) : (s.setPsw v).ic = s.ic := rfl
@[simp] theorem State.setPsw_pecc (s : State) (v : Word) : (s.setPsw v).pecc = s.pecc := rfl
@[simp] theorem State.setPsw_ext (s : State) (v : Word) : (s.setPsw v).ext = s.ext := rfl
@[simp] theorem State.setPsw_sys (s : State) (v : Word) : (s.setPsw v).sys = s.sys := rfl
@[simp] theorem State.setPsw_prev (s : State) (v : Word) : (s.setPsw v).prev = s.prev := rfl
@[simp] theorem State.setPsw_marks (s : State) (v : Word) : (s.setPsw v).marks = s.marks := rfl
@[simp] theorem State.setPsw_hz (s : State) (v : Word) : (s.setPsw v).hz = s.hz := rfl
@[simp] theorem State.setPsw_board (s : State) (v : Word) : (s.setPsw v).board = s.board := rfl
@[simp] theorem State.setPsw_mem (s : State) (v : Word) : (s.setPsw v).mem = s.mem := rfl
@[simp] theorem State.setPsw_clocks (s : State) (v : Word) : (s.setPsw v).clocks = s.clocks := rfl
@[simp] theorem State.setPsw_agenda (s : State) (v : Word) : (s.setPsw v).agenda = s.agenda := rfl
@[simp] theorem State.setPsw_answers (s : State) (v : Word) : (s.setPsw v).answers = s.answers := rfl
@[simp] theorem State.setPsw_gaps (s : State) (v : Word) : (s.setPsw v).gaps = s.gaps := rfl
@[simp] theorem State.setPsw_free (s : State) (v : Word) : (s.setPsw v).free = s.free := rfl
@[simp] theorem State.setPsw_cpu_ip (s : State) (v : Word) : (s.setPsw v).cpu.ip = s.cpu.ip := rfl
@[simp] theorem State.setPsw_cpu_csp (s : State) (v : Word) : (s.setPsw v).cpu.csp = s.cpu.csp := rfl
@[simp] theorem State.setPsw_cpu_syscon (s : State) (v : Word) : (s.setPsw v).cpu.syscon = s.cpu.syscon := rfl
@[simp] theorem State.setPsw_cpu_dpp0 (s : State) (v : Word) : (s.setPsw v).cpu.dpp0 = s.cpu.dpp0 := rfl
@[simp] theorem State.setPsw_cpu_dpp1 (s : State) (v : Word) : (s.setPsw v).cpu.dpp1 = s.cpu.dpp1 := rfl
@[simp] theorem State.setPsw_cpu_dpp2 (s : State) (v : Word) : (s.setPsw v).cpu.dpp2 = s.cpu.dpp2 := rfl
@[simp] theorem State.setPsw_cpu_dpp3 (s : State) (v : Word) : (s.setPsw v).cpu.dpp3 = s.cpu.dpp3 := rfl
@[simp] theorem State.setPsw_cpu_cp (s : State) (v : Word) : (s.setPsw v).cpu.cp = s.cpu.cp := rfl
@[simp] theorem State.setPsw_cpu_sp (s : State) (v : Word) : (s.setPsw v).cpu.sp = s.cpu.sp := rfl
@[simp] theorem State.setPsw_cpu_stkov (s : State) (v : Word) : (s.setPsw v).cpu.stkov = s.cpu.stkov := rfl
@[simp] theorem State.setPsw_cpu_stkun (s : State) (v : Word) : (s.setPsw v).cpu.stkun = s.cpu.stkun := rfl
@[simp] theorem State.setPsw_cpu_mdh (s : State) (v : Word) : (s.setPsw v).cpu.mdh = s.cpu.mdh := rfl
@[simp] theorem State.setPsw_cpu_mdl (s : State) (v : Word) : (s.setPsw v).cpu.mdl = s.cpu.mdl := rfl
@[simp] theorem State.setPsw_cpu_mdc (s : State) (v : Word) : (s.setPsw v).cpu.mdc = s.cpu.mdc := rfl
@[simp] theorem State.setPsw_cpu_tfr (s : State) (v : Word) : (s.setPsw v).cpu.tfr = s.cpu.tfr := rfl

@[simp] theorem State.jumpTo_bus (s : State) (v : Word) : (s.jumpTo v).bus = s.bus := rfl
@[simp] theorem State.jumpTo_ebc (s : State) (v : Word) : (s.jumpTo v).ebc = s.ebc := rfl
@[simp] theorem State.jumpTo_ports (s : State) (v : Word) : (s.jumpTo v).ports = s.ports := rfl
@[simp] theorem State.jumpTo_pins (s : State) (v : Word) : (s.jumpTo v).pins = s.pins := rfl
@[simp] theorem State.jumpTo_gpt (s : State) (v : Word) : (s.jumpTo v).gpt = s.gpt := rfl
@[simp] theorem State.jumpTo_wdt (s : State) (v : Word) : (s.jumpTo v).wdt = s.wdt := rfl
@[simp] theorem State.jumpTo_asc (s : State) (v : Word) : (s.jumpTo v).asc = s.asc := rfl
@[simp] theorem State.jumpTo_ssc (s : State) (v : Word) : (s.jumpTo v).ssc = s.ssc := rfl
@[simp] theorem State.jumpTo_ssp (s : State) (v : Word) : (s.jumpTo v).ssp = s.ssp := rfl
@[simp] theorem State.jumpTo_ic (s : State) (v : Word) : (s.jumpTo v).ic = s.ic := rfl
@[simp] theorem State.jumpTo_pecc (s : State) (v : Word) : (s.jumpTo v).pecc = s.pecc := rfl
@[simp] theorem State.jumpTo_ext (s : State) (v : Word) : (s.jumpTo v).ext = s.ext := rfl
@[simp] theorem State.jumpTo_sys (s : State) (v : Word) : (s.jumpTo v).sys = s.sys := rfl
@[simp] theorem State.jumpTo_prev (s : State) (v : Word) : (s.jumpTo v).prev = s.prev := rfl
@[simp] theorem State.jumpTo_hz (s : State) (v : Word) : (s.jumpTo v).hz = s.hz := rfl
@[simp] theorem State.jumpTo_board (s : State) (v : Word) : (s.jumpTo v).board = s.board := rfl
@[simp] theorem State.jumpTo_mem (s : State) (v : Word) : (s.jumpTo v).mem = s.mem := rfl
@[simp] theorem State.jumpTo_clocks (s : State) (v : Word) : (s.jumpTo v).clocks = s.clocks := rfl
@[simp] theorem State.jumpTo_agenda (s : State) (v : Word) : (s.jumpTo v).agenda = s.agenda := rfl
@[simp] theorem State.jumpTo_answers (s : State) (v : Word) : (s.jumpTo v).answers = s.answers := rfl
@[simp] theorem State.jumpTo_gaps (s : State) (v : Word) : (s.jumpTo v).gaps = s.gaps := rfl
@[simp] theorem State.jumpTo_free (s : State) (v : Word) : (s.jumpTo v).free = s.free := rfl
@[simp] theorem State.jumpTo_cpu_csp (s : State) (v : Word) : (s.jumpTo v).cpu.csp = s.cpu.csp := rfl
@[simp] theorem State.jumpTo_cpu_psw (s : State) (v : Word) : (s.jumpTo v).cpu.psw = s.cpu.psw := rfl
@[simp] theorem State.jumpTo_cpu_syscon (s : State) (v : Word) : (s.jumpTo v).cpu.syscon = s.cpu.syscon := rfl
@[simp] theorem State.jumpTo_cpu_dpp0 (s : State) (v : Word) : (s.jumpTo v).cpu.dpp0 = s.cpu.dpp0 := rfl
@[simp] theorem State.jumpTo_cpu_dpp1 (s : State) (v : Word) : (s.jumpTo v).cpu.dpp1 = s.cpu.dpp1 := rfl
@[simp] theorem State.jumpTo_cpu_dpp2 (s : State) (v : Word) : (s.jumpTo v).cpu.dpp2 = s.cpu.dpp2 := rfl
@[simp] theorem State.jumpTo_cpu_dpp3 (s : State) (v : Word) : (s.jumpTo v).cpu.dpp3 = s.cpu.dpp3 := rfl
@[simp] theorem State.jumpTo_cpu_cp (s : State) (v : Word) : (s.jumpTo v).cpu.cp = s.cpu.cp := rfl
@[simp] theorem State.jumpTo_cpu_sp (s : State) (v : Word) : (s.jumpTo v).cpu.sp = s.cpu.sp := rfl
@[simp] theorem State.jumpTo_cpu_stkov (s : State) (v : Word) : (s.jumpTo v).cpu.stkov = s.cpu.stkov := rfl
@[simp] theorem State.jumpTo_cpu_stkun (s : State) (v : Word) : (s.jumpTo v).cpu.stkun = s.cpu.stkun := rfl
@[simp] theorem State.jumpTo_cpu_mdh (s : State) (v : Word) : (s.jumpTo v).cpu.mdh = s.cpu.mdh := rfl
@[simp] theorem State.jumpTo_cpu_mdl (s : State) (v : Word) : (s.jumpTo v).cpu.mdl = s.cpu.mdl := rfl
@[simp] theorem State.jumpTo_cpu_mdc (s : State) (v : Word) : (s.jumpTo v).cpu.mdc = s.cpu.mdc := rfl
@[simp] theorem State.jumpTo_cpu_tfr (s : State) (v : Word) : (s.jumpTo v).cpu.tfr = s.cpu.tfr := rfl

@[simp] theorem State.farJumpTo_bus (s : State) (g : Byte) (v : Word) : (s.farJumpTo g v).bus = s.bus := rfl
@[simp] theorem State.farJumpTo_ebc (s : State) (g : Byte) (v : Word) : (s.farJumpTo g v).ebc = s.ebc := rfl
@[simp] theorem State.farJumpTo_ports (s : State) (g : Byte) (v : Word) : (s.farJumpTo g v).ports = s.ports := rfl
@[simp] theorem State.farJumpTo_pins (s : State) (g : Byte) (v : Word) : (s.farJumpTo g v).pins = s.pins := rfl
@[simp] theorem State.farJumpTo_gpt (s : State) (g : Byte) (v : Word) : (s.farJumpTo g v).gpt = s.gpt := rfl
@[simp] theorem State.farJumpTo_wdt (s : State) (g : Byte) (v : Word) : (s.farJumpTo g v).wdt = s.wdt := rfl
@[simp] theorem State.farJumpTo_asc (s : State) (g : Byte) (v : Word) : (s.farJumpTo g v).asc = s.asc := rfl
@[simp] theorem State.farJumpTo_ssc (s : State) (g : Byte) (v : Word) : (s.farJumpTo g v).ssc = s.ssc := rfl
@[simp] theorem State.farJumpTo_ssp (s : State) (g : Byte) (v : Word) : (s.farJumpTo g v).ssp = s.ssp := rfl
@[simp] theorem State.farJumpTo_ic (s : State) (g : Byte) (v : Word) : (s.farJumpTo g v).ic = s.ic := rfl
@[simp] theorem State.farJumpTo_pecc (s : State) (g : Byte) (v : Word) : (s.farJumpTo g v).pecc = s.pecc := rfl
@[simp] theorem State.farJumpTo_ext (s : State) (g : Byte) (v : Word) : (s.farJumpTo g v).ext = s.ext := rfl
@[simp] theorem State.farJumpTo_sys (s : State) (g : Byte) (v : Word) : (s.farJumpTo g v).sys = s.sys := rfl
@[simp] theorem State.farJumpTo_prev (s : State) (g : Byte) (v : Word) : (s.farJumpTo g v).prev = s.prev := rfl
@[simp] theorem State.farJumpTo_hz (s : State) (g : Byte) (v : Word) : (s.farJumpTo g v).hz = s.hz := rfl
@[simp] theorem State.farJumpTo_board (s : State) (g : Byte) (v : Word) : (s.farJumpTo g v).board = s.board := rfl
@[simp] theorem State.farJumpTo_mem (s : State) (g : Byte) (v : Word) : (s.farJumpTo g v).mem = s.mem := rfl
@[simp] theorem State.farJumpTo_clocks (s : State) (g : Byte) (v : Word) : (s.farJumpTo g v).clocks = s.clocks := rfl
@[simp] theorem State.farJumpTo_agenda (s : State) (g : Byte) (v : Word) : (s.farJumpTo g v).agenda = s.agenda := rfl
@[simp] theorem State.farJumpTo_answers (s : State) (g : Byte) (v : Word) : (s.farJumpTo g v).answers = s.answers := rfl
@[simp] theorem State.farJumpTo_gaps (s : State) (g : Byte) (v : Word) : (s.farJumpTo g v).gaps = s.gaps := rfl
@[simp] theorem State.farJumpTo_free (s : State) (g : Byte) (v : Word) : (s.farJumpTo g v).free = s.free := rfl
@[simp] theorem State.farJumpTo_cpu_psw (s : State) (g : Byte) (v : Word) : (s.farJumpTo g v).cpu.psw = s.cpu.psw := rfl
@[simp] theorem State.farJumpTo_cpu_syscon (s : State) (g : Byte) (v : Word) : (s.farJumpTo g v).cpu.syscon = s.cpu.syscon := rfl
@[simp] theorem State.farJumpTo_cpu_dpp0 (s : State) (g : Byte) (v : Word) : (s.farJumpTo g v).cpu.dpp0 = s.cpu.dpp0 := rfl
@[simp] theorem State.farJumpTo_cpu_dpp1 (s : State) (g : Byte) (v : Word) : (s.farJumpTo g v).cpu.dpp1 = s.cpu.dpp1 := rfl
@[simp] theorem State.farJumpTo_cpu_dpp2 (s : State) (g : Byte) (v : Word) : (s.farJumpTo g v).cpu.dpp2 = s.cpu.dpp2 := rfl
@[simp] theorem State.farJumpTo_cpu_dpp3 (s : State) (g : Byte) (v : Word) : (s.farJumpTo g v).cpu.dpp3 = s.cpu.dpp3 := rfl
@[simp] theorem State.farJumpTo_cpu_cp (s : State) (g : Byte) (v : Word) : (s.farJumpTo g v).cpu.cp = s.cpu.cp := rfl
@[simp] theorem State.farJumpTo_cpu_sp (s : State) (g : Byte) (v : Word) : (s.farJumpTo g v).cpu.sp = s.cpu.sp := rfl
@[simp] theorem State.farJumpTo_cpu_stkov (s : State) (g : Byte) (v : Word) : (s.farJumpTo g v).cpu.stkov = s.cpu.stkov := rfl
@[simp] theorem State.farJumpTo_cpu_stkun (s : State) (g : Byte) (v : Word) : (s.farJumpTo g v).cpu.stkun = s.cpu.stkun := rfl
@[simp] theorem State.farJumpTo_cpu_mdh (s : State) (g : Byte) (v : Word) : (s.farJumpTo g v).cpu.mdh = s.cpu.mdh := rfl
@[simp] theorem State.farJumpTo_cpu_mdl (s : State) (g : Byte) (v : Word) : (s.farJumpTo g v).cpu.mdl = s.cpu.mdl := rfl
@[simp] theorem State.farJumpTo_cpu_mdc (s : State) (g : Byte) (v : Word) : (s.farJumpTo g v).cpu.mdc = s.cpu.mdc := rfl
@[simp] theorem State.farJumpTo_cpu_tfr (s : State) (g : Byte) (v : Word) : (s.farJumpTo g v).cpu.tfr = s.cpu.tfr := rfl

@[simp] theorem State.cacheJump_bus (s : State) (v : Word) : (s.cacheJump v).bus = s.bus := rfl
@[simp] theorem State.cacheJump_ebc (s : State) (v : Word) : (s.cacheJump v).ebc = s.ebc := rfl
@[simp] theorem State.cacheJump_ports (s : State) (v : Word) : (s.cacheJump v).ports = s.ports := rfl
@[simp] theorem State.cacheJump_pins (s : State) (v : Word) : (s.cacheJump v).pins = s.pins := rfl
@[simp] theorem State.cacheJump_gpt (s : State) (v : Word) : (s.cacheJump v).gpt = s.gpt := rfl
@[simp] theorem State.cacheJump_wdt (s : State) (v : Word) : (s.cacheJump v).wdt = s.wdt := rfl
@[simp] theorem State.cacheJump_asc (s : State) (v : Word) : (s.cacheJump v).asc = s.asc := rfl
@[simp] theorem State.cacheJump_ssc (s : State) (v : Word) : (s.cacheJump v).ssc = s.ssc := rfl
@[simp] theorem State.cacheJump_ssp (s : State) (v : Word) : (s.cacheJump v).ssp = s.ssp := rfl
@[simp] theorem State.cacheJump_ic (s : State) (v : Word) : (s.cacheJump v).ic = s.ic := rfl
@[simp] theorem State.cacheJump_pecc (s : State) (v : Word) : (s.cacheJump v).pecc = s.pecc := rfl
@[simp] theorem State.cacheJump_ext (s : State) (v : Word) : (s.cacheJump v).ext = s.ext := rfl
@[simp] theorem State.cacheJump_sys (s : State) (v : Word) : (s.cacheJump v).sys = s.sys := rfl
@[simp] theorem State.cacheJump_prev (s : State) (v : Word) : (s.cacheJump v).prev = s.prev := rfl
@[simp] theorem State.cacheJump_hz (s : State) (v : Word) : (s.cacheJump v).hz = s.hz := rfl
@[simp] theorem State.cacheJump_board (s : State) (v : Word) : (s.cacheJump v).board = s.board := rfl
@[simp] theorem State.cacheJump_mem (s : State) (v : Word) : (s.cacheJump v).mem = s.mem := rfl
@[simp] theorem State.cacheJump_clocks (s : State) (v : Word) : (s.cacheJump v).clocks = s.clocks := rfl
@[simp] theorem State.cacheJump_agenda (s : State) (v : Word) : (s.cacheJump v).agenda = s.agenda := rfl
@[simp] theorem State.cacheJump_answers (s : State) (v : Word) : (s.cacheJump v).answers = s.answers := rfl
@[simp] theorem State.cacheJump_gaps (s : State) (v : Word) : (s.cacheJump v).gaps = s.gaps := rfl
@[simp] theorem State.cacheJump_free (s : State) (v : Word) : (s.cacheJump v).free = s.free := rfl
@[simp] theorem State.cacheJump_cpu_csp (s : State) (v : Word) : (s.cacheJump v).cpu.csp = s.cpu.csp := rfl
@[simp] theorem State.cacheJump_cpu_psw (s : State) (v : Word) : (s.cacheJump v).cpu.psw = s.cpu.psw := rfl
@[simp] theorem State.cacheJump_cpu_syscon (s : State) (v : Word) : (s.cacheJump v).cpu.syscon = s.cpu.syscon := rfl
@[simp] theorem State.cacheJump_cpu_dpp0 (s : State) (v : Word) : (s.cacheJump v).cpu.dpp0 = s.cpu.dpp0 := rfl
@[simp] theorem State.cacheJump_cpu_dpp1 (s : State) (v : Word) : (s.cacheJump v).cpu.dpp1 = s.cpu.dpp1 := rfl
@[simp] theorem State.cacheJump_cpu_dpp2 (s : State) (v : Word) : (s.cacheJump v).cpu.dpp2 = s.cpu.dpp2 := rfl
@[simp] theorem State.cacheJump_cpu_dpp3 (s : State) (v : Word) : (s.cacheJump v).cpu.dpp3 = s.cpu.dpp3 := rfl
@[simp] theorem State.cacheJump_cpu_cp (s : State) (v : Word) : (s.cacheJump v).cpu.cp = s.cpu.cp := rfl
@[simp] theorem State.cacheJump_cpu_sp (s : State) (v : Word) : (s.cacheJump v).cpu.sp = s.cpu.sp := rfl
@[simp] theorem State.cacheJump_cpu_stkov (s : State) (v : Word) : (s.cacheJump v).cpu.stkov = s.cpu.stkov := rfl
@[simp] theorem State.cacheJump_cpu_stkun (s : State) (v : Word) : (s.cacheJump v).cpu.stkun = s.cpu.stkun := rfl
@[simp] theorem State.cacheJump_cpu_mdh (s : State) (v : Word) : (s.cacheJump v).cpu.mdh = s.cpu.mdh := rfl
@[simp] theorem State.cacheJump_cpu_mdl (s : State) (v : Word) : (s.cacheJump v).cpu.mdl = s.cpu.mdl := rfl
@[simp] theorem State.cacheJump_cpu_mdc (s : State) (v : Word) : (s.cacheJump v).cpu.mdc = s.cpu.mdc := rfl
@[simp] theorem State.cacheJump_cpu_tfr (s : State) (v : Word) : (s.cacheJump v).cpu.tfr = s.cpu.tfr := rfl

@[simp] theorem State.advanceFree_cpu (s : State) (n : Nat) : (s.advanceFree n).cpu = s.cpu := rfl
@[simp] theorem State.advanceFree_bus (s : State) (n : Nat) : (s.advanceFree n).bus = s.bus := rfl
@[simp] theorem State.advanceFree_ebc (s : State) (n : Nat) : (s.advanceFree n).ebc = s.ebc := rfl
@[simp] theorem State.advanceFree_ports (s : State) (n : Nat) : (s.advanceFree n).ports = s.ports := rfl
@[simp] theorem State.advanceFree_pins (s : State) (n : Nat) : (s.advanceFree n).pins = s.pins := rfl
@[simp] theorem State.advanceFree_gpt (s : State) (n : Nat) : (s.advanceFree n).gpt = s.gpt := rfl
@[simp] theorem State.advanceFree_wdt (s : State) (n : Nat) : (s.advanceFree n).wdt = s.wdt := rfl
@[simp] theorem State.advanceFree_asc (s : State) (n : Nat) : (s.advanceFree n).asc = s.asc := rfl
@[simp] theorem State.advanceFree_ssc (s : State) (n : Nat) : (s.advanceFree n).ssc = s.ssc := rfl
@[simp] theorem State.advanceFree_ssp (s : State) (n : Nat) : (s.advanceFree n).ssp = s.ssp := rfl
@[simp] theorem State.advanceFree_ic (s : State) (n : Nat) : (s.advanceFree n).ic = s.ic := rfl
@[simp] theorem State.advanceFree_pecc (s : State) (n : Nat) : (s.advanceFree n).pecc = s.pecc := rfl
@[simp] theorem State.advanceFree_ext (s : State) (n : Nat) : (s.advanceFree n).ext = s.ext := rfl
@[simp] theorem State.advanceFree_sys (s : State) (n : Nat) : (s.advanceFree n).sys = s.sys := rfl
@[simp] theorem State.advanceFree_prev (s : State) (n : Nat) : (s.advanceFree n).prev = s.prev := rfl
@[simp] theorem State.advanceFree_marks (s : State) (n : Nat) : (s.advanceFree n).marks = s.marks := rfl
@[simp] theorem State.advanceFree_hz (s : State) (n : Nat) : (s.advanceFree n).hz = s.hz := rfl
@[simp] theorem State.advanceFree_board (s : State) (n : Nat) : (s.advanceFree n).board = s.board := rfl
@[simp] theorem State.advanceFree_mem (s : State) (n : Nat) : (s.advanceFree n).mem = s.mem := rfl
@[simp] theorem State.advanceFree_clocks (s : State) (n : Nat) : (s.advanceFree n).clocks = s.clocks := rfl
@[simp] theorem State.advanceFree_agenda (s : State) (n : Nat) : (s.advanceFree n).agenda = s.agenda := rfl
@[simp] theorem State.advanceFree_answers (s : State) (n : Nat) : (s.advanceFree n).answers = s.answers := rfl
@[simp] theorem State.advanceFree_gaps (s : State) (n : Nat) : (s.advanceFree n).gaps = s.gaps := rfl

@[simp] theorem State.setIc_cpu (s : State) (n : IrqNode) (v : Byte) : (s.setIc n v).cpu = s.cpu := rfl
@[simp] theorem State.setIc_bus (s : State) (n : IrqNode) (v : Byte) : (s.setIc n v).bus = s.bus := rfl
@[simp] theorem State.setIc_ebc (s : State) (n : IrqNode) (v : Byte) : (s.setIc n v).ebc = s.ebc := rfl
@[simp] theorem State.setIc_ports (s : State) (n : IrqNode) (v : Byte) : (s.setIc n v).ports = s.ports := rfl
@[simp] theorem State.setIc_pins (s : State) (n : IrqNode) (v : Byte) : (s.setIc n v).pins = s.pins := rfl
@[simp] theorem State.setIc_gpt (s : State) (n : IrqNode) (v : Byte) : (s.setIc n v).gpt = s.gpt := rfl
@[simp] theorem State.setIc_wdt (s : State) (n : IrqNode) (v : Byte) : (s.setIc n v).wdt = s.wdt := rfl
@[simp] theorem State.setIc_asc (s : State) (n : IrqNode) (v : Byte) : (s.setIc n v).asc = s.asc := rfl
@[simp] theorem State.setIc_ssc (s : State) (n : IrqNode) (v : Byte) : (s.setIc n v).ssc = s.ssc := rfl
@[simp] theorem State.setIc_ssp (s : State) (n : IrqNode) (v : Byte) : (s.setIc n v).ssp = s.ssp := rfl
@[simp] theorem State.setIc_pecc (s : State) (n : IrqNode) (v : Byte) : (s.setIc n v).pecc = s.pecc := rfl
@[simp] theorem State.setIc_ext (s : State) (n : IrqNode) (v : Byte) : (s.setIc n v).ext = s.ext := rfl
@[simp] theorem State.setIc_sys (s : State) (n : IrqNode) (v : Byte) : (s.setIc n v).sys = s.sys := rfl
@[simp] theorem State.setIc_prev (s : State) (n : IrqNode) (v : Byte) : (s.setIc n v).prev = s.prev := rfl
@[simp] theorem State.setIc_marks (s : State) (n : IrqNode) (v : Byte) : (s.setIc n v).marks = s.marks := rfl
@[simp] theorem State.setIc_hz (s : State) (n : IrqNode) (v : Byte) : (s.setIc n v).hz = s.hz := rfl
@[simp] theorem State.setIc_board (s : State) (n : IrqNode) (v : Byte) : (s.setIc n v).board = s.board := rfl
@[simp] theorem State.setIc_mem (s : State) (n : IrqNode) (v : Byte) : (s.setIc n v).mem = s.mem := rfl
@[simp] theorem State.setIc_clocks (s : State) (n : IrqNode) (v : Byte) : (s.setIc n v).clocks = s.clocks := rfl
@[simp] theorem State.setIc_agenda (s : State) (n : IrqNode) (v : Byte) : (s.setIc n v).agenda = s.agenda := rfl
@[simp] theorem State.setIc_answers (s : State) (n : IrqNode) (v : Byte) : (s.setIc n v).answers = s.answers := rfl
@[simp] theorem State.setIc_gaps (s : State) (n : IrqNode) (v : Byte) : (s.setIc n v).gaps = s.gaps := rfl
@[simp] theorem State.setIc_free (s : State) (n : IrqNode) (v : Byte) : (s.setIc n v).free = s.free := rfl

@[simp] theorem State.writeTimer_cpu (s : State) (r : TimerReg) (v : Word) : (s.writeTimer r v).cpu = s.cpu := rfl
@[simp] theorem State.writeTimer_bus (s : State) (r : TimerReg) (v : Word) : (s.writeTimer r v).bus = s.bus := rfl
@[simp] theorem State.writeTimer_ebc (s : State) (r : TimerReg) (v : Word) : (s.writeTimer r v).ebc = s.ebc := rfl
@[simp] theorem State.writeTimer_ports (s : State) (r : TimerReg) (v : Word) : (s.writeTimer r v).ports = s.ports := rfl
@[simp] theorem State.writeTimer_pins (s : State) (r : TimerReg) (v : Word) : (s.writeTimer r v).pins = s.pins := rfl
@[simp] theorem State.writeTimer_wdt (s : State) (r : TimerReg) (v : Word) : (s.writeTimer r v).wdt = s.wdt := rfl
@[simp] theorem State.writeTimer_asc (s : State) (r : TimerReg) (v : Word) : (s.writeTimer r v).asc = s.asc := rfl
@[simp] theorem State.writeTimer_ssc (s : State) (r : TimerReg) (v : Word) : (s.writeTimer r v).ssc = s.ssc := rfl
@[simp] theorem State.writeTimer_ssp (s : State) (r : TimerReg) (v : Word) : (s.writeTimer r v).ssp = s.ssp := rfl
@[simp] theorem State.writeTimer_ic (s : State) (r : TimerReg) (v : Word) : (s.writeTimer r v).ic = s.ic := rfl
@[simp] theorem State.writeTimer_pecc (s : State) (r : TimerReg) (v : Word) : (s.writeTimer r v).pecc = s.pecc := rfl
@[simp] theorem State.writeTimer_ext (s : State) (r : TimerReg) (v : Word) : (s.writeTimer r v).ext = s.ext := rfl
@[simp] theorem State.writeTimer_sys (s : State) (r : TimerReg) (v : Word) : (s.writeTimer r v).sys = s.sys := rfl
@[simp] theorem State.writeTimer_prev (s : State) (r : TimerReg) (v : Word) : (s.writeTimer r v).prev = s.prev := rfl
@[simp] theorem State.writeTimer_hz (s : State) (r : TimerReg) (v : Word) : (s.writeTimer r v).hz = s.hz := rfl
@[simp] theorem State.writeTimer_board (s : State) (r : TimerReg) (v : Word) : (s.writeTimer r v).board = s.board := rfl
@[simp] theorem State.writeTimer_mem (s : State) (r : TimerReg) (v : Word) : (s.writeTimer r v).mem = s.mem := rfl
@[simp] theorem State.writeTimer_clocks (s : State) (r : TimerReg) (v : Word) : (s.writeTimer r v).clocks = s.clocks := rfl
@[simp] theorem State.writeTimer_agenda (s : State) (r : TimerReg) (v : Word) : (s.writeTimer r v).agenda = s.agenda := rfl
@[simp] theorem State.writeTimer_answers (s : State) (r : TimerReg) (v : Word) : (s.writeTimer r v).answers = s.answers := rfl
@[simp] theorem State.writeTimer_gaps (s : State) (r : TimerReg) (v : Word) : (s.writeTimer r v).gaps = s.gaps := rfl
@[simp] theorem State.writeTimer_free (s : State) (r : TimerReg) (v : Word) : (s.writeTimer r v).free = s.free := rfl
@[simp] theorem State.writeTimer_gpt (s : State) (r : TimerReg) (v : Word) : (s.writeTimer r v).gpt = r.set v s.gpt := rfl
@[simp] theorem State.writeTimer_marks (s : State) (r : TimerReg) (v : Word) :
    (s.writeTimer r v).marks = { s.marks with timerWrite := some { reg := r, before := r.get s.gpt } } := rfl

/-- A timer register holds what was written to it. -/
@[simp] theorem TimerReg.get_set (r : TimerReg) (v : Word) (g : Gpt) : r.get (r.set v g) = v := by cases r <;> rfl

/-- Writing a timer register leaves the others. -/
theorem TimerReg.get_set_ne {r q : TimerReg} (h : q ≠ r) (v : Word) (g : Gpt) : q.get (r.set v g) = q.get g := by
  cases r <;> cases q <;> first | rfl | exact absurd rfl h

@[simp] theorem Marks.kept_stackDelay (m : Marks) : m.kept.stackDelay = m.stackDelay := rfl
@[simp] theorem Marks.kept_cacheJump (m : Marks) : m.kept.cacheJump = m.cacheJump := rfl
@[simp] theorem Marks.kept_kept (m : Marks) : m.kept.kept = m.kept := rfl
@[simp] theorem State.settle_marks (s : State) : (s.settle).marks = s.marks.kept := rfl

@[simp] theorem State.settle_cpu (s : State) : (s.settle).cpu = s.cpu := rfl
@[simp] theorem State.settle_bus (s : State) : (s.settle).bus = s.bus := rfl
@[simp] theorem State.settle_ebc (s : State) : (s.settle).ebc = s.ebc := rfl
@[simp] theorem State.settle_ports (s : State) : (s.settle).ports = s.ports := rfl
@[simp] theorem State.settle_pins (s : State) : (s.settle).pins = s.pins := rfl
@[simp] theorem State.settle_gpt (s : State) : (s.settle).gpt = s.gpt := rfl
@[simp] theorem State.settle_wdt (s : State) : (s.settle).wdt = s.wdt := rfl
@[simp] theorem State.settle_asc (s : State) : (s.settle).asc = s.asc := rfl
@[simp] theorem State.settle_ssc (s : State) : (s.settle).ssc = s.ssc := rfl
@[simp] theorem State.settle_ssp (s : State) : (s.settle).ssp = s.ssp := rfl
@[simp] theorem State.settle_ic (s : State) : (s.settle).ic = s.ic := rfl
@[simp] theorem State.settle_pecc (s : State) : (s.settle).pecc = s.pecc := rfl
@[simp] theorem State.settle_ext (s : State) : (s.settle).ext = s.ext := rfl
@[simp] theorem State.settle_sys (s : State) : (s.settle).sys = s.sys := rfl
@[simp] theorem State.settle_hz (s : State) : (s.settle).hz = s.hz := rfl
@[simp] theorem State.settle_board (s : State) : (s.settle).board = s.board := rfl
@[simp] theorem State.settle_mem (s : State) : (s.settle).mem = s.mem := rfl
@[simp] theorem State.settle_clocks (s : State) : (s.settle).clocks = s.clocks := rfl
@[simp] theorem State.settle_agenda (s : State) : (s.settle).agenda = s.agenda := rfl
@[simp] theorem State.settle_answers (s : State) : (s.settle).answers = s.answers := rfl
@[simp] theorem State.settle_gaps (s : State) : (s.settle).gaps = s.gaps := rfl
@[simp] theorem State.settle_free (s : State) : (s.settle).free = s.free := rfl

@[simp] theorem State.romWasRead_cpu (s : State) : (s.romWasRead).cpu = s.cpu := rfl
@[simp] theorem State.romWasRead_bus (s : State) : (s.romWasRead).bus = s.bus := rfl
@[simp] theorem State.romWasRead_ebc (s : State) : (s.romWasRead).ebc = s.ebc := rfl
@[simp] theorem State.romWasRead_ports (s : State) : (s.romWasRead).ports = s.ports := rfl
@[simp] theorem State.romWasRead_pins (s : State) : (s.romWasRead).pins = s.pins := rfl
@[simp] theorem State.romWasRead_gpt (s : State) : (s.romWasRead).gpt = s.gpt := rfl
@[simp] theorem State.romWasRead_wdt (s : State) : (s.romWasRead).wdt = s.wdt := rfl
@[simp] theorem State.romWasRead_asc (s : State) : (s.romWasRead).asc = s.asc := rfl
@[simp] theorem State.romWasRead_ssc (s : State) : (s.romWasRead).ssc = s.ssc := rfl
@[simp] theorem State.romWasRead_ssp (s : State) : (s.romWasRead).ssp = s.ssp := rfl
@[simp] theorem State.romWasRead_ic (s : State) : (s.romWasRead).ic = s.ic := rfl
@[simp] theorem State.romWasRead_pecc (s : State) : (s.romWasRead).pecc = s.pecc := rfl
@[simp] theorem State.romWasRead_ext (s : State) : (s.romWasRead).ext = s.ext := rfl
@[simp] theorem State.romWasRead_sys (s : State) : (s.romWasRead).sys = s.sys := rfl
@[simp] theorem State.romWasRead_prev (s : State) : (s.romWasRead).prev = s.prev := rfl
@[simp] theorem State.romWasRead_hz (s : State) : (s.romWasRead).hz = s.hz := rfl
@[simp] theorem State.romWasRead_board (s : State) : (s.romWasRead).board = s.board := rfl
@[simp] theorem State.romWasRead_mem (s : State) : (s.romWasRead).mem = s.mem := rfl
@[simp] theorem State.romWasRead_clocks (s : State) : (s.romWasRead).clocks = s.clocks := rfl
@[simp] theorem State.romWasRead_agenda (s : State) : (s.romWasRead).agenda = s.agenda := rfl
@[simp] theorem State.romWasRead_answers (s : State) : (s.romWasRead).answers = s.answers := rfl
@[simp] theorem State.romWasRead_gaps (s : State) : (s.romWasRead).gaps = s.gaps := rfl
@[simp] theorem State.romWasRead_free (s : State) : (s.romWasRead).free = s.free := rfl

@[simp] theorem finish_bus (len : Nat) (s0 s : State) : (finish len s0 s).bus = s.bus := rfl
@[simp] theorem finish_ebc (len : Nat) (s0 s : State) : (finish len s0 s).ebc = s.ebc := rfl
@[simp] theorem finish_ports (len : Nat) (s0 s : State) : (finish len s0 s).ports = s.ports := rfl
@[simp] theorem finish_pins (len : Nat) (s0 s : State) : (finish len s0 s).pins = s.pins := rfl
@[simp] theorem finish_gpt (len : Nat) (s0 s : State) : (finish len s0 s).gpt = s.gpt := rfl
@[simp] theorem finish_wdt (len : Nat) (s0 s : State) : (finish len s0 s).wdt = s.wdt := rfl
@[simp] theorem finish_asc (len : Nat) (s0 s : State) : (finish len s0 s).asc = s.asc := rfl
@[simp] theorem finish_ssc (len : Nat) (s0 s : State) : (finish len s0 s).ssc = s.ssc := rfl
@[simp] theorem finish_ssp (len : Nat) (s0 s : State) : (finish len s0 s).ssp = s.ssp := rfl
@[simp] theorem finish_ic (len : Nat) (s0 s : State) : (finish len s0 s).ic = s.ic := rfl
@[simp] theorem finish_pecc (len : Nat) (s0 s : State) : (finish len s0 s).pecc = s.pecc := rfl
@[simp] theorem finish_sys (len : Nat) (s0 s : State) : (finish len s0 s).sys = s.sys := rfl
@[simp] theorem finish_marks (len : Nat) (s0 s : State) : (finish len s0 s).marks = s.marks := rfl
@[simp] theorem finish_board (len : Nat) (s0 s : State) : (finish len s0 s).board = s.board := rfl
@[simp] theorem finish_mem (len : Nat) (s0 s : State) : (finish len s0 s).mem = s.mem := rfl
@[simp] theorem finish_clocks (len : Nat) (s0 s : State) : (finish len s0 s).clocks = s.clocks := rfl
@[simp] theorem finish_agenda (len : Nat) (s0 s : State) : (finish len s0 s).agenda = s.agenda := rfl
@[simp] theorem finish_answers (len : Nat) (s0 s : State) : (finish len s0 s).answers = s.answers := rfl
@[simp] theorem finish_gaps (len : Nat) (s0 s : State) : (finish len s0 s).gaps = s.gaps := rfl
@[simp] theorem finish_free (len : Nat) (s0 s : State) : (finish len s0 s).free = s.free := rfl
@[simp] theorem finish_cpu_csp (len : Nat) (s0 s : State) : (finish len s0 s).cpu.csp = s.cpu.csp := rfl
@[simp] theorem finish_cpu_psw (len : Nat) (s0 s : State) : (finish len s0 s).cpu.psw = s.cpu.psw := rfl
@[simp] theorem finish_cpu_syscon (len : Nat) (s0 s : State) : (finish len s0 s).cpu.syscon = s.cpu.syscon := rfl
@[simp] theorem finish_cpu_dpp0 (len : Nat) (s0 s : State) : (finish len s0 s).cpu.dpp0 = s.cpu.dpp0 := rfl
@[simp] theorem finish_cpu_dpp1 (len : Nat) (s0 s : State) : (finish len s0 s).cpu.dpp1 = s.cpu.dpp1 := rfl
@[simp] theorem finish_cpu_dpp2 (len : Nat) (s0 s : State) : (finish len s0 s).cpu.dpp2 = s.cpu.dpp2 := rfl
@[simp] theorem finish_cpu_dpp3 (len : Nat) (s0 s : State) : (finish len s0 s).cpu.dpp3 = s.cpu.dpp3 := rfl
@[simp] theorem finish_cpu_cp (len : Nat) (s0 s : State) : (finish len s0 s).cpu.cp = s.cpu.cp := rfl
@[simp] theorem finish_cpu_sp (len : Nat) (s0 s : State) : (finish len s0 s).cpu.sp = s.cpu.sp := rfl
@[simp] theorem finish_cpu_stkov (len : Nat) (s0 s : State) : (finish len s0 s).cpu.stkov = s.cpu.stkov := rfl
@[simp] theorem finish_cpu_stkun (len : Nat) (s0 s : State) : (finish len s0 s).cpu.stkun = s.cpu.stkun := rfl
@[simp] theorem finish_cpu_mdh (len : Nat) (s0 s : State) : (finish len s0 s).cpu.mdh = s.cpu.mdh := rfl
@[simp] theorem finish_cpu_mdl (len : Nat) (s0 s : State) : (finish len s0 s).cpu.mdl = s.cpu.mdl := rfl
@[simp] theorem finish_cpu_mdc (len : Nat) (s0 s : State) : (finish len s0 s).cpu.mdc = s.cpu.mdc := rfl
@[simp] theorem finish_cpu_tfr (len : Nat) (s0 s : State) : (finish len s0 s).cpu.tfr = s.cpu.tfr := rfl

@[simp] theorem externalTrace_cpu (a : PhysAddr) (w : Bool) (d : Option Word) (s : State) : (externalTrace a w d s).cpu = s.cpu := rfl
@[simp] theorem externalTrace_bus (a : PhysAddr) (w : Bool) (d : Option Word) (s : State) : (externalTrace a w d s).bus = s.bus := rfl
@[simp] theorem externalTrace_ports (a : PhysAddr) (w : Bool) (d : Option Word) (s : State) : (externalTrace a w d s).ports = s.ports := rfl
@[simp] theorem externalTrace_pins (a : PhysAddr) (w : Bool) (d : Option Word) (s : State) : (externalTrace a w d s).pins = s.pins := rfl
@[simp] theorem externalTrace_gpt (a : PhysAddr) (w : Bool) (d : Option Word) (s : State) : (externalTrace a w d s).gpt = s.gpt := rfl
@[simp] theorem externalTrace_wdt (a : PhysAddr) (w : Bool) (d : Option Word) (s : State) : (externalTrace a w d s).wdt = s.wdt := rfl
@[simp] theorem externalTrace_asc (a : PhysAddr) (w : Bool) (d : Option Word) (s : State) : (externalTrace a w d s).asc = s.asc := rfl
@[simp] theorem externalTrace_ssc (a : PhysAddr) (w : Bool) (d : Option Word) (s : State) : (externalTrace a w d s).ssc = s.ssc := rfl
@[simp] theorem externalTrace_ssp (a : PhysAddr) (w : Bool) (d : Option Word) (s : State) : (externalTrace a w d s).ssp = s.ssp := rfl
@[simp] theorem externalTrace_ic (a : PhysAddr) (w : Bool) (d : Option Word) (s : State) : (externalTrace a w d s).ic = s.ic := rfl
@[simp] theorem externalTrace_pecc (a : PhysAddr) (w : Bool) (d : Option Word) (s : State) : (externalTrace a w d s).pecc = s.pecc := rfl
@[simp] theorem externalTrace_ext (a : PhysAddr) (w : Bool) (d : Option Word) (s : State) : (externalTrace a w d s).ext = s.ext := rfl
@[simp] theorem externalTrace_sys (a : PhysAddr) (w : Bool) (d : Option Word) (s : State) : (externalTrace a w d s).sys = s.sys := rfl
@[simp] theorem externalTrace_prev (a : PhysAddr) (w : Bool) (d : Option Word) (s : State) : (externalTrace a w d s).prev = s.prev := rfl
@[simp] theorem externalTrace_marks (a : PhysAddr) (w : Bool) (d : Option Word) (s : State) : (externalTrace a w d s).marks = s.marks := rfl
@[simp] theorem externalTrace_hz (a : PhysAddr) (w : Bool) (d : Option Word) (s : State) : (externalTrace a w d s).hz = s.hz := rfl
@[simp] theorem externalTrace_board (a : PhysAddr) (w : Bool) (d : Option Word) (s : State) : (externalTrace a w d s).board = s.board := rfl
@[simp] theorem externalTrace_mem (a : PhysAddr) (w : Bool) (d : Option Word) (s : State) : (externalTrace a w d s).mem = s.mem := rfl
@[simp] theorem externalTrace_clocks (a : PhysAddr) (w : Bool) (d : Option Word) (s : State) : (externalTrace a w d s).clocks = s.clocks := rfl
@[simp] theorem externalTrace_agenda (a : PhysAddr) (w : Bool) (d : Option Word) (s : State) : (externalTrace a w d s).agenda = s.agenda := rfl
@[simp] theorem externalTrace_answers (a : PhysAddr) (w : Bool) (d : Option Word) (s : State) : (externalTrace a w d s).answers = s.answers := rfl
@[simp] theorem externalTrace_gaps (a : PhysAddr) (w : Bool) (d : Option Word) (s : State) : (externalTrace a w d s).gaps = s.gaps := rfl

@[simp] theorem State.stalled_cpu (s : State) (x : Stall) : (s.stalled x).cpu = s.cpu := rfl
@[simp] theorem State.stalled_bus (s : State) (x : Stall) : (s.stalled x).bus = s.bus := rfl
@[simp] theorem State.stalled_ebc (s : State) (x : Stall) : (s.stalled x).ebc = s.ebc := rfl
@[simp] theorem State.stalled_ports (s : State) (x : Stall) : (s.stalled x).ports = s.ports := rfl
@[simp] theorem State.stalled_pins (s : State) (x : Stall) : (s.stalled x).pins = s.pins := rfl
@[simp] theorem State.stalled_gpt (s : State) (x : Stall) : (s.stalled x).gpt = s.gpt := rfl
@[simp] theorem State.stalled_wdt (s : State) (x : Stall) : (s.stalled x).wdt = s.wdt := rfl
@[simp] theorem State.stalled_asc (s : State) (x : Stall) : (s.stalled x).asc = s.asc := rfl
@[simp] theorem State.stalled_ssc (s : State) (x : Stall) : (s.stalled x).ssc = s.ssc := rfl
@[simp] theorem State.stalled_ssp (s : State) (x : Stall) : (s.stalled x).ssp = s.ssp := rfl
@[simp] theorem State.stalled_ic (s : State) (x : Stall) : (s.stalled x).ic = s.ic := rfl
@[simp] theorem State.stalled_pecc (s : State) (x : Stall) : (s.stalled x).pecc = s.pecc := rfl
@[simp] theorem State.stalled_ext (s : State) (x : Stall) : (s.stalled x).ext = s.ext := rfl
@[simp] theorem State.stalled_prev (s : State) (x : Stall) : (s.stalled x).prev = s.prev := rfl
@[simp] theorem State.stalled_marks (s : State) (x : Stall) : (s.stalled x).marks = s.marks := rfl
@[simp] theorem State.stalled_hz (s : State) (x : Stall) : (s.stalled x).hz = s.hz := rfl
@[simp] theorem State.stalled_board (s : State) (x : Stall) : (s.stalled x).board = s.board := rfl
@[simp] theorem State.stalled_mem (s : State) (x : Stall) : (s.stalled x).mem = s.mem := rfl
@[simp] theorem State.stalled_clocks (s : State) (x : Stall) : (s.stalled x).clocks = s.clocks := rfl
@[simp] theorem State.stalled_agenda (s : State) (x : Stall) : (s.stalled x).agenda = s.agenda := rfl
@[simp] theorem State.stalled_answers (s : State) (x : Stall) : (s.stalled x).answers = s.answers := rfl
@[simp] theorem State.stalled_gaps (s : State) (x : Stall) : (s.stalled x).gaps = s.gaps := rfl
@[simp] theorem State.stalled_free (s : State) (x : Stall) : (s.stalled x).free = s.free := rfl

@[simp] theorem State.lapsed_cpu (s : State) : (s.lapsed).cpu = s.cpu := rfl
@[simp] theorem State.lapsed_bus (s : State) : (s.lapsed).bus = s.bus := rfl
@[simp] theorem State.lapsed_ports (s : State) : (s.lapsed).ports = s.ports := rfl
@[simp] theorem State.lapsed_pins (s : State) : (s.lapsed).pins = s.pins := rfl
@[simp] theorem State.lapsed_gpt (s : State) : (s.lapsed).gpt = s.gpt := rfl
@[simp] theorem State.lapsed_wdt (s : State) : (s.lapsed).wdt = s.wdt := rfl
@[simp] theorem State.lapsed_asc (s : State) : (s.lapsed).asc = s.asc := rfl
@[simp] theorem State.lapsed_ssc (s : State) : (s.lapsed).ssc = s.ssc := rfl
@[simp] theorem State.lapsed_ssp (s : State) : (s.lapsed).ssp = s.ssp := rfl
@[simp] theorem State.lapsed_ic (s : State) : (s.lapsed).ic = s.ic := rfl
@[simp] theorem State.lapsed_pecc (s : State) : (s.lapsed).pecc = s.pecc := rfl
@[simp] theorem State.lapsed_ext (s : State) : (s.lapsed).ext = s.ext := rfl
@[simp] theorem State.lapsed_sys (s : State) : (s.lapsed).sys = s.sys := rfl
@[simp] theorem State.lapsed_prev (s : State) : (s.lapsed).prev = s.prev := rfl
@[simp] theorem State.lapsed_marks (s : State) : (s.lapsed).marks = s.marks := rfl
@[simp] theorem State.lapsed_hz (s : State) : (s.lapsed).hz = s.hz := rfl
@[simp] theorem State.lapsed_board (s : State) : (s.lapsed).board = s.board := rfl
@[simp] theorem State.lapsed_mem (s : State) : (s.lapsed).mem = s.mem := rfl
@[simp] theorem State.lapsed_agenda (s : State) : (s.lapsed).agenda = s.agenda := rfl
@[simp] theorem State.lapsed_answers (s : State) : (s.lapsed).answers = s.answers := rfl
@[simp] theorem State.lapsed_gaps (s : State) : (s.lapsed).gaps = s.gaps := rfl

@[simp] theorem State.prefetchTurn_cpu (s : State) : (s.prefetchTurn).cpu = s.cpu := rfl
@[simp] theorem State.prefetchTurn_bus (s : State) : (s.prefetchTurn).bus = s.bus := rfl
@[simp] theorem State.prefetchTurn_ports (s : State) : (s.prefetchTurn).ports = s.ports := rfl
@[simp] theorem State.prefetchTurn_pins (s : State) : (s.prefetchTurn).pins = s.pins := rfl
@[simp] theorem State.prefetchTurn_gpt (s : State) : (s.prefetchTurn).gpt = s.gpt := rfl
@[simp] theorem State.prefetchTurn_wdt (s : State) : (s.prefetchTurn).wdt = s.wdt := rfl
@[simp] theorem State.prefetchTurn_asc (s : State) : (s.prefetchTurn).asc = s.asc := rfl
@[simp] theorem State.prefetchTurn_ssc (s : State) : (s.prefetchTurn).ssc = s.ssc := rfl
@[simp] theorem State.prefetchTurn_ssp (s : State) : (s.prefetchTurn).ssp = s.ssp := rfl
@[simp] theorem State.prefetchTurn_ic (s : State) : (s.prefetchTurn).ic = s.ic := rfl
@[simp] theorem State.prefetchTurn_pecc (s : State) : (s.prefetchTurn).pecc = s.pecc := rfl
@[simp] theorem State.prefetchTurn_ext (s : State) : (s.prefetchTurn).ext = s.ext := rfl
@[simp] theorem State.prefetchTurn_sys (s : State) : (s.prefetchTurn).sys = s.sys := rfl
@[simp] theorem State.prefetchTurn_prev (s : State) : (s.prefetchTurn).prev = s.prev := rfl
@[simp] theorem State.prefetchTurn_marks (s : State) : (s.prefetchTurn).marks = s.marks := rfl
@[simp] theorem State.prefetchTurn_hz (s : State) : (s.prefetchTurn).hz = s.hz := rfl
@[simp] theorem State.prefetchTurn_board (s : State) : (s.prefetchTurn).board = s.board := rfl
@[simp] theorem State.prefetchTurn_mem (s : State) : (s.prefetchTurn).mem = s.mem := rfl
@[simp] theorem State.prefetchTurn_clocks (s : State) : (s.prefetchTurn).clocks = s.clocks := rfl
@[simp] theorem State.prefetchTurn_agenda (s : State) : (s.prefetchTurn).agenda = s.agenda := rfl
@[simp] theorem State.prefetchTurn_answers (s : State) : (s.prefetchTurn).answers = s.answers := rfl
@[simp] theorem State.prefetchTurn_gaps (s : State) : (s.prefetchTurn).gaps = s.gaps := rfl

@[simp] theorem State.mayReadAhead_cpu (s : State) (l : List PhysAddr) : (s.mayReadAhead l).cpu = s.cpu := rfl
@[simp] theorem State.mayReadAhead_bus (s : State) (l : List PhysAddr) : (s.mayReadAhead l).bus = s.bus := rfl
@[simp] theorem State.mayReadAhead_ports (s : State) (l : List PhysAddr) : (s.mayReadAhead l).ports = s.ports := rfl
@[simp] theorem State.mayReadAhead_pins (s : State) (l : List PhysAddr) : (s.mayReadAhead l).pins = s.pins := rfl
@[simp] theorem State.mayReadAhead_gpt (s : State) (l : List PhysAddr) : (s.mayReadAhead l).gpt = s.gpt := rfl
@[simp] theorem State.mayReadAhead_wdt (s : State) (l : List PhysAddr) : (s.mayReadAhead l).wdt = s.wdt := rfl
@[simp] theorem State.mayReadAhead_asc (s : State) (l : List PhysAddr) : (s.mayReadAhead l).asc = s.asc := rfl
@[simp] theorem State.mayReadAhead_ssc (s : State) (l : List PhysAddr) : (s.mayReadAhead l).ssc = s.ssc := rfl
@[simp] theorem State.mayReadAhead_ssp (s : State) (l : List PhysAddr) : (s.mayReadAhead l).ssp = s.ssp := rfl
@[simp] theorem State.mayReadAhead_ic (s : State) (l : List PhysAddr) : (s.mayReadAhead l).ic = s.ic := rfl
@[simp] theorem State.mayReadAhead_pecc (s : State) (l : List PhysAddr) : (s.mayReadAhead l).pecc = s.pecc := rfl
@[simp] theorem State.mayReadAhead_ext (s : State) (l : List PhysAddr) : (s.mayReadAhead l).ext = s.ext := rfl
@[simp] theorem State.mayReadAhead_sys (s : State) (l : List PhysAddr) : (s.mayReadAhead l).sys = s.sys := rfl
@[simp] theorem State.mayReadAhead_prev (s : State) (l : List PhysAddr) : (s.mayReadAhead l).prev = s.prev := rfl
@[simp] theorem State.mayReadAhead_marks (s : State) (l : List PhysAddr) : (s.mayReadAhead l).marks = s.marks := rfl
@[simp] theorem State.mayReadAhead_hz (s : State) (l : List PhysAddr) : (s.mayReadAhead l).hz = s.hz := rfl
@[simp] theorem State.mayReadAhead_board (s : State) (l : List PhysAddr) : (s.mayReadAhead l).board = s.board := rfl
@[simp] theorem State.mayReadAhead_mem (s : State) (l : List PhysAddr) : (s.mayReadAhead l).mem = s.mem := rfl
@[simp] theorem State.mayReadAhead_clocks (s : State) (l : List PhysAddr) : (s.mayReadAhead l).clocks = s.clocks := rfl
@[simp] theorem State.mayReadAhead_agenda (s : State) (l : List PhysAddr) : (s.mayReadAhead l).agenda = s.agenda := rfl
@[simp] theorem State.mayReadAhead_answers (s : State) (l : List PhysAddr) : (s.mayReadAhead l).answers = s.answers := rfl
@[simp] theorem State.mayReadAhead_gaps (s : State) (l : List PhysAddr) : (s.mayReadAhead l).gaps = s.gaps := rfl
@[simp] theorem State.mayReadAhead_free (s : State) (l : List PhysAddr) : (s.mayReadAhead l).free = s.free := rfl

@[simp] theorem startReset_pins (c : ResetCause) (s : State) : (startReset c s).pins = s.pins := rfl
@[simp] theorem startReset_board (c : ResetCause) (s : State) : (startReset c s).board = s.board := rfl
@[simp] theorem startReset_mem (c : ResetCause) (s : State) : (startReset c s).mem = s.mem := rfl
@[simp] theorem startReset_agenda (c : ResetCause) (s : State) : (startReset c s).agenda = s.agenda := rfl
@[simp] theorem startReset_answers (c : ResetCause) (s : State) : (startReset c s).answers = s.answers := rfl
@[simp] theorem startReset_gaps (c : ResetCause) (s : State) : (startReset c s).gaps = s.gaps := rfl
@[simp] theorem startReset_free (c : ResetCause) (s : State) : (startReset c s).free = s.free := rfl

@[simp] theorem waitForBus_cpu (s : State) : (waitForBus s).cpu = s.cpu := rfl
@[simp] theorem waitForBus_bus (s : State) : (waitForBus s).bus = s.bus := rfl
@[simp] theorem waitForBus_ports (s : State) : (waitForBus s).ports = s.ports := rfl
@[simp] theorem waitForBus_pins (s : State) : (waitForBus s).pins = s.pins := rfl
@[simp] theorem waitForBus_gpt (s : State) : (waitForBus s).gpt = s.gpt := rfl
@[simp] theorem waitForBus_wdt (s : State) : (waitForBus s).wdt = s.wdt := rfl
@[simp] theorem waitForBus_asc (s : State) : (waitForBus s).asc = s.asc := rfl
@[simp] theorem waitForBus_ssc (s : State) : (waitForBus s).ssc = s.ssc := rfl
@[simp] theorem waitForBus_ssp (s : State) : (waitForBus s).ssp = s.ssp := rfl
@[simp] theorem waitForBus_ic (s : State) : (waitForBus s).ic = s.ic := rfl
@[simp] theorem waitForBus_pecc (s : State) : (waitForBus s).pecc = s.pecc := rfl
@[simp] theorem waitForBus_ext (s : State) : (waitForBus s).ext = s.ext := rfl
@[simp] theorem waitForBus_sys (s : State) : (waitForBus s).sys = s.sys := rfl
@[simp] theorem waitForBus_prev (s : State) : (waitForBus s).prev = s.prev := rfl
@[simp] theorem waitForBus_marks (s : State) : (waitForBus s).marks = s.marks := rfl
@[simp] theorem waitForBus_hz (s : State) : (waitForBus s).hz = s.hz := rfl
@[simp] theorem waitForBus_board (s : State) : (waitForBus s).board = s.board := rfl
@[simp] theorem waitForBus_mem (s : State) : (waitForBus s).mem = s.mem := rfl
@[simp] theorem waitForBus_clocks (s : State) : (waitForBus s).clocks = s.clocks := rfl
@[simp] theorem waitForBus_agenda (s : State) : (waitForBus s).agenda = s.agenda := rfl
@[simp] theorem waitForBus_answers (s : State) : (waitForBus s).answers = s.answers := rfl
@[simp] theorem waitForBus_gaps (s : State) : (waitForBus s).gaps = s.gaps := rfl
@[simp] theorem waitForBus_free (s : State) : (waitForBus s).free = s.free := rfl

@[simp] theorem State.raiseIf_bus (s : State) (b : Bool) (k : Nat) : (s.raiseIf b k).bus = s.bus := by
  cases b <;> rfl
@[simp] theorem State.raiseIf_ebc (s : State) (b : Bool) (k : Nat) : (s.raiseIf b k).ebc = s.ebc := by
  cases b <;> rfl
@[simp] theorem State.raiseIf_ports (s : State) (b : Bool) (k : Nat) : (s.raiseIf b k).ports = s.ports := by
  cases b <;> rfl
@[simp] theorem State.raiseIf_pins (s : State) (b : Bool) (k : Nat) : (s.raiseIf b k).pins = s.pins := by
  cases b <;> rfl
@[simp] theorem State.raiseIf_gpt (s : State) (b : Bool) (k : Nat) : (s.raiseIf b k).gpt = s.gpt := by
  cases b <;> rfl
@[simp] theorem State.raiseIf_wdt (s : State) (b : Bool) (k : Nat) : (s.raiseIf b k).wdt = s.wdt := by
  cases b <;> rfl
@[simp] theorem State.raiseIf_asc (s : State) (b : Bool) (k : Nat) : (s.raiseIf b k).asc = s.asc := by
  cases b <;> rfl
@[simp] theorem State.raiseIf_ssc (s : State) (b : Bool) (k : Nat) : (s.raiseIf b k).ssc = s.ssc := by
  cases b <;> rfl
@[simp] theorem State.raiseIf_ssp (s : State) (b : Bool) (k : Nat) : (s.raiseIf b k).ssp = s.ssp := by
  cases b <;> rfl
@[simp] theorem State.raiseIf_ic (s : State) (b : Bool) (k : Nat) : (s.raiseIf b k).ic = s.ic := by
  cases b <;> rfl
@[simp] theorem State.raiseIf_pecc (s : State) (b : Bool) (k : Nat) : (s.raiseIf b k).pecc = s.pecc := by
  cases b <;> rfl
@[simp] theorem State.raiseIf_ext (s : State) (b : Bool) (k : Nat) : (s.raiseIf b k).ext = s.ext := by
  cases b <;> rfl
@[simp] theorem State.raiseIf_sys (s : State) (b : Bool) (k : Nat) : (s.raiseIf b k).sys = s.sys := by
  cases b <;> rfl
@[simp] theorem State.raiseIf_prev (s : State) (b : Bool) (k : Nat) : (s.raiseIf b k).prev = s.prev := by
  cases b <;> rfl
@[simp] theorem State.raiseIf_marks (s : State) (b : Bool) (k : Nat) : (s.raiseIf b k).marks = s.marks := by
  cases b <;> rfl
@[simp] theorem State.raiseIf_hz (s : State) (b : Bool) (k : Nat) : (s.raiseIf b k).hz = s.hz := by
  cases b <;> rfl
@[simp] theorem State.raiseIf_board (s : State) (b : Bool) (k : Nat) : (s.raiseIf b k).board = s.board := by
  cases b <;> rfl
@[simp] theorem State.raiseIf_mem (s : State) (b : Bool) (k : Nat) : (s.raiseIf b k).mem = s.mem := by
  cases b <;> rfl
@[simp] theorem State.raiseIf_clocks (s : State) (b : Bool) (k : Nat) : (s.raiseIf b k).clocks = s.clocks := by
  cases b <;> rfl
@[simp] theorem State.raiseIf_agenda (s : State) (b : Bool) (k : Nat) : (s.raiseIf b k).agenda = s.agenda := by
  cases b <;> rfl
@[simp] theorem State.raiseIf_answers (s : State) (b : Bool) (k : Nat) : (s.raiseIf b k).answers = s.answers := by
  cases b <;> rfl
@[simp] theorem State.raiseIf_gaps (s : State) (b : Bool) (k : Nat) : (s.raiseIf b k).gaps = s.gaps := by
  cases b <;> rfl
@[simp] theorem State.raiseIf_free (s : State) (b : Bool) (k : Nat) : (s.raiseIf b k).free = s.free := by
  cases b <;> rfl
@[simp] theorem State.raiseIf_cpu_ip (s : State) (b : Bool) (k : Nat) : (s.raiseIf b k).cpu.ip = s.cpu.ip := by
  cases b <;> rfl
@[simp] theorem State.raiseIf_cpu_csp (s : State) (b : Bool) (k : Nat) : (s.raiseIf b k).cpu.csp = s.cpu.csp := by
  cases b <;> rfl
@[simp] theorem State.raiseIf_cpu_psw (s : State) (b : Bool) (k : Nat) : (s.raiseIf b k).cpu.psw = s.cpu.psw := by
  cases b <;> rfl
@[simp] theorem State.raiseIf_cpu_syscon (s : State) (b : Bool) (k : Nat) : (s.raiseIf b k).cpu.syscon = s.cpu.syscon := by
  cases b <;> rfl
@[simp] theorem State.raiseIf_cpu_dpp0 (s : State) (b : Bool) (k : Nat) : (s.raiseIf b k).cpu.dpp0 = s.cpu.dpp0 := by
  cases b <;> rfl
@[simp] theorem State.raiseIf_cpu_dpp1 (s : State) (b : Bool) (k : Nat) : (s.raiseIf b k).cpu.dpp1 = s.cpu.dpp1 := by
  cases b <;> rfl
@[simp] theorem State.raiseIf_cpu_dpp2 (s : State) (b : Bool) (k : Nat) : (s.raiseIf b k).cpu.dpp2 = s.cpu.dpp2 := by
  cases b <;> rfl
@[simp] theorem State.raiseIf_cpu_dpp3 (s : State) (b : Bool) (k : Nat) : (s.raiseIf b k).cpu.dpp3 = s.cpu.dpp3 := by
  cases b <;> rfl
@[simp] theorem State.raiseIf_cpu_cp (s : State) (b : Bool) (k : Nat) : (s.raiseIf b k).cpu.cp = s.cpu.cp := by
  cases b <;> rfl
@[simp] theorem State.raiseIf_cpu_sp (s : State) (b : Bool) (k : Nat) : (s.raiseIf b k).cpu.sp = s.cpu.sp := by
  cases b <;> rfl
@[simp] theorem State.raiseIf_cpu_stkov (s : State) (b : Bool) (k : Nat) : (s.raiseIf b k).cpu.stkov = s.cpu.stkov := by
  cases b <;> rfl
@[simp] theorem State.raiseIf_cpu_stkun (s : State) (b : Bool) (k : Nat) : (s.raiseIf b k).cpu.stkun = s.cpu.stkun := by
  cases b <;> rfl
@[simp] theorem State.raiseIf_cpu_mdh (s : State) (b : Bool) (k : Nat) : (s.raiseIf b k).cpu.mdh = s.cpu.mdh := by
  cases b <;> rfl
@[simp] theorem State.raiseIf_cpu_mdl (s : State) (b : Bool) (k : Nat) : (s.raiseIf b k).cpu.mdl = s.cpu.mdl := by
  cases b <;> rfl
@[simp] theorem State.raiseIf_cpu_mdc (s : State) (b : Bool) (k : Nat) : (s.raiseIf b k).cpu.mdc = s.cpu.mdc := by
  cases b <;> rfl

@[simp] theorem State.setFlags_bus (s : State) (f : FlagUpdate) : (s.setFlags f).bus = s.bus := by
  unfold State.setFlags; split <;> rfl
@[simp] theorem State.setFlags_ebc (s : State) (f : FlagUpdate) : (s.setFlags f).ebc = s.ebc := by
  unfold State.setFlags; split <;> rfl
@[simp] theorem State.setFlags_ports (s : State) (f : FlagUpdate) : (s.setFlags f).ports = s.ports := by
  unfold State.setFlags; split <;> rfl
@[simp] theorem State.setFlags_pins (s : State) (f : FlagUpdate) : (s.setFlags f).pins = s.pins := by
  unfold State.setFlags; split <;> rfl
@[simp] theorem State.setFlags_gpt (s : State) (f : FlagUpdate) : (s.setFlags f).gpt = s.gpt := by
  unfold State.setFlags; split <;> rfl
@[simp] theorem State.setFlags_wdt (s : State) (f : FlagUpdate) : (s.setFlags f).wdt = s.wdt := by
  unfold State.setFlags; split <;> rfl
@[simp] theorem State.setFlags_asc (s : State) (f : FlagUpdate) : (s.setFlags f).asc = s.asc := by
  unfold State.setFlags; split <;> rfl
@[simp] theorem State.setFlags_ssc (s : State) (f : FlagUpdate) : (s.setFlags f).ssc = s.ssc := by
  unfold State.setFlags; split <;> rfl
@[simp] theorem State.setFlags_ssp (s : State) (f : FlagUpdate) : (s.setFlags f).ssp = s.ssp := by
  unfold State.setFlags; split <;> rfl
@[simp] theorem State.setFlags_ic (s : State) (f : FlagUpdate) : (s.setFlags f).ic = s.ic := by
  unfold State.setFlags; split <;> rfl
@[simp] theorem State.setFlags_pecc (s : State) (f : FlagUpdate) : (s.setFlags f).pecc = s.pecc := by
  unfold State.setFlags; split <;> rfl
@[simp] theorem State.setFlags_ext (s : State) (f : FlagUpdate) : (s.setFlags f).ext = s.ext := by
  unfold State.setFlags; split <;> rfl
@[simp] theorem State.setFlags_sys (s : State) (f : FlagUpdate) : (s.setFlags f).sys = s.sys := by
  unfold State.setFlags; split <;> rfl
@[simp] theorem State.setFlags_prev (s : State) (f : FlagUpdate) : (s.setFlags f).prev = s.prev := by
  unfold State.setFlags; split <;> rfl
@[simp] theorem State.setFlags_marks (s : State) (f : FlagUpdate) : (s.setFlags f).marks = s.marks := by
  unfold State.setFlags; split <;> rfl
@[simp] theorem State.setFlags_hz (s : State) (f : FlagUpdate) : (s.setFlags f).hz = s.hz := by
  unfold State.setFlags; split <;> rfl
@[simp] theorem State.setFlags_board (s : State) (f : FlagUpdate) : (s.setFlags f).board = s.board := by
  unfold State.setFlags; split <;> rfl
@[simp] theorem State.setFlags_mem (s : State) (f : FlagUpdate) : (s.setFlags f).mem = s.mem := by
  unfold State.setFlags; split <;> rfl
@[simp] theorem State.setFlags_clocks (s : State) (f : FlagUpdate) : (s.setFlags f).clocks = s.clocks := by
  unfold State.setFlags; split <;> rfl
@[simp] theorem State.setFlags_agenda (s : State) (f : FlagUpdate) : (s.setFlags f).agenda = s.agenda := by
  unfold State.setFlags; split <;> rfl
@[simp] theorem State.setFlags_answers (s : State) (f : FlagUpdate) : (s.setFlags f).answers = s.answers := by
  unfold State.setFlags; split <;> rfl
@[simp] theorem State.setFlags_gaps (s : State) (f : FlagUpdate) : (s.setFlags f).gaps = s.gaps := by
  unfold State.setFlags; split <;> rfl
@[simp] theorem State.setFlags_free (s : State) (f : FlagUpdate) : (s.setFlags f).free = s.free := by
  unfold State.setFlags; split <;> rfl
@[simp] theorem State.setFlags_cpu_ip (s : State) (f : FlagUpdate) : (s.setFlags f).cpu.ip = s.cpu.ip := by
  unfold State.setFlags; split <;> rfl
@[simp] theorem State.setFlags_cpu_csp (s : State) (f : FlagUpdate) : (s.setFlags f).cpu.csp = s.cpu.csp := by
  unfold State.setFlags; split <;> rfl
@[simp] theorem State.setFlags_cpu_syscon (s : State) (f : FlagUpdate) : (s.setFlags f).cpu.syscon = s.cpu.syscon := by
  unfold State.setFlags; split <;> rfl
@[simp] theorem State.setFlags_cpu_dpp0 (s : State) (f : FlagUpdate) : (s.setFlags f).cpu.dpp0 = s.cpu.dpp0 := by
  unfold State.setFlags; split <;> rfl
@[simp] theorem State.setFlags_cpu_dpp1 (s : State) (f : FlagUpdate) : (s.setFlags f).cpu.dpp1 = s.cpu.dpp1 := by
  unfold State.setFlags; split <;> rfl
@[simp] theorem State.setFlags_cpu_dpp2 (s : State) (f : FlagUpdate) : (s.setFlags f).cpu.dpp2 = s.cpu.dpp2 := by
  unfold State.setFlags; split <;> rfl
@[simp] theorem State.setFlags_cpu_dpp3 (s : State) (f : FlagUpdate) : (s.setFlags f).cpu.dpp3 = s.cpu.dpp3 := by
  unfold State.setFlags; split <;> rfl
@[simp] theorem State.setFlags_cpu_cp (s : State) (f : FlagUpdate) : (s.setFlags f).cpu.cp = s.cpu.cp := by
  unfold State.setFlags; split <;> rfl
@[simp] theorem State.setFlags_cpu_sp (s : State) (f : FlagUpdate) : (s.setFlags f).cpu.sp = s.cpu.sp := by
  unfold State.setFlags; split <;> rfl
@[simp] theorem State.setFlags_cpu_stkov (s : State) (f : FlagUpdate) : (s.setFlags f).cpu.stkov = s.cpu.stkov := by
  unfold State.setFlags; split <;> rfl
@[simp] theorem State.setFlags_cpu_stkun (s : State) (f : FlagUpdate) : (s.setFlags f).cpu.stkun = s.cpu.stkun := by
  unfold State.setFlags; split <;> rfl
@[simp] theorem State.setFlags_cpu_mdh (s : State) (f : FlagUpdate) : (s.setFlags f).cpu.mdh = s.cpu.mdh := by
  unfold State.setFlags; split <;> rfl
@[simp] theorem State.setFlags_cpu_mdl (s : State) (f : FlagUpdate) : (s.setFlags f).cpu.mdl = s.cpu.mdl := by
  unfold State.setFlags; split <;> rfl
@[simp] theorem State.setFlags_cpu_mdc (s : State) (f : FlagUpdate) : (s.setFlags f).cpu.mdc = s.cpu.mdc := by
  unfold State.setFlags; split <;> rfl
@[simp] theorem State.setFlags_cpu_tfr (s : State) (f : FlagUpdate) : (s.setFlags f).cpu.tfr = s.cpu.tfr := by
  unfold State.setFlags; split <;> rfl

@[simp] theorem State.request_cpu (s : State) (n : IrqNode) : (s.request n).cpu = s.cpu := by
  unfold State.request; split <;> rfl
@[simp] theorem State.request_bus (s : State) (n : IrqNode) : (s.request n).bus = s.bus := by
  unfold State.request; split <;> rfl
@[simp] theorem State.request_ebc (s : State) (n : IrqNode) : (s.request n).ebc = s.ebc := by
  unfold State.request; split <;> rfl
@[simp] theorem State.request_ports (s : State) (n : IrqNode) : (s.request n).ports = s.ports := by
  unfold State.request; split <;> rfl
@[simp] theorem State.request_pins (s : State) (n : IrqNode) : (s.request n).pins = s.pins := by
  unfold State.request; split <;> rfl
@[simp] theorem State.request_gpt (s : State) (n : IrqNode) : (s.request n).gpt = s.gpt := by
  unfold State.request; split <;> rfl
@[simp] theorem State.request_wdt (s : State) (n : IrqNode) : (s.request n).wdt = s.wdt := by
  unfold State.request; split <;> rfl
@[simp] theorem State.request_asc (s : State) (n : IrqNode) : (s.request n).asc = s.asc := by
  unfold State.request; split <;> rfl
@[simp] theorem State.request_ssc (s : State) (n : IrqNode) : (s.request n).ssc = s.ssc := by
  unfold State.request; split <;> rfl
@[simp] theorem State.request_ssp (s : State) (n : IrqNode) : (s.request n).ssp = s.ssp := by
  unfold State.request; split <;> rfl
@[simp] theorem State.request_pecc (s : State) (n : IrqNode) : (s.request n).pecc = s.pecc := by
  unfold State.request; split <;> rfl
@[simp] theorem State.request_ext (s : State) (n : IrqNode) : (s.request n).ext = s.ext := by
  unfold State.request; split <;> rfl
@[simp] theorem State.request_sys (s : State) (n : IrqNode) : (s.request n).sys = s.sys := by
  unfold State.request; split <;> rfl
@[simp] theorem State.request_prev (s : State) (n : IrqNode) : (s.request n).prev = s.prev := by
  unfold State.request; split <;> rfl
@[simp] theorem State.request_marks (s : State) (n : IrqNode) : (s.request n).marks = s.marks := by
  unfold State.request; split <;> rfl
@[simp] theorem State.request_hz (s : State) (n : IrqNode) : (s.request n).hz = s.hz := by
  unfold State.request; split <;> rfl
@[simp] theorem State.request_board (s : State) (n : IrqNode) : (s.request n).board = s.board := by
  unfold State.request; split <;> rfl
@[simp] theorem State.request_mem (s : State) (n : IrqNode) : (s.request n).mem = s.mem := by
  unfold State.request; split <;> rfl
@[simp] theorem State.request_clocks (s : State) (n : IrqNode) : (s.request n).clocks = s.clocks := by
  unfold State.request; split <;> rfl
@[simp] theorem State.request_agenda (s : State) (n : IrqNode) : (s.request n).agenda = s.agenda := by
  unfold State.request; split <;> rfl
@[simp] theorem State.request_answers (s : State) (n : IrqNode) : (s.request n).answers = s.answers := by
  unfold State.request; split <;> rfl
@[simp] theorem State.request_gaps (s : State) (n : IrqNode) : (s.request n).gaps = s.gaps := by
  unfold State.request; split <;> rfl
@[simp] theorem State.request_free (s : State) (n : IrqNode) : (s.request n).free = s.free := by
  unfold State.request; split <;> rfl

@[simp] theorem State.requestIf_cpu (s : State) (b : Bool) (n : IrqNode) : (s.requestIf b n).cpu = s.cpu := by
  cases b <;> simp [State.requestIf]
@[simp] theorem State.requestIf_bus (s : State) (b : Bool) (n : IrqNode) : (s.requestIf b n).bus = s.bus := by
  cases b <;> simp [State.requestIf]
@[simp] theorem State.requestIf_ebc (s : State) (b : Bool) (n : IrqNode) : (s.requestIf b n).ebc = s.ebc := by
  cases b <;> simp [State.requestIf]
@[simp] theorem State.requestIf_ports (s : State) (b : Bool) (n : IrqNode) : (s.requestIf b n).ports = s.ports := by
  cases b <;> simp [State.requestIf]
@[simp] theorem State.requestIf_pins (s : State) (b : Bool) (n : IrqNode) : (s.requestIf b n).pins = s.pins := by
  cases b <;> simp [State.requestIf]
@[simp] theorem State.requestIf_gpt (s : State) (b : Bool) (n : IrqNode) : (s.requestIf b n).gpt = s.gpt := by
  cases b <;> simp [State.requestIf]
@[simp] theorem State.requestIf_wdt (s : State) (b : Bool) (n : IrqNode) : (s.requestIf b n).wdt = s.wdt := by
  cases b <;> simp [State.requestIf]
@[simp] theorem State.requestIf_asc (s : State) (b : Bool) (n : IrqNode) : (s.requestIf b n).asc = s.asc := by
  cases b <;> simp [State.requestIf]
@[simp] theorem State.requestIf_ssc (s : State) (b : Bool) (n : IrqNode) : (s.requestIf b n).ssc = s.ssc := by
  cases b <;> simp [State.requestIf]
@[simp] theorem State.requestIf_ssp (s : State) (b : Bool) (n : IrqNode) : (s.requestIf b n).ssp = s.ssp := by
  cases b <;> simp [State.requestIf]
@[simp] theorem State.requestIf_pecc (s : State) (b : Bool) (n : IrqNode) : (s.requestIf b n).pecc = s.pecc := by
  cases b <;> simp [State.requestIf]
@[simp] theorem State.requestIf_ext (s : State) (b : Bool) (n : IrqNode) : (s.requestIf b n).ext = s.ext := by
  cases b <;> simp [State.requestIf]
@[simp] theorem State.requestIf_sys (s : State) (b : Bool) (n : IrqNode) : (s.requestIf b n).sys = s.sys := by
  cases b <;> simp [State.requestIf]
@[simp] theorem State.requestIf_prev (s : State) (b : Bool) (n : IrqNode) : (s.requestIf b n).prev = s.prev := by
  cases b <;> simp [State.requestIf]
@[simp] theorem State.requestIf_marks (s : State) (b : Bool) (n : IrqNode) : (s.requestIf b n).marks = s.marks := by
  cases b <;> simp [State.requestIf]
@[simp] theorem State.requestIf_hz (s : State) (b : Bool) (n : IrqNode) : (s.requestIf b n).hz = s.hz := by
  cases b <;> simp [State.requestIf]
@[simp] theorem State.requestIf_board (s : State) (b : Bool) (n : IrqNode) : (s.requestIf b n).board = s.board := by
  cases b <;> simp [State.requestIf]
@[simp] theorem State.requestIf_mem (s : State) (b : Bool) (n : IrqNode) : (s.requestIf b n).mem = s.mem := by
  cases b <;> simp [State.requestIf]
@[simp] theorem State.requestIf_clocks (s : State) (b : Bool) (n : IrqNode) : (s.requestIf b n).clocks = s.clocks := by
  cases b <;> simp [State.requestIf]
@[simp] theorem State.requestIf_agenda (s : State) (b : Bool) (n : IrqNode) : (s.requestIf b n).agenda = s.agenda := by
  cases b <;> simp [State.requestIf]
@[simp] theorem State.requestIf_answers (s : State) (b : Bool) (n : IrqNode) : (s.requestIf b n).answers = s.answers := by
  cases b <;> simp [State.requestIf]
@[simp] theorem State.requestIf_gaps (s : State) (b : Bool) (n : IrqNode) : (s.requestIf b n).gaps = s.gaps := by
  cases b <;> simp [State.requestIf]
@[simp] theorem State.requestIf_free (s : State) (b : Bool) (n : IrqNode) : (s.requestIf b n).free = s.free := by
  cases b <;> simp [State.requestIf]

@[simp] theorem State.setMd_bus (s : State) (r : MdResult) : (s.setMd r).bus = s.bus := by
  simp [State.setMd]
@[simp] theorem State.setMd_ebc (s : State) (r : MdResult) : (s.setMd r).ebc = s.ebc := by
  simp [State.setMd]
@[simp] theorem State.setMd_ports (s : State) (r : MdResult) : (s.setMd r).ports = s.ports := by
  simp [State.setMd]
@[simp] theorem State.setMd_pins (s : State) (r : MdResult) : (s.setMd r).pins = s.pins := by
  simp [State.setMd]
@[simp] theorem State.setMd_gpt (s : State) (r : MdResult) : (s.setMd r).gpt = s.gpt := by
  simp [State.setMd]
@[simp] theorem State.setMd_wdt (s : State) (r : MdResult) : (s.setMd r).wdt = s.wdt := by
  simp [State.setMd]
@[simp] theorem State.setMd_asc (s : State) (r : MdResult) : (s.setMd r).asc = s.asc := by
  simp [State.setMd]
@[simp] theorem State.setMd_ssc (s : State) (r : MdResult) : (s.setMd r).ssc = s.ssc := by
  simp [State.setMd]
@[simp] theorem State.setMd_ssp (s : State) (r : MdResult) : (s.setMd r).ssp = s.ssp := by
  simp [State.setMd]
@[simp] theorem State.setMd_ic (s : State) (r : MdResult) : (s.setMd r).ic = s.ic := by
  simp [State.setMd]
@[simp] theorem State.setMd_pecc (s : State) (r : MdResult) : (s.setMd r).pecc = s.pecc := by
  simp [State.setMd]
@[simp] theorem State.setMd_ext (s : State) (r : MdResult) : (s.setMd r).ext = s.ext := by
  simp [State.setMd]
@[simp] theorem State.setMd_sys (s : State) (r : MdResult) : (s.setMd r).sys = s.sys := by
  simp [State.setMd]
@[simp] theorem State.setMd_prev (s : State) (r : MdResult) : (s.setMd r).prev = s.prev := by
  simp [State.setMd]
@[simp] theorem State.setMd_marks (s : State) (r : MdResult) : (s.setMd r).marks = s.marks := by
  simp [State.setMd]
@[simp] theorem State.setMd_hz (s : State) (r : MdResult) : (s.setMd r).hz = s.hz := by
  simp [State.setMd]
@[simp] theorem State.setMd_board (s : State) (r : MdResult) : (s.setMd r).board = s.board := by
  simp [State.setMd]
@[simp] theorem State.setMd_mem (s : State) (r : MdResult) : (s.setMd r).mem = s.mem := by
  simp [State.setMd]
@[simp] theorem State.setMd_clocks (s : State) (r : MdResult) : (s.setMd r).clocks = s.clocks := by
  simp [State.setMd]
@[simp] theorem State.setMd_agenda (s : State) (r : MdResult) : (s.setMd r).agenda = s.agenda := by
  simp [State.setMd]
@[simp] theorem State.setMd_answers (s : State) (r : MdResult) : (s.setMd r).answers = s.answers := by
  simp [State.setMd]
@[simp] theorem State.setMd_gaps (s : State) (r : MdResult) : (s.setMd r).gaps = s.gaps := by
  simp [State.setMd]
@[simp] theorem State.setMd_free (s : State) (r : MdResult) : (s.setMd r).free = s.free := by
  simp [State.setMd]
@[simp] theorem State.setMd_cpu_ip (s : State) (r : MdResult) : (s.setMd r).cpu.ip = s.cpu.ip := by
  simp [State.setMd]
@[simp] theorem State.setMd_cpu_csp (s : State) (r : MdResult) : (s.setMd r).cpu.csp = s.cpu.csp := by
  simp [State.setMd]
@[simp] theorem State.setMd_cpu_syscon (s : State) (r : MdResult) : (s.setMd r).cpu.syscon = s.cpu.syscon := by
  simp [State.setMd]
@[simp] theorem State.setMd_cpu_dpp0 (s : State) (r : MdResult) : (s.setMd r).cpu.dpp0 = s.cpu.dpp0 := by
  simp [State.setMd]
@[simp] theorem State.setMd_cpu_dpp1 (s : State) (r : MdResult) : (s.setMd r).cpu.dpp1 = s.cpu.dpp1 := by
  simp [State.setMd]
@[simp] theorem State.setMd_cpu_dpp2 (s : State) (r : MdResult) : (s.setMd r).cpu.dpp2 = s.cpu.dpp2 := by
  simp [State.setMd]
@[simp] theorem State.setMd_cpu_dpp3 (s : State) (r : MdResult) : (s.setMd r).cpu.dpp3 = s.cpu.dpp3 := by
  simp [State.setMd]
@[simp] theorem State.setMd_cpu_cp (s : State) (r : MdResult) : (s.setMd r).cpu.cp = s.cpu.cp := by
  simp [State.setMd]
@[simp] theorem State.setMd_cpu_sp (s : State) (r : MdResult) : (s.setMd r).cpu.sp = s.cpu.sp := by
  simp [State.setMd]
@[simp] theorem State.setMd_cpu_stkov (s : State) (r : MdResult) : (s.setMd r).cpu.stkov = s.cpu.stkov := by
  simp [State.setMd]
@[simp] theorem State.setMd_cpu_stkun (s : State) (r : MdResult) : (s.setMd r).cpu.stkun = s.cpu.stkun := by
  simp [State.setMd]
@[simp] theorem State.setMd_cpu_tfr (s : State) (r : MdResult) : (s.setMd r).cpu.tfr = s.cpu.tfr := by
  simp [State.setMd]

@[simp] theorem State.pushed_bus (s : State) (v : Word) : (s.pushed v).bus = s.bus := by
  simp [State.pushed]
@[simp] theorem State.pushed_ebc (s : State) (v : Word) : (s.pushed v).ebc = s.ebc := by
  simp [State.pushed]
@[simp] theorem State.pushed_ports (s : State) (v : Word) : (s.pushed v).ports = s.ports := by
  simp [State.pushed]
@[simp] theorem State.pushed_pins (s : State) (v : Word) : (s.pushed v).pins = s.pins := by
  simp [State.pushed]
@[simp] theorem State.pushed_gpt (s : State) (v : Word) : (s.pushed v).gpt = s.gpt := by
  simp [State.pushed]
@[simp] theorem State.pushed_wdt (s : State) (v : Word) : (s.pushed v).wdt = s.wdt := by
  simp [State.pushed]
@[simp] theorem State.pushed_asc (s : State) (v : Word) : (s.pushed v).asc = s.asc := by
  simp [State.pushed]
@[simp] theorem State.pushed_ssc (s : State) (v : Word) : (s.pushed v).ssc = s.ssc := by
  simp [State.pushed]
@[simp] theorem State.pushed_ssp (s : State) (v : Word) : (s.pushed v).ssp = s.ssp := by
  simp [State.pushed]
@[simp] theorem State.pushed_ic (s : State) (v : Word) : (s.pushed v).ic = s.ic := by
  simp [State.pushed]
@[simp] theorem State.pushed_pecc (s : State) (v : Word) : (s.pushed v).pecc = s.pecc := by
  simp [State.pushed]
@[simp] theorem State.pushed_ext (s : State) (v : Word) : (s.pushed v).ext = s.ext := by
  simp [State.pushed]
@[simp] theorem State.pushed_sys (s : State) (v : Word) : (s.pushed v).sys = s.sys := by
  simp [State.pushed]
@[simp] theorem State.pushed_prev (s : State) (v : Word) : (s.pushed v).prev = s.prev := by
  simp [State.pushed]
@[simp] theorem State.pushed_hz (s : State) (v : Word) : (s.pushed v).hz = s.hz := by
  simp [State.pushed]
@[simp] theorem State.pushed_board (s : State) (v : Word) : (s.pushed v).board = s.board := by
  simp [State.pushed]
@[simp] theorem State.pushed_clocks (s : State) (v : Word) : (s.pushed v).clocks = s.clocks := by
  simp [State.pushed]
@[simp] theorem State.pushed_agenda (s : State) (v : Word) : (s.pushed v).agenda = s.agenda := by
  simp [State.pushed]
@[simp] theorem State.pushed_answers (s : State) (v : Word) : (s.pushed v).answers = s.answers := by
  simp [State.pushed]
@[simp] theorem State.pushed_gaps (s : State) (v : Word) : (s.pushed v).gaps = s.gaps := by
  simp [State.pushed]
@[simp] theorem State.pushed_free (s : State) (v : Word) : (s.pushed v).free = s.free := by
  simp [State.pushed]
@[simp] theorem State.pushed_cpu_ip (s : State) (v : Word) : (s.pushed v).cpu.ip = s.cpu.ip := by
  simp [State.pushed]
@[simp] theorem State.pushed_cpu_csp (s : State) (v : Word) : (s.pushed v).cpu.csp = s.cpu.csp := by
  simp [State.pushed]
@[simp] theorem State.pushed_cpu_psw (s : State) (v : Word) : (s.pushed v).cpu.psw = s.cpu.psw := by
  simp [State.pushed]
@[simp] theorem State.pushed_cpu_syscon (s : State) (v : Word) : (s.pushed v).cpu.syscon = s.cpu.syscon := by
  simp [State.pushed]
@[simp] theorem State.pushed_cpu_dpp0 (s : State) (v : Word) : (s.pushed v).cpu.dpp0 = s.cpu.dpp0 := by
  simp [State.pushed]
@[simp] theorem State.pushed_cpu_dpp1 (s : State) (v : Word) : (s.pushed v).cpu.dpp1 = s.cpu.dpp1 := by
  simp [State.pushed]
@[simp] theorem State.pushed_cpu_dpp2 (s : State) (v : Word) : (s.pushed v).cpu.dpp2 = s.cpu.dpp2 := by
  simp [State.pushed]
@[simp] theorem State.pushed_cpu_dpp3 (s : State) (v : Word) : (s.pushed v).cpu.dpp3 = s.cpu.dpp3 := by
  simp [State.pushed]
@[simp] theorem State.pushed_cpu_cp (s : State) (v : Word) : (s.pushed v).cpu.cp = s.cpu.cp := by
  simp [State.pushed]
@[simp] theorem State.pushed_cpu_stkov (s : State) (v : Word) : (s.pushed v).cpu.stkov = s.cpu.stkov := by
  simp [State.pushed]
@[simp] theorem State.pushed_cpu_stkun (s : State) (v : Word) : (s.pushed v).cpu.stkun = s.cpu.stkun := by
  simp [State.pushed]
@[simp] theorem State.pushed_cpu_mdh (s : State) (v : Word) : (s.pushed v).cpu.mdh = s.cpu.mdh := by
  simp [State.pushed]
@[simp] theorem State.pushed_cpu_mdl (s : State) (v : Word) : (s.pushed v).cpu.mdl = s.cpu.mdl := by
  simp [State.pushed]
@[simp] theorem State.pushed_cpu_mdc (s : State) (v : Word) : (s.pushed v).cpu.mdc = s.cpu.mdc := by
  simp [State.pushed]

@[simp] theorem State.popped_bus (s : State) : (s.popped).bus = s.bus := by
  simp [State.popped]
@[simp] theorem State.popped_ebc (s : State) : (s.popped).ebc = s.ebc := by
  simp [State.popped]
@[simp] theorem State.popped_ports (s : State) : (s.popped).ports = s.ports := by
  simp [State.popped]
@[simp] theorem State.popped_pins (s : State) : (s.popped).pins = s.pins := by
  simp [State.popped]
@[simp] theorem State.popped_gpt (s : State) : (s.popped).gpt = s.gpt := by
  simp [State.popped]
@[simp] theorem State.popped_wdt (s : State) : (s.popped).wdt = s.wdt := by
  simp [State.popped]
@[simp] theorem State.popped_asc (s : State) : (s.popped).asc = s.asc := by
  simp [State.popped]
@[simp] theorem State.popped_ssc (s : State) : (s.popped).ssc = s.ssc := by
  simp [State.popped]
@[simp] theorem State.popped_ssp (s : State) : (s.popped).ssp = s.ssp := by
  simp [State.popped]
@[simp] theorem State.popped_ic (s : State) : (s.popped).ic = s.ic := by
  simp [State.popped]
@[simp] theorem State.popped_pecc (s : State) : (s.popped).pecc = s.pecc := by
  simp [State.popped]
@[simp] theorem State.popped_ext (s : State) : (s.popped).ext = s.ext := by
  simp [State.popped]
@[simp] theorem State.popped_sys (s : State) : (s.popped).sys = s.sys := by
  simp [State.popped]
@[simp] theorem State.popped_prev (s : State) : (s.popped).prev = s.prev := by
  simp [State.popped]
@[simp] theorem State.popped_marks (s : State) : (s.popped).marks = s.marks := by
  simp [State.popped]
@[simp] theorem State.popped_hz (s : State) : (s.popped).hz = s.hz := by
  simp [State.popped]
@[simp] theorem State.popped_board (s : State) : (s.popped).board = s.board := by
  simp [State.popped]
@[simp] theorem State.popped_mem (s : State) : (s.popped).mem = s.mem := by
  simp [State.popped]
@[simp] theorem State.popped_clocks (s : State) : (s.popped).clocks = s.clocks := by
  simp [State.popped]
@[simp] theorem State.popped_agenda (s : State) : (s.popped).agenda = s.agenda := by
  simp [State.popped]
@[simp] theorem State.popped_answers (s : State) : (s.popped).answers = s.answers := by
  simp [State.popped]
@[simp] theorem State.popped_gaps (s : State) : (s.popped).gaps = s.gaps := by
  simp [State.popped]
@[simp] theorem State.popped_free (s : State) : (s.popped).free = s.free := by
  simp [State.popped]
@[simp] theorem State.popped_cpu_ip (s : State) : (s.popped).cpu.ip = s.cpu.ip := by
  simp [State.popped]
@[simp] theorem State.popped_cpu_csp (s : State) : (s.popped).cpu.csp = s.cpu.csp := by
  simp [State.popped]
@[simp] theorem State.popped_cpu_psw (s : State) : (s.popped).cpu.psw = s.cpu.psw := by
  simp [State.popped]
@[simp] theorem State.popped_cpu_syscon (s : State) : (s.popped).cpu.syscon = s.cpu.syscon := by
  simp [State.popped]
@[simp] theorem State.popped_cpu_dpp0 (s : State) : (s.popped).cpu.dpp0 = s.cpu.dpp0 := by
  simp [State.popped]
@[simp] theorem State.popped_cpu_dpp1 (s : State) : (s.popped).cpu.dpp1 = s.cpu.dpp1 := by
  simp [State.popped]
@[simp] theorem State.popped_cpu_dpp2 (s : State) : (s.popped).cpu.dpp2 = s.cpu.dpp2 := by
  simp [State.popped]
@[simp] theorem State.popped_cpu_dpp3 (s : State) : (s.popped).cpu.dpp3 = s.cpu.dpp3 := by
  simp [State.popped]
@[simp] theorem State.popped_cpu_cp (s : State) : (s.popped).cpu.cp = s.cpu.cp := by
  simp [State.popped]
@[simp] theorem State.popped_cpu_stkov (s : State) : (s.popped).cpu.stkov = s.cpu.stkov := by
  simp [State.popped]
@[simp] theorem State.popped_cpu_stkun (s : State) : (s.popped).cpu.stkun = s.cpu.stkun := by
  simp [State.popped]
@[simp] theorem State.popped_cpu_mdh (s : State) : (s.popped).cpu.mdh = s.cpu.mdh := by
  simp [State.popped]
@[simp] theorem State.popped_cpu_mdl (s : State) : (s.popped).cpu.mdl = s.cpu.mdl := by
  simp [State.popped]
@[simp] theorem State.popped_cpu_mdc (s : State) : (s.popped).cpu.mdc = s.cpu.mdc := by
  simp [State.popped]

/-- The stack pointer after a push (R99). -/
@[simp] theorem State.pushed_cpu_sp (s : State) (v : Word) : (s.pushed v).cpu.sp = spDown s := by
  simp [State.pushed, State.raiseIf]; split <;> rfl

/-- The stack pointer after a pop (R99). -/
@[simp] theorem State.popped_cpu_sp (s : State) : s.popped.cpu.sp = spUp s := by
  simp [State.popped, State.raiseIf]; split <;> rfl

/-- Where a push stores (R99). -/
theorem State.pushed_mem (s : State) (v : Word) :
    (s.pushed v).mem = Memory.writeWord s.mem ((stackPhys s (spDown s)).getD 0) v := by
  simp only [State.pushed, State.raiseIf_mem]; rfl

@[simp] theorem State.storeWord_mem (s : State) (a : Nat) (v : Word) :
    (s.storeWord a v).mem = Memory.writeWord s.mem a v := rfl
@[simp] theorem State.storeByte_mem (s : State) (a : Nat) (v : Byte) :
    (s.storeByte a v).mem = Memory.write s.mem a v := rfl
@[simp] theorem State.setGprWord_mem (s : State) (n : BitVec 4) (v : Word) :
    (s.setGprWord n v).mem = Memory.writeWord s.mem (gprWordAddr s n) v := rfl
@[simp] theorem State.setGprByte_mem (s : State) (n : BitVec 4) (v : Byte) :
    (s.setGprByte n v).mem = Memory.write s.mem (gprByteAddr s n) v := rfl
@[simp] theorem State.begin_marks (s : State) : s.begin.marks = Marks.clear := rfl
@[simp] theorem State.storeWord_marks_pswWritten (s : State) (a : Nat) (v : Word) :
    (s.storeWord a v).marks.pswWritten = s.marks.pswWritten := rfl
@[simp] theorem State.storeByte_marks_pswWritten (s : State) (a : Nat) (v : Byte) :
    (s.storeByte a v).marks.pswWritten = s.marks.pswWritten := rfl
@[simp] theorem State.storeWord_marks_branched (s : State) (a : Nat) (v : Word) :
    (s.storeWord a v).marks.branched = s.marks.branched := rfl
@[simp] theorem State.storeByte_marks_branched (s : State) (a : Nat) (v : Byte) :
    (s.storeByte a v).marks.branched = s.marks.branched := rfl

/-- IP after an instruction (R26). -/
theorem finish_cpu_ip (len : Nat) (s t : State) :
    (finish len s t).cpu.ip = if t.marks.branched then t.cpu.ip else s.cpu.ip + BitVec.ofNat 16 len := rfl

/-- Flags after an implicit update (R38). -/
theorem State.setFlags_cpu_psw (s : State) (f : FlagUpdate) :
    (s.setFlags f).cpu.psw = if s.marks.pswWritten then s.cpu.psw else f.apply s.cpu.psw := by
  unfold State.setFlags; split <;> rfl

end Sys2Proof.Machine
end

