-- ==== Sys2Proof/Laws/Ops.lean ====
section
/-! SUPPORT. What each shared operation can do, said once: when it answers, what it answers, in which state. -/

namespace Sys2Proof.Machine

/-! ## The monad -/

theorem Op.bind_apply {α β : Type} (x : Op α) (f : α → Op β) (s : State) :
    (x >>= f) s = match x s with
      | .ok p => f p.1 p.2
      | .error e => .error e := by
  show (x s).bind _ = _
  cases x s <;> rfl

theorem Op.bind_of_ok {α β : Type} {x : Op α} {f : α → Op β} {s t : State} {a : α} (h : x s = .ok (a, t)) :
    (x >>= f) s = f a t := by
  rw [Op.bind_apply, h]

theorem Op.bind_of_error {α β : Type} {x : Op α} {f : α → Op β} {s : State} {e : Stop} (h : x s = .error e) :
    (x >>= f) s = .error e := by
  rw [Op.bind_apply, h]

theorem Op.bind_eq_ok {α β : Type} {x : Op α} {f : α → Op β} {s u : State} {b : β} :
    (x >>= f) s = .ok (b, u) ↔ ∃ a t, x s = .ok (a, t) ∧ f a t = .ok (b, u) := by
  rw [Op.bind_apply]
  cases h : x s with
  | ok p => obtain ⟨a, t⟩ := p; simp
  | error e => simp

theorem Op.bind_eq_error {α β : Type} {x : Op α} {f : α → Op β} {s : State} {e : Stop} :
    (x >>= f) s = .error e ↔ x s = .error e ∨ ∃ a t, x s = .ok (a, t) ∧ f a t = .error e := by
  rw [Op.bind_apply]
  cases h : x s with
  | ok p => obtain ⟨a, t⟩ := p; simp
  | error e' => simp

@[simp] theorem Op.pure_apply {α : Type} (a : α) (s : State) : (pure a : Op α) s = .ok (a, s) := rfl
@[simp] theorem look_apply {α : Type} (f : State → α) (s : State) : look f s = .ok (f s, s) := rfl
@[simp] theorem update_apply (f : State → State) (s : State) : update f s = .ok ((), f s) := rfl
@[simp] theorem stop_apply {α : Type} (e : Stop) (s : State) : (stop e : Op α) s = .error e := rfl

theorem refuseIf_apply (b : State → Bool) (r : Refusal) (s : State) :
    refuseIf b r s = if b s then .error (.refused r) else .ok ((), s) := rfl

/-- A guarded answer. -/
theorem Op.guard_eq_ok {α : Type} {b : Bool} {a v : α} {s t : State} {e : Stop} :
    (if b then Except.ok (a, s) else .error e) = .ok (v, t) ↔ b = true ∧ v = a ∧ t = s := by
  cases b with
  | true => simp only [if_true, Except.ok.injEq, Prod.mk.injEq, true_and]; constructor <;> (rintro ⟨rfl, rfl⟩; exact ⟨rfl, rfl⟩)
  | false => simp

/-! ## Registers -/

theorem readGpr_apply (n : BitVec 4) (s : State) :
    readGpr n s = if gprWordOk s n then .ok (s.gprWord n, s) else .error (.refused .gprOutsideIram) := by
  simp only [readGpr, Op.bind_apply, refuseIf_apply]
  cases gprWordOk s n <;> rfl

theorem writeGpr_apply (n : BitVec 4) (v : Word) (s : State) :
    writeGpr n v s = if gprWordOk s n then .ok ((), s.setGprWord n v) else .error (.refused .gprOutsideIram) := by
  simp only [writeGpr, Op.bind_apply, refuseIf_apply]
  cases gprWordOk s n <;> rfl

theorem readGprB_apply (n : BitVec 4) (s : State) :
    readGprB n s = if gprByteOk s n then .ok (s.gprByte n, s) else .error (.refused .gprOutsideIram) := by
  simp only [readGprB, Op.bind_apply, refuseIf_apply]
  cases gprByteOk s n <;> rfl

theorem writeGprB_apply (n : BitVec 4) (v : Byte) (s : State) :
    writeGprB n v s = if gprByteOk s n then .ok ((), s.setGprByte n v) else .error (.refused .gprOutsideIram) := by
  simp only [writeGprB, Op.bind_apply, refuseIf_apply]
  cases gprByteOk s n <;> rfl

/-- Where a GPR lies depends on CP, the board and nothing else. -/
theorem gprWordOk_congr {s t : State} (n : BitVec 4) (hp : t.prev = s.prev) (hb : t.board = s.board) :
    gprWordOk t n = gprWordOk s n := by simp [gprWordOk, gprWordAddr, hp, hb]

theorem gprByteOk_congr {s t : State} (n : BitVec 4) (hp : t.prev = s.prev) (hb : t.board = s.board) :
    gprByteOk t n = gprByteOk s n := by simp [gprByteOk, gprByteAddr, hp, hb]

theorem gprWordAddr_congr {s t : State} (n : BitVec 4) (hp : t.prev = s.prev) : gprWordAddr t n = gprWordAddr s n := by
  simp [gprWordAddr, hp]

theorem gprByteAddr_congr {s t : State} (n : BitVec 4) (hp : t.prev = s.prev) : gprByteAddr t n = gprByteAddr s n := by
  simp [gprByteAddr, hp]

@[simp] theorem gprWordOk_begin (s : State) (n : BitVec 4) : gprWordOk s.begin n = gprWordOk s n := rfl
@[simp] theorem gprByteOk_begin (s : State) (n : BitVec 4) : gprByteOk s.begin n = gprByteOk s n := rfl
@[simp] theorem gprWordAddr_begin (s : State) (n : BitVec 4) : gprWordAddr s.begin n = gprWordAddr s n := rfl
@[simp] theorem gprByteAddr_begin (s : State) (n : BitVec 4) : gprByteAddr s.begin n = gprByteAddr s n := rfl
@[simp] theorem gprWord_begin (s : State) (n : BitVec 4) : s.begin.gprWord n = s.gprWord n := rfl
@[simp] theorem gprByte_begin (s : State) (n : BitVec 4) : s.begin.gprByte n = s.gprByte n := rfl
@[simp] theorem gprWordOk_storeWord (s : State) (a : Nat) (v : Word) (n : BitVec 4) :
    gprWordOk (s.storeWord a v) n = gprWordOk s n := rfl
@[simp] theorem gprWordOk_setGprWord (s : State) (m : BitVec 4) (v : Word) (n : BitVec 4) :
    gprWordOk (s.setGprWord m v) n = gprWordOk s n := rfl
@[simp] theorem gprByteOk_setGprWord (s : State) (m : BitVec 4) (v : Word) (n : BitVec 4) :
    gprByteOk (s.setGprWord m v) n = gprByteOk s n := rfl
@[simp] theorem gprWordAddr_setGprWord (s : State) (m : BitVec 4) (v : Word) (n : BitVec 4) :
    gprWordAddr (s.setGprWord m v) n = gprWordAddr s n := rfl
@[simp] theorem gprByteAddr_setGprWord (s : State) (m : BitVec 4) (v : Word) (n : BitVec 4) :
    gprByteAddr (s.setGprWord m v) n = gprByteAddr s n := rfl

/-- A register that has just been written reads as written. -/
@[simp] theorem gprWord_setGprWord_self (s : State) (n : BitVec 4) (v : Word) : (s.setGprWord n v).gprWord n = v :=
  Memory.readWord_writeWord_self _ _ _

@[simp] theorem gprByte_setGprByte_self (s : State) (n : BitVec 4) (v : Byte) : (s.setGprByte n v).gprByte n = v :=
  Memory.read_write_self _ _ _

/-- `writeGpr` changes memory and the list of stores, nothing else. -/
theorem writeGpr_ok {n : BitVec 4} {v : Word} {s t : State} :
    writeGpr n v s = .ok ((), t) ↔ gprWordOk s n = true ∧ t = s.setGprWord n v := by
  rw [writeGpr_apply, Op.guard_eq_ok]; simp

theorem readGpr_ok {n : BitVec 4} {v : Word} {s t : State} :
    readGpr n s = .ok (v, t) ↔ gprWordOk s n = true ∧ v = s.gprWord n ∧ t = s := by
  rw [readGpr_apply, Op.guard_eq_ok]

theorem writeGprB_ok {n : BitVec 4} {v : Byte} {s t : State} :
    writeGprB n v s = .ok ((), t) ↔ gprByteOk s n = true ∧ t = s.setGprByte n v := by
  rw [writeGprB_apply, Op.guard_eq_ok]; simp

theorem readGprB_ok {n : BitVec 4} {v : Byte} {s t : State} :
    readGprB n s = .ok (v, t) ↔ gprByteOk s n = true ∧ v = s.gprByte n ∧ t = s := by
  rw [readGprB_apply, Op.guard_eq_ok]

/-! ## Special function registers -/

/-- Among registers of distinct addresses a search by address finds the one that has it, if that one qualifies. -/
theorem find?_address {l : List Sfr} (h : (l.map sfrAddr).Nodup) {r : Sfr} (hr : r ∈ l) (q : Sfr → Bool) :
    l.find? (fun x => sfrAddr x == sfrAddr r && q x) = if q r then some r else none := by
  induction l with
  | nil => cases hr
  | cons a l ih =>
    rw [List.map_cons, List.nodup_cons] at h
    rw [List.find?_cons]
    rcases List.mem_cons.1 hr with rfl | hm
    · cases hq : q r
      · simp only [beq_self_eq_true, Bool.and_false, Bool.false_eq_true, if_false, List.find?_eq_none]
        intro x hx
        have : sfrAddr x ≠ sfrAddr r := fun e => h.1 (e ▸ List.mem_map_of_mem hx)
        simp [this]
      · simp
    · have : (sfrAddr a == sfrAddr r) = false := by
        simpa using fun e : sfrAddr a = sfrAddr r => h.1 (e ▸ List.mem_map_of_mem hm)
      rw [this, Bool.false_and]
      exact ih h.2 hm

set_option maxRecDepth 20000 in
/-- No two registers of R57's table have the same address. -/
theorem sfrAddr_nodup : (allSfrs.map sfrAddr).Nodup := by decide

theorem mem_allSfrs (r : Sfr) : r ∈ allSfrs := by
  rw [← List.elem_iff]
  cases r with
  | ic n => cases n <;> rfl
  | pecc x => exact (by decide : ∀ x : Fin 8, List.elem (Sfr.pecc x) allSfrs = true) x
  | _ => rfl

/-- A register answers at its address if the device has it (R3, R56, R57). -/
theorem sfrAt_address (b : Board) (r : Sfr) : sfrAt b (sfrAddr r) = if sfrPresent b r then some r else none :=
  find?_address sfrAddr_nodup (mem_allSfrs r) _

/-- A node that the device has has its interrupt control register (R342). -/
theorem nodeRegisterPresent_of_node {b : Board} {n : IrqNode} (h : nodePresent b n = true) : nodeRegisterPresent b n = true := by
  unfold nodePresent at h
  unfold nodeRegisterPresent
  cases hd : b.device with
  | c165 => rfl
  | c163 => cases n <;> simp_all [nodePresent]

/-- Where R57's table is followed, the C163 lacks the registers of the SSC's nodes only (R53, R57, log entry 44). -/
theorem nodeRegisterPresent_spare {b : Board} (h : b.spareRegisters = true) (n : IrqNode) :
    nodeRegisterPresent b n = true ↔ b.device = .c165 ∨ n ∉ [IrqNode.ssct, .sscr, .ssce] := by
  unfold nodeRegisterPresent
  cases hd : b.device <;> cases n <;> simp [h]

/-- Only a timer that runs can meet a reserved code (U22, log entry 64). -/
theorem timerCodeReserved_runs {g : Gpt} (h : timerCodeReserved g = true) :
    bitOf g.t2con 6 = true ∨ bitOf g.t3con 6 = true ∨ bitOf g.t4con 6 = true ∨ bitOf g.t6con 6 = true := by
  simp only [timerCodeReserved, coreCodeReserved, auxCodeReserved, Bool.or_eq_true, Bool.and_eq_true] at h
  rcases h with ((h | h) | h) | h <;> simp [h.1]

/-- The CPU's own registers are on every board at their addresses (R57). -/
theorem sfrAt_cpu (b : Board) {r : Sfr} (h : r ∈ [Sfr.dpp0, .dpp1, .dpp2, .dpp3, .csp, .mdh, .mdl, .cp, .sp, .stkov, .stkun,
    .mdc, .psw, .syscon, .zeros, .ones, .tfr]) : sfrAt b (sfrAddr r) = some r := by
  rw [sfrAt_address, if_pos]
  cases r <;> first | rfl | exact absurd h (by simp)

theorem readSfrWord_ok {a : Nat} {v : Word} {s t : State} :
    readSfrWord a s = .ok (v, t) ↔
      match sfrAt s.board a with
      | some r => v = readSfr r s ∧ t = sfrReadEffect r s
      | none => v = 0 ∧ t = s := by
  unfold readSfrWord
  cases sfrAt s.board a <;> simp only [Except.ok.injEq, Prod.mk.injEq] <;> constructor <;>
    (rintro ⟨rfl, rfl⟩; exact ⟨rfl, rfl⟩)

theorem writeSfrWord_ok {a : Nat} {v : Word} {s t : State} :
    writeSfrWord a v s = .ok ((), t) ↔
      match sfrAt s.board a with
      | some r => sfrWriteRefusal r v s = none ∧ t = writeSfr r v s
      | none => t = s := by
  unfold writeSfrWord
  cases sfrAt s.board a with
  | none =>
    simp only [Except.ok.injEq, Prod.mk.injEq, true_and]
    exact eq_comm
  | some r =>
    cases h : sfrWriteRefusal r v s with
    | some e => simp [h]
    | none =>
      simp only [h, Except.ok.injEq, Prod.mk.injEq, true_and]
      exact eq_comm

/-! ## Data addresses -/

theorem translate_apply (a : Word) (s : State) :
    translate a s = if dataRemapped s a then .error (.refused .romRemapped) else .ok (dataAddr s a, s) := by
  simp only [translate, Op.bind_apply, refuseIf_apply]
  cases dataRemapped s a <;> rfl

/-- A word operand is read at an even address only, at the physical address of R91 to R93. -/
theorem readWordOperand_apply (a : Word) (s : State) :
    readWordOperand a s =
      if isOdd a then .error (.trap 2)
      else if dataRemapped s a then .error (.refused .romRemapped)
      else readPhysWord (dataAddr s a) s := by
  unfold readWordOperand
  split
  · rfl
  · simp only [Op.bind_apply, translate_apply]
    cases dataRemapped s a <;> simp

theorem writeWordOperand_apply (a v : Word) (s : State) :
    writeWordOperand a v s =
      if isOdd a then .error (.trap 2)
      else if dataRemapped s a then .error (.refused .romRemapped)
      else writePhysWord (dataAddr s a) v s := by
  unfold writeWordOperand
  split
  · rfl
  · simp only [Op.bind_apply, translate_apply]
    cases dataRemapped s a <;> simp

theorem readByteOperand_apply (a : Word) (s : State) :
    readByteOperand a s =
      if dataRemapped s a then .error (.refused .romRemapped) else readPhysByte (dataAddr s a) s := by
  simp only [readByteOperand, Op.bind_apply, translate_apply]
  cases dataRemapped s a <;> simp

theorem writeByteOperand_apply (a : Word) (v : Byte) (s : State) :
    writeByteOperand a v s =
      if dataRemapped s a then .error (.refused .romRemapped) else writePhysByte (dataAddr s a) v s := by
  simp only [writeByteOperand, Op.bind_apply, translate_apply]
  cases dataRemapped s a <;> simp

/-! ## The system stack -/

theorem push_ok {v : Word} {s t : State} {u : Unit} :
    push v s = .ok (u, t) ↔ stackRefusal s (spDown s) = none ∧ t = s.pushed v := by
  unfold push
  cases stackRefusal s (spDown s) with
  | some r => simp
  | none => simp only [Except.ok.injEq, Prod.mk.injEq, true_and]; exact eq_comm

theorem pop_ok {v : Word} {s t : State} :
    pop s = .ok (v, t) ↔ stackRefusal s s.cpu.sp = none ∧ v = s.stackTop ∧ t = s.popped := by
  unfold pop
  cases stackRefusal s s.cpu.sp with
  | some r => simp
  | none =>
    simp only [Except.ok.injEq, Prod.mk.injEq, true_and]
    constructor <;> (rintro ⟨rfl, rfl⟩; exact ⟨rfl, rfl⟩)

/-! ## The frame of an instruction -/

/-- An instruction whose body answers goes on to the state `finish` gives. -/
theorem runInstr_of_ok {len : Nat} {body : Op Unit} {s t : State} (h : body s.begin = .ok ((), t)) :
    runInstr len body s = .next (finish len s t) := by
  simp [runInstr, h]

/-- An instruction abandoned by a class B trap has no effect but the flag and the advance of IP (D19). -/
theorem runInstr_of_trap {len flag : Nat} {body : Op Unit} {s : State} (h : body s.begin = .error (.trap flag)) :
    runInstr len body s = .next (abandon len flag s) := by
  simp [runInstr, h]

theorem runInstr_of_refused {len : Nat} {body : Op Unit} {s : State} {r : Refusal}
    (h : body s.begin = .error (.refused r)) : runInstr len body s = .refused r := by
  simp [runInstr, h]

/-- Everything an instruction can end in. -/
theorem runInstr_cases {len : Nat} {body : Op Unit} {s t : State} (h : runInstr len body s = .next t) :
    (∃ u, body s.begin = .ok ((), u) ∧ t = finish len s u) ∨
    (∃ flag, body s.begin = .error (.trap flag) ∧ t = abandon len flag s) ∨
    (body s.begin = .error .busHeld ∧ t = waitForBus s) ∨ (body s.begin = .error .notReady ∧ t = s.stalled .instr) := by
  unfold runInstr at h
  split at h
  · next u hb => exact .inl ⟨u, hb, by simpa using h.symm⟩
  · next f hb => exact .inr (.inl ⟨f, hb, by simpa using h.symm⟩)
  · next hb => exact .inr (.inr (.inl ⟨hb, by simpa using h.symm⟩))
  · next hb => exact .inr (.inr (.inr ⟨hb, by simpa using h.symm⟩))
  · cases h

theorem runPopInstr_of_ok {len : Nat} {body : Op Unit} {s t : State} (hs : s.marks.spWritten = false)
    (h : body s.begin = .ok ((), t)) : runPopInstr len body s = .next (finish len s t) := by
  simp [runPopInstr, hs, runInstr_of_ok h]

end Sys2Proof.Machine
end

