-- ==== Sys2Proof/Laws/Arith.lean ====
section
/-! SUPPORT. The flag computations agree with the spec's sentences about carries and signs. -/

namespace Sys2Proof.Machine

/-! ## Bits of PSW -/

/-- Reading one bit back after setting one. -/
theorem bitOf_withBit (w : Word) (n m : Nat) (b : Bool) (hn : n < 16) (hm : m < 16) :
    bitOf (withBit w n b) m = if m = n then b else bitOf w m := by
  unfold bitOf withBit
  by_cases h : m = n
  · subst h
    cases b <;> simp [hm]
  · cases b
    · simp [h, hm]
      intro _
      by_cases hlt : m < n
      · exact Or.inl (by simp [hlt])
      · right
        have : (1#16).getLsbD (m - n) = false := by
          rw [BitVec.getLsbD_one]; simp; omega
        simpa using this
    · simp [h, hm]
      intro hlt
      omega

/-- Every bit of PSW after a flag update (R29). -/
theorem FlagUpdate.bitOf_apply (f : FlagUpdate) (p : Word) (m : Nat) (hm : m < 16) :
    bitOf (f.apply p) m =
      if m = 4 then f.e.getD (bitOf p 4) else if m = 3 then f.z.getD (bitOf p 3)
      else if m = 2 then f.v.getD (bitOf p 2) else if m = 1 then f.c.getD (bitOf p 1)
      else if m = 0 then f.n.getD (bitOf p 0) else bitOf p m := by
  obtain ⟨e, z, v, c, n⟩ := f
  unfold FlagUpdate.apply
  have put : ∀ (k : Nat) (b : Option Bool) (w : Word), k < 16 →
      bitOf (putFlag k b w) m = if m = k then b.getD (bitOf w m) else bitOf w m := by
    intro k b w hk
    cases b with
    | none => simp [putFlag]
    | some x => simpa [putFlag] using bitOf_withBit w k m x hk hm
  rw [put 4 _ _ (by omega), put 3 _ _ (by omega), put 2 _ _ (by omega), put 1 _ _ (by omega), put 0 _ _ (by omega)]
  by_cases h4 : m = 4
  · subst h4; simp
  · by_cases h3 : m = 3
    · subst h3; simp
    · by_cases h2 : m = 2
      · subst h2; simp
      · by_cases h1 : m = 1
        · subst h1; simp
        · by_cases h0 : m = 0
          · subst h0; simp
          · simp [h4, h3, h2, h1, h0]

/-- The five flags after a flag update. -/
theorem condFlags_apply (f : FlagUpdate) (p : Word) :
    condFlags (f.apply p) =
      { e := f.e.getD (condFlags p).e, z := f.z.getD (condFlags p).z, v := f.v.getD (condFlags p).v, c := f.c.getD (condFlags p).c
        n := f.n.getD (condFlags p).n } := by
  simp [condFlags, FlagUpdate.bitOf_apply]

@[simp] theorem condFlags_apply_allFlags (e z v c n : Bool) (p : Word) :
    condFlags ((allFlags e z v c n).apply p) = { e := e, z := z, v := v, c := c, n := n } := by
  simp [condFlags_apply, allFlags]

/-- A flag update leaves the other bits of PSW. -/
theorem FlagUpdate.apply_status (f : FlagUpdate) (p : Word) : f.apply p &&& 0xFFE0 = p &&& 0xFFE0 := by
  apply BitVec.eq_of_getLsbD_eq
  intro i hi
  have h := FlagUpdate.bitOf_apply f p i hi
  unfold bitOf at h
  rw [BitVec.getLsbD_and, BitVec.getLsbD_and, h]
  by_cases h4 : i = 4
  · subst h4; simp
  · by_cases h3 : i = 3
    · subst h3; simp
    · by_cases h2 : i = 2
      · subst h2; simp
      · by_cases h1 : i = 1
        · subst h1; simp
        · by_cases h0 : i = 0
          · subst h0; simp
          · simp [h4, h3, h2, h1, h0]

/-! ## Addition and subtraction -/

/-- V of an addition by the signs (R32). -/
theorem addN_eq {w : Nat} (a b : BitVec (w + 1)) (c : Bool) :
    addN a b c = (a + b + BitVec.ofNat (w + 1) c.toNat, decide (2 ^ (w + 1) ≤ a.toNat + b.toNat + c.toNat),
      a.msb == b.msb && (a + b + BitVec.ofNat (w + 1) c.toNat).msb != a.msb) := by
  have h1 : BitVec.ofNat (w + 1) (a.toNat + b.toNat + c.toNat) = a + b + BitVec.ofNat (w + 1) c.toNat := by
    apply BitVec.eq_of_toNat_eq; simp [BitVec.toNat_add]
  have e1 : 2 ^ (w + 1) = 2 * 2 ^ w := by rw [Nat.pow_succ]; omega
  have hP : 0 < 2 ^ w := by positivity
  simp only [addN, ← h1, Prod.mk.injEq, true_and, outOfRange, Nat.add_sub_cancel]
  rw [Bool.eq_iff_iff]
  simp only [BitVec.msb_eq_decide, BitVec.toNat_ofNat, BitVec.toInt_eq_toNat_cond, Nat.add_sub_cancel,
    decide_eq_true_eq, Bool.and_eq_true, beq_iff_eq, bne_iff_ne, ne_eq, decide_eq_decide]
  have ha := a.isLt
  have hb := b.isLt
  have hc : c.toNat ≤ 1 := by cases c <;> simp
  have hcast : ((2 : Int) ^ w) = ((2 ^ w : Nat) : Int) := by push_cast; rfl
  rw [hcast, e1] at *
  generalize 2 ^ w = P at *
  generalize a.toNat = A at *
  generalize b.toNat = B at *
  generalize c.toNat = C at *
  by_cases hs : A + B + C < 2 * P
  · rw [Nat.mod_eq_of_lt hs]
    split <;> split <;> omega
  · rw [Nat.mod_eq_sub_mod (by omega), Nat.mod_eq_of_lt (by omega)]
    split <;> split <;> omega

/-- V of a subtraction by the signs (R32). -/
theorem subN_eq {w : Nat} (a b : BitVec (w + 1)) (c : Bool) :
    subN a b c = (a - b - BitVec.ofNat (w + 1) c.toNat, decide (a.toNat < b.toNat + c.toNat),
      a.msb != b.msb && (a - b - BitVec.ofNat (w + 1) c.toNat).msb != a.msb) := by
  have h1 : BitVec.ofInt (w + 1) ((a.toNat : Int) - b.toNat - c.toNat) = a - b - BitVec.ofNat (w + 1) c.toNat := by
    rw [Int.sub_eq_add_neg, Int.sub_eq_add_neg, BitVec.ofInt_add, BitVec.ofInt_add, BitVec.ofInt_neg, BitVec.ofInt_neg]
    simp only [BitVec.ofInt_natCast, BitVec.ofNat_toNat, BitVec.setWidth_eq, BitVec.sub_eq_add_neg]
  have e1 : 2 ^ (w + 1) = 2 * 2 ^ w := by rw [Nat.pow_succ]; omega
  have hP : 0 < 2 ^ w := by positivity
  simp only [subN, ← h1, Prod.mk.injEq, true_and, outOfRange, Nat.add_sub_cancel]
  rw [Bool.eq_iff_iff]
  simp only [BitVec.msb_eq_decide, BitVec.toNat_ofInt, BitVec.toInt_eq_toNat_cond, Nat.add_sub_cancel,
    decide_eq_true_eq, Bool.and_eq_true, bne_iff_ne, ne_eq, decide_eq_decide]
  have ha := a.isLt
  have hb := b.isLt
  have hc : c.toNat ≤ 1 := by cases c <;> simp
  have hcast : ((2 : Int) ^ w) = ((2 ^ w : Nat) : Int) := by push_cast; rfl
  rw [hcast, e1] at *
  generalize 2 ^ w = P at *
  generalize a.toNat = A at *
  generalize b.toNat = B at *
  generalize c.toNat = C at *
  by_cases hs : A < B + C
  · have hm : ((A : Int) - B - C) % ((2 * P : Nat) : Int) = A - B - C + (2 * P : Nat) := by
      rw [← Int.add_emod_right, Int.emod_eq_of_lt] <;> push_cast <;> omega
    rw [hm]
    split <;> split <;> omega
  · have hm : ((A : Int) - B - C) % ((2 * P : Nat) : Int) = A - B - C := by
      rw [Int.emod_eq_of_lt] <;> push_cast <;> omega
    rw [hm]
    split <;> split <;> omega

/-- The model's two-operand result is the spec's. -/
theorem aluResult_value {w : Nat} (op : Alu) (a b : BitVec (w + 1)) (c z : Bool) :
    (aluResult op a b c z).1 = aluTested op a b c := by
  cases op <;> simp [aluResult, sumFlags, logicFlags, addN_eq, subN_eq, aluTested, aluValue]

/-- The model's flags of a two-operand instruction are the spec's. -/
theorem condFlags_aluResult {w : Nat} (op : Alu) (a b : BitVec (w + 1)) (p : Word) :
    condFlags ((aluResult op a b (bitOf p 1) (bitOf p 3)).2.apply p) = aluCond op a b (condFlags p) := by
  cases op <;>
    (simp only [aluResult, sumFlags, logicFlags, addN_eq, subN_eq, condFlags_apply_allFlags]
     simp [aluTested, aluValue, aluCond, aluOverflow, aluCarry, aluChains, isMin, condFlags, Bool.and_comm]
     try rfl)

end Sys2Proof.Machine
end

