-- ==== Sys2Proof/Laws/Operands.lean ====
section
/-! SUPPORT. What the shared bodies of the instruction families do, said once. -/

namespace Sys2Proof.Machine

theorem setFlags_apply (f : FlagUpdate) (s : State) : setFlags f s = .ok ((), s.setFlags f) := rfl

/-- A comparison sets the flags and writes nothing. -/
theorem aluFinish_cmp {w : Nat} (a b : BitVec w) (write : BitVec w → Op Unit) (s : State) :
    aluFinish .cmp a b write s
      = .ok ((), s.setFlags (aluResult .cmp a b (bitOf s.cpu.psw 1) (bitOf s.cpu.psw 3)).2) := by
  simp [aluFinish, Op.bind_apply, setFlags_apply]

/-- Any other two-operand instruction writes the result, then sets the flags. -/
theorem aluFinish_of_ne {w : Nat} {op : Alu} (h : op ≠ .cmp) {a b : BitVec w} {write : BitVec w → Op Unit} {s t : State}
    (hw : write (aluResult op a b (bitOf s.cpu.psw 1) (bitOf s.cpu.psw 3)).1 s = .ok ((), t)) :
    aluFinish op a b write s
      = .ok ((), t.setFlags (aluResult op a b (bitOf s.cpu.psw 1) (bitOf s.cpu.psw 3)).2) := by
  simp [aluFinish, Op.bind_apply, setFlags_apply, h, hw]

theorem aluTested_of_ne {w : Nat} {op : Alu} (h : op ≠ .cmp) (a b : BitVec w) (c : Bool) :
    aluTested op a b c = aluValue op a b c := by
  cases op <;> simp_all [aluTested]

theorem unaryWord_apply (f : Word → Word × FlagUpdate) (n : BitVec 4) (s : State) :
    unaryWord f n s =
      if gprWordOk s n then .ok ((), (s.setGprWord n (f (s.gprWord n)).1).setFlags (f (s.gprWord n)).2)
      else .error (.refused .gprOutsideIram) := by
  simp only [unaryWord, Op.bind_apply, readGpr_apply, writeGpr_apply, setFlags_apply]
  cases h : gprWordOk s n <;> simp [h]

theorem unaryByte_apply (f : Byte → Byte × FlagUpdate) (n : BitVec 4) (s : State) :
    unaryByte f n s =
      if gprByteOk s n then .ok ((), (s.setGprByte n (f (s.gprByte n)).1).setFlags (f (s.gprByte n)).2)
      else .error (.refused .gprOutsideIram) := by
  simp only [unaryByte, Op.bind_apply, readGprB_apply, writeGprB_apply, setFlags_apply]
  cases h : gprByteOk s n <;> simp [h]

theorem cmpStep_apply (n : BitVec 4) (b delta : Word) (s : State) :
    cmpStep n b delta s =
      if gprWordOk s n then
        .ok ((), (s.setGprWord n (s.gprWord n + delta)).setFlags (aluResult .cmp (s.gprWord n) b false false).2)
      else .error (.refused .gprOutsideIram) := by
  simp only [cmpStep, Op.bind_apply, readGpr_apply, writeGpr_apply, setFlags_apply]
  cases h : gprWordOk s n <;> simp [h]


theorem setFlags_marks (s : State) (f : FlagUpdate) : (s.setFlags f).marks = s.marks := by
  unfold State.setFlags; split <;> rfl

theorem setFlags_psw {s : State} {f : FlagUpdate} (h : s.marks.pswWritten = false) :
    (s.setFlags f).cpu.psw = f.apply s.cpu.psw := by
  rw [State.setFlags_cpu_psw, if_neg (by simp [h])]

end Sys2Proof.Machine
end

