-- ==== Sys2Proof/Laws/External.lean ====
section
/-! SUPPORT. What an access to the external bus can change, said once: the traces of its cycles, what other masters do
between them, the devices' answers, and the cells that it stores. -/

namespace Sys2Proof.Machine

/-! ## What reads change -/

theorem Undisturbed.congr {s t : State} (hg : t.gaps <:+ s.gaps) (hp : t.cpu.psw = s.cpu.psw) (h : Undisturbed s) :
    Undisturbed t := by
  rcases h with h | h
  · exact .inl (List.suffix_nil.1 (h ▸ hg))
  · exact .inr (hp ▸ h)

theorem OnlyRead.refl (s : State) : OnlyRead s s := by constructor <;> simp

theorem OnlyRead.psw_eq {s t : State} (h : OnlyRead s t) : t.cpu.psw = s.cpu.psw := by rw [h.cpu]

theorem OnlyRead.pswWritten {s t : State} (h : OnlyRead s t) : t.marks.pswWritten = s.marks.pswWritten := by
  rw [h.marks]

theorem OnlyRead.undisturbed {s t : State} (h : OnlyRead s t) (k : Undisturbed s) : Undisturbed t :=
  k.congr h.gaps h.psw_eq

theorem OnlyRead.trans {s t u : State} (h : OnlyRead s t) (k : OnlyRead t u) : OnlyRead s u := by
  refine ⟨fun hu => (k.mem (h.undisturbed hu)).trans (h.mem hu), fun x hx => (k.inside x hx).trans (h.inside x hx),
    k.gaps.trans h.gaps, k.answers.trans h.answers, k.clocks.trans h.clocks, k.prev.trans h.prev, k.board.trans h.board,
    by rw [k.marks, h.marks], k.hz.trans h.hz, k.ext.trans h.ext, k.sys.trans h.sys, k.bus.trans h.bus,
    k.ports.trans h.ports, k.pins.trans h.pins, k.gpt.trans h.gpt, k.wdt.trans h.wdt, k.ic.trans h.ic,
    k.pecc.trans h.pecc, k.agenda.trans h.agenda, ?_, ?_, ?_, ?_⟩
  · rw [k.asc, h.asc]
  · rw [k.ssc, h.ssc]
  · rw [k.cpu, h.cpu]
  · rcases k.mdriu with k | k <;> rcases h.mdriu with h | h <;> rw [k, h]
    · exact .inl rfl
    · exact .inr rfl
    · exact .inr rfl
    · right; rw [BitVec.and_assoc]; rfl

theorem OnlyRead.ite {s t u : State} {p : Prop} [Decidable p] (h : OnlyRead s t) (k : OnlyRead s u) :
    OnlyRead s (if p then t else u) := by split <;> assumption

/-- A state that differs in memory, the SSP, the traces, what the outside has in store and the count of free values. -/
theorem OnlyRead.of_eq {s t : State}
    (ht : t = { s with mem := t.mem, ssp := t.ssp, ebc := t.ebc, gaps := t.gaps, answers := t.answers, free := t.free })
    (hm : Undisturbed s → t.mem = s.mem)
    (hi : ∀ x, x < 2 ^ 24 → Memory.read t.mem x = Memory.read s.mem x) (hg : t.gaps <:+ s.gaps)
    (ha : t.answers <:+ s.answers) : OnlyRead s t := by
  refine ⟨hm, hi, hg, ha, ?_, ?_, ?_, ?_, ?_, ?_, ?_, ?_, ?_, ?_, ?_, ?_, ?_, ?_, ?_, ?_, ?_, ?_, .inl ?_⟩ <;> rw [ht]

theorem OnlyRead.advanceFree (s : State) (n : Nat) : OnlyRead s (s.advanceFree n) := by
  constructor <;> simp

theorem OnlyRead.romWasRead (s : State) : OnlyRead s s.romWasRead := by
  constructor <;> first | rfl | simp

theorem OnlyRead.externalTrace (a : PhysAddr) (w : Bool) (d : Option Word) (s : State) :
    OnlyRead s (externalTrace a w d s) := by
  constructor <;> simp

theorem OnlyRead.sspReadEffect (s : State) : OnlyRead s (sspReadEffect s) := by
  unfold Machine.sspReadEffect; split <;> constructor <;> simp [sspContinue]

theorem OnlyRead.touchSsp (o : Nat) (s : State) : OnlyRead s (touchSsp o s) :=
  OnlyRead.ite (OnlyRead.sspReadEffect s) (OnlyRead.refl s)

/-! ## The SSP's registers -/

/-- A write of an SSP register changes the SSP only. -/
theorem writeSspMasked_eq (o : Nat) (mask v : Word) (s : State) :
    writeSspMasked o mask v s = { s with ssp := (writeSspMasked o mask v s).ssp } := by
  unfold writeSspMasked
  split <;> try rfl
  split <;> rfl

theorem writeSsp_eq (o : Nat) (w : Bool) (v : Word) (s : State) :
    writeSsp o w v s = { s with ssp := (writeSsp o w v s).ssp } := by
  unfold writeSsp
  split <;> exact writeSspMasked_eq _ _ _ _

theorem touchSsp_eq (o : Nat) (s : State) : touchSsp o s = { s with ssp := (touchSsp o s).ssp } := by
  unfold touchSsp sspReadEffect
  split
  · split <;> rfl
  · rfl

/-! ## Other masters -/

/-- Another master changes memory and the SSP only. -/
theorem masterAccess_eq (s : State) (m : MasterAccess) :
    masterAccess s m = { s with mem := (masterAccess s m).mem, ssp := (masterAccess s m).ssp } := by
  cases m with
  | write bank a b => rfl
  | sspRead o w => simp only [masterAccess]; split <;> [rw [touchSsp_eq]; rfl]
  | sspWrite o w v => simp only [masterAccess]; split <;> [rw [writeSsp_eq]; rfl]

/-- What it changes of memory is the board's. -/
theorem masterAccess_read (s : State) (m : MasterAccess) {x : Nat} (hx : x < 2 ^ 24) :
    Memory.read (masterAccess s m).mem x = Memory.read s.mem x := by
  cases m with
  | write bank a b =>
    refine Memory.read_write_of_ne _ _ ?_
    simp only [Memory.boardCell]; omega
  | sspRead o w => simp only [masterAccess]; split <;> [rw [touchSsp_eq]; rfl]
  | sspWrite o w v => simp only [masterAccess]; split <;> [rw [writeSsp_eq]; rfl]

theorem masterAccesses_eq (g : List MasterAccess) (s : State) :
    g.foldl masterAccess s = { s with mem := (g.foldl masterAccess s).mem, ssp := (g.foldl masterAccess s).ssp } := by
  induction g generalizing s with
  | nil => rfl
  | cons m g ih =>
    have h := ih (masterAccess s m)
    generalize g.foldl masterAccess (masterAccess s m) = t at h
    rw [List.foldl_cons]
    generalize hu : g.foldl masterAccess (masterAccess s m) = u
    have h2 := ih (masterAccess s m)
    rw [hu, masterAccess_eq] at h2
    rw [h2]

theorem masterAccesses_read (g : List MasterAccess) (s : State) {x : Nat} (hx : x < 2 ^ 24) :
    Memory.read (g.foldl masterAccess s).mem x = Memory.read s.mem x := by
  induction g generalizing s with
  | nil => rfl
  | cons m g ih => rw [List.foldl_cons, ih, masterAccess_read _ _ hx]

/-- Between two bus cycles nothing changes but memory, the SSP and the list of gaps. -/
theorem betweenCycles_eq (s : State) : s.betweenCycles = { s with
    mem := s.betweenCycles.mem, ssp := s.betweenCycles.ssp, gaps := s.betweenCycles.gaps } := by
  unfold State.betweenCycles
  split
  · rfl
  · next g rest h =>
    split
    · generalize hu : g.foldl masterAccess { s with gaps := rest } = u
      have h2 := masterAccesses_eq g { s with gaps := rest }
      rw [hu] at h2
      rw [h2]
    · rfl

theorem betweenCycles_of_undisturbed {s : State} (h : Undisturbed s) : s.betweenCycles = s := by
  unfold State.betweenCycles
  rcases h with h | h
  · rw [h]
  · split
    · rfl
    · simp [h]

theorem OnlyRead.betweenCycles (s : State) : OnlyRead s s.betweenCycles := by
  refine OnlyRead.of_eq ?_ (fun h => by rw [betweenCycles_of_undisturbed h]) (fun x hx => ?_) ?_ ?_
  · conv => lhs; rw [betweenCycles_eq]
    rw [betweenCycles_eq]
  · unfold State.betweenCycles
    split
    · rfl
    · split
      · rw [masterAccesses_read _ _ hx]
      · rfl
  · unfold State.betweenCycles
    split
    · exact List.suffix_refl _
    · next g rest h =>
      split
      · rw [masterAccesses_eq, h]; simp
      · exact List.suffix_refl _
  · rw [betweenCycles_eq]

/-! ## Cycles and reads -/

/-- A turn of the prefetcher changes the bus interface and the count of free values only. -/
theorem prefetchTurn_eq (s : State) :
    s.prefetchTurn = { s with ebc := s.prefetchTurn.ebc, free := s.prefetchTurn.free } := rfl

/-- With no word ahead it changes nothing. -/
theorem prefetchTurn_nil {s : State} (h : s.ebc.ahead = []) : s.prefetchTurn = s := by
  have e : s.turned = s := by unfold State.turned; rw [h]
  unfold State.prefetchTurn; rw [e]

/-- It does not touch who has the bus. -/
theorem prefetchTurn_hold (s : State) : s.prefetchTurn.ebc.held = s.ebc.held
    ∧ s.prefetchTurn.ebc.breqLow = s.ebc.breqLow ∧ s.prefetchTurn.ebc.hldenOnce = s.ebc.hldenOnce := ⟨rfl, rfl, rfl⟩

/-- What the prefetcher does after an instruction: nothing but traces on the bus interface and free values used, the hold state
and HLDEN's memory stay, and outside the running state no word is left that may be read ahead. -/
theorem afterInstruction_spec (u : State) :
    afterInstruction u = { u with ebc := (afterInstruction u).ebc, free := (afterInstruction u).free }
      ∧ (afterInstruction u).ebc.held = u.ebc.held ∧ (afterInstruction u).ebc.breqLow = u.ebc.breqLow
      ∧ (afterInstruction u).ebc.hldenOnce = u.ebc.hldenOnce
      ∧ (u.sys.stall = .none → u.sys.power ≠ .running → (afterInstruction u).ebc.ahead = []) := by
  unfold afterInstruction
  split
  · next h => exact ⟨rfl, rfl, rfl, rfl, fun k => absurd k h⟩
  · split
    · next h => exact ⟨rfl, rfl, rfl, rfl, fun _ k => absurd h k⟩
    · exact ⟨rfl, rfl, rfl, rfl, fun _ _ => rfl⟩

theorem Undisturbed.prefetchTurn {s : State} (h : Undisturbed s) : Undisturbed s.prefetchTurn := h

theorem OnlyRead.prefetchTurn (s : State) : OnlyRead s s.prefetchTurn := by
  constructor <;> simp

/-- What leads up to a bus cycle: the prefetcher's turn and the gap. -/
theorem beforeCycle_of_undisturbed {s : State} (h : Undisturbed s) : s.prefetchTurn.betweenCycles = s.prefetchTurn :=
  betweenCycles_of_undisturbed h.prefetchTurn

theorem busCycle_ok {a : PhysAddr} {w : Bool} {d : Option Word} {x : Unit} {s t : State} :
    busCycle a w d s = .ok (x, t) ↔ externalStop s a = none ∧ t = externalTrace a w d s.prefetchTurn.betweenCycles := by
  unfold busCycle
  cases externalStop s a with
  | some e => simp
  | none => simp only [Except.ok.injEq, Prod.mk.injEq, true_and]; exact eq_comm

/-- Where no window of the bus is enabled every external access raises ILLBUS (R389). -/
theorem busCycle_of_missing {s : State} (h : busEnabled s.prev.bus = false) (a : PhysAddr) (w : Bool) (d : Option Word) :
    busCycle a w d s = .error (.trap 0) := by
  simp [Machine.busCycle, externalStop, h]

theorem OnlyRead.busCycle {a : PhysAddr} {w : Bool} {d : Option Word} {x : Unit} {s t : State}
    (h : busCycle a w d s = .ok (x, t)) : OnlyRead s t := by
  rw [(busCycle_ok.1 h).2]
  exact ((OnlyRead.prefetchTurn s).trans (OnlyRead.betweenCycles _)).trans (OnlyRead.externalTrace _ _ _ _)

theorem OnlyRead.deviceAnswer {v : Word} {s t : State} (h : deviceAnswer s = .ok (v, t)) : OnlyRead s t := by
  unfold Machine.deviceAnswer at h
  split at h
  · next w rest he =>
    simp only [Except.ok.injEq, Prod.mk.injEq] at h
    rw [← h.2]
    constructor <;> simp [he]
  · simp only [Except.ok.injEq, Prod.mk.injEq] at h
    rw [← h.2]; exact OnlyRead.advanceFree _ _

theorem OnlyRead.look {α : Type} {f : State → α} {v : α} {s t : State} (h : look f s = .ok (v, t)) : OnlyRead s t := by
  simp only [look_apply, Except.ok.injEq, Prod.mk.injEq] at h
  rw [← h.2]; exact OnlyRead.refl _

theorem OnlyRead.bind {α β : Type} {x : Op α} {f : α → Op β} {b : β} {s u : State} (h : (x >>= f) s = .ok (b, u))
    (hx : ∀ a t, x s = .ok (a, t) → OnlyRead s t) (hf : ∀ a t, f a t = .ok (b, u) → OnlyRead t u) : OnlyRead s u := by
  obtain ⟨a, t, h1, h2⟩ := Op.bind_eq_ok.1 h
  exact (hx a t h1).trans (hf a t h2)

theorem OnlyRead.pure {α : Type} {a b : α} {s t : State} (h : (Pure.pure a : Op α) s = .ok (b, t)) : OnlyRead s t := by
  simp only [Op.pure_apply, Except.ok.injEq, Prod.mk.injEq] at h
  rw [← h.2]; exact OnlyRead.refl _

theorem OnlyRead.readExternalByte {a : PhysAddr} {v : Byte} {s t : State} (h : readExternalByte a s = .ok (v, t)) :
    OnlyRead s t := by
  unfold Machine.readExternalByte at h
  refine OnlyRead.bind h (fun _ _ => OnlyRead.busCycle) (fun _ u h => ?_)
  rw [Op.bind_of_ok (look_apply _ _)] at h
  generalize regionKind u a = k at h
  cases k <;> dsimp only at h
  · exact OnlyRead.look h
  · exact OnlyRead.look h
  · exact OnlyRead.bind h (fun _ _ => OnlyRead.deviceAnswer) (fun _ _ => OnlyRead.pure)

/-- Reading a word of the board changes nothing but what reads change. -/
theorem OnlyRead.readExternalWord {a : PhysAddr} {v : Word} {s t : State} (h : readExternalWord a s = .ok (v, t)) :
    OnlyRead s t := by
  unfold Machine.readExternalWord at h
  rw [Op.bind_of_ok (look_apply _ _)] at h
  split at h
  · exact OnlyRead.bind h (fun _ _ => OnlyRead.readExternalByte) (fun _ _ h =>
      OnlyRead.bind h (fun _ _ => OnlyRead.readExternalByte) (fun _ _ => OnlyRead.pure))
  · refine OnlyRead.bind h (fun _ _ => OnlyRead.busCycle) (fun _ u h => ?_)
    rw [Op.bind_of_ok (look_apply _ _)] at h
    generalize regionKind u a = k at h
    cases k <;> dsimp only at h
    · exact OnlyRead.look h
    · exact OnlyRead.look h
    · exact OnlyRead.deviceAnswer h

/-! ## Cells -/

theorem areaOf_congr {s t : State} (hb : t.board = s.board) (w : Word) (a : PhysAddr) : areaOf t w a = areaOf s w a := by
  cases s; cases t; cases hb; rfl

theorem externalCell_congr {s t : State} (hp : t.prev = s.prev) (hb : t.board = s.board) (a : PhysAddr) :
    externalCell t a = externalCell s a := by
  simp only [externalCell, seenAddress, addressLines, hp, hb]

theorem regionKind_congr {s t : State} (hp : t.prev = s.prev) (hb : t.board = s.board) (a : PhysAddr) :
    regionKind t a = regionKind s a := by
  simp only [regionKind, seenAddress, addressLines, hp, hb]

theorem cellOf_congr {s t : State} (hp : t.prev = s.prev) (hb : t.board = s.board) (a : PhysAddr) :
    cellOf t a = cellOf s a := by
  unfold cellOf
  rw [hp, areaOf_congr hb, externalCell_congr hp hb]

theorem cellOf_external {s : State} {a : PhysAddr} (h : areaOf s s.prev.cpu.syscon a = .external) :
    cellOf s a = externalCell s a := by
  unfold cellOf; rw [h]

theorem cellOf_iram {s : State} {a : PhysAddr} (h : areaOf s s.prev.cpu.syscon a = .iram) : cellOf s a = a.toNat := by
  unfold cellOf; rw [h]

theorem toNat_succ_of_even {a : PhysAddr} (h : a.getLsbD 0 = false) : (a + 1).toNat = a.toNat + 1 := by
  have h1 : a.toNat % 2 = 0 := by
    rw [BitVec.getLsbD, Nat.testBit_zero, decide_eq_false_iff_not] at h; omega
  have := a.isLt
  rw [BitVec.toNat_add, show (1 : PhysAddr).toNat = 1 from rfl]; omega

theorem even_succ_shiftRight {n k : Nat} (h : n % 2 = 0) : (n + 1) >>> (k + 1) = n >>> (k + 1) := by
  rw [Nat.add_comm k 1, Nat.shiftRight_add, Nat.shiftRight_add]
  congr 1
  simp only [Nat.shiftRight_one]; omega

theorem even_succ_mod {n k : Nat} (h : n % 2 = 0) : (n + 1) % 2 ^ (k + 1) = n % 2 ^ (k + 1) + 1 := by
  have e : n = 2 * (n / 2) := by omega
  rw [e, Nat.pow_succ', Nat.mul_mod_mul_left, Nat.mod_eq_iff]
  right
  have hp : 0 < 2 ^ k := Nat.two_pow_pos k
  have hl := Nat.mod_lt (n / 2) hp
  refine ⟨by omega, n / 2 / 2 ^ k, ?_⟩
  have := Nat.div_add_mod (n / 2) (2 ^ k)
  rw [Nat.mul_assoc]; omega

/-- The areas begin and end at even addresses. -/
theorem areaOf_succ (s : State) (w : Word) {a : PhysAddr} (h : a.getLsbD 0 = false) :
    areaOf s w (a + 1) = .iram ↔ areaOf s w a = .iram := by
  have h1 : a.toNat % 2 = 0 := by
    rw [BitVec.getLsbD, Nat.testBit_zero, decide_eq_false_iff_not] at h; omega
  have no (x : PhysAddr) : (match romOffset s w x with
      | some o => Area.rom o
      | none => if s.board.device = Device.c163 ∧ bitOf w 2 ∧ 0xEF00 ≤ x.toNat ∧ x.toNat < 0xF000 then .ssp (x.toNat - 0xEF00)
        else .external) ≠ .iram := by
    split
    · simp
    · split <;> simp
  unfold areaOf
  simp only [toNat_succ_of_even h]
  have hb : iramBase s.board.device % 2 = 0 := by cases s.board.device <;> rfl
  generalize iramBase s.board.device = b at hb
  by_cases h2 : 0xF000 ≤ a.toNat ∧ a.toNat < 0x10000
  · rw [if_pos (by omega), if_pos h2]
    by_cases h3 : 0xFE00 ≤ a.toNat ∨ a.toNat < 0xF200
    · rw [if_pos (by omega), if_pos h3]; simp
    · rw [if_neg (by omega), if_neg h3]
      by_cases h4 : b ≤ a.toNat
      · rw [if_pos (by omega), if_pos h4]
      · rw [if_neg (by omega), if_neg h4]
  · rw [if_neg (by omega), if_neg h2]
    have e1 := no a
    have e2 := no (a + 1)
    rw [toNat_succ_of_even h] at e2
    exact ⟨fun k => absurd k e2, fun k => absurd k e1⟩

theorem windowMatch_succ (b : Bus) (x : Nat) {a : PhysAddr} (h : a.getLsbD 0 = false) :
    windowMatch b x (a + 1) = windowMatch b x a := by
  have h1 : a.toNat % 2 = 0 := by
    rw [BitVec.getLsbD, Nat.testBit_zero, decide_eq_false_iff_not] at h; omega
  simp only [windowMatch, toNat_succ_of_even h]
  rw [show 12 + fieldNat (addrselOf b x) 0 4 = (11 + fieldNat (addrselOf b x) 0 4) + 1 by omega, even_succ_shiftRight h1]

theorem selectBuscon_succ (b : Bus) {a : PhysAddr} (h : a.getLsbD 0 = false) :
    selectBuscon b (a + 1) = selectBuscon b a := by
  simp only [selectBuscon, windowMatch_succ b _ h]

/-- The odd byte of a word of the board lies in the cell after the even one. -/
theorem externalCell_succ (s : State) {a : PhysAddr} (h : a.getLsbD 0 = false) :
    externalCell s (a + 1) = externalCell s a + 1 := by
  have h1 : a.toNat % 2 = 0 := by
    rw [BitVec.getLsbD, Nat.testBit_zero, decide_eq_false_iff_not] at h; omega
  simp only [externalCell, selectBuscon_succ _ h, seenAddress, toNat_succ_of_even h, addressLines, Memory.boardCell]
  rw [show (16 + if bitOf s.prev.cpu.syscon 11 then 0 else segmentLines s.prev.bus)
    = (15 + if bitOf s.prev.cpu.syscon 11 then 0 else segmentLines s.prev.bus) + 1 by omega, even_succ_mod h1]
  omega

/-- The board's cells are outside the chip's own addresses. -/
theorem externalCell_ge (s : State) (a : PhysAddr) : 2 ^ 24 ≤ externalCell s a := by
  simp only [externalCell, Memory.boardCell]; omega

theorem seenAddress_lt (s : State) (a : PhysAddr) : seenAddress s a < 2 ^ 24 :=
  Nat.lt_of_le_of_lt (Nat.mod_le _ _) a.isLt

theorem externalCell_lt (s : State) (a : PhysAddr) : externalCell s a < Memory.size := by
  have h := seenAddress_lt s a
  simp only [externalCell, Memory.boardCell, Memory.size]
  have := (s.board.banks[Fin.ofNat 5 (selectBuscon s.prev.bus a)]).isLt
  omega

end Sys2Proof.Machine
end

