-- ==== Sys2Proof/Laws/Access.lean ====
section
/-! SUPPORT. What the accesses to operands can change, said once for reads and once for writes. -/

namespace Sys2Proof.Machine

/-! ## Reads -/

theorem OnlyRead.sfrReadEffect (r : Sfr) (s : State) : OnlyRead s (sfrReadEffect r s) := by
  unfold Machine.sfrReadEffect
  split <;> try split
  all_goals constructor <;> simp

theorem OnlyRead.readSfrWord {a : Nat} {v : Word} {s t : State} (h : readSfrWord a s = .ok (v, t)) : OnlyRead s t := by
  rw [readSfrWord_ok] at h
  split at h
  · rw [h.2]; exact OnlyRead.sfrReadEffect _ _
  · rw [h.2]; exact OnlyRead.refl _

theorem xbusTrace_eq (a : PhysAddr) (w : Bool) (d r : Option Word) (s : State) :
    xbusTrace a w d r s = { s with ebc := (xbusTrace a w d r s).ebc, free := (xbusTrace a w d r s).free } := by
  unfold xbusTrace; split <;> rfl

theorem OnlyRead.xbusTrace (a : PhysAddr) (w : Bool) (d r : Option Word) (s : State) :
    OnlyRead s (xbusTrace a w d r s) := by
  rw [xbusTrace_eq]; constructor <;> simp

theorem OnlyRead.readPhysWord {a : PhysAddr} {v : Word} {s t : State} (h : readPhysWord a s = .ok (v, t)) :
    OnlyRead s t := by
  unfold Machine.readPhysWord at h
  rw [Op.bind_of_ok (look_apply _ _)] at h
  generalize areaOf s s.prev.cpu.syscon a = area at h
  cases area <;> dsimp only at h
  · exact OnlyRead.readSfrWord h
  · simp only [look_apply, Except.ok.injEq, Prod.mk.injEq] at h
    rw [← h.2]; exact OnlyRead.refl _
  · simp only [Op.bind_apply, look_apply, update_apply, Op.pure_apply, Except.ok.injEq, Prod.mk.injEq] at h
    rw [← h.2]; exact OnlyRead.advanceFree _ _
  · simp only [Op.bind_apply, look_apply, update_apply, Op.pure_apply, Except.ok.injEq, Prod.mk.injEq] at h
    rw [← h.2]; exact (OnlyRead.ite (OnlyRead.refl _) (OnlyRead.advanceFree _ _)).trans (OnlyRead.romWasRead _)
  · simp only [Op.bind_apply, look_apply, update_apply, Op.pure_apply, Except.ok.injEq, Prod.mk.injEq] at h
    rw [← h.2]
    refine OnlyRead.trans (OnlyRead.trans ?_ (OnlyRead.touchSsp _ _)) (OnlyRead.xbusTrace _ _ _ _ _)
    exact OnlyRead.ite (OnlyRead.advanceFree _ _) (OnlyRead.refl _)
  · exact OnlyRead.readExternalWord h

theorem OnlyRead.readPhysByte {a : PhysAddr} {v : Byte} {s t : State} (h : readPhysByte a s = .ok (v, t)) :
    OnlyRead s t := by
  unfold Machine.readPhysByte at h
  rw [Op.bind_of_ok (look_apply _ _)] at h
  generalize areaOf s s.prev.cpu.syscon a = area at h
  cases area <;> dsimp only at h
  · obtain ⟨x, u, h1, h2⟩ := Op.bind_eq_ok.1 h
    simp only [Op.pure_apply, Except.ok.injEq, Prod.mk.injEq] at h2
    rw [← h2.2]; exact OnlyRead.readSfrWord h1
  · simp only [look_apply, Except.ok.injEq, Prod.mk.injEq] at h
    rw [← h.2]; exact OnlyRead.refl _
  · simp only [Op.bind_apply, look_apply, update_apply, Op.pure_apply, Except.ok.injEq, Prod.mk.injEq] at h
    rw [← h.2]; exact OnlyRead.advanceFree _ _
  · simp only [Op.bind_apply, look_apply, update_apply, Op.pure_apply, Except.ok.injEq, Prod.mk.injEq] at h
    rw [← h.2]; exact (OnlyRead.ite (OnlyRead.refl _) (OnlyRead.advanceFree _ _)).trans (OnlyRead.romWasRead _)
  · simp only [Op.bind_apply, look_apply, update_apply, Op.pure_apply, Except.ok.injEq, Prod.mk.injEq] at h
    rw [← h.2]
    refine OnlyRead.trans (OnlyRead.trans ?_ (OnlyRead.touchSsp _ _)) (OnlyRead.xbusTrace _ _ _ _ _)
    exact OnlyRead.ite (OnlyRead.advanceFree _ _) (OnlyRead.refl _)
  · exact OnlyRead.readExternalByte h

/-- Reading a word operand changes nothing but what reads change. -/
theorem OnlyRead.readWordOperand {a v : Word} {s t : State} (h : readWordOperand a s = .ok (v, t)) : OnlyRead s t := by
  rw [readWordOperand_apply] at h
  split at h
  · cases h
  · split at h
    · cases h
    · exact OnlyRead.readPhysWord h

/-- Reading a byte operand changes nothing but what reads change. -/
theorem OnlyRead.readByteOperand {a : Word} {v : Byte} {s t : State} (h : readByteOperand a s = .ok (v, t)) :
    OnlyRead s t := by
  rw [readByteOperand_apply] at h
  split at h
  · cases h
  · exact OnlyRead.readPhysByte h

/-! ## Registers and bit words -/

theorem OnlyRead.readGpr {n : BitVec 4} {v : Word} {s t : State} (h : readGpr n s = .ok (v, t)) : OnlyRead s t := by
  rw [(readGpr_ok.1 h).2.2]; exact OnlyRead.refl s

theorem OnlyRead.readGprB {n : BitVec 4} {v : Byte} {s t : State} (h : readGprB n s = .ok (v, t)) : OnlyRead s t := by
  rw [(readGprB_ok.1 h).2.2]; exact OnlyRead.refl s

theorem readReg_gpr {reg : BitVec 8} (h : regIsGpr reg = true) (s : State) : readReg reg s = readGpr (regGpr reg) s := by
  simp [readReg, h]

theorem readReg_sfr {reg : BitVec 8} (h : regIsGpr reg = false) (s : State) :
    readReg reg s = readSfrWord (regSfrAddr s reg) s := by
  simp [readReg, h, Op.bind_apply]

theorem readRegB_gpr {reg : BitVec 8} (h : regIsGpr reg = true) (s : State) :
    readRegB reg s = readGprB (regGpr reg) s := by
  simp [readRegB, h]

theorem readRegB_sfr {reg : BitVec 8} (h : regIsGpr reg = false) (s : State) :
    readRegB reg s = (readSfrWord (regSfrAddr s reg) >>= fun v => pure (lowByte v)) s := by
  simp only [readRegB, h, Bool.false_eq_true, if_false]
  rw [Op.bind_of_ok (look_apply _ _)]

theorem writeReg_gpr {reg : BitVec 8} (h : regIsGpr reg = true) (v : Word) (s : State) :
    writeReg reg v s = writeGpr (regGpr reg) v s := by
  simp [writeReg, h]

theorem writeReg_sfr {reg : BitVec 8} (h : regIsGpr reg = false) (v : Word) (s : State) :
    writeReg reg v s = writeSfrWord (regSfrAddr s reg) v s := by
  simp [writeReg, h, Op.bind_apply]

/-- A `reg` that gives the address of a register of this device reads that register. -/
theorem readReg_register {reg : BitVec 8} {r : Sfr} {s : State} (hg : regIsGpr reg = false)
    (ha : regSfrAddr s reg = sfrAddr r) (hp : sfrPresent s.board r = true) :
    readReg reg s = .ok (readSfr r s, sfrReadEffect r s) := by
  rw [readReg_sfr hg, ha, readSfrWord_ok, sfrAt_address, if_pos hp]; exact ⟨rfl, rfl⟩

/-- The same of a write that is not refused. -/
theorem writeReg_register {reg : BitVec 8} {r : Sfr} {v : Word} {s : State} (hg : regIsGpr reg = false)
    (ha : regSfrAddr s reg = sfrAddr r) (hp : sfrPresent s.board r = true) (hr : sfrWriteRefusal r v s = none) :
    writeReg reg v s = .ok ((), writeSfr r v s) := by
  rw [writeReg_sfr hg, ha, writeSfrWord_ok, sfrAt_address, if_pos hp]; exact ⟨hr, rfl⟩

/-- A register that the device lacks reads 0 and ignores writes (R56). -/
theorem reg_absent {reg : BitVec 8} {r : Sfr} {s : State} (hg : regIsGpr reg = false) (ha : regSfrAddr s reg = sfrAddr r)
    (hp : sfrPresent s.board r = false) (v : Word) :
    readReg reg s = .ok (0, s) ∧ writeReg reg v s = .ok ((), s) := by
  rw [readReg_sfr hg, writeReg_sfr hg, ha, readSfrWord_ok, writeSfrWord_ok, sfrAt_address, hp]; exact ⟨⟨rfl, rfl⟩, rfl⟩

theorem writeRegB_gpr {reg : BitVec 8} (h : regIsGpr reg = true) (v : Byte) (s : State) :
    writeRegB reg v s = writeGprB (regGpr reg) v s := by
  simp [writeRegB, h]

theorem writeRegB_sfr {reg : BitVec 8} (h : regIsGpr reg = false) (v : Byte) (s : State) :
    writeRegB reg v s = writeSfrWord (regSfrAddr s reg) (v.setWidth 16) s := by
  simp [writeRegB, h, Op.bind_apply]

theorem OnlyRead.readReg {reg : BitVec 8} {v : Word} {s t : State} (h : readReg reg s = .ok (v, t)) : OnlyRead s t := by
  cases hg : regIsGpr reg
  · rw [readReg_sfr hg] at h; exact OnlyRead.readSfrWord h
  · rw [readReg_gpr hg] at h; exact OnlyRead.readGpr h

theorem OnlyRead.readRegB {reg : BitVec 8} {v : Byte} {s t : State} (h : readRegB reg s = .ok (v, t)) :
    OnlyRead s t := by
  cases hg : regIsGpr reg
  · rw [readRegB_sfr hg] at h
    obtain ⟨x, u, h1, h2⟩ := Op.bind_eq_ok.1 h
    simp only [Op.pure_apply, Except.ok.injEq, Prod.mk.injEq] at h2
    rw [← h2.2]; exact OnlyRead.readSfrWord h1
  · rw [readRegB_gpr hg] at h; exact OnlyRead.readGprB h

theorem OnlyRead.readBitWord {bo : BitVec 8} {v : Word} {s t : State} (h : readBitWord bo s = .ok (v, t)) :
    OnlyRead s t := by
  unfold Machine.readBitWord at h
  split at h
  · exact OnlyRead.readGpr h
  · split at h
    · simp only [look_apply, Except.ok.injEq, Prod.mk.injEq] at h
      rw [← h.2]; exact OnlyRead.refl s
    · rw [Op.bind_of_ok (look_apply _ _)] at h
      exact OnlyRead.readSfrWord h

/-! ## Writes -/

/-- What no write of a special function register changes: memory, the values before the instruction, the board, the
pins, the system state, the extension sequence, what the outside has in store, and the marks of branches and sequences. -/
structure SfrKept (s w : State) : Prop where
  mem : w.mem = s.mem
  prev : w.prev = s.prev
  board : w.board = s.board
  pins : w.pins = s.pins
  sys : w.sys = s.sys
  ext : w.ext = s.ext
  agenda : w.agenda = s.agenda
  gaps : w.gaps = s.gaps
  branched : w.marks.branched = s.marks.branched
  extStarted : w.marks.extStarted = s.marks.extStarted
  psw : w.marks.pswWritten = false → w.cpu.psw = s.cpu.psw

theorem SfrKept.refl (s : State) : SfrKept s s := by constructor <;> first | rfl | (intro _; rfl)

theorem writeSfr_kept (r : Sfr) (v : Word) (s : State) : SfrKept s (writeSfr r v s) := by
  cases r <;> first
    | (constructor <;> first | rfl | (intro _; rfl) | (intro h; cases h))
    | (simp only [writeSfr, writeSyscon]; split <;> constructor <;> first | rfl | (intro _; rfl))

/-- No write of a special function register reaches memory. -/
theorem writeSfr_mem (r : Sfr) (v : Word) (s : State) : (writeSfr r v s).mem = s.mem := (writeSfr_kept r v s).mem

theorem writeSfrWord_kept {a : Nat} {v : Word} {s t : State} (h : writeSfrWord a v s = .ok ((), t)) : SfrKept s t := by
  rw [writeSfrWord_ok] at h
  split at h
  · rw [h.2]; exact writeSfr_kept _ _ _
  · rw [h]; exact SfrKept.refl _

theorem writeSfrWord_mem {a : Nat} {v : Word} {s t : State} (h : writeSfrWord a v s = .ok ((), t)) : t.mem = s.mem :=
  (writeSfrWord_kept h).mem

/-- A bit instruction's write is the write of the word, with the phases of two prescalers kept or not. -/
theorem writeSfrBits_ok {a : Nat} {mask v : Word} {s t : State} :
    writeSfrBits a mask v s = .ok ((), t) ↔ ∃ u, writeSfrWord a v s = .ok ((), u) ∧ t = State.keepPhases mask s u := by
  unfold writeSfrBits
  cases h : writeSfrWord a v s with
  | error e => simp
  | ok p =>
    obtain ⟨⟨⟩, u⟩ := p
    simp only [Except.ok.injEq, Prod.mk.injEq, true_and, exists_eq_left']
    exact eq_comm

theorem keepPhases_kept {s t : State} (mask : Word) (h : SfrKept s t) : SfrKept s (State.keepPhases mask s t) := by
  unfold State.keepPhases
  split
  · exact ⟨h.mem, h.prev, h.board, h.pins, h.sys, h.ext, h.agenda, h.gaps, h.branched, h.extStarted, h.psw⟩
  · exact h

theorem writeSfrBits_kept {a : Nat} {mask v : Word} {s t : State} (h : writeSfrBits a mask v s = .ok ((), t)) :
    SfrKept s t := by
  obtain ⟨u, h1, rfl⟩ := writeSfrBits_ok.1 h
  exact keepPhases_kept mask (writeSfrWord_kept h1)

/-- What no store of an operand changes. -/
structure StoreKept (s w : State) : Prop where
  prev : w.prev = s.prev
  board : w.board = s.board
  pins : w.pins = s.pins
  sys : w.sys = s.sys
  ext : w.ext = s.ext
  agenda : w.agenda = s.agenda
  branched : w.marks.branched = s.marks.branched
  extStarted : w.marks.extStarted = s.marks.extStarted
  psw : w.marks.pswWritten = false → w.cpu.psw = s.cpu.psw

theorem SfrKept.store {s w : State} (h : SfrKept s w) : StoreKept s w :=
  ⟨h.prev, h.board, h.pins, h.sys, h.ext, h.agenda, h.branched, h.extStarted, h.psw⟩

theorem OnlyRead.store {s w : State} (h : OnlyRead s w) : StoreKept s w :=
  ⟨h.prev, h.board, h.pins, h.sys, h.ext, h.agenda, by rw [h.marks], by rw [h.marks], fun _ => h.psw_eq⟩

theorem storeWord_kept (a : Nat) (v : Word) (s : State) : StoreKept s (s.storeWord a v) := by
  constructor <;> first | rfl | (intro _; rfl)

theorem storeByte_kept (a : Nat) (v : Byte) (s : State) : StoreKept s (s.storeByte a v) := by
  constructor <;> first | rfl | (intro _; rfl)

theorem StoreKept.trans {s t u : State} (h : StoreKept s t) (k : StoreKept t u)
    (hm : u.marks.pswWritten = t.marks.pswWritten) : StoreKept s u :=
  ⟨k.prev.trans h.prev, k.board.trans h.board, k.pins.trans h.pins, k.sys.trans h.sys, k.ext.trans h.ext,
    k.agenda.trans h.agenda, k.branched.trans h.branched, k.extStarted.trans h.extStarted,
    fun hp => (k.psw hp).trans (h.psw (hm ▸ hp))⟩

theorem ssp_store_kept (o : Nat) (b : Bool) (v : Word) (a : PhysAddr) (d r : Option Word) (s : State) :
    StoreKept s (xbusTrace a b d r (writeSsp o b v s)) := by
  rw [xbusTrace_eq, writeSsp_eq]; constructor <;> first | rfl | (intro _; rfl)

/-! ## Stores on the board -/

/-- What a byte write to the board does: the gap, the cycle, and the store if there is RAM. -/
theorem writeExternalByte_ok {a : PhysAddr} {v : Byte} {s t : State} (h : writeExternalByte a v s = .ok ((), t)) :
    ∃ u, u = externalTrace a false (some (wordOfBytes v v)) s.prefetchTurn.betweenCycles ∧ externalStop s a = none ∧ OnlyRead s u
      ∧ t = if regionKind s a = .ram then u.storeByte (externalCell s a) v else u := by
  unfold writeExternalByte at h
  obtain ⟨x, u, h1, h2⟩ := Op.bind_eq_ok.1 h
  have ho := OnlyRead.busCycle h1
  obtain ⟨hs, hu⟩ := busCycle_ok.1 h1
  refine ⟨u, hu, hs, ho, ?_⟩
  rw [Op.bind_of_ok (look_apply _ _), regionKind_congr ho.prev ho.board] at h2
  generalize regionKind s a = k at h2 ⊢
  cases k
  · simp only [update_apply, Except.ok.injEq, Prod.mk.injEq, true_and] at h2
    rw [← h2, externalCell_congr ho.prev ho.board]; rfl
  · simp only [Op.pure_apply, Except.ok.injEq, Prod.mk.injEq, true_and] at h2
    exact h2.symm
  · simp only [Op.pure_apply, Except.ok.injEq, Prod.mk.injEq, true_and] at h2
    exact h2.symm

/-- What a word write to the board does: on a 16-bit bus one cycle, on an 8-bit bus two byte writes. -/
theorem writeExternalWord_ok {a : PhysAddr} {v : Word} {s t : State} (h : writeExternalWord a v s = .ok ((), t)) :
    (byteBus s a = false ∧ ∃ u, u = externalTrace a true (some v) s.prefetchTurn.betweenCycles ∧ externalStop s a = none ∧ OnlyRead s u
      ∧ t = if regionKind s a = .ram then u.storeWord (externalCell s a) v else u)
    ∨ (byteBus s a = true ∧ ∃ u, writeExternalByte a (lowByte v) s = .ok ((), u)
      ∧ writeExternalByte (a + 1) (highByte v) u = .ok ((), t)) := by
  unfold writeExternalWord at h
  rw [Op.bind_of_ok (look_apply _ _)] at h
  cases hb : byteBus s a
  · rw [hb] at h
    refine .inl ⟨rfl, ?_⟩
    obtain ⟨x, u, h1, h2⟩ := Op.bind_eq_ok.1 h
    have ho := OnlyRead.busCycle h1
    obtain ⟨hs, hu⟩ := busCycle_ok.1 h1
    refine ⟨u, hu, hs, ho, ?_⟩
    rw [Op.bind_of_ok (look_apply _ _), regionKind_congr ho.prev ho.board] at h2
    generalize regionKind s a = k at h2 ⊢
    cases k
    · simp only [update_apply, Except.ok.injEq, Prod.mk.injEq, true_and] at h2
      rw [← h2, externalCell_congr ho.prev ho.board]; rfl
    · simp only [Op.pure_apply, Except.ok.injEq, Prod.mk.injEq, true_and] at h2
      exact h2.symm
    · simp only [Op.pure_apply, Except.ok.injEq, Prod.mk.injEq, true_and] at h2
      exact h2.symm
  · rw [hb] at h
    obtain ⟨⟨⟩, u, h1, h2⟩ := Op.bind_eq_ok.1 h
    exact .inr ⟨rfl, u, h1, h2⟩

/-- What a store on the board keeps: the CPU, the marks but the stores, the prev values, the board, the gaps' tail, memory
outside the cell. -/
structure BoardStore (stored : Nat → Prop) (s t : State) : Prop where
  kept : StoreKept s t
  cpu : t.cpu = s.cpu
  gaps : t.gaps <:+ s.gaps
  inside : ∀ x, x < 2 ^ 24 → bytesOf t x = bytesOf s x
  outside : Undisturbed s → SameMemoryBut stored s t

theorem BoardStore.undisturbed {p : Nat → Prop} {s t : State} (h : BoardStore p s t) (k : Undisturbed s) :
    Undisturbed t := k.congr h.gaps (by rw [h.cpu])

theorem busWrite_cpu (a : PhysAddr) (w : Bool) (d : Option Word) (s : State) :
    (externalTrace a w d s.prefetchTurn.betweenCycles).cpu = s.cpu := by
  rw [betweenCycles_eq]; rfl

theorem writeExternalByte_board {a : PhysAddr} {v : Byte} {s t : State} (h : writeExternalByte a v s = .ok ((), t)) :
    BoardStore (fun x => x = externalCell s a) s t := by
  obtain ⟨u, hu, _, ho, ht⟩ := writeExternalByte_ok h
  have hc : u.cpu = s.cpu := by rw [hu, busWrite_cpu]
  rw [ht]
  split
  · refine ⟨ho.store.trans (storeByte_kept _ _ _) rfl, hc, ho.gaps, fun x hx => ?_, fun hd x hx => ?_⟩
    · have := externalCell_ge s a
      simp only [bytesOf, State.storeByte_mem]
      rw [Memory.read_write_of_ne _ _ (by omega), ho.inside x hx]
    · rw [State.storeByte_mem, Memory.read_write_of_ne _ _ hx, ho.mem hd]
  · exact ⟨ho.store, hc, ho.gaps, ho.inside, fun hd x _ => by rw [ho.mem hd]⟩

theorem writeExternalWord_board {a : PhysAddr} {v : Word} {s t : State} (he : a.getLsbD 0 = false)
    (h : writeExternalWord a v s = .ok ((), t)) : BoardStore (wordAt (externalCell s a)) s t := by
  rcases writeExternalWord_ok h with ⟨_, u, hu, _, ho, ht⟩ | ⟨_, u, h1, h2⟩
  · have hc : u.cpu = s.cpu := by rw [hu, busWrite_cpu]
    rw [ht]
    split
    · refine ⟨ho.store.trans (storeWord_kept _ _ _) rfl, hc, ho.gaps, fun x hx => ?_, fun hd x hx => ?_⟩
      · have := externalCell_ge s a
        simp only [bytesOf, State.storeWord_mem]
        rw [Memory.read_writeWord_of_ne _ _ (by omega) (by omega), ho.inside x hx]
      · simp only [wordAt, not_or] at hx
        rw [State.storeWord_mem, Memory.read_writeWord_of_ne _ _ hx.1 hx.2, ho.mem hd]
    · exact ⟨ho.store, hc, ho.gaps, ho.inside, fun hd x _ => by rw [ho.mem hd]⟩
  · have b1 := writeExternalByte_board h1
    have b2 := writeExternalByte_board h2
    have hw : t.marks.pswWritten = u.marks.pswWritten := by
      obtain ⟨r, _, _, hr, ht⟩ := writeExternalByte_ok h2
      rw [ht]; split <;> exact hr.pswWritten
    refine ⟨b1.kept.trans b2.kept hw, b2.cpu.trans b1.cpu, b2.gaps.trans b1.gaps,
      fun x hx => (b2.inside x hx).trans (b1.inside x hx), fun hd x hx => ?_⟩
    simp only [wordAt, not_or] at hx
    rw [b2.outside (b1.undisturbed hd) x ?_, b1.outside hd x hx.1]
    rw [externalCell_congr b1.kept.prev b1.kept.board, externalCell_succ s he]; exact hx.2

/-! ## Stores -/

/-- A word write reaches at most the two cells at its address; inside the chip that holds whatever other masters do. -/
theorem writePhysWord_frame {a : PhysAddr} {v : Word} {s t : State} (he : a.getLsbD 0 = false)
    (h : writePhysWord a v s = .ok ((), t)) : StoreFrame (wordAt (cellOf s a)) a s s t := by
  unfold writePhysWord at h
  rw [Op.bind_of_ok (look_apply _ _)] at h
  have same (hm : t.mem = s.mem) : StoreFrame (wordAt (cellOf s a)) a s s t :=
    ⟨fun x _ _ => by simp only [bytesOf, hm], fun _ x _ => by rw [hm]⟩
  cases ha : areaOf s s.prev.cpu.syscon a <;> rw [ha] at h <;> dsimp only at h
  · exact same (writeSfrWord_mem h)
  · simp only [update_apply, Except.ok.injEq, Prod.mk.injEq, true_and] at h
    have hf : SameMemoryBut (wordAt (cellOf s a)) s t := by
      intro x hx
      rw [cellOf_iram ha, wordAt, not_or] at hx
      rw [← h, State.storeWord_mem, Memory.read_writeWord_of_ne _ _ hx.1 hx.2]
    exact ⟨fun x _ hx => hf x hx, fun _ => hf⟩
  · cases h
  · cases h
  · simp only [update_apply, Except.ok.injEq, Prod.mk.injEq, true_and] at h
    exact same (by rw [← h, xbusTrace_eq, writeSsp_eq])
  · have b := writeExternalWord_board he h
    rw [cellOf_external ha]
    exact ⟨fun x hx _ => b.inside x hx, fun hd => b.outside (hd.resolve_right (by simp [inIramAt, ha]))⟩

/-- A byte write reaches at most the cell at its address. -/
theorem writePhysByte_frame {a : PhysAddr} {v : Byte} {s t : State} (h : writePhysByte a v s = .ok ((), t)) :
    StoreFrame (fun x => x = cellOf s a) a s s t := by
  unfold writePhysByte at h
  rw [Op.bind_of_ok (look_apply _ _)] at h
  have same (hm : t.mem = s.mem) : StoreFrame (fun x => x = cellOf s a) a s s t :=
    ⟨fun x _ _ => by simp only [bytesOf, hm], fun _ x _ => by rw [hm]⟩
  cases ha : areaOf s s.prev.cpu.syscon a <;> rw [ha] at h <;> dsimp only at h
  · exact same (writeSfrWord_mem h)
  · simp only [update_apply, Except.ok.injEq, Prod.mk.injEq, true_and] at h
    have hf : SameMemoryBut (fun x => x = cellOf s a) s t := by
      intro x hx
      rw [cellOf_iram ha] at hx
      rw [← h, State.storeByte_mem, Memory.read_write_of_ne _ _ hx]
    exact ⟨fun x _ hx => hf x hx, fun _ => hf⟩
  · cases h
  · cases h
  · simp only [update_apply, Except.ok.injEq, Prod.mk.injEq, true_and] at h
    exact same (by rw [← h, xbusTrace_eq, writeSsp_eq])
  · have b := writeExternalByte_board h
    rw [cellOf_external ha]
    exact ⟨fun x hx _ => b.inside x hx, fun hd => b.outside (hd.resolve_right (by simp [inIramAt, ha]))⟩

theorem writePhysWord_kept {a : PhysAddr} {v : Word} {s t : State} (he : a.getLsbD 0 = false)
    (h : writePhysWord a v s = .ok ((), t)) : StoreKept s t := by
  unfold writePhysWord at h
  rw [Op.bind_of_ok (look_apply _ _)] at h
  generalize areaOf s s.prev.cpu.syscon a = area at h
  cases area <;> dsimp only at h
  · exact (writeSfrWord_kept h).store
  · simp only [update_apply, Except.ok.injEq, Prod.mk.injEq, true_and] at h
    rw [← h]; exact storeWord_kept _ _ _
  · cases h
  · cases h
  · simp only [update_apply, Except.ok.injEq, Prod.mk.injEq, true_and] at h
    rw [← h]; exact ssp_store_kept _ _ _ _ _ _ _
  · exact (writeExternalWord_board he h).kept

theorem writePhysByte_kept {a : PhysAddr} {v : Byte} {s t : State} (h : writePhysByte a v s = .ok ((), t)) :
    StoreKept s t := by
  unfold writePhysByte at h
  rw [Op.bind_of_ok (look_apply _ _)] at h
  generalize areaOf s s.prev.cpu.syscon a = area at h
  cases area <;> dsimp only at h
  · exact (writeSfrWord_kept h).store
  · simp only [update_apply, Except.ok.injEq, Prod.mk.injEq, true_and] at h
    rw [← h]; exact storeByte_kept _ _ _
  · cases h
  · cases h
  · simp only [update_apply, Except.ok.injEq, Prod.mk.injEq, true_and] at h
    rw [← h]; exact ssp_store_kept _ _ _ _ _ _ _
  · exact (writeExternalByte_board h).kept

/-! ## Stores to plain memory -/

theorem sameChip_trace (a : PhysAddr) (w : Bool) (d : Option Word) (s : State) : SameChip s (externalTrace a w d s) := by
  constructor <;> rfl

theorem writeExternalByte_plain {a : PhysAddr} {v : Byte} {s t : State} (h : writeExternalByte a v s = .ok ((), t))
    (hr : regionKind s a = .ram) : Memory.read t.mem (externalCell s a) = v
      ∧ (Undisturbed s → SameChip s t ∧ t.mem = Memory.write s.mem (externalCell s a) v) := by
  obtain ⟨u, hu, _, ho, ht⟩ := writeExternalByte_ok h
  rw [if_pos hr] at ht
  refine ⟨by rw [ht, State.storeByte_mem, Memory.read_write_self], fun hd => ?_⟩
  rw [beforeCycle_of_undisturbed hd] at hu
  refine ⟨?_, by rw [ht, State.storeByte_mem, hu]; rfl⟩
  rw [ht, hu]; constructor <;> rfl

theorem SameChip.refl (s : State) : SameChip s s := by constructor <;> rfl

theorem SameChip.trans {s t u : State} (h : SameChip s t) (k : SameChip t u) : SameChip s u :=
  ⟨k.bus.trans h.bus, k.ports.trans h.ports, k.pins.trans h.pins, k.gpt.trans h.gpt, k.wdt.trans h.wdt,
    k.asc.trans h.asc, k.ssc.trans h.ssc, k.ssp.trans h.ssp, k.ic.trans h.ic, k.pecc.trans h.pecc, k.sys.trans h.sys,
    k.board.trans h.board, k.clocks.trans h.clocks, k.agenda.trans h.agenda, k.answers.trans h.answers,
    k.gaps.trans h.gaps⟩

/-- A word write to plain memory is the store, after the traces of the external bus. `hr`: both bytes are RAM. -/
theorem writeExternalWord_plain {a : PhysAddr} {v : Word} {s t : State} (he : a.getLsbD 0 = false)
    (h : writeExternalWord a v s = .ok ((), t)) (hr : regionKind s a = .ram) (hr1 : regionKind s (a + 1) = .ram)
    (hd : Undisturbed s) : SameChip s t ∧ t.mem = Memory.writeWord s.mem (externalCell s a) v := by
  rcases writeExternalWord_ok h with ⟨_, u, hu, _, ho, ht⟩ | ⟨_, u, h1, h2⟩
  · rw [beforeCycle_of_undisturbed hd] at hu
    rw [if_pos hr] at ht
    refine ⟨?_, by rw [ht, State.storeWord_mem, hu]; rfl⟩
    rw [ht, hu]; constructor <;> rfl
  · have b1 := writeExternalByte_board h1
    obtain ⟨_, p1⟩ := writeExternalByte_plain h1 hr
    obtain ⟨_, p2⟩ := writeExternalByte_plain h2 (by rw [regionKind_congr b1.kept.prev b1.kept.board, hr1])
    obtain ⟨c1, m1⟩ := p1 hd
    obtain ⟨c2, m2⟩ := p2 (b1.undisturbed hd)
    refine ⟨c1.trans c2, ?_⟩
    rw [m2, m1, externalCell_congr b1.kept.prev b1.kept.board, externalCell_succ s he]; rfl

theorem not_external_of_iram {s : State} {a : PhysAddr} (h : areaOf s s.prev.cpu.syscon a = .external) :
    ¬ inIramAt s a := by simp [inIramAt, h]

/-- A word write to plain memory is the store, after the traces of the external bus. -/
theorem writePhysWord_plain {a : PhysAddr} {v : Word} {s t : State} (he : a.getLsbD 0 = false)
    (h : writePhysWord a v s = .ok ((), t)) (hp : plainMemory s a) (hp1 : plainMemory s (a + 1)) : t.cpu = s.cpu
      ∧ (Undisturbed s ∨ inIramAt s a → SameChip s t ∧ t.mem = Memory.writeWord s.mem (cellOf s a) v) := by
  unfold writePhysWord at h
  rw [Op.bind_of_ok (look_apply _ _)] at h
  rcases hp with hp | ⟨hp, hr⟩
  · rw [hp] at h; dsimp only at h
    simp only [update_apply, Except.ok.injEq, Prod.mk.injEq, true_and] at h
    rw [← h, cellOf_iram hp]; exact ⟨rfl, fun _ => ⟨by constructor <;> rfl, rfl⟩⟩
  · have hr1 : regionKind s (a + 1) = .ram := by
      rcases hp1 with k | k
      · exfalso
        exact not_external_of_iram hp ((areaOf_succ s _ he).1 k)
      · exact k.2
    rw [hp] at h; dsimp only at h
    refine ⟨(writeExternalWord_board he h).cpu, fun hd => ?_⟩
    rw [cellOf_external hp]
    exact writeExternalWord_plain he h hr hr1 (hd.resolve_right (not_external_of_iram hp))

/-- A byte write to plain memory is the store, after the traces of the external bus. -/
theorem writePhysByte_plain {a : PhysAddr} {v : Byte} {s t : State} (h : writePhysByte a v s = .ok ((), t))
    (hp : plainMemory s a) : t.cpu = s.cpu ∧ Memory.read t.mem (cellOf s a) = v
      ∧ (Undisturbed s ∨ inIramAt s a → SameChip s t ∧ t.mem = Memory.write s.mem (cellOf s a) v) := by
  unfold writePhysByte at h
  rw [Op.bind_of_ok (look_apply _ _)] at h
  rcases hp with hp | ⟨hp, hr⟩
  · rw [hp] at h; dsimp only at h
    simp only [update_apply, Except.ok.injEq, Prod.mk.injEq, true_and] at h
    rw [← h, cellOf_iram hp]
    exact ⟨rfl, by rw [State.storeByte_mem, Memory.read_write_self], fun _ => ⟨by constructor <;> rfl, rfl⟩⟩
  · rw [hp] at h; dsimp only at h
    rw [cellOf_external hp]
    obtain ⟨h1, h2⟩ := writeExternalByte_plain h hr
    exact ⟨(writeExternalByte_board h).cpu, h1, fun hd => h2 (hd.resolve_right (not_external_of_iram hp))⟩

/-- A word store answers only as a write at an even address that is not being remapped. -/
theorem writeWordOperand_ok {a v : Word} {s t : State} (h : writeWordOperand a v s = .ok ((), t)) :
    isOdd a = false ∧ writePhysWord (dataAddr s a) v s = .ok ((), t) := by
  rw [writeWordOperand_apply] at h
  split at h
  · cases h
  · next ho =>
    split at h
    · cases h
    · exact ⟨by simpa using ho, h⟩

/-- A byte store answers only as a write at an address that is not being remapped. -/
theorem writeByteOperand_ok {a : Word} {v : Byte} {s t : State} (h : writeByteOperand a v s = .ok ((), t)) :
    writePhysByte (dataAddr s a) v s = .ok ((), t) := by
  rw [writeByteOperand_apply] at h
  split at h
  · cases h
  · exact h

/-- A data address depends on the values before the instruction and on the extension sequence. -/
theorem dataAddr_congr {s t : State} (hp : t.prev = s.prev) (he : t.ext = s.ext) (a : Word) :
    dataAddr t a = dataAddr s a := by
  simp only [dataAddr, hp, he]

/-! ## Operands that need a missing bus -/

theorem byteOperand_of_missing {s : State} {a : Word} (hr : dataRemapped s a = false)
    (he : areaOf s s.prev.cpu.syscon (dataAddr s a) = .external) (h : busEnabled s.prev.bus = false) :
    readByteOperand a s = .error (.trap 0) ∧ ∀ v, writeByteOperand a v s = .error (.trap 0) := by
  simp [readByteOperand_apply, writeByteOperand_apply, hr, readPhysByte, writePhysByte, Op.bind_apply, he, readExternalByte,
    writeExternalByte, busCycle_of_missing h]

theorem wordOperand_of_missing {s : State} {a : Word} (ho : isOdd a = false) (hr : dataRemapped s a = false)
    (he : areaOf s s.prev.cpu.syscon (dataAddr s a) = .external) (h : busEnabled s.prev.bus = false) :
    readWordOperand a s = .error (.trap 0) ∧ ∀ v, writeWordOperand a v s = .error (.trap 0) := by
  cases hb : byteBus s (dataAddr s a) <;>
    simp [readWordOperand_apply, writeWordOperand_apply, ho, hr, readPhysWord, writePhysWord, Op.bind_apply, he,
      readExternalWord, writeExternalWord, hb, readExternalByte, writeExternalByte, busCycle_of_missing h]

/-! ## Even addresses -/

/-- The lowest bit of a data address is that of the 16-bit address. -/
theorem dataAddr_even {s : State} {a : Word} (h : isOdd a = false) : (dataAddr s a).getLsbD 0 = false := by
  unfold dataAddr
  cases activeOverride s.ext <;> simp only [BitVec.getLsbD_append] <;> simpa [isOdd] using h

end Sys2Proof.Machine
end

