-- ==== Sys2Proof/Laws/Frames.lean ====
section
/-! SUPPORT. From what an instruction's body answers to what the instruction does, said once for all instructions. -/

namespace Sys2Proof.Machine

/-! ## The status register -/

/-- A word that agrees with `p` outside the condition flags is `p` with its own flags put in. -/
theorem putCond_condFlags {p q : Word} (h : q &&& 0xFFE0 = p &&& 0xFFE0) : q = putCond p (condFlags q) := by
  have h1 : q = (q &&& 0xFFE0) ||| (q &&& 0x001F) := by
    rw [← BitVec.and_or_distrib_left]
    exact BitVec.and_allOnes.symm
  have h2 : ∀ b : BitVec 5, b.setWidth 16 = BitVec.ofNat 16 (16 * (b.getLsbD 4).toNat + 8 * (b.getLsbD 3).toNat
      + 4 * (b.getLsbD 2).toNat + 2 * (b.getLsbD 1).toNat + (b.getLsbD 0).toNat) := by decide
  have h3 : q &&& 0x001F = (q.setWidth 5).setWidth 16 := by
    apply BitVec.eq_of_getLsbD_eq
    intro i hi
    simp only [BitVec.getLsbD_and, BitVec.getLsbD_setWidth]
    interval_cases i <;> simp
  conv => lhs; rw [h1, h3, h2, h]
  simp [putCond, condFlags, bitOf]

/-- A flag update puts its five flags in and leaves the rest. -/
theorem FlagUpdate.apply_eq (f : FlagUpdate) (p : Word) : f.apply p = putCond p (condFlags (f.apply p)) :=
  putCond_condFlags (FlagUpdate.apply_status f p)

@[simp] theorem putCond_self (p : Word) : putCond p (condFlags p) = p := (putCond_condFlags rfl).symm

/-! ## From the body to the instruction -/

theorem SameOutside.refl (s : State) : SameOutside s s := ⟨SameChip.refl s, rfl⟩

theorem SameOutside.trans {s t u : State} (h : SameOutside s t) (k : SameOutside t u) : SameOutside s u :=
  ⟨h.1.trans k.1, k.2.trans h.2⟩

/-- An instruction whose body answers and starts no extension sequence: IP is where the body has branched to, or after
the instruction. -/
theorem runsTo_of {i : Instr} {len : Nat} {body : Op Unit} {s t : State} (hi : exec i s = runInstr len body s)
    (hb : body s.begin = .ok ((), t)) (he : t.marks.extStarted = false) :
    RunsTo i s { t.cpu with ip := if t.marks.branched then t.cpu.ip else ipAfter len s } s.ext.tick (bytesOf t) t := by
  refine ⟨_, hi.trans (runInstr_of_ok hb), rfl, ?_, fun x => rfl, ⟨by constructor <;> rfl, rfl⟩⟩
  simp [finish, he]

/-- The same result, written in another way. -/
theorem runsTo_conv {i : Instr} {s w w' : State} {c c' : Cpu} {e : Ext} {m m' : Nat → Byte} (h : RunsTo i s c e m w)
    (hc : c = c') (hm : ∀ x, m x = m' x) (hw : SameOutside w' w) : RunsTo i s c' e m' w' := by
  obtain ⟨t, h1, h2, h3, h4, h5⟩ := h
  exact ⟨t, h1, h2.trans hc, h3, fun x => (h4 x).trans (hm x), hw.trans h5⟩

/-- An instruction whose body neither branches nor starts an extension sequence. -/
theorem runInstr_plain {len : Nat} {body : Op Unit} {s t : State} (h : body s.begin = .ok ((), t))
    (hb : t.marks.branched = false) (he : t.marks.extStarted = false) :
    runInstr len body s = .next (finish len s t)
      ∧ (finish len s t).cpu = { t.cpu with ip := s.cpu.ip + BitVec.ofNat 16 len }
      ∧ (finish len s t).ext = s.ext.tick ∧ (finish len s t).mem = t.mem ∧ SameOutside t (finish len s t) := by
  refine ⟨runInstr_of_ok h, ?_, ?_, rfl, ?_⟩
  · simp [finish, hb]
  · simp [finish, he]
  · exact ⟨by constructor <;> rfl, rfl⟩

theorem setFlags_mem (s : State) (f : FlagUpdate) : (s.setFlags f).mem = s.mem := by
  unfold State.setFlags; split <;> rfl

theorem setFlags_cpu (s : State) (f : FlagUpdate) : (s.setFlags f).cpu =
    { s.cpu with psw := if s.marks.pswWritten then s.cpu.psw else putCond s.cpu.psw (condFlags (f.apply s.cpu.psw)) } := by
  unfold State.setFlags
  split
  · rfl
  · rw [← FlagUpdate.apply_eq]

theorem setFlags_outside (s : State) (f : FlagUpdate) : SameOutside s (s.setFlags f) := by
  unfold State.setFlags; split <;> exact ⟨by constructor <;> rfl, rfl⟩

/-- An instruction that ends by setting flags, after its writes have led to `w`. -/
theorem finishes_of {i : Instr} {len : Nat} {body : Op Unit} {s w : State} {f : FlagUpdate} {fl : Cond}
    (hi : exec i s = runInstr len body s) (hb : body s.begin = .ok ((), w.setFlags f))
    (h1 : w.marks.branched = false) (h2 : w.marks.extStarted = false)
    (hf : w.marks.pswWritten = false → condFlags (f.apply w.cpu.psw) = fl) : Finishes i (ipAfter len s) s w fl := by
  obtain ⟨e1, e2, e3, e4, e5⟩ := runInstr_plain (len := len) hb (by rw [setFlags_marks, h1]) (by rw [setFlags_marks, h2])
  refine ⟨_, hi.trans e1, ?_, e3, fun x => by simp [bytesOf], (setFlags_outside w f).trans e5⟩
  rw [e2, setFlags_cpu]
  cases h : w.marks.pswWritten
  · simp [hf h, ipAfter]
  · simp [ipAfter]

/-- The same, for an instruction whose writes have changed memory only. -/
theorem computes_of {i : Instr} {len : Nat} {body : Op Unit} {s u w : State} {f : FlagUpdate} {fl : Cond}
    {mem : Nat → Byte} (hi : exec i s = runInstr len body s) (hb : body s.begin = .ok ((), w.setFlags f))
    (hr : OnlyRead s.begin u) (h1 : w.marks.branched = false) (h2 : w.marks.extStarted = false)
    (h3 : w.marks.pswWritten = false) (hc : w.cpu = u.cpu) (ho : SameOutside u w)
    (hf : condFlags (f.apply s.cpu.psw) = fl) (hm : ∀ x, bytesOf w x = mem x) : Computes i (ipAfter len s) s u fl mem := by
  have hp : u.cpu.psw = s.cpu.psw := by rw [hr.cpu]; rfl
  obtain ⟨t, e1, e2, e3, e4, e5⟩ := finishes_of (fl := fl) hi hb h1 h2 (by intro _; rw [hc, hp, hf])
  refine ⟨hr, t, e1, ?_, e3, ?_, ho.trans e5⟩
  · rw [e2, hc, h3, hp]; simp
  · intro x; rw [← hm x, e4]

/-! ## What reads leave -/

theorem OnlyRead.psw {s u : State} (h : OnlyRead s.begin u) : u.cpu.psw = s.cpu.psw := by rw [h.cpu]; rfl

theorem OnlyRead.gprWordAddr {s u : State} (h : OnlyRead s.begin u) (n : BitVec 4) :
    Machine.gprWordAddr u n = Machine.gprWordAddr s n := gprWordAddr_congr n h.prev

theorem OnlyRead.gprByteAddr {s u : State} (h : OnlyRead s.begin u) (n : BitVec 4) :
    Machine.gprByteAddr u n = Machine.gprByteAddr s n := gprByteAddr_congr n h.prev

theorem OnlyRead.gprWordOk {s u : State} (h : OnlyRead s.begin u) (n : BitVec 4) :
    Machine.gprWordOk u n = Machine.gprWordOk s n := gprWordOk_congr n h.prev h.board

theorem OnlyRead.gprByteOk {s u : State} (h : OnlyRead s.begin u) (n : BitVec 4) :
    Machine.gprByteOk u n = Machine.gprByteOk s n := gprByteOk_congr n h.prev h.board

theorem gprWordAddr_lt (s : State) (n : BitVec 4) : Machine.gprWordAddr s n < 2 ^ 16 := BitVec.isLt _

theorem gprByteAddr_lt (s : State) (n : BitVec 4) : Machine.gprByteAddr s n < 2 ^ 16 := BitVec.isLt _

theorem OnlyRead.gprWord {s u : State} (h : OnlyRead s.begin u) (n : BitVec 4) : u.gprWord n = s.gprWord n := by
  have hl := gprWordAddr_lt s n
  simp only [State.gprWord, h.gprWordAddr, Memory.readWord]
  rw [h.inside _ (by omega), h.inside _ (by omega)]; rfl

theorem OnlyRead.gprByte {s u : State} (h : OnlyRead s.begin u) (n : BitVec 4) : u.gprByte n = s.gprByte n := by
  have hl := gprByteAddr_lt s n
  simp only [State.gprByte, h.gprByteAddr]
  rw [h.inside _ (by omega)]; rfl

theorem OnlyRead.bytesOf {s u : State} (h : OnlyRead s.begin u) (hd : Undisturbed s) :
    Machine.bytesOf u = Machine.bytesOf s := by
  funext x; simp only [Machine.bytesOf, h.mem hd]; rfl

/-! ## Bodies that write memory only -/

/-- `w` is `u` with other memory and a longer list of stores: the CPU, the chip and the other marks are the same. -/
structure Quiet (u w : State) : Prop where
  cpu : w.cpu = u.cpu
  outside : SameOutside u w
  branched : w.marks.branched = u.marks.branched
  extStarted : w.marks.extStarted = u.marks.extStarted
  pswWritten : w.marks.pswWritten = u.marks.pswWritten
  prev : w.prev = u.prev
  board : w.board = u.board
  ext : w.ext = u.ext

theorem Quiet.refl (u : State) : Quiet u u := ⟨rfl, SameOutside.refl u, rfl, rfl, rfl, rfl, rfl, rfl⟩

theorem Quiet.trans {u v w : State} (h : Quiet u v) (k : Quiet v w) : Quiet u w :=
  ⟨k.cpu.trans h.cpu, h.outside.trans k.outside, k.branched.trans h.branched, k.extStarted.trans h.extStarted,
    k.pswWritten.trans h.pswWritten, k.prev.trans h.prev, k.board.trans h.board, k.ext.trans h.ext⟩

theorem quiet_setGprWord (u : State) (n : BitVec 4) (v : Word) : Quiet u (u.setGprWord n v) :=
  ⟨rfl, ⟨by constructor <;> rfl, rfl⟩, rfl, rfl, rfl, rfl, rfl, rfl⟩

theorem quiet_setGprByte (u : State) (n : BitVec 4) (v : Byte) : Quiet u (u.setGprByte n v) :=
  ⟨rfl, ⟨by constructor <;> rfl, rfl⟩, rfl, rfl, rfl, rfl, rfl, rfl⟩

theorem bytes_setGprWord (u : State) (n : BitVec 4) (v : Word) (x : Nat) :
    bytesOf (u.setGprWord n v) x = patchWord (bytesOf u) (gprWordAddr u n) v x := by
  simp only [bytesOf, State.setGprWord_mem, Memory.read_writeWord, patchWord]
  by_cases h : x = gprWordAddr u n
  · subst h; simp
  · simp [h]

theorem bytes_setGprByte (u : State) (n : BitVec 4) (v : Byte) (x : Nat) :
    bytesOf (u.setGprByte n v) x = patchByte (bytesOf u) (gprByteAddr u n) v x := by
  simp only [bytesOf, State.setGprByte_mem, Memory.read_write, patchByte]

/-- An instruction that writes memory and sets flags. -/
theorem computes_of_quiet {i : Instr} {len : Nat} {body : Op Unit} {s u w : State} {f : FlagUpdate} {fl : Cond}
    {mem : Nat → Byte} (hi : exec i s = runInstr len body s) (hr : OnlyRead s.begin u)
    (hb : body s.begin = .ok ((), w.setFlags f)) (hq : Quiet u w)
    (hf : condFlags (f.apply s.cpu.psw) = fl) (hm : ∀ x, bytesOf w x = mem x) : Computes i (ipAfter len s) s u fl mem :=
  computes_of hi hb hr (by rw [hq.branched, hr.marks]; rfl) (by rw [hq.extStarted, hr.marks]; rfl)
    (by rw [hq.pswWritten, hr.marks]; rfl) hq.cpu hq.outside hf hm

/-- A two-operand instruction on a word GPR. -/
theorem aluFinish_gpr (op : Alu) (a b : Word) (n : BitVec 4) {u : State} (h : gprWordOk u n = true) :
    ∃ w f, aluFinish op a b (writeGpr n) u = .ok ((), w.setFlags f) ∧ Quiet u w
      ∧ (∀ x, bytesOf w x = aluBytes op (bytesOf u) (gprWordAddr u n) (aluValue op a b (condFlags u.cpu.psw).c) x)
      ∧ condFlags (f.apply u.cpu.psw) = aluCond op a b (condFlags u.cpu.psw) := by
  by_cases hc : op = .cmp
  · subst hc
    exact ⟨_, _, aluFinish_cmp _ _ _ _, Quiet.refl u, fun x => rfl, condFlags_aluResult _ _ _ _⟩
  · refine ⟨_, _, aluFinish_of_ne hc (writeGpr_ok.2 ⟨h, rfl⟩), quiet_setGprWord _ _ _, ?_, condFlags_aluResult _ _ _ _⟩
    intro x
    rw [bytes_setGprWord, aluBytes, if_neg hc, aluResult_value, aluTested_of_ne hc]
    rfl

/-- A two-operand instruction on a byte GPR. -/
theorem aluFinish_gprB (op : Alu) (a b : Byte) (n : BitVec 4) {u : State} (h : gprByteOk u n = true) :
    ∃ w f, aluFinish op a b (writeGprB n) u = .ok ((), w.setFlags f) ∧ Quiet u w
      ∧ (∀ x, bytesOf w x = aluBytesB op (bytesOf u) (gprByteAddr u n) (aluValue op a b (condFlags u.cpu.psw).c) x)
      ∧ condFlags (f.apply u.cpu.psw) = aluCond op a b (condFlags u.cpu.psw) := by
  by_cases hc : op = .cmp
  · subst hc
    exact ⟨_, _, aluFinish_cmp _ _ _ _, Quiet.refl u, fun x => rfl, condFlags_aluResult _ _ _ _⟩
  · refine ⟨_, _, aluFinish_of_ne hc (writeGprB_ok.2 ⟨h, rfl⟩), quiet_setGprByte _ _ _, ?_, condFlags_aluResult _ _ _ _⟩
    intro x
    rw [bytes_setGprByte, aluBytesB, if_neg hc, aluResult_value, aluTested_of_ne hc]
    rfl

/-! ## Instructions that end in one write -/

/-- The write of a register operand, then the flags. -/
theorem setsReg_of {i : Instr} {len : Nat} {body : Op Unit} {s u : State} {reg : BitVec 8} {v : Word} {f : FlagUpdate}
    {fl : Cond} (hi : exec i s = runInstr len body s) (hr : OnlyRead s.begin u)
    (hb : ∀ w, writeReg reg v u = .ok ((), w) → body s.begin = .ok ((), w.setFlags f))
    (hf : condFlags (f.apply s.cpu.psw) = fl) : SetsReg i (ipAfter len s) s u reg v fl := by
  refine ⟨hr, fun hg hok => ?_, fun w hg hw => ?_⟩
  · refine computes_of_quiet hi hr (hb _ ?_) (quiet_setGprWord u (regGpr reg) v) hf ?_
    · rw [writeReg_gpr hg, writeGpr_ok]; exact ⟨by rw [hr.gprWordOk, hok], rfl⟩
    · intro x; rw [bytes_setGprWord, hr.gprWordAddr]
  · have hw' := hw
    rw [writeReg_sfr hg] at hw'
    have hk := writeSfrWord_kept hw'
    refine ⟨finishes_of hi (hb w hw) (by rw [hk.branched, hr.marks]; rfl) (by rw [hk.extStarted, hr.marks]; rfl) ?_, ?_⟩
    · intro hp; rw [hk.psw hp, hr.psw, hf]
    · intro x _; rw [hk.mem]

/-- The write of a byte register operand, then the flags. -/
theorem setsRegB_of {i : Instr} {len : Nat} {body : Op Unit} {s u : State} {reg : BitVec 8} {v : Byte} {f : FlagUpdate}
    {fl : Cond} (hi : exec i s = runInstr len body s) (hr : OnlyRead s.begin u)
    (hb : ∀ w, writeRegB reg v u = .ok ((), w) → body s.begin = .ok ((), w.setFlags f))
    (hf : condFlags (f.apply s.cpu.psw) = fl) : SetsRegB i (ipAfter len s) s u reg v fl := by
  refine ⟨hr, fun hg hok => ?_, fun w hg hw => ?_⟩
  · refine computes_of_quiet hi hr (hb _ ?_) (quiet_setGprByte u (regGpr reg) v) hf ?_
    · rw [writeRegB_gpr hg, writeGprB_ok]; exact ⟨by rw [hr.gprByteOk, hok], rfl⟩
    · intro x; rw [bytes_setGprByte, hr.gprByteAddr]
  · have hw' := hw
    rw [writeRegB_sfr hg] at hw'
    have hk := writeSfrWord_kept hw'
    refine ⟨finishes_of hi (hb w hw) (by rw [hk.branched, hr.marks]; rfl) (by rw [hk.extStarted, hr.marks]; rfl) ?_, ?_⟩
    · intro hp; rw [hk.psw hp, hr.psw, hf]
    · intro x _; rw [hk.mem]

theorem inIramAt_congr {s t : State} (hp : t.prev = s.prev) (hb : t.board = s.board) (a : PhysAddr) :
    inIramAt t a ↔ inIramAt s a := by
  simp only [inIramAt, hp]; rw [areaOf_congr hb]

theorem plainMemory_congr {s t : State} (hp : t.prev = s.prev) (hb : t.board = s.board) (a : PhysAddr) :
    plainMemory t a ↔ plainMemory s a := by
  simp only [plainMemory, inIramAt, inBoardRam, hp]; rw [areaOf_congr hb, regionKind_congr hp hb]

theorem StoreFrame.congr {stored : Nat → Prop} {a : PhysAddr} {s u w : State} (h : StoreFrame stored a u u w)
    (hp : u.prev = s.prev) (hb : u.board = s.board) : StoreFrame stored a s u w :=
  ⟨h.1, fun hd => h.2 (hd.imp_right (inIramAt_congr hp hb a).2)⟩

/-- A word store, then the flags, from a state with the values before the instruction of `s`. -/
theorem storesWord_of {i : Instr} {len : Nat} {body : Op Unit} {s u : State} {a v : Word} {f : FlagUpdate} {fl : Cond}
    (hi : exec i s = runInstr len body s)
    (hb : ∀ w, writeWordOperand a v u = .ok ((), w) → body s.begin = .ok ((), w.setFlags f))
    (hp : u.prev = s.prev) (he : u.ext = s.ext) (hd : u.board = s.board) (h1 : u.marks.branched = false)
    (h2 : u.marks.extStarted = false) (hf : condFlags (f.apply u.cpu.psw) = fl) :
    StoresWord i (ipAfter len s) s u a v fl := by
  intro w hw
  obtain ⟨ho, hpw⟩ := writeWordOperand_ok hw
  have hev := dataAddr_even (s := u) ho
  have hk := writePhysWord_kept hev hpw
  rw [dataAddr_congr hp he] at hpw hev
  refine ⟨finishes_of hi (hb w hw) (hk.branched.trans h1) (hk.extStarted.trans h2) ?_, ?_, ?_⟩
  · intro hps; rw [hk.psw hps, hf]
  · rw [← cellOf_congr hp hd]
    exact (writePhysWord_frame hev hpw).congr hp hd
  · intro hpl hpl1
    obtain ⟨e1, e2⟩ := writePhysWord_plain hev hpw ((plainMemory_congr hp hd _).2 hpl) ((plainMemory_congr hp hd _).2 hpl1)
    refine ⟨e1, fun hq => ?_⟩
    obtain ⟨e3, e4⟩ := e2 (hq.imp_right (inIramAt_congr hp hd _).2)
    refine ⟨e3, fun x => ?_⟩
    rw [cellOf_congr hp hd] at e4
    simp only [bytesOf, e4, Memory.read_writeWord, patchWord]
    by_cases h : x = cellOf s (dataAddr s a)
    · subst h; simp
    · simp [h]

/-- A byte store, then the flags. -/
theorem storesByte_of {i : Instr} {len : Nat} {body : Op Unit} {s u : State} {a : Word} {v : Byte} {f : FlagUpdate}
    {fl : Cond} (hi : exec i s = runInstr len body s)
    (hb : ∀ w, writeByteOperand a v u = .ok ((), w) → body s.begin = .ok ((), w.setFlags f))
    (hp : u.prev = s.prev) (he : u.ext = s.ext) (hd : u.board = s.board) (h1 : u.marks.branched = false)
    (h2 : u.marks.extStarted = false) (hf : condFlags (f.apply u.cpu.psw) = fl) :
    StoresByte i (ipAfter len s) s u a v fl := by
  intro w hw
  have hpw := writeByteOperand_ok hw
  have hk := writePhysByte_kept hpw
  rw [dataAddr_congr hp he] at hpw
  refine ⟨finishes_of hi (hb w hw) (hk.branched.trans h1) (hk.extStarted.trans h2) ?_, ?_, ?_⟩
  · intro hps; rw [hk.psw hps, hf]
  · rw [← cellOf_congr hp hd]
    exact (writePhysByte_frame hpw).congr hp hd
  · intro hpl
    obtain ⟨e1, e2, e3⟩ := writePhysByte_plain hpw ((plainMemory_congr hp hd _).2 hpl)
    rw [cellOf_congr hp hd] at e2 e3
    refine ⟨e1, e2, fun hq => ?_⟩
    obtain ⟨e4, e5⟩ := e3 (hq.imp_right (inIramAt_congr hp hd _).2)
    exact ⟨e4, fun x => by simp only [bytesOf, e5, Memory.read_write, patchByte]⟩

/-- The same, after reads only. -/
theorem storesWord_of_read {i : Instr} {len : Nat} {body : Op Unit} {s u : State} {a v : Word} {f : FlagUpdate}
    {fl : Cond} (hi : exec i s = runInstr len body s) (hr : OnlyRead s.begin u)
    (hb : ∀ w, writeWordOperand a v u = .ok ((), w) → body s.begin = .ok ((), w.setFlags f))
    (hf : condFlags (f.apply s.cpu.psw) = fl) : StoresWord i (ipAfter len s) s u a v fl :=
  storesWord_of hi hb hr.prev hr.ext hr.board (by rw [hr.marks]; rfl) (by rw [hr.marks]; rfl) (by rw [hr.psw, hf])

/-- The same, after reads only. -/
theorem storesByte_of_read {i : Instr} {len : Nat} {body : Op Unit} {s u : State} {a : Word} {v : Byte} {f : FlagUpdate}
    {fl : Cond} (hi : exec i s = runInstr len body s) (hr : OnlyRead s.begin u)
    (hb : ∀ w, writeByteOperand a v u = .ok ((), w) → body s.begin = .ok ((), w.setFlags f))
    (hf : condFlags (f.apply s.cpu.psw) = fl) : StoresByte i (ipAfter len s) s u a v fl :=
  storesByte_of hi hb hr.prev hr.ext hr.board (by rw [hr.marks]; rfl) (by rw [hr.marks]; rfl) (by rw [hr.psw, hf])

/-! ## Bit words -/

theorem bytes_storeWord (u : State) (a : Nat) (v : Word) (x : Nat) :
    bytesOf (u.storeWord a v) x = patchWord (bytesOf u) a v x := by
  simp only [bytesOf, State.storeWord_mem, Memory.read_writeWord, patchWord]
  by_cases h : x = a
  · subst h; simp
  · simp [h]

theorem quiet_storeWord (u : State) (a : Nat) (v : Word) : Quiet u (u.storeWord a v) :=
  ⟨rfl, ⟨by constructor <;> rfl, rfl⟩, rfl, rfl, rfl, rfl, rfl, rfl⟩

/-- A `bitoff` below 80h names no GPR. -/
theorem regIsGpr_of_lt {bo : BitVec 8} (h : bo.toNat < 0x80) : regIsGpr bo = false := by
  revert h; revert bo; decide

theorem writeBitWord_gpr {bo : BitVec 8} (h : regIsGpr bo = true) (mask v : Word) (s : State) :
    writeBitWord bo mask v s = writeGpr (regGpr bo) v s := by
  simp [writeBitWord, h]

theorem writeBitWord_iram {bo : BitVec 8} (h : bo.toNat < 0x80) (mask v : Word) (s : State) :
    writeBitWord bo mask v s = .ok ((), s.storeWord (bitIramAddr bo) v) := by
  simp [writeBitWord, regIsGpr_of_lt h, h]

theorem writeBitWord_sfr {bo : BitVec 8} (h : regIsGpr bo = false) (h2 : 0x80 ≤ bo.toNat) (mask v : Word) (s : State) :
    writeBitWord bo mask v s = writeSfrBits (bitSfrAddr s bo) mask v s := by
  simp [writeBitWord, h, Nat.not_lt.2 h2, Op.bind_apply]

/-- The write of a bit word, then the flags. -/
theorem setsBitWord_of {i : Instr} {len : Nat} {body : Op Unit} {s u : State} {bo : BitVec 8} {mask v : Word} {f : FlagUpdate}
    {fl : Cond} (hi : exec i s = runInstr len body s) (hr : OnlyRead s.begin u)
    (hb : ∀ w, writeBitWord bo mask v u = .ok ((), w) → body s.begin = .ok ((), w.setFlags f))
    (hf : condFlags (f.apply s.cpu.psw) = fl) : SetsBitWord i (ipAfter len s) s u bo mask v fl := by
  refine ⟨hr, fun hg hok => ?_, fun hlt => ?_, fun w hg h2 hw => ?_⟩
  · refine computes_of_quiet hi hr (hb _ ?_) (quiet_setGprWord u (regGpr bo) v) hf ?_
    · rw [writeBitWord_gpr hg, writeGpr_ok]; exact ⟨by rw [hr.gprWordOk, hok], rfl⟩
    · intro x; rw [bytes_setGprWord, hr.gprWordAddr]
  · refine computes_of_quiet hi hr (hb _ (writeBitWord_iram hlt mask v u)) (quiet_storeWord u _ v) hf ?_
    intro x; rw [bytes_storeWord]
  · have hw' := hw
    rw [writeBitWord_sfr hg h2] at hw'
    have hk := writeSfrBits_kept hw'
    refine ⟨finishes_of hi (hb w hw) (by rw [hk.branched, hr.marks]; rfl) (by rw [hk.extStarted, hr.marks]; rfl) ?_, ?_⟩
    · intro hp; rw [hk.psw hp, hr.psw, hf]
    · intro x _; rw [hk.mem]

/-! ## The flags of the moves -/

@[simp] theorem condFlags_moveFlags {w : Nat} (v : BitVec w) (p : Word) :
    condFlags ((moveFlags v).apply p) = moveCond v (condFlags p) := by
  simp [condFlags_apply, moveFlags, moveCond, isMin]

@[simp] theorem condFlags_extendFlags (v p : Word) :
    condFlags ((extendFlags v).apply p) = extendCond v (condFlags p) := by
  simp [condFlags_apply, extendFlags, extendCond]

end Sys2Proof.Machine
end

