-- ==== Sys2Proof/Laws/PerInstr.lean ====
section
/-! SUPPORT. Facts about every instruction as syntax, one lemma per constructor. -/

/-- The encoding is 2 or 4 bytes long, whole words, and its first byte announces that length (30_encoding.md R131,
R132). -/
def Sys2Proof.Laws.EncodedLength.Statement (i : Sys2Proof.Instr) : Prop :=
  (i.length = 2 ∨ i.length = 4) ∧ (Sys2Proof.encode i).length * 2 = i.length
    ∧ ∀ b ∈ (Sys2Proof.encodeBytes i).head?, Sys2Proof.opcodeLength b = i.length

namespace Sys2Proof.Laws.EncodedLength

/-- The statement for an instruction of two bytes. -/
theorem of_two {i : Instr} (a b : Byte) (h : encodeBytes i = [a, b]) (ha : opcodeLength a = 2) : Statement i := by
  simp [Statement, Instr.length, encode, wordsOf, h, ha]

/-- The statement for an instruction of four bytes. -/
theorem of_four {i : Instr} (a b c d : Byte) (h : encodeBytes i = [a, b, c, d]) (ha : opcodeLength a = 4) :
    Statement i := by
  simp [Statement, Instr.length, encode, wordsOf, h, ha]

theorem addRwnRwm (n : BitVec 4) (m : BitVec 4) : Statement (.addRwnRwm n m) := of_two _ _ rfl (by decide)
theorem addRegMem (reg : BitVec 8) (mem : BitVec 16) : Statement (.addRegMem reg mem) := of_four _ _ _ _ rfl (by decide)
theorem addMemReg (mem : BitVec 16) (reg : BitVec 8) : Statement (.addMemReg mem reg) := of_four _ _ _ _ rfl (by decide)
theorem addRegData16 (reg : BitVec 8) (d : BitVec 16) : Statement (.addRegData16 reg d) := of_four _ _ _ _ rfl (by decide)
theorem addRwnIndRwi (n : BitVec 4) (i : BitVec 2) : Statement (.addRwnIndRwi n i) := of_two _ _ rfl (by decide)
theorem addRwnIndRwiInc (n : BitVec 4) (i : BitVec 2) : Statement (.addRwnIndRwiInc n i) := of_two _ _ rfl (by decide)
theorem addRwnData3 (n : BitVec 4) (d : BitVec 3) : Statement (.addRwnData3 n d) := of_two _ _ rfl (by decide)
theorem addbRbnRbm (n : BitVec 4) (m : BitVec 4) : Statement (.addbRbnRbm n m) := of_two _ _ rfl (by decide)
theorem addbRegMem (reg : BitVec 8) (mem : BitVec 16) : Statement (.addbRegMem reg mem) := of_four _ _ _ _ rfl (by decide)
theorem addbMemReg (mem : BitVec 16) (reg : BitVec 8) : Statement (.addbMemReg mem reg) := of_four _ _ _ _ rfl (by decide)
theorem addbRegData8 (reg : BitVec 8) (d : BitVec 8) : Statement (.addbRegData8 reg d) := of_four _ _ _ _ rfl (by decide)
theorem addbRbnIndRwi (n : BitVec 4) (i : BitVec 2) : Statement (.addbRbnIndRwi n i) := of_two _ _ rfl (by decide)
theorem addbRbnIndRwiInc (n : BitVec 4) (i : BitVec 2) : Statement (.addbRbnIndRwiInc n i) := of_two _ _ rfl (by decide)
theorem addbRbnData3 (n : BitVec 4) (d : BitVec 3) : Statement (.addbRbnData3 n d) := of_two _ _ rfl (by decide)
theorem addcRwnRwm (n : BitVec 4) (m : BitVec 4) : Statement (.addcRwnRwm n m) := of_two _ _ rfl (by decide)
theorem addcRegMem (reg : BitVec 8) (mem : BitVec 16) : Statement (.addcRegMem reg mem) := of_four _ _ _ _ rfl (by decide)
theorem addcMemReg (mem : BitVec 16) (reg : BitVec 8) : Statement (.addcMemReg mem reg) := of_four _ _ _ _ rfl (by decide)
theorem addcRegData16 (reg : BitVec 8) (d : BitVec 16) : Statement (.addcRegData16 reg d) := of_four _ _ _ _ rfl (by decide)
theorem addcRwnIndRwi (n : BitVec 4) (i : BitVec 2) : Statement (.addcRwnIndRwi n i) := of_two _ _ rfl (by decide)
theorem addcRwnIndRwiInc (n : BitVec 4) (i : BitVec 2) : Statement (.addcRwnIndRwiInc n i) := of_two _ _ rfl (by decide)
theorem addcRwnData3 (n : BitVec 4) (d : BitVec 3) : Statement (.addcRwnData3 n d) := of_two _ _ rfl (by decide)
theorem addcbRbnRbm (n : BitVec 4) (m : BitVec 4) : Statement (.addcbRbnRbm n m) := of_two _ _ rfl (by decide)
theorem addcbRegMem (reg : BitVec 8) (mem : BitVec 16) : Statement (.addcbRegMem reg mem) := of_four _ _ _ _ rfl (by decide)
theorem addcbMemReg (mem : BitVec 16) (reg : BitVec 8) : Statement (.addcbMemReg mem reg) := of_four _ _ _ _ rfl (by decide)
theorem addcbRegData8 (reg : BitVec 8) (d : BitVec 8) : Statement (.addcbRegData8 reg d) := of_four _ _ _ _ rfl (by decide)
theorem addcbRbnIndRwi (n : BitVec 4) (i : BitVec 2) : Statement (.addcbRbnIndRwi n i) := of_two _ _ rfl (by decide)
theorem addcbRbnIndRwiInc (n : BitVec 4) (i : BitVec 2) : Statement (.addcbRbnIndRwiInc n i) := of_two _ _ rfl (by decide)
theorem addcbRbnData3 (n : BitVec 4) (d : BitVec 3) : Statement (.addcbRbnData3 n d) := of_two _ _ rfl (by decide)
theorem subRwnRwm (n : BitVec 4) (m : BitVec 4) : Statement (.subRwnRwm n m) := of_two _ _ rfl (by decide)
theorem subRegMem (reg : BitVec 8) (mem : BitVec 16) : Statement (.subRegMem reg mem) := of_four _ _ _ _ rfl (by decide)
theorem subMemReg (mem : BitVec 16) (reg : BitVec 8) : Statement (.subMemReg mem reg) := of_four _ _ _ _ rfl (by decide)
theorem subRegData16 (reg : BitVec 8) (d : BitVec 16) : Statement (.subRegData16 reg d) := of_four _ _ _ _ rfl (by decide)
theorem subRwnIndRwi (n : BitVec 4) (i : BitVec 2) : Statement (.subRwnIndRwi n i) := of_two _ _ rfl (by decide)
theorem subRwnIndRwiInc (n : BitVec 4) (i : BitVec 2) : Statement (.subRwnIndRwiInc n i) := of_two _ _ rfl (by decide)
theorem subRwnData3 (n : BitVec 4) (d : BitVec 3) : Statement (.subRwnData3 n d) := of_two _ _ rfl (by decide)
theorem subbRbnRbm (n : BitVec 4) (m : BitVec 4) : Statement (.subbRbnRbm n m) := of_two _ _ rfl (by decide)
theorem subbRegMem (reg : BitVec 8) (mem : BitVec 16) : Statement (.subbRegMem reg mem) := of_four _ _ _ _ rfl (by decide)
theorem subbMemReg (mem : BitVec 16) (reg : BitVec 8) : Statement (.subbMemReg mem reg) := of_four _ _ _ _ rfl (by decide)
theorem subbRegData8 (reg : BitVec 8) (d : BitVec 8) : Statement (.subbRegData8 reg d) := of_four _ _ _ _ rfl (by decide)
theorem subbRbnIndRwi (n : BitVec 4) (i : BitVec 2) : Statement (.subbRbnIndRwi n i) := of_two _ _ rfl (by decide)
theorem subbRbnIndRwiInc (n : BitVec 4) (i : BitVec 2) : Statement (.subbRbnIndRwiInc n i) := of_two _ _ rfl (by decide)
theorem subbRbnData3 (n : BitVec 4) (d : BitVec 3) : Statement (.subbRbnData3 n d) := of_two _ _ rfl (by decide)
theorem subcRwnRwm (n : BitVec 4) (m : BitVec 4) : Statement (.subcRwnRwm n m) := of_two _ _ rfl (by decide)
theorem subcRegMem (reg : BitVec 8) (mem : BitVec 16) : Statement (.subcRegMem reg mem) := of_four _ _ _ _ rfl (by decide)
theorem subcMemReg (mem : BitVec 16) (reg : BitVec 8) : Statement (.subcMemReg mem reg) := of_four _ _ _ _ rfl (by decide)
theorem subcRegData16 (reg : BitVec 8) (d : BitVec 16) : Statement (.subcRegData16 reg d) := of_four _ _ _ _ rfl (by decide)
theorem subcRwnIndRwi (n : BitVec 4) (i : BitVec 2) : Statement (.subcRwnIndRwi n i) := of_two _ _ rfl (by decide)
theorem subcRwnIndRwiInc (n : BitVec 4) (i : BitVec 2) : Statement (.subcRwnIndRwiInc n i) := of_two _ _ rfl (by decide)
theorem subcRwnData3 (n : BitVec 4) (d : BitVec 3) : Statement (.subcRwnData3 n d) := of_two _ _ rfl (by decide)
theorem subcbRbnRbm (n : BitVec 4) (m : BitVec 4) : Statement (.subcbRbnRbm n m) := of_two _ _ rfl (by decide)
theorem subcbRegMem (reg : BitVec 8) (mem : BitVec 16) : Statement (.subcbRegMem reg mem) := of_four _ _ _ _ rfl (by decide)
theorem subcbMemReg (mem : BitVec 16) (reg : BitVec 8) : Statement (.subcbMemReg mem reg) := of_four _ _ _ _ rfl (by decide)
theorem subcbRegData8 (reg : BitVec 8) (d : BitVec 8) : Statement (.subcbRegData8 reg d) := of_four _ _ _ _ rfl (by decide)
theorem subcbRbnIndRwi (n : BitVec 4) (i : BitVec 2) : Statement (.subcbRbnIndRwi n i) := of_two _ _ rfl (by decide)
theorem subcbRbnIndRwiInc (n : BitVec 4) (i : BitVec 2) : Statement (.subcbRbnIndRwiInc n i) := of_two _ _ rfl (by decide)
theorem subcbRbnData3 (n : BitVec 4) (d : BitVec 3) : Statement (.subcbRbnData3 n d) := of_two _ _ rfl (by decide)
theorem cmpRwnRwm (n : BitVec 4) (m : BitVec 4) : Statement (.cmpRwnRwm n m) := of_two _ _ rfl (by decide)
theorem cmpRegMem (reg : BitVec 8) (mem : BitVec 16) : Statement (.cmpRegMem reg mem) := of_four _ _ _ _ rfl (by decide)
theorem cmpRegData16 (reg : BitVec 8) (d : BitVec 16) : Statement (.cmpRegData16 reg d) := of_four _ _ _ _ rfl (by decide)
theorem cmpRwnIndRwi (n : BitVec 4) (i : BitVec 2) : Statement (.cmpRwnIndRwi n i) := of_two _ _ rfl (by decide)
theorem cmpRwnIndRwiInc (n : BitVec 4) (i : BitVec 2) : Statement (.cmpRwnIndRwiInc n i) := of_two _ _ rfl (by decide)
theorem cmpRwnData3 (n : BitVec 4) (d : BitVec 3) : Statement (.cmpRwnData3 n d) := of_two _ _ rfl (by decide)
theorem cmpbRbnRbm (n : BitVec 4) (m : BitVec 4) : Statement (.cmpbRbnRbm n m) := of_two _ _ rfl (by decide)
theorem cmpbRegMem (reg : BitVec 8) (mem : BitVec 16) : Statement (.cmpbRegMem reg mem) := of_four _ _ _ _ rfl (by decide)
theorem cmpbRegData8 (reg : BitVec 8) (d : BitVec 8) : Statement (.cmpbRegData8 reg d) := of_four _ _ _ _ rfl (by decide)
theorem cmpbRbnIndRwi (n : BitVec 4) (i : BitVec 2) : Statement (.cmpbRbnIndRwi n i) := of_two _ _ rfl (by decide)
theorem cmpbRbnIndRwiInc (n : BitVec 4) (i : BitVec 2) : Statement (.cmpbRbnIndRwiInc n i) := of_two _ _ rfl (by decide)
theorem cmpbRbnData3 (n : BitVec 4) (d : BitVec 3) : Statement (.cmpbRbnData3 n d) := of_two _ _ rfl (by decide)
theorem xorRwnRwm (n : BitVec 4) (m : BitVec 4) : Statement (.xorRwnRwm n m) := of_two _ _ rfl (by decide)
theorem xorRegMem (reg : BitVec 8) (mem : BitVec 16) : Statement (.xorRegMem reg mem) := of_four _ _ _ _ rfl (by decide)
theorem xorMemReg (mem : BitVec 16) (reg : BitVec 8) : Statement (.xorMemReg mem reg) := of_four _ _ _ _ rfl (by decide)
theorem xorRegData16 (reg : BitVec 8) (d : BitVec 16) : Statement (.xorRegData16 reg d) := of_four _ _ _ _ rfl (by decide)
theorem xorRwnIndRwi (n : BitVec 4) (i : BitVec 2) : Statement (.xorRwnIndRwi n i) := of_two _ _ rfl (by decide)
theorem xorRwnIndRwiInc (n : BitVec 4) (i : BitVec 2) : Statement (.xorRwnIndRwiInc n i) := of_two _ _ rfl (by decide)
theorem xorRwnData3 (n : BitVec 4) (d : BitVec 3) : Statement (.xorRwnData3 n d) := of_two _ _ rfl (by decide)
theorem xorbRbnRbm (n : BitVec 4) (m : BitVec 4) : Statement (.xorbRbnRbm n m) := of_two _ _ rfl (by decide)
theorem xorbRegMem (reg : BitVec 8) (mem : BitVec 16) : Statement (.xorbRegMem reg mem) := of_four _ _ _ _ rfl (by decide)
theorem xorbMemReg (mem : BitVec 16) (reg : BitVec 8) : Statement (.xorbMemReg mem reg) := of_four _ _ _ _ rfl (by decide)
theorem xorbRegData8 (reg : BitVec 8) (d : BitVec 8) : Statement (.xorbRegData8 reg d) := of_four _ _ _ _ rfl (by decide)
theorem xorbRbnIndRwi (n : BitVec 4) (i : BitVec 2) : Statement (.xorbRbnIndRwi n i) := of_two _ _ rfl (by decide)
theorem xorbRbnIndRwiInc (n : BitVec 4) (i : BitVec 2) : Statement (.xorbRbnIndRwiInc n i) := of_two _ _ rfl (by decide)
theorem xorbRbnData3 (n : BitVec 4) (d : BitVec 3) : Statement (.xorbRbnData3 n d) := of_two _ _ rfl (by decide)
theorem andRwnRwm (n : BitVec 4) (m : BitVec 4) : Statement (.andRwnRwm n m) := of_two _ _ rfl (by decide)
theorem andRegMem (reg : BitVec 8) (mem : BitVec 16) : Statement (.andRegMem reg mem) := of_four _ _ _ _ rfl (by decide)
theorem andMemReg (mem : BitVec 16) (reg : BitVec 8) : Statement (.andMemReg mem reg) := of_four _ _ _ _ rfl (by decide)
theorem andRegData16 (reg : BitVec 8) (d : BitVec 16) : Statement (.andRegData16 reg d) := of_four _ _ _ _ rfl (by decide)
theorem andRwnIndRwi (n : BitVec 4) (i : BitVec 2) : Statement (.andRwnIndRwi n i) := of_two _ _ rfl (by decide)
theorem andRwnIndRwiInc (n : BitVec 4) (i : BitVec 2) : Statement (.andRwnIndRwiInc n i) := of_two _ _ rfl (by decide)
theorem andRwnData3 (n : BitVec 4) (d : BitVec 3) : Statement (.andRwnData3 n d) := of_two _ _ rfl (by decide)
theorem andbRbnRbm (n : BitVec 4) (m : BitVec 4) : Statement (.andbRbnRbm n m) := of_two _ _ rfl (by decide)
theorem andbRegMem (reg : BitVec 8) (mem : BitVec 16) : Statement (.andbRegMem reg mem) := of_four _ _ _ _ rfl (by decide)
theorem andbMemReg (mem : BitVec 16) (reg : BitVec 8) : Statement (.andbMemReg mem reg) := of_four _ _ _ _ rfl (by decide)
theorem andbRegData8 (reg : BitVec 8) (d : BitVec 8) : Statement (.andbRegData8 reg d) := of_four _ _ _ _ rfl (by decide)
theorem andbRbnIndRwi (n : BitVec 4) (i : BitVec 2) : Statement (.andbRbnIndRwi n i) := of_two _ _ rfl (by decide)
theorem andbRbnIndRwiInc (n : BitVec 4) (i : BitVec 2) : Statement (.andbRbnIndRwiInc n i) := of_two _ _ rfl (by decide)
theorem andbRbnData3 (n : BitVec 4) (d : BitVec 3) : Statement (.andbRbnData3 n d) := of_two _ _ rfl (by decide)
theorem orRwnRwm (n : BitVec 4) (m : BitVec 4) : Statement (.orRwnRwm n m) := of_two _ _ rfl (by decide)
theorem orRegMem (reg : BitVec 8) (mem : BitVec 16) : Statement (.orRegMem reg mem) := of_four _ _ _ _ rfl (by decide)
theorem orMemReg (mem : BitVec 16) (reg : BitVec 8) : Statement (.orMemReg mem reg) := of_four _ _ _ _ rfl (by decide)
theorem orRegData16 (reg : BitVec 8) (d : BitVec 16) : Statement (.orRegData16 reg d) := of_four _ _ _ _ rfl (by decide)
theorem orRwnIndRwi (n : BitVec 4) (i : BitVec 2) : Statement (.orRwnIndRwi n i) := of_two _ _ rfl (by decide)
theorem orRwnIndRwiInc (n : BitVec 4) (i : BitVec 2) : Statement (.orRwnIndRwiInc n i) := of_two _ _ rfl (by decide)
theorem orRwnData3 (n : BitVec 4) (d : BitVec 3) : Statement (.orRwnData3 n d) := of_two _ _ rfl (by decide)
theorem orbRbnRbm (n : BitVec 4) (m : BitVec 4) : Statement (.orbRbnRbm n m) := of_two _ _ rfl (by decide)
theorem orbRegMem (reg : BitVec 8) (mem : BitVec 16) : Statement (.orbRegMem reg mem) := of_four _ _ _ _ rfl (by decide)
theorem orbMemReg (mem : BitVec 16) (reg : BitVec 8) : Statement (.orbMemReg mem reg) := of_four _ _ _ _ rfl (by decide)
theorem orbRegData8 (reg : BitVec 8) (d : BitVec 8) : Statement (.orbRegData8 reg d) := of_four _ _ _ _ rfl (by decide)
theorem orbRbnIndRwi (n : BitVec 4) (i : BitVec 2) : Statement (.orbRbnIndRwi n i) := of_two _ _ rfl (by decide)
theorem orbRbnIndRwiInc (n : BitVec 4) (i : BitVec 2) : Statement (.orbRbnIndRwiInc n i) := of_two _ _ rfl (by decide)
theorem orbRbnData3 (n : BitVec 4) (d : BitVec 3) : Statement (.orbRbnData3 n d) := of_two _ _ rfl (by decide)
theorem cmpi1RwnData4 (n : BitVec 4) (d : BitVec 4) : Statement (.cmpi1RwnData4 n d) := of_two _ _ rfl (by decide)
theorem cmpi1RwnMem (n : BitVec 4) (mem : BitVec 16) : Statement (.cmpi1RwnMem n mem) := of_four _ _ _ _ rfl (by decide)
theorem cmpi1RwnData16 (n : BitVec 4) (d : BitVec 16) : Statement (.cmpi1RwnData16 n d) := of_four _ _ _ _ rfl (by decide)
theorem cmpi2RwnData4 (n : BitVec 4) (d : BitVec 4) : Statement (.cmpi2RwnData4 n d) := of_two _ _ rfl (by decide)
theorem cmpi2RwnMem (n : BitVec 4) (mem : BitVec 16) : Statement (.cmpi2RwnMem n mem) := of_four _ _ _ _ rfl (by decide)
theorem cmpi2RwnData16 (n : BitVec 4) (d : BitVec 16) : Statement (.cmpi2RwnData16 n d) := of_four _ _ _ _ rfl (by decide)
theorem cmpd1RwnData4 (n : BitVec 4) (d : BitVec 4) : Statement (.cmpd1RwnData4 n d) := of_two _ _ rfl (by decide)
theorem cmpd1RwnMem (n : BitVec 4) (mem : BitVec 16) : Statement (.cmpd1RwnMem n mem) := of_four _ _ _ _ rfl (by decide)
theorem cmpd1RwnData16 (n : BitVec 4) (d : BitVec 16) : Statement (.cmpd1RwnData16 n d) := of_four _ _ _ _ rfl (by decide)
theorem cmpd2RwnData4 (n : BitVec 4) (d : BitVec 4) : Statement (.cmpd2RwnData4 n d) := of_two _ _ rfl (by decide)
theorem cmpd2RwnMem (n : BitVec 4) (mem : BitVec 16) : Statement (.cmpd2RwnMem n mem) := of_four _ _ _ _ rfl (by decide)
theorem cmpd2RwnData16 (n : BitVec 4) (d : BitVec 16) : Statement (.cmpd2RwnData16 n d) := of_four _ _ _ _ rfl (by decide)
theorem negRwn (n : BitVec 4) : Statement (.negRwn n) := of_two _ _ rfl (by decide)
theorem cplRwn (n : BitVec 4) : Statement (.cplRwn n) := of_two _ _ rfl (by decide)
theorem negbRbn (n : BitVec 4) : Statement (.negbRbn n) := of_two _ _ rfl (by decide)
theorem cplbRbn (n : BitVec 4) : Statement (.cplbRbn n) := of_two _ _ rfl (by decide)
theorem movbzRwnRbm (n : BitVec 4) (m : BitVec 4) : Statement (.movbzRwnRbm n m) := of_two _ _ rfl (by decide)
theorem movbsRwnRbm (n : BitVec 4) (m : BitVec 4) : Statement (.movbsRwnRbm n m) := of_two _ _ rfl (by decide)
theorem movbzRegMem (reg : BitVec 8) (mem : BitVec 16) : Statement (.movbzRegMem reg mem) := of_four _ _ _ _ rfl (by decide)
theorem movbsRegMem (reg : BitVec 8) (mem : BitVec 16) : Statement (.movbsRegMem reg mem) := of_four _ _ _ _ rfl (by decide)
theorem movbzMemReg (mem : BitVec 16) (reg : BitVec 8) : Statement (.movbzMemReg mem reg) := of_four _ _ _ _ rfl (by decide)
theorem movbsMemReg (mem : BitVec 16) (reg : BitVec 8) : Statement (.movbsMemReg mem reg) := of_four _ _ _ _ rfl (by decide)
theorem atomicIrang2 (k : Nat) : Statement (.atomicIrang2 k) := of_two _ _ rfl (by decide)
theorem extrIrang2 (k : Nat) : Statement (.extrIrang2 k) := of_two _ _ rfl (by decide)
theorem movRwnData4 (n : BitVec 4) (d : BitVec 4) : Statement (.movRwnData4 n d) := of_two _ _ rfl (by decide)
theorem movbRbnData4 (n : BitVec 4) (d : BitVec 4) : Statement (.movbRbnData4 n d) := of_two _ _ rfl (by decide)
theorem movRwnRwm (n : BitVec 4) (m : BitVec 4) : Statement (.movRwnRwm n m) := of_two _ _ rfl (by decide)
theorem movbRbnRbm (n : BitVec 4) (m : BitVec 4) : Statement (.movbRbnRbm n m) := of_two _ _ rfl (by decide)
theorem pcallRegCaddr (reg : BitVec 8) (caddr : BitVec 16) : Statement (.pcallRegCaddr reg caddr) := of_four _ _ _ _ rfl (by decide)
theorem movRegMem (reg : BitVec 8) (mem : BitVec 16) : Statement (.movRegMem reg mem) := of_four _ _ _ _ rfl (by decide)
theorem movbRegMem (reg : BitVec 8) (mem : BitVec 16) : Statement (.movbRegMem reg mem) := of_four _ _ _ _ rfl (by decide)
theorem movIndRwnMem (n : BitVec 4) (mem : BitVec 16) : Statement (.movIndRwnMem n mem) := of_four _ _ _ _ rfl (by decide)
theorem movMemIndRwn (mem : BitVec 16) (n : BitVec 4) : Statement (.movMemIndRwn mem n) := of_four _ _ _ _ rfl (by decide)
theorem movbIndRwnMem (n : BitVec 4) (mem : BitVec 16) : Statement (.movbIndRwnMem n mem) := of_four _ _ _ _ rfl (by decide)
theorem movbMemIndRwn (mem : BitVec 16) (n : BitVec 4) : Statement (.movbMemIndRwn mem n) := of_four _ _ _ _ rfl (by decide)
theorem movIndRwmData16Rwn (m : BitVec 4) (d : BitVec 16) (n : BitVec 4) : Statement (.movIndRwmData16Rwn m d n) := of_four _ _ _ _ rfl (by decide)
theorem movRwnIndRwmData16 (n : BitVec 4) (m : BitVec 4) (d : BitVec 16) : Statement (.movRwnIndRwmData16 n m d) := of_four _ _ _ _ rfl (by decide)
theorem movbIndRwmData16Rbn (m : BitVec 4) (d : BitVec 16) (n : BitVec 4) : Statement (.movbIndRwmData16Rbn m d n) := of_four _ _ _ _ rfl (by decide)
theorem movbRbnIndRwmData16 (n : BitVec 4) (m : BitVec 4) (d : BitVec 16) : Statement (.movbRbnIndRwmData16 n m d) := of_four _ _ _ _ rfl (by decide)
theorem diswdt : Statement .diswdt := of_four _ _ _ _ rfl (by decide)
theorem einit : Statement .einit := of_four _ _ _ _ rfl (by decide)
theorem idle : Statement .idle := of_four _ _ _ _ rfl (by decide)
theorem pwrdn : Statement .pwrdn := of_four _ _ _ _ rfl (by decide)
theorem srvwdt : Statement .srvwdt := of_four _ _ _ _ rfl (by decide)
theorem srst : Statement .srst := of_four _ _ _ _ rfl (by decide)
theorem scxtRegData16 (reg : BitVec 8) (d : BitVec 16) : Statement (.scxtRegData16 reg d) := of_four _ _ _ _ rfl (by decide)
theorem scxtRegMem (reg : BitVec 8) (mem : BitVec 16) : Statement (.scxtRegMem reg mem) := of_four _ _ _ _ rfl (by decide)
theorem extsSegIrang2 (seg : BitVec 8) (k : Nat) : Statement (.extsSegIrang2 seg k) := of_four _ _ _ _ rfl (by decide)
theorem extsrSegIrang2 (seg : BitVec 8) (k : Nat) : Statement (.extsrSegIrang2 seg k) := of_four _ _ _ _ rfl (by decide)
theorem extpPagIrang2 (pag : BitVec 10) (k : Nat) : Statement (.extpPagIrang2 pag k) := of_four _ _ _ _ rfl (by decide)
theorem extprPagIrang2 (pag : BitVec 10) (k : Nat) : Statement (.extprPagIrang2 pag k) := of_four _ _ _ _ rfl (by decide)
theorem movRegData16 (reg : BitVec 8) (d : BitVec 16) : Statement (.movRegData16 reg d) := of_four _ _ _ _ rfl (by decide)
theorem movbRegData8 (reg : BitVec 8) (d : BitVec 8) : Statement (.movbRegData8 reg d) := of_four _ _ _ _ rfl (by decide)
theorem movMemReg (mem : BitVec 16) (reg : BitVec 8) : Statement (.movMemReg mem reg) := of_four _ _ _ _ rfl (by decide)
theorem movbMemReg (mem : BitVec 16) (reg : BitVec 8) : Statement (.movbMemReg mem reg) := of_four _ _ _ _ rfl (by decide)
theorem movIndDecRwmRwn (m : BitVec 4) (n : BitVec 4) : Statement (.movIndDecRwmRwn m n) := of_two _ _ rfl (by decide)
theorem movbIndDecRwmRbn (m : BitVec 4) (n : BitVec 4) : Statement (.movbIndDecRwmRbn m n) := of_two _ _ rfl (by decide)
theorem movRwnIndRwmInc (n : BitVec 4) (m : BitVec 4) : Statement (.movRwnIndRwmInc n m) := of_two _ _ rfl (by decide)
theorem movbRbnIndRwmInc (n : BitVec 4) (m : BitVec 4) : Statement (.movbRbnIndRwmInc n m) := of_two _ _ rfl (by decide)
theorem movRwnIndRwm (n : BitVec 4) (m : BitVec 4) : Statement (.movRwnIndRwm n m) := of_two _ _ rfl (by decide)
theorem movbRbnIndRwm (n : BitVec 4) (m : BitVec 4) : Statement (.movbRbnIndRwm n m) := of_two _ _ rfl (by decide)
theorem movIndRwmRwn (m : BitVec 4) (n : BitVec 4) : Statement (.movIndRwmRwn m n) := of_two _ _ rfl (by decide)
theorem movbIndRwmRbn (m : BitVec 4) (n : BitVec 4) : Statement (.movbIndRwmRbn m n) := of_two _ _ rfl (by decide)
theorem movIndRwnIndRwm (n : BitVec 4) (m : BitVec 4) : Statement (.movIndRwnIndRwm n m) := of_two _ _ rfl (by decide)
theorem movbIndRwnIndRwm (n : BitVec 4) (m : BitVec 4) : Statement (.movbIndRwnIndRwm n m) := of_two _ _ rfl (by decide)
theorem movIndRwnIncIndRwm (n : BitVec 4) (m : BitVec 4) : Statement (.movIndRwnIncIndRwm n m) := of_two _ _ rfl (by decide)
theorem movbIndRwnIncIndRwm (n : BitVec 4) (m : BitVec 4) : Statement (.movbIndRwnIncIndRwm n m) := of_two _ _ rfl (by decide)
theorem movIndRwnIndRwmInc (n : BitVec 4) (m : BitVec 4) : Statement (.movIndRwnIndRwmInc n m) := of_two _ _ rfl (by decide)
theorem movbIndRwnIndRwmInc (n : BitVec 4) (m : BitVec 4) : Statement (.movbIndRwnIndRwmInc n m) := of_two _ _ rfl (by decide)
theorem bfldlBitoffMask8Data8 (bo : BitVec 8) (mask : BitVec 8) (d : BitVec 8) : Statement (.bfldlBitoffMask8Data8 bo mask d) := of_four _ _ _ _ rfl (by decide)
theorem bfldhBitoffMask8Data8 (bo : BitVec 8) (mask : BitVec 8) (d : BitVec 8) : Statement (.bfldhBitoffMask8Data8 bo mask d) := of_four _ _ _ _ rfl (by decide)
theorem bcmpBitZBitQ (zo : BitVec 8) (z : BitVec 4) (qo : BitVec 8) (q : BitVec 4) : Statement (.bcmpBitZBitQ zo z qo q) := of_four _ _ _ _ rfl (by decide)
theorem bmovnBitZBitQ (zo : BitVec 8) (z : BitVec 4) (qo : BitVec 8) (q : BitVec 4) : Statement (.bmovnBitZBitQ zo z qo q) := of_four _ _ _ _ rfl (by decide)
theorem bmovBitZBitQ (zo : BitVec 8) (z : BitVec 4) (qo : BitVec 8) (q : BitVec 4) : Statement (.bmovBitZBitQ zo z qo q) := of_four _ _ _ _ rfl (by decide)
theorem borBitZBitQ (zo : BitVec 8) (z : BitVec 4) (qo : BitVec 8) (q : BitVec 4) : Statement (.borBitZBitQ zo z qo q) := of_four _ _ _ _ rfl (by decide)
theorem bandBitZBitQ (zo : BitVec 8) (z : BitVec 4) (qo : BitVec 8) (q : BitVec 4) : Statement (.bandBitZBitQ zo z qo q) := of_four _ _ _ _ rfl (by decide)
theorem bxorBitZBitQ (zo : BitVec 8) (z : BitVec 4) (qo : BitVec 8) (q : BitVec 4) : Statement (.bxorBitZBitQ zo z qo q) := of_four _ _ _ _ rfl (by decide)
theorem jbBitQRel (qo : BitVec 8) (q : BitVec 4) (rel : BitVec 8) : Statement (.jbBitQRel qo q rel) := of_four _ _ _ _ rfl (by decide)
theorem jnbBitQRel (qo : BitVec 8) (q : BitVec 4) (rel : BitVec 8) : Statement (.jnbBitQRel qo q rel) := of_four _ _ _ _ rfl (by decide)
theorem jbcBitQRel (qo : BitVec 8) (q : BitVec 4) (rel : BitVec 8) : Statement (.jbcBitQRel qo q rel) := of_four _ _ _ _ rfl (by decide)
theorem jnbsBitQRel (qo : BitVec 8) (q : BitVec 4) (rel : BitVec 8) : Statement (.jnbsBitQRel qo q rel) := of_four _ _ _ _ rfl (by decide)
theorem callaCcCaddr (cc : BitVec 4) (caddr : BitVec 16) : Statement (.callaCcCaddr cc caddr) := of_four _ _ _ _ rfl (by decide)
theorem callsSegCaddr (seg : BitVec 8) (caddr : BitVec 16) : Statement (.callsSegCaddr seg caddr) := of_four _ _ _ _ rfl (by decide)
theorem jmpaCcCaddr (cc : BitVec 4) (caddr : BitVec 16) : Statement (.jmpaCcCaddr cc caddr) := of_four _ _ _ _ rfl (by decide)
theorem jmpsSegCaddr (seg : BitVec 8) (caddr : BitVec 16) : Statement (.jmpsSegCaddr seg caddr) := of_four _ _ _ _ rfl (by decide)
theorem mulRwnRwm (n : BitVec 4) (m : BitVec 4) : Statement (.mulRwnRwm n m) := of_two _ _ rfl (by decide)
theorem muluRwnRwm (n : BitVec 4) (m : BitVec 4) : Statement (.muluRwnRwm n m) := of_two _ _ rfl (by decide)
theorem priorRwnRwm (n : BitVec 4) (m : BitVec 4) : Statement (.priorRwnRwm n m) := of_two _ _ rfl (by decide)
theorem divRwn (n : BitVec 4) : Statement (.divRwn n) := of_two _ _ rfl (by decide)
theorem divuRwn (n : BitVec 4) : Statement (.divuRwn n) := of_two _ _ rfl (by decide)
theorem divlRwn (n : BitVec 4) : Statement (.divlRwn n) := of_two _ _ rfl (by decide)
theorem divluRwn (n : BitVec 4) : Statement (.divluRwn n) := of_two _ _ rfl (by decide)
theorem trapTrap7 (t : BitVec 7) : Statement (.trapTrap7 t) := of_two _ _ rfl (by decide)
theorem calliCcIndRwn (cc : BitVec 4) (n : BitVec 4) : Statement (.calliCcIndRwn cc n) := of_two _ _ rfl (by decide)
theorem callrRel (rel : BitVec 8) : Statement (.callrRel rel) := of_two _ _ rfl (by decide)
theorem ret : Statement .ret := of_two _ _ rfl (by decide)
theorem rets : Statement .rets := of_two _ _ rfl (by decide)
theorem retpReg (reg : BitVec 8) : Statement (.retpReg reg) := of_two _ _ rfl (by decide)
theorem reti : Statement .reti := of_two _ _ rfl (by decide)
theorem rolRwnRwm (n : BitVec 4) (m : BitVec 4) : Statement (.rolRwnRwm n m) := of_two _ _ rfl (by decide)
theorem rolRwnData4 (n : BitVec 4) (d : BitVec 4) : Statement (.rolRwnData4 n d) := of_two _ _ rfl (by decide)
theorem rorRwnRwm (n : BitVec 4) (m : BitVec 4) : Statement (.rorRwnRwm n m) := of_two _ _ rfl (by decide)
theorem rorRwnData4 (n : BitVec 4) (d : BitVec 4) : Statement (.rorRwnData4 n d) := of_two _ _ rfl (by decide)
theorem shlRwnRwm (n : BitVec 4) (m : BitVec 4) : Statement (.shlRwnRwm n m) := of_two _ _ rfl (by decide)
theorem shlRwnData4 (n : BitVec 4) (d : BitVec 4) : Statement (.shlRwnData4 n d) := of_two _ _ rfl (by decide)
theorem shrRwnRwm (n : BitVec 4) (m : BitVec 4) : Statement (.shrRwnRwm n m) := of_two _ _ rfl (by decide)
theorem shrRwnData4 (n : BitVec 4) (d : BitVec 4) : Statement (.shrRwnData4 n d) := of_two _ _ rfl (by decide)
theorem ashrRwnRwm (n : BitVec 4) (m : BitVec 4) : Statement (.ashrRwnRwm n m) := of_two _ _ rfl (by decide)
theorem ashrRwnData4 (n : BitVec 4) (d : BitVec 4) : Statement (.ashrRwnData4 n d) := of_two _ _ rfl (by decide)
theorem jmpiCcIndRwn (cc : BitVec 4) (n : BitVec 4) : Statement (.jmpiCcIndRwn cc n) := of_two _ _ rfl (by decide)
theorem nop : Statement .nop := of_two _ _ rfl (by decide)
theorem extsRwmIrang2 (m : BitVec 4) (k : Nat) : Statement (.extsRwmIrang2 m k) := of_two _ _ rfl (by decide)
theorem extpRwmIrang2 (m : BitVec 4) (k : Nat) : Statement (.extpRwmIrang2 m k) := of_two _ _ rfl (by decide)
theorem extsrRwmIrang2 (m : BitVec 4) (k : Nat) : Statement (.extsrRwmIrang2 m k) := of_two _ _ rfl (by decide)
theorem extprRwmIrang2 (m : BitVec 4) (k : Nat) : Statement (.extprRwmIrang2 m k) := of_two _ _ rfl (by decide)
theorem pushReg (reg : BitVec 8) : Statement (.pushReg reg) := of_two _ _ rfl (by decide)
theorem popReg (reg : BitVec 8) : Statement (.popReg reg) := of_two _ _ rfl (by decide)
theorem jmprCcRel (cc : BitVec 4) (rel : BitVec 8) : Statement (.jmprCcRel cc rel) := of_two _ _ rfl (by revert cc; decide)
theorem bclrBitQ (qo : BitVec 8) (q : BitVec 4) : Statement (.bclrBitQ qo q) := of_two _ _ rfl (by revert q; decide)
theorem bsetBitQ (qo : BitVec 8) (q : BitVec 4) : Statement (.bsetBitQ qo q) := of_two _ _ rfl (by revert q; decide)

end Sys2Proof.Laws.EncodedLength
end

