-- ==== Sys2Proof/Laws/Stack.lean ====
section
/-! SUPPORT. What a push, a pop and the entry of an exception leave, said once. -/

namespace Sys2Proof.Machine

/-- `w` differs from `u` in the CPU's registers, in memory and in the list of stores only. -/
structure StackOnly (u w : State) : Prop where
  outside : SameOutside u w
  prev : w.prev = u.prev
  ext : w.ext = u.ext
  hz : w.hz = u.hz
  free : w.free = u.free
  pswWritten : w.marks.pswWritten = u.marks.pswWritten
  branched : w.marks.branched = u.marks.branched
  farBranch : w.marks.farBranch = u.marks.farBranch
  extStarted : w.marks.extStarted = u.marks.extStarted

theorem StackOnly.refl (u : State) : StackOnly u u := by
  constructor <;> first | rfl | exact SameOutside.refl u

theorem StackOnly.trans {u v w : State} (h : StackOnly u v) (k : StackOnly v w) : StackOnly u w :=
  ⟨h.outside.trans k.outside, k.prev.trans h.prev, k.ext.trans h.ext, k.hz.trans h.hz, k.free.trans h.free,
    k.pswWritten.trans h.pswWritten, k.branched.trans h.branched, k.farBranch.trans h.farBranch,
    k.extStarted.trans h.extStarted⟩

theorem stackPhys_congr {u w : State} (hp : w.prev = u.prev) (hb : w.board = u.board) (sp : Word) :
    stackPhys w sp = stackPhys u sp := by
  simp only [stackPhys, hp, hb]

/-- The stack slot depends on SYSCON before the instruction and on the board. -/
theorem StackSlot.congr {u w : State} {sp : Word} {a : Nat} (h : StackSlot u sp a) (hp : w.prev = u.prev)
    (hb : w.board = u.board) : StackSlot w sp a := by
  unfold StackSlot
  rw [stackPhys_congr hp hb, hb]
  exact h

theorem StackSlot.of_stackOnly {u w : State} {sp : Word} {a : Nat} (h : StackSlot u sp a) (k : StackOnly u w) :
    StackSlot w sp a := h.congr k.prev k.outside.1.board

theorem StackSlot.refusal {u : State} {sp : Word} {a : Nat} (h : StackSlot u sp a) : stackRefusal u sp = none := by
  simp [stackRefusal, h.1, h.2]

theorem raiseIf_eq (s : State) (b : Bool) (flag : Nat) :
    s.raiseIf b flag = { s with cpu := { s.cpu with tfr := if b then withBit s.cpu.tfr flag true else s.cpu.tfr } } := by
  cases b <;> rfl

/-- A push onto a slot of the IRAM. -/
theorem push_slot {u : State} {a : Nat} (v : Word) (h : StackSlot u (pushedPointer u.cpu.sp) a) :
    push v u = .ok ((), u.pushed v) ∧ (u.pushed v).cpu = u.cpu.push ∧ StackOnly u (u.pushed v)
      ∧ ∀ x, bytesOf (u.pushed v) x = patchWord (bytesOf u) a v x := by
  have hd : spDown u = pushedPointer u.cpu.sp := rfl
  have hr : push v u = .ok ((), u.pushed v) := by rw [push_ok]; exact ⟨by rw [hd]; exact h.refusal, rfl⟩
  have hs : u.pushed v = { ({ u with cpu := u.cpu.push } : State).storeWord a v with cpu := u.cpu.push } := by
    simp only [State.pushed, hd, h.1, Option.getD_some, raiseIf_eq, Cpu.push, pushTfr]
    by_cases hl : pushedPointer u.cpu.sp < u.cpu.stkov <;> simp [hl, State.storeWord, withBit]
  refine ⟨hr, by rw [hs], by rw [hs]; exact ⟨⟨by constructor <;> rfl, rfl⟩, rfl, rfl, rfl, rfl, rfl, rfl, rfl, rfl⟩, ?_⟩
  intro x
  rw [hs]
  exact bytes_storeWord { u with cpu := u.cpu.push } a v x

/-- A pop from a slot of the IRAM. -/
theorem pop_slot {u : State} {a : Nat} (h : StackSlot u u.cpu.sp a) :
    pop u = .ok (Memory.readWord u.mem a, { u with cpu := u.cpu.pop }) := by
  rw [pop_ok]
  refine ⟨h.refusal, by simp [State.stackTop, h.1], ?_⟩
  have hd : spUp u = poppedPointer u.cpu.sp := rfl
  simp only [State.popped, hd, raiseIf_eq, Cpu.pop, popTfr]
  by_cases hl : u.cpu.stkun < poppedPointer u.cpu.sp <;> simp [hl, withBit]

/-! ## Several words at once -/

/-- Two pushes onto slots of the IRAM. -/
theorem push_slots {u : State} {a b : Nat} (x y : Word) (ha : StackSlot u (pushedPointer u.cpu.sp) a)
    (hb : StackSlot u (pushedPointer (pushedPointer u.cpu.sp)) b) :
    push y (u.pushed x) = .ok ((), (u.pushed x).pushed y) ∧ ((u.pushed x).pushed y).cpu = u.cpu.push.push
      ∧ StackOnly u ((u.pushed x).pushed y)
      ∧ ∀ z, bytesOf ((u.pushed x).pushed y) z = patchWord (patchWord (bytesOf u) a x) b y z := by
  obtain ⟨_, p2, p3, p4⟩ := push_slot x ha
  have hb' : StackSlot (u.pushed x) (pushedPointer (u.pushed x).cpu.sp) b := by
    rw [p2]; exact hb.of_stackOnly p3
  obtain ⟨q1, q2, q3, q4⟩ := push_slot y hb'
  refine ⟨q1, by rw [q2, p2], p3.trans q3, fun z => ?_⟩
  rw [q4]; congr 1; funext t; rw [p4]

/-- Three pushes onto slots of the IRAM. -/
theorem push_slots3 {u : State} {a b c : Nat} (x y v : Word) (ha : StackSlot u (pushedPointer u.cpu.sp) a)
    (hb : StackSlot u (pushedPointer (pushedPointer u.cpu.sp)) b)
    (hc : StackSlot u (pushedPointer (pushedPointer (pushedPointer u.cpu.sp))) c) :
    push v ((u.pushed x).pushed y) = .ok ((), ((u.pushed x).pushed y).pushed v)
      ∧ (((u.pushed x).pushed y).pushed v).cpu = u.cpu.push.push.push
      ∧ StackOnly u (((u.pushed x).pushed y).pushed v)
      ∧ ∀ z, bytesOf (((u.pushed x).pushed y).pushed v) z
          = patchWord (patchWord (patchWord (bytesOf u) a x) b y) c v z := by
  obtain ⟨_, p2, p3, p4⟩ := push_slots x y ha hb
  have hc' : StackSlot ((u.pushed x).pushed y) (pushedPointer ((u.pushed x).pushed y).cpu.sp) c := by
    rw [p2]; exact hc.of_stackOnly p3
  obtain ⟨q1, q2, q3, q4⟩ := push_slot v hc'
  refine ⟨q1, by rw [q2, p2], p3.trans q3, fun z => ?_⟩
  rw [q4]; congr 1; funext t; rw [p4]

/-! ## The entry of an exception -/

/-- PSW in the routine: the level, where the entry sets one. -/
def entryPsw (psw : Word) (level : Option Nat) : Word :=
  match level with
  | some l => merge 0xF000 psw (BitVec.ofNat 16 (l * 0x1000))
  | none => psw

/-- The last part of an entry: level, CSP, vector. -/
def enterVector (trap : Nat) (level : Option Nat) (s : State) : State :=
  { s with cpu := { s.cpu with psw := entryPsw s.cpu.psw level, csp := if segmented s then 0 else s.cpu.csp
                               ip := BitVec.ofNat 16 (4 * trap) }
           marks := { s.marks with branched := true, farBranch := true } }

/-- The entry with segmentation enabled: PSW, CSP and the resume address are pushed. -/
theorem takeException_segmented {trap : Nat} {resume : Word} {level : Option Nat} {u : State} {a b c : Nat}
    (hs : segmented u = true) (ha : StackSlot u (pushedPointer u.cpu.sp) a)
    (hb : StackSlot u (pushedPointer (pushedPointer u.cpu.sp)) b)
    (hc : StackSlot u (pushedPointer (pushedPointer (pushedPointer u.cpu.sp))) c) :
    takeException trap resume level u
      = .ok ((), enterVector trap level (((u.pushed u.cpu.psw).pushed u.cpu.csp).pushed resume)) := by
  obtain ⟨p1, p2, p3, _⟩ := push_slot u.cpu.psw ha
  obtain ⟨q1, _⟩ := push_slots u.cpu.psw u.cpu.csp ha hb
  obtain ⟨r1, _⟩ := push_slots3 u.cpu.psw u.cpu.csp resume ha hb hc
  have h1 : segmented (u.pushed u.cpu.psw) = true := by rw [← hs]; simp only [segmented, p3.prev]
  have h2 : (u.pushed u.cpu.psw).cpu.csp = u.cpu.csp := by rw [p2]; rfl
  have hp : pushCspIfSegmented (u.pushed u.cpu.psw) = .ok ((), (u.pushed u.cpu.psw).pushed u.cpu.csp) := by
    rw [pushCspIfSegmented, Op.bind_of_ok (look_apply _ _), if_pos h1, Op.bind_of_ok (look_apply _ _), h2, q1]
  rw [takeException, Op.bind_of_ok (look_apply _ _), Op.bind_of_ok p1, Op.bind_of_ok hp, Op.bind_of_ok r1]
  cases level <;> rfl

/-- The entry with segmentation disabled: PSW and the resume address are pushed. -/
theorem takeException_flat {trap : Nat} {resume : Word} {level : Option Nat} {u : State} {a b : Nat}
    (hs : segmented u = false) (ha : StackSlot u (pushedPointer u.cpu.sp) a)
    (hb : StackSlot u (pushedPointer (pushedPointer u.cpu.sp)) b) :
    takeException trap resume level u
      = .ok ((), enterVector trap level ((u.pushed u.cpu.psw).pushed resume)) := by
  obtain ⟨p1, _, p3, _⟩ := push_slot u.cpu.psw ha
  obtain ⟨r1, _⟩ := push_slots u.cpu.psw resume ha hb
  have h1 : segmented (u.pushed u.cpu.psw) = false := by rw [← hs]; simp only [segmented, p3.prev]
  have hp : pushCspIfSegmented (u.pushed u.cpu.psw) = .ok ((), u.pushed u.cpu.psw) := by
    rw [pushCspIfSegmented, Op.bind_of_ok (look_apply _ _), h1]; rfl
  rw [takeException, Op.bind_of_ok (look_apply _ _), Op.bind_of_ok p1, Op.bind_of_ok hp, Op.bind_of_ok r1]
  cases level <;> rfl

end Sys2Proof.Machine
end

