-- ==== Sys2Proof/Tests/Slice0.lean ====
section
/-! SUPPORT. Tests. Expected results come from spec/: the encoding table, the worked examples of the instruction rules and
of 95_test_vectors.md, or a calculation by hand from the rule named. -/

open Sys2Proof Sys2Proof.Machine Sys2Proof.Claims

namespace Sys2Proof.Tests

/-! ## Well-formedness: each ill-formed term is refused (30_encoding.md R142) -/

theorem test_wf_atomic : Instr.wellFormed (.atomicIrang2 0) = false ∧ Instr.wellFormed (.atomicIrang2 5) = false := by decide

theorem test_wf_extr : Instr.wellFormed (.extrIrang2 0) = false ∧ Instr.wellFormed (.extrIrang2 5) = false := by decide

theorem test_wf_exts :
    Instr.wellFormed (.extsSegIrang2 1 0) = false ∧ Instr.wellFormed (.extsRwmIrang2 1 5) = false
    ∧ Instr.wellFormed (.extsrSegIrang2 1 5) = false ∧ Instr.wellFormed (.extsrRwmIrang2 1 0) = false := by decide

theorem test_wf_extp :
    Instr.wellFormed (.extpPagIrang2 1 5) = false ∧ Instr.wellFormed (.extpRwmIrang2 1 0) = false
    ∧ Instr.wellFormed (.extprPagIrang2 1 0) = false ∧ Instr.wellFormed (.extprRwmIrang2 1 5) = false := by decide

theorem test_wf_bounds : Instr.wellFormed (.atomicIrang2 1) = true ∧ Instr.wellFormed (.extpRwmIrang2 1 4) = true := by decide

/-! ## Decoding: one word of every row, its fields placed as spec/opcode_table.json and 30_encoding.md R133 say -/

theorem test_decode_rr2_1 :
    decode [0x1C00] = .instr (.addRwnRwm 0x1 0xc)
    ∧ decode [0xA801] = .instr (.addbRbnRbm 0xa 0x8)
    ∧ decode [0x1B10] = .instr (.addcRwnRwm 0x1 0xb)
    ∧ decode [0xA711] = .instr (.addcbRbnRbm 0xa 0x7)
    ∧ decode [0xAD20] = .instr (.subRwnRwm 0xa 0xd)
    ∧ decode [0xF621] = .instr (.subbRbnRbm 0xf 0x6)
    ∧ decode [0x3A30] = .instr (.subcRwnRwm 0x3 0xa)
    ∧ decode [0xCE31] = .instr (.subcbRbnRbm 0xc 0xe)
    ∧ decode [0x1540] = .instr (.cmpRwnRwm 0x1 0x5)
    ∧ decode [0x1241] = .instr (.cmpbRbnRbm 0x1 0x2)
    ∧ decode [0x4150] = .instr (.xorRwnRwm 0x4 0x1)
    ∧ decode [0xDC51] = .instr (.xorbRbnRbm 0xd 0xc) := by
  decide

theorem test_decode_rr2_2 :
    decode [0x4D60] = .instr (.andRwnRwm 0x4 0xd)
    ∧ decode [0xC361] = .instr (.andbRbnRbm 0xc 0x3)
    ∧ decode [0xCE70] = .instr (.orRwnRwm 0xc 0xe)
    ∧ decode [0x4B71] = .instr (.orbRbnRbm 0x4 0xb)
    ∧ decode [0x7DF0] = .instr (.movRwnRwm 0x7 0xd)
    ∧ decode [0x7AF1] = .instr (.movbRbnRbm 0x7 0xa)
    ∧ decode [0x1688] = .instr (.movIndDecRwmRwn 0x6 0x1)
    ∧ decode [0xA689] = .instr (.movbIndDecRwmRbn 0x6 0xa)
    ∧ decode [0xBA98] = .instr (.movRwnIndRwmInc 0xb 0xa)
    ∧ decode [0x8B99] = .instr (.movbRbnIndRwmInc 0x8 0xb)
    ∧ decode [0x67A8] = .instr (.movRwnIndRwm 0x6 0x7)
    ∧ decode [0xD8A9] = .instr (.movbRbnIndRwm 0xd 0x8) := by
  decide

theorem test_decode_rr2_3 :
    decode [0x46B8] = .instr (.movIndRwmRwn 0x6 0x4)
    ∧ decode [0x2EB9] = .instr (.movbIndRwmRbn 0xe 0x2)
    ∧ decode [0x14C8] = .instr (.movIndRwnIndRwm 0x1 0x4)
    ∧ decode [0xF8C9] = .instr (.movbIndRwnIndRwm 0xf 0x8)
    ∧ decode [0xF2D8] = .instr (.movIndRwnIncIndRwm 0xf 0x2)
    ∧ decode [0xB4D9] = .instr (.movbIndRwnIncIndRwm 0xb 0x4)
    ∧ decode [0xC6E8] = .instr (.movIndRwnIndRwmInc 0xc 0x6)
    ∧ decode [0xE1E9] = .instr (.movbIndRwnIndRwmInc 0xe 0x1)
    ∧ decode [0x740B] = .instr (.mulRwnRwm 0x7 0x4)
    ∧ decode [0x731B] = .instr (.muluRwnRwm 0x7 0x3)
    ∧ decode [0x7B2B] = .instr (.priorRwnRwm 0x7 0xb)
    ∧ decode [0x680C] = .instr (.rolRwnRwm 0x6 0x8) := by
  decide

theorem test_decode_rr2_4 :
    decode [0x372C] = .instr (.rorRwnRwm 0x3 0x7)
    ∧ decode [0xD84C] = .instr (.shlRwnRwm 0xd 0x8)
    ∧ decode [0x936C] = .instr (.shrRwnRwm 0x9 0x3)
    ∧ decode [0x1AAC] = .instr (.ashrRwnRwm 0x1 0xa) := by
  decide

theorem test_decode_rm_1 :
    decode [0xE502, 0x6E17] = .instr (.addRegMem 0xe5 0x6e17)
    ∧ decode [0x7F04, 0x12FF] = .instr (.addMemReg 0x12ff 0x7f)
    ∧ decode [0xCE03, 0xC97D] = .instr (.addbRegMem 0xce 0xc97d)
    ∧ decode [0x3305, 0x0EE8] = .instr (.addbMemReg 0xee8 0x33)
    ∧ decode [0x6F12, 0xF5E5] = .instr (.addcRegMem 0x6f 0xf5e5)
    ∧ decode [0x6114, 0x8695] = .instr (.addcMemReg 0x8695 0x61)
    ∧ decode [0x4413, 0x9CC0] = .instr (.addcbRegMem 0x44 0x9cc0)
    ∧ decode [0x8715, 0x264C] = .instr (.addcbMemReg 0x264c 0x87)
    ∧ decode [0x3622, 0x1291] = .instr (.subRegMem 0x36 0x1291)
    ∧ decode [0x2124, 0x601E] = .instr (.subMemReg 0x601e 0x21)
    ∧ decode [0x0B23, 0xC68D] = .instr (.subbRegMem 0xb 0xc68d)
    ∧ decode [0x5025, 0x2D4D] = .instr (.subbMemReg 0x2d4d 0x50) := by
  decide

theorem test_decode_rm_2 :
    decode [0x8E32, 0xA383] = .instr (.subcRegMem 0x8e 0xa383)
    ∧ decode [0x1134, 0xA7CA] = .instr (.subcMemReg 0xa7ca 0x11)
    ∧ decode [0xB733, 0xEF5A] = .instr (.subcbRegMem 0xb7 0xef5a)
    ∧ decode [0xB335, 0xCF08] = .instr (.subcbMemReg 0xcf08 0xb3)
    ∧ decode [0xC142, 0x0780] = .instr (.cmpRegMem 0xc1 0x780)
    ∧ decode [0x4E43, 0xD6AA] = .instr (.cmpbRegMem 0x4e 0xd6aa)
    ∧ decode [0xDD52, 0x7A34] = .instr (.xorRegMem 0xdd 0x7a34)
    ∧ decode [0x9B54, 0xA0A9] = .instr (.xorMemReg 0xa0a9 0x9b)
    ∧ decode [0x2353, 0x39B8] = .instr (.xorbRegMem 0x23 0x39b8)
    ∧ decode [0x2E55, 0xBCD1] = .instr (.xorbMemReg 0xbcd1 0x2e)
    ∧ decode [0x6D62, 0xFDD5] = .instr (.andRegMem 0x6d 0xfdd5)
    ∧ decode [0xA964, 0xD12C] = .instr (.andMemReg 0xd12c 0xa9) := by
  decide

theorem test_decode_rm_3 :
    decode [0x3B63, 0x2105] = .instr (.andbRegMem 0x3b 0x2105)
    ∧ decode [0x1665, 0x7296] = .instr (.andbMemReg 0x7296 0x16)
    ∧ decode [0x3A72, 0xA9E2] = .instr (.orRegMem 0x3a 0xa9e2)
    ∧ decode [0x8E74, 0x1EDD] = .instr (.orMemReg 0x1edd 0x8e)
    ∧ decode [0xEC73, 0xD5DE] = .instr (.orbRegMem 0xec 0xd5de)
    ∧ decode [0x2B75, 0x0E8F] = .instr (.orbMemReg 0xe8f 0x2b)
    ∧ decode [0x64C2, 0xD5EA] = .instr (.movbzRegMem 0x64 0xd5ea)
    ∧ decode [0xBDD2, 0x9AAF] = .instr (.movbsRegMem 0xbd 0x9aaf)
    ∧ decode [0x4EC5, 0xB9A6] = .instr (.movbzMemReg 0xb9a6 0x4e)
    ∧ decode [0x30D5, 0x68E5] = .instr (.movbsMemReg 0x68e5 0x30)
    ∧ decode [0x23E2, 0x1A01] = .instr (.pcallRegCaddr 0x23 0x1a01)
    ∧ decode [0x89F2, 0x39A5] = .instr (.movRegMem 0x89 0x39a5) := by
  decide

theorem test_decode_rm_4 :
    decode [0x8DF3, 0xABFF] = .instr (.movbRegMem 0x8d 0xabff)
    ∧ decode [0xEDD6, 0x30DD] = .instr (.scxtRegMem 0xed 0x30dd)
    ∧ decode [0xDBF6, 0xF16D] = .instr (.movMemReg 0xf16d 0xdb)
    ∧ decode [0xE9F7, 0xD828] = .instr (.movbMemReg 0xd828 0xe9) := by
  decide

theorem test_decode_ri16 :
    decode [0x3C06, 0xF090] = .instr (.addRegData16 0x3c 0xf090)
    ∧ decode [0xA216, 0x3E6A] = .instr (.addcRegData16 0xa2 0x3e6a)
    ∧ decode [0x2726, 0xB38F] = .instr (.subRegData16 0x27 0xb38f)
    ∧ decode [0x2F36, 0x98D4] = .instr (.subcRegData16 0x2f 0x98d4)
    ∧ decode [0x1446, 0xFE07] = .instr (.cmpRegData16 0x14 0xfe07)
    ∧ decode [0x0B56, 0x4609] = .instr (.xorRegData16 0xb 0x4609)
    ∧ decode [0xD266, 0x7531] = .instr (.andRegData16 0xd2 0x7531)
    ∧ decode [0x1576, 0x9F0B] = .instr (.orRegData16 0x15 0x9f0b)
    ∧ decode [0x3DC6, 0xC489] = .instr (.scxtRegData16 0x3d 0xc489)
    ∧ decode [0x9AE6, 0xD3ED] = .instr (.movRegData16 0x9a 0xd3ed) := by
  decide

theorem test_decode_xi_1 :
    decode [0x3A08] = .instr (.addRwnIndRwi 0x3 0x2)
    ∧ decode [0x7B09] = .instr (.addbRbnIndRwi 0x7 0x3)
    ∧ decode [0x2A18] = .instr (.addcRwnIndRwi 0x2 0x2)
    ∧ decode [0xE919] = .instr (.addcbRbnIndRwi 0xe 0x1)
    ∧ decode [0x7A28] = .instr (.subRwnIndRwi 0x7 0x2)
    ∧ decode [0x4A29] = .instr (.subbRbnIndRwi 0x4 0x2)
    ∧ decode [0x4A38] = .instr (.subcRwnIndRwi 0x4 0x2)
    ∧ decode [0x9939] = .instr (.subcbRbnIndRwi 0x9 0x1)
    ∧ decode [0x7A48] = .instr (.cmpRwnIndRwi 0x7 0x2)
    ∧ decode [0x1A49] = .instr (.cmpbRbnIndRwi 0x1 0x2)
    ∧ decode [0xBA58] = .instr (.xorRwnIndRwi 0xb 0x2)
    ∧ decode [0x1B59] = .instr (.xorbRbnIndRwi 0x1 0x3) := by
  decide

theorem test_decode_xi_2 :
    decode [0x6968] = .instr (.andRwnIndRwi 0x6 0x1)
    ∧ decode [0x9A69] = .instr (.andbRbnIndRwi 0x9 0x2)
    ∧ decode [0xFB78] = .instr (.orRwnIndRwi 0xf 0x3)
    ∧ decode [0xBA79] = .instr (.orbRbnIndRwi 0xb 0x2) := by
  decide

theorem test_decode_xp_1 :
    decode [0xFF08] = .instr (.addRwnIndRwiInc 0xf 0x3)
    ∧ decode [0x3F09] = .instr (.addbRbnIndRwiInc 0x3 0x3)
    ∧ decode [0xBF18] = .instr (.addcRwnIndRwiInc 0xb 0x3)
    ∧ decode [0x3E19] = .instr (.addcbRbnIndRwiInc 0x3 0x2)
    ∧ decode [0x2F28] = .instr (.subRwnIndRwiInc 0x2 0x3)
    ∧ decode [0xCE29] = .instr (.subbRbnIndRwiInc 0xc 0x2)
    ∧ decode [0x2D38] = .instr (.subcRwnIndRwiInc 0x2 0x1)
    ∧ decode [0x7D39] = .instr (.subcbRbnIndRwiInc 0x7 0x1)
    ∧ decode [0xAF48] = .instr (.cmpRwnIndRwiInc 0xa 0x3)
    ∧ decode [0x9F49] = .instr (.cmpbRbnIndRwiInc 0x9 0x3)
    ∧ decode [0x3E58] = .instr (.xorRwnIndRwiInc 0x3 0x2)
    ∧ decode [0xEE59] = .instr (.xorbRbnIndRwiInc 0xe 0x2) := by
  decide

theorem test_decode_xp_2 :
    decode [0xEF68] = .instr (.andRwnIndRwiInc 0xe 0x3)
    ∧ decode [0x6D69] = .instr (.andbRbnIndRwiInc 0x6 0x1)
    ∧ decode [0xED78] = .instr (.orRwnIndRwiInc 0xe 0x1)
    ∧ decode [0xED79] = .instr (.orbRbnIndRwiInc 0xe 0x1) := by
  decide

theorem test_decode_x3_1 :
    decode [0xF308] = .instr (.addRwnData3 0xf 0x3)
    ∧ decode [0xE409] = .instr (.addbRbnData3 0xe 0x4)
    ∧ decode [0xF418] = .instr (.addcRwnData3 0xf 0x4)
    ∧ decode [0xF519] = .instr (.addcbRbnData3 0xf 0x5)
    ∧ decode [0x9628] = .instr (.subRwnData3 0x9 0x6)
    ∧ decode [0xA529] = .instr (.subbRbnData3 0xa 0x5)
    ∧ decode [0x8238] = .instr (.subcRwnData3 0x8 0x2)
    ∧ decode [0xE339] = .instr (.subcbRbnData3 0xe 0x3)
    ∧ decode [0x3748] = .instr (.cmpRwnData3 0x3 0x7)
    ∧ decode [0xA649] = .instr (.cmpbRbnData3 0xa 0x6)
    ∧ decode [0x5758] = .instr (.xorRwnData3 0x5 0x7)
    ∧ decode [0xD159] = .instr (.xorbRbnData3 0xd 0x1) := by
  decide

theorem test_decode_x3_2 :
    decode [0xF668] = .instr (.andRwnData3 0xf 0x6)
    ∧ decode [0x7669] = .instr (.andbRbnData3 0x7 0x6)
    ∧ decode [0x5278] = .instr (.orRwnData3 0x5 0x2)
    ∧ decode [0x9279] = .instr (.orbRbnData3 0x9 0x2) := by
  decide

theorem test_decode_ri8 :
    decode [0x1207, 0x00AD] = .instr (.addbRegData8 0x12 0xad)
    ∧ decode [0x4817, 0x00E9] = .instr (.addcbRegData8 0x48 0xe9)
    ∧ decode [0x3827, 0x0088] = .instr (.subbRegData8 0x38 0x88)
    ∧ decode [0x8D37, 0x002A] = .instr (.subcbRegData8 0x8d 0x2a)
    ∧ decode [0x1447, 0x004A] = .instr (.cmpbRegData8 0x14 0x4a)
    ∧ decode [0x0157, 0x00D0] = .instr (.xorbRegData8 0x1 0xd0)
    ∧ decode [0xAE67, 0x00DC] = .instr (.andbRegData8 0xae 0xdc)
    ∧ decode [0xF877, 0x0099] = .instr (.orbRegData8 0xf8 0x99)
    ∧ decode [0x0EE7, 0x0048] = .instr (.movbRegData8 0xe 0x48) := by
  decide

theorem test_decode_i4 :
    decode [0x6780] = .instr (.cmpi1RwnData4 0x7 0x6)
    ∧ decode [0x4890] = .instr (.cmpi2RwnData4 0x8 0x4)
    ∧ decode [0xBFA0] = .instr (.cmpd1RwnData4 0xf 0xb)
    ∧ decode [0x17B0] = .instr (.cmpd2RwnData4 0x7 0x1)
    ∧ decode [0xD4E0] = .instr (.movRwnData4 0x4 0xd)
    ∧ decode [0x71E1] = .instr (.movbRbnData4 0x1 0x7)
    ∧ decode [0xFC1C] = .instr (.rolRwnData4 0xc 0xf)
    ∧ decode [0x8D3C] = .instr (.rorRwnData4 0xd 0x8)
    ∧ decode [0x865C] = .instr (.shlRwnData4 0x6 0x8)
    ∧ decode [0xF47C] = .instr (.shrRwnData4 0x4 0xf)
    ∧ decode [0x47BC] = .instr (.ashrRwnData4 0x7 0x4) := by
  decide

theorem test_decode_gm :
    decode [0xF382, 0xF40B] = .instr (.cmpi1RwnMem 0x3 0xf40b)
    ∧ decode [0xFE92, 0x8D04] = .instr (.cmpi2RwnMem 0xe 0x8d04)
    ∧ decode [0xF7A2, 0x5EDD] = .instr (.cmpd1RwnMem 0x7 0x5edd)
    ∧ decode [0xF8B2, 0xFCBB] = .instr (.cmpd2RwnMem 0x8 0xfcbb) := by
  decide

theorem test_decode_gi16 :
    decode [0xF186, 0xB3C4] = .instr (.cmpi1RwnData16 0x1 0xb3c4)
    ∧ decode [0xFF96, 0x95E5] = .instr (.cmpi2RwnData16 0xf 0x95e5)
    ∧ decode [0xFEA6, 0x335F] = .instr (.cmpd1RwnData16 0xe 0x335f)
    ∧ decode [0xF2B6, 0x16DC] = .instr (.cmpd2RwnData16 0x2 0x16dc) := by
  decide

theorem test_decode_r1 :
    decode [0xF081] = .instr (.negRwn 0xf)
    ∧ decode [0xC091] = .instr (.cplRwn 0xc)
    ∧ decode [0xC0A1] = .instr (.negbRbn 0xc)
    ∧ decode [0xB0B1] = .instr (.cplbRbn 0xb) := by
  decide

theorem test_decode_rr2x :
    decode [0xD8C0] = .instr (.movbzRwnRbm 0x8 0xd)
    ∧ decode [0x7DD0] = .instr (.movbsRwnRbm 0xd 0x7) := by
  decide

theorem test_decode_e1 :
    decode [0x10D1] = .instr (.atomicIrang2 2)
    ∧ decode [0xA0D1] = .instr (.extrIrang2 3) := by
  decide

theorem test_decode_im :
    decode [0x0D84, 0x8CED] = .instr (.movIndRwnMem 0xd 0x8ced)
    ∧ decode [0x0D94, 0x21AD] = .instr (.movMemIndRwn 0x21ad 0xd)
    ∧ decode [0x05A4, 0x570C] = .instr (.movbIndRwnMem 0x5 0x570c)
    ∧ decode [0x04B4, 0x47DC] = .instr (.movbMemIndRwn 0x47dc 0x4) := by
  decide

theorem test_decode_ro :
    decode [0x18C4, 0xF161] = .instr (.movIndRwmData16Rwn 0x8 0xf161 0x1)
    ∧ decode [0xF5D4, 0xAC7D] = .instr (.movRwnIndRwmData16 0xf 0x5 0xac7d)
    ∧ decode [0x1FE4, 0x25C4] = .instr (.movbIndRwmData16Rbn 0xf 0x25c4 0x1)
    ∧ decode [0x85F4, 0x95D7] = .instr (.movbRbnIndRwmData16 0x8 0x5 0x95d7) := by
  decide

theorem test_decode_pr :
    decode [0x5AA5, 0xA5A5] = .instr .diswdt
    ∧ decode [0x4AB5, 0xB5B5] = .instr .einit
    ∧ decode [0x7887, 0x8787] = .instr .idle
    ∧ decode [0x6897, 0x9797] = .instr .pwrdn
    ∧ decode [0x58A7, 0xA7A7] = .instr .srvwdt
    ∧ decode [0x48B7, 0xB7B7] = .instr .srst := by
  decide

theorem test_decode_es :
    decode [0x20D7, 0x008E] = .instr (.extsSegIrang2 0x8e 3)
    ∧ decode [0xA0D7, 0x00F1] = .instr (.extsrSegIrang2 0xf1 3) := by
  decide

theorem test_decode_ep :
    decode [0x60D7, 0x0124] = .instr (.extpPagIrang2 0x124 3)
    ∧ decode [0xF0D7, 0x01C4] = .instr (.extprPagIrang2 0x1c4 4) := by
  decide

theorem test_decode_bfl :
    decode [0x390A, 0xD7D0] = .instr (.bfldlBitoffMask8Data8 0x39 0xd0 0xd7) := by
  decide

theorem test_decode_bfh :
    decode [0x1A1A, 0x2942] = .instr (.bfldhBitoffMask8Data8 0x1a 0x29 0x42) := by
  decide

theorem test_decode_b2 :
    decode [0x712A, 0x9B4A] = .instr (.bcmpBitZBitQ 0x4a 0xb 0x71 0x9)
    ∧ decode [0x8B3A, 0xBFED] = .instr (.bmovnBitZBitQ 0xed 0xf 0x8b 0xb)
    ∧ decode [0xA14A, 0xBEDD] = .instr (.bmovBitZBitQ 0xdd 0xe 0xa1 0xb)
    ∧ decode [0x425A, 0xB3FE] = .instr (.borBitZBitQ 0xfe 0x3 0x42 0xb)
    ∧ decode [0x0E6A, 0x3BD1] = .instr (.bandBitZBitQ 0xd1 0xb 0xe 0x3)
    ∧ decode [0x6E7A, 0xEF35] = .instr (.bxorBitZBitQ 0x35 0xf 0x6e 0xe) := by
  decide

theorem test_decode_bj :
    decode [0xB98A, 0xB0A9] = .instr (.jbBitQRel 0xb9 0xb 0xa9)
    ∧ decode [0x8D9A, 0x8018] = .instr (.jnbBitQRel 0x8d 0x8 0x18)
    ∧ decode [0xE6AA, 0x2004] = .instr (.jbcBitQRel 0xe6 0x2 0x4)
    ∧ decode [0xE1BA, 0xF034] = .instr (.jnbsBitQRel 0xe1 0xf 0x34) := by
  decide

theorem test_decode_ca :
    decode [0x40CA, 0x8948] = .instr (.callaCcCaddr 0x4 0x8948)
    ∧ decode [0xC0EA, 0x5DCB] = .instr (.jmpaCcCaddr 0xc 0x5dcb) := by
  decide

theorem test_decode_sa :
    decode [0xFFDA, 0xEE2B] = .instr (.callsSegCaddr 0xff 0xee2b)
    ∧ decode [0xE8FA, 0x10D5] = .instr (.jmpsSegCaddr 0xe8 0x10d5) := by
  decide

theorem test_decode_r1d :
    decode [0x444B] = .instr (.divRwn 0x4)
    ∧ decode [0x995B] = .instr (.divuRwn 0x9)
    ∧ decode [0x666B] = .instr (.divlRwn 0x6)
    ∧ decode [0xDD7B] = .instr (.divluRwn 0xd) := by
  decide

theorem test_decode_t7 :
    decode [0x7C9B] = .instr (.trapTrap7 0x3e) := by
  decide

theorem test_decode_ci :
    decode [0x87AB] = .instr (.calliCcIndRwn 0x8 0x7)
    ∧ decode [0xF79C] = .instr (.jmpiCcIndRwn 0xf 0x7) := by
  decide

theorem test_decode_rl :
    decode [0x0EBB] = .instr (.callrRel 0xe) := by
  decide

theorem test_decode_fx2 :
    decode [0x00CB] = .instr .ret
    ∧ decode [0x00DB] = .instr .rets
    ∧ decode [0x88FB] = .instr .reti
    ∧ decode [0x00CC] = .instr .nop := by
  decide

theorem test_decode_r8 :
    decode [0x02EB] = .instr (.retpReg 0x2)
    ∧ decode [0x8CEC] = .instr (.pushReg 0x8c)
    ∧ decode [0xAFFC] = .instr (.popReg 0xaf) := by
  decide

theorem test_decode_eg :
    decode [0x35DC] = .instr (.extsRwmIrang2 0x5 4)
    ∧ decode [0x7DDC] = .instr (.extpRwmIrang2 0xd 4)
    ∧ decode [0xA2DC] = .instr (.extsrRwmIrang2 0x2 3)
    ∧ decode [0xD5DC] = .instr (.extprRwmIrang2 0x5 2) := by
  decide

theorem test_decode_cr :
    decode [0x4F3D] = .instr (.jmprCcRel 0x3 0x4f) := by
  decide

theorem test_decode_b1 :
    decode [0xB11E] = .instr (.bclrBitQ 0xb1 0x1)
    ∧ decode [0x316F] = .instr (.bsetBitQ 0x31 0x6) := by
  decide
/-! ## Reserved, unassigned and protected encodings (30_encoding.md R145 to R147) -/

theorem test_decode_rejects :
    decode [0x008B] = .undefinedOpcode ∧ decode [0x00C1] = .undefinedOpcode
    ∧ decode [0x48B7, 0xB7B7] = .instr .srst ∧ decode [0x48B7, 0xB7B6] = .protectionFault
    ∧ decode [0x47B7, 0xB7B7] = .protectionFault ∧ decode [0x01CC] = .nonCanonical
    ∧ decode [0x014B] = .nonCanonical := by decide

/-- The word operand of a byte `reg,#data8` form is ignored in byte 3 (R139). -/
theorem test_decode_ignored_byte : decode [0xF307, 0x5580] = .instr (.addbRegData8 0xF3 0x80) := by decide

/-! ## Instructions: one step from a small state -/

/-- The outcome is a next state with this property. -/
def ends (o : Host.Outcome State Fault Refusal) (p : State → Bool) : Bool :=
  match o with
  | .next t => p t
  | .fault _ => false
  | .refused _ => false

/-- The outcome is this refusal. -/
def refuses (o : Host.Outcome State Fault Refusal) (r : Refusal) : Bool :=
  match o with
  | .next _ => false
  | .fault _ => false
  | .refused q => decide (q = r)

/-- The reset state with these word registers. -/
def withRegs (l : List (BitVec 4 × Word)) : State := l.foldl (fun s p => s.setGprWord p.1 p.2) State.reset

/-- The same with these PSW, IP, SP and MDH, MDL, as if set long ago. -/
def setCpu (s : State) (c : Cpu) : State := { s with cpu := c, prev := { s.prev with cpu := c } }

def withPsw (psw : Word) (s : State) : State := setCpu s { s.cpu with psw := psw }

def withIp (ip : Word) (s : State) : State := setCpu s { s.cpu with ip := ip }

def withSp (sp : Word) (s : State) : State := setCpu s { s.cpu with sp := sp }

def withMd (h l : Word) (s : State) : State := setCpu s { s.cpu with mdh := h, mdl := l }

/-- The same with a word in memory. -/
def withWord (a : Nat) (v : Word) (s : State) : State := { s with mem := Memory.writeWord s.mem a v }

/-- One step of the instruction with these bytes. The tests read the flags `E Z V C N` as PSW's bits 4..0 (R29). -/
def run (nbits w : Nat) (s : State) : Host.Outcome State Fault Refusal := step (s.withFetchWord nbits w)

/-- ADD R1,R2 (R181). -/
theorem test_add :
    ends (run 16 0x1200 (withRegs [(1, 0x1234), (2, 0x0001)]))
      (fun s => decide (s.gprWord 1 = 0x1235 ∧ s.cpu.psw &&& 0x001F = 0b00000 ∧ s.cpu.ip = 0x0002)) = true := by decide

/-- ADDB RL0,#3 (R182). -/
theorem test_addb :
    ends (run 16 0x0309 (withRegs [(0, 0x55FE)]))
      (fun s => decide (s.gprWord 0 = 0x5501 ∧ s.cpu.psw &&& 0x001F = 0b00010)) = true := by decide

/-- ADDC R3,R5 with C = Z = 1 (R183). -/
theorem test_addc :
    ends (run 16 0x3510 (withPsw 0x000A (withRegs [(3, 0x0000), (5, 0x0000)])))
      (fun s => decide (s.gprWord 3 = 0x0001 ∧ s.cpu.psw &&& 0x001F = 0b00000)) = true := by decide

/-- ADDCB RL1,RH1 with C = Z = 1 (R184). -/
theorem test_addcb :
    ends (run 16 0x2311 (withPsw 0x000A (withRegs [(1, 0x00FF)])))
      (fun s => decide (s.gprWord 1 = 0x0000 ∧ s.cpu.psw &&& 0x001F = 0b01010)) = true := by decide

/-- SUB R0,#1 (R185). -/
theorem test_sub :
    ends (run 16 0x0128 (withRegs [(0, 0x0000)]))
      (fun s => decide (s.gprWord 0 = 0xFFFF ∧ s.cpu.psw &&& 0x001F = 0b00011)) = true := by decide

/-- SUBB RH0,RL0 (R186). -/
theorem test_subb :
    ends (run 16 0x1021 (withRegs [(0, 0x1020)]))
      (fun s => decide (s.gprWord 0 = 0xF020 ∧ s.cpu.psw &&& 0x001F = 0b00011)) = true := by decide

/-- SUBC R3,R5 with C = 1, Z = 0 (R187). -/
theorem test_subc :
    ends (run 16 0x3530 (withPsw 0x0002 (withRegs [(3, 0x0001), (5, 0x0000)])))
      (fun s => decide (s.gprWord 3 = 0x0000 ∧ s.cpu.psw &&& 0x001F = 0b00000)) = true := by decide

/-- SUBCB RL0,#0 with C = Z = 1 (R188). -/
theorem test_subcb :
    ends (run 16 0x0039 (withPsw 0x000A (withRegs [(0, 0x0000)])))
      (fun s => decide (s.gprWord 0 = 0x00FF ∧ s.cpu.psw &&& 0x001F = 0b00011)) = true := by decide

/-- MUL R0,R1 (R189). -/
theorem test_mul :
    ends (run 16 0x010B (withRegs [(0, 0x1234), (1, 0x5678)]))
      (fun s => decide (s.cpu.mdh = 0x0626 ∧ s.cpu.mdl = 0x0060 ∧ s.cpu.psw &&& 0x001F = 0b00100 ∧ s.cpu.mdc = 0x0010)) = true := by decide

/-- MULU R1,R2 (R190). -/
theorem test_mulu :
    ends (run 16 0x121B (withRegs [(1, 0x0003), (2, 0x0004)]))
      (fun s => decide (s.cpu.mdh = 0x0000 ∧ s.cpu.mdl = 0x000C ∧ s.cpu.psw &&& 0x001F = 0b00000)) = true := by decide

/-- DIV R3, -7 / 2 (R191). -/
theorem test_div :
    ends (run 16 0x334B (withMd 0x0000 0xFFF9 (withRegs [(3, 0x0002)])))
      (fun s => decide (s.cpu.mdh = 0xFFFF ∧ s.cpu.mdl = 0xFFFD ∧ s.cpu.psw &&& 0x001F = 0b00001)) = true := by decide

/-- DIV R3, 7 / -2 (R191). -/
theorem test_div_minus :
    ends (run 16 0x334B (withMd 0x0000 0x0007 (withRegs [(3, 0xFFFE)])))
      (fun s => decide (s.cpu.mdh = 0x0001 ∧ s.cpu.mdl = 0xFFFD)) = true := by decide

/-- DIVU R2 (R192). -/
theorem test_divu :
    ends (run 16 0x225B (withMd 0x0000 0x0064 (withRegs [(2, 0x0007)])))
      (fun s => decide (s.cpu.mdh = 0x0002 ∧ s.cpu.mdl = 0x000E ∧ s.cpu.psw &&& 0x001F = 0b00000)) = true := by decide

/-- DIVL R3 (R193). -/
theorem test_divl :
    ends (run 16 0x336B (withMd 0x0001 0x0000 (withRegs [(3, 0x0003)])))
      (fun s => decide (s.cpu.mdh = 0x0001 ∧ s.cpu.mdl = 0x5555 ∧ s.cpu.psw &&& 0x001F = 0b00000)) = true := by decide

/-- DIVLU R0 (R194). -/
theorem test_divlu :
    ends (run 16 0x007B (withMd 0x0001 0x0000 (withRegs [(0, 0x0002)])))
      (fun s => decide (s.cpu.mdh = 0x0000 ∧ s.cpu.mdl = 0x8000 ∧ s.cpu.psw &&& 0x001F = 0b00001)) = true := by decide

/-- DIVLU R0 by 1 goes on (R194). -/
theorem test_divlu_overflow :
    ends (run 16 0x007B (withMd 0x0001 0x0000 (withRegs [(0, 0x0001)])))
      (fun s => decide (s.cpu.mdc = 0x0010 ∧ s.cpu.ip = 0x0002)) = true := by decide

/-- CPL R5 (R195). -/
theorem test_cpl :
    ends (run 16 0x5091 (withRegs [(5, 0x00FF)]))
      (fun s => decide (s.gprWord 5 = 0xFF00 ∧ s.cpu.psw &&& 0x001F = 0b00001)) = true := by decide

/-- CPLB RH0 (R196). -/
theorem test_cplb :
    ends (run 16 0x10B1 (withRegs [(0, 0x0F22)]))
      (fun s => decide (s.gprWord 0 = 0xF022 ∧ s.cpu.psw &&& 0x001F = 0b00001)) = true := by decide

/-- NEG R2 (R197). -/
theorem test_neg :
    ends (run 16 0x2081 (withRegs [(2, 0x0005)]))
      (fun s => decide (s.gprWord 2 = 0xFFFB ∧ s.cpu.psw &&& 0x001F = 0b00011)) = true := by decide

/-- NEGB RL3 (R198). -/
theorem test_negb :
    ends (run 16 0x60A1 (withRegs [(3, 0x3301)]))
      (fun s => decide (s.gprWord 3 = 0x33FF ∧ s.cpu.psw &&& 0x001F = 0b00011)) = true := by decide

/-- AND R1,#FF00h (R211). -/
theorem test_and :
    ends (run 32 0xFF00F166 (withRegs [(1, 0x1234)]))
      (fun s => decide (s.gprWord 1 = 0x1200 ∧ s.cpu.psw &&& 0x001F = 0b00000)) = true := by decide

/-- ANDB RL0,RH0 (R212). -/
theorem test_andb :
    ends (run 16 0x0161 (withRegs [(0, 0x3CF0)]))
      (fun s => decide (s.gprWord 0 = 0x3C30 ∧ s.cpu.psw &&& 0x001F = 0b00000)) = true := by decide

/-- OR R2,R3 (R213). -/
theorem test_or :
    ends (run 16 0x2370 (withRegs [(2, 0x8000), (3, 0x0001)]))
      (fun s => decide (s.gprWord 2 = 0x8001 ∧ s.cpu.psw &&& 0x001F = 0b00001)) = true := by decide

/-- ORB RH1,#80h (R214). -/
theorem test_orb :
    ends (run 32 0x0080F377 (withRegs [(1, 0x0100)]))
      (fun s => decide (s.gprWord 1 = 0x8100 ∧ s.cpu.psw &&& 0x001F = 0b10001)) = true := by decide

/-- XOR R0,[R1] (R215). -/
theorem test_xor :
    ends (run 16 0x0958 (withWord 0x1003000 0x00FF (withRegs [(0, 0xFFFF), (1, 0x3000)])))
      (fun s => decide (s.gprWord 0 = 0xFF00 ∧ s.cpu.psw &&& 0x001F = 0b00001)) = true := by decide

/-- XORB RL2,#7 (R216). -/
theorem test_xorb :
    ends (run 16 0x4759 (withRegs [(2, 0x0005)]))
      (fun s => decide (s.gprWord 2 = 0x0002 ∧ s.cpu.psw &&& 0x001F = 0b00000)) = true := by decide

/-- CMP R1,[R0+] (R221). -/
theorem test_cmp :
    ends (run 16 0x1C48 (withWord 0x1003000 0x0003 (withRegs [(0, 0x3000), (1, 0x0005)])))
      (fun s => decide (s.gprWord 1 = 0x0005 ∧ s.gprWord 0 = 0x3002 ∧ s.cpu.psw &&& 0x001F = 0b00000)) = true := by decide

/-- CMPB RL0,#5 (R222). -/
theorem test_cmpb :
    ends (run 16 0x0549 (withRegs [(0, 0x0005)]))
      (fun s => decide (s.gprWord 0 = 0x0005 ∧ s.cpu.psw &&& 0x001F = 0b01000)) = true := by decide

/-- CMPI1 R0,#9 (R223). -/
theorem test_cmpi1 :
    ends (run 16 0x9080 (withRegs [(0, 0x0009)]))
      (fun s => decide (s.gprWord 0 = 0x000A ∧ s.cpu.psw &&& 0x001F = 0b01000)) = true := by decide

/-- CMPI2 R1,#FA10h (R224). -/
theorem test_cmpi2 :
    ends (run 32 0xFA10F196 (withRegs [(1, 0xFA00)]))
      (fun s => decide (s.gprWord 1 = 0xFA02 ∧ s.cpu.psw &&& 0x001F = 0b00011)) = true := by decide

/-- CMPD1 R0,#0 (R225). -/
theorem test_cmpd1 :
    ends (run 16 0x00A0 (withRegs [(0, 0x0003)]))
      (fun s => decide (s.gprWord 0 = 0x0002 ∧ s.cpu.psw &&& 0x001F = 0b00000)) = true := by decide

/-- CMPD2 R2,#2 (R226). -/
theorem test_cmpd2 :
    ends (run 16 0x22B0 (withRegs [(2, 0x0002)]))
      (fun s => decide (s.gprWord 2 = 0x0000 ∧ s.cpu.psw &&& 0x001F = 0b01000)) = true := by decide

/-- BFLDH R0,#F0h,#50h (R231). -/
theorem test_bfldh :
    ends (run 32 0xF050F01A (withRegs [(0, 0xABCD)]))
      (fun s => decide (s.gprWord 0 = 0x5BCD ∧ s.cpu.psw &&& 0x001F = 0b00000)) = true := by decide

/-- BFLDL PSW,#0Fh,#00h (R232, R38). -/
theorem test_bfldl_psw :
    ends (run 32 0x000F880A (withPsw 0x081F (withRegs [])))
      (fun s => decide (s.cpu.psw = 0x0810)) = true := by decide

/-- BSET PSW.11 (R233, R38). -/
theorem test_bset :
    ends (run 16 0x88BF (withRegs []))
      (fun s => decide (s.cpu.psw = 0x0800)) = true := by decide

/-- BCLR R3.0 (R234). -/
theorem test_bclr :
    ends (run 16 0xF30E (withRegs [(3, 0x0001)]))
      (fun s => decide (s.gprWord 3 = 0x0000 ∧ s.cpu.psw &&& 0x001F = 0b00001)) = true := by decide

/-- BMOV R0.0,R1.15 (R235). -/
theorem test_bmov :
    ends (run 32 0xF0F0F14A (withRegs [(1, 0x8000)]))
      (fun s => decide (s.gprWord 0 = 0x0001 ∧ s.cpu.psw &&& 0x001F = 0b00001)) = true := by decide

/-- BMOVN R2.3,R2.3 (R236). -/
theorem test_bmovn :
    ends (run 32 0x33F2F23A (withRegs [(2, 0x0008)]))
      (fun s => decide (s.gprWord 2 = 0x0000 ∧ s.cpu.psw &&& 0x001F = 0b00001)) = true := by decide

/-- BAND R0.1,R0.0 (R237). -/
theorem test_band :
    ends (run 32 0x01F0F06A (withRegs [(0, 0x0003)]))
      (fun s => decide (s.gprWord 0 = 0x0003 ∧ s.cpu.psw &&& 0x001F = 0b00110)) = true := by decide

/-- BOR R1.4,R2.7 (R238). -/
theorem test_bor :
    ends (run 32 0x74F1F25A (withRegs [(2, 0x0080)]))
      (fun s => decide (s.gprWord 1 = 0x0010 ∧ s.cpu.psw &&& 0x001F = 0b00101)) = true := by decide

/-- BXOR R0.0,R0.1 (R239). -/
theorem test_bxor :
    ends (run 32 0x10F0F07A (withRegs [(0, 0x0003)]))
      (fun s => decide (s.gprWord 0 = 0x0002 ∧ s.cpu.psw &&& 0x001F = 0b00110)) = true := by decide

/-- BCMP R0.0,R1.0 (R240). -/
theorem test_bcmp :
    ends (run 32 0x00F0F12A (withRegs [(0, 0x0001)]))
      (fun s => decide (s.gprWord 0 = 0x0001 ∧ s.cpu.psw &&& 0x001F = 0b00101)) = true := by decide

/-- SHR R1,#4 (R251). -/
theorem test_shr :
    ends (run 16 0x417C (withRegs [(1, 0x8018)]))
      (fun s => decide (s.gprWord 1 = 0x0801 ∧ s.cpu.psw &&& 0x001F = 0b00010)) = true := by decide

/-- SHL R0,#1 (R252). -/
theorem test_shl :
    ends (run 16 0x105C (withRegs [(0, 0xC001)]))
      (fun s => decide (s.gprWord 0 = 0x8002 ∧ s.cpu.psw &&& 0x001F = 0b00011)) = true := by decide

/-- ROR R2,#8 (R253). -/
theorem test_ror :
    ends (run 16 0x823C (withRegs [(2, 0x1234)]))
      (fun s => decide (s.gprWord 2 = 0x3412 ∧ s.cpu.psw &&& 0x001F = 0b00100)) = true := by decide

/-- ROL R3,#4 (R254). -/
theorem test_rol :
    ends (run 16 0x431C (withRegs [(3, 0x1234)]))
      (fun s => decide (s.gprWord 3 = 0x2341 ∧ s.cpu.psw &&& 0x001F = 0b00010)) = true := by decide

/-- ASHR R4,#2 (R255). -/
theorem test_ashr :
    ends (run 16 0x24BC (withRegs [(4, 0xFFF6)]))
      (fun s => decide (s.gprWord 4 = 0xFFFD ∧ s.cpu.psw &&& 0x001F = 0b00011)) = true := by decide

/-- PRIOR R0,R1 (R256). -/
theorem test_prior :
    ends (run 16 0x012B (withRegs [(1, 0x0013)]))
      (fun s => decide (s.gprWord 0 = 0x000B ∧ s.cpu.psw &&& 0x001F = 0b00000)) = true := by decide

/-- SHL R1,R0 after PRIOR (R256). -/
theorem test_shl_by_register :
    ends (run 16 0x104C (withRegs [(0, 0x000B), (1, 0x0013)]))
      (fun s => decide (s.gprWord 1 = 0x9800)) = true := by decide

/-- MOV R0,#1234h (R261). -/
theorem test_mov_immediate :
    ends (run 32 0x1234F0E6 (withRegs []))
      (fun s => decide (s.gprWord 0 = 0x1234 ∧ s.cpu.psw &&& 0x001F = 0b00000 ∧ s.cpu.ip = 0x0004)) = true := by decide

/-- MOV R1,#0: V and C stay (R261). -/
theorem test_mov_data4 :
    ends (run 16 0x01E0 (withPsw 0x0006 (withRegs [(1, 0x0007)])))
      (fun s => decide (s.gprWord 1 = 0x0000 ∧ s.cpu.psw &&& 0x001F = 0b01110)) = true := by decide

/-- MOV R0,[R14] (R261). -/
theorem test_mov_indirect :
    ends (run 16 0x0EA8 (withWord 0x1003000 0xABCD (withRegs [(14, 0x3000)])))
      (fun s => decide (s.gprWord 0 = 0xABCD)) = true := by decide

/-- MOV R3,MDH (R261). -/
theorem test_mov_sfr :
    ends (run 32 0xFE0CF3F2 (withMd 0x1234 0x0000 (withRegs [])))
      (fun s => decide (s.gprWord 3 = 0x1234)) = true := by decide

/-- MOV MDH,R1 sets MDRIU (R261, R48). -/
theorem test_mov_to_sfr :
    ends (run 32 0xFE0CF1F6 (withRegs [(1, 0x0077)]))
      (fun s => decide (s.cpu.mdh = 0x0077 ∧ s.cpu.mdc = 0x0010)) = true := by decide

/-- MOV DPP0,#4 (R261). -/
theorem test_mov_dpp :
    ends (run 32 0x000400E6 (withRegs []))
      (fun s => decide (s.cpu.dpp0 = 0x0004 ∧ s.prev.cpu.dpp0 = 0x0000)) = true := by decide

/-- MOV SP,#FA40h (R261). -/
theorem test_mov_sp :
    ends (run 32 0xFA4009E6 (withRegs []))
      (fun s => decide (s.cpu.sp = 0xFA40)) = true := by decide

/-- MOVB RL0,#0Fh (R262). -/
theorem test_movb :
    ends (run 16 0xF0E1 (withRegs [(0, 0x5500)]))
      (fun s => decide (s.gprWord 0 = 0x550F ∧ s.cpu.psw &&& 0x001F = 0b00000)) = true := by decide

/-- MOVB [R2+],[R3] (R262). -/
theorem test_movb_memory :
    ends (run 16 0x23D9 (withWord 0x1003000 0x005A (withRegs [(2, 0x3001), (3, 0x3000)])))
      (fun s => decide (s.gprWord 2 = 0x3002 ∧ Memory.readWord s.mem 0x1003000 = 0x5A5A)) = true := by decide

/-- MOVBS R1,RL2 (R263). -/
theorem test_movbs :
    ends (run 16 0x41D0 (withRegs [(2, 0x00F0)]))
      (fun s => decide (s.gprWord 1 = 0xFFF0 ∧ s.cpu.psw &&& 0x001F = 0b00001)) = true := by decide

/-- MOVBZ R1,RL2 (R264). -/
theorem test_movbz :
    ends (run 16 0x41C0 (withRegs [(2, 0x00F0)]))
      (fun s => decide (s.gprWord 1 = 0x00F0 ∧ s.cpu.psw &&& 0x001F = 0b00000)) = true := by decide

/-- MOV [-R2],R1 (R261). -/
theorem test_mov_predecrement :
    ends (run 16 0x1288 (withRegs [(1, 0x1234), (2, 0x3002)]))
      (fun s => decide (s.gprWord 2 = 0x3000 ∧ Memory.readWord s.mem 0x1003000 = 0x1234)) = true := by decide

/-- PUSH R1 at SP = F802h (R271, R98). -/
theorem test_push :
    ends (run 16 0xF1EC (withSp 0xF802 (withRegs [(1, 0x1234)])))
      (fun s => decide (s.cpu.sp = 0xF800 ∧ Memory.readWord s.mem 0xFA00 = 0x1234)) = true := by decide

/-- PUSH R2 at SP = F800h (R271, R98). -/
theorem test_push_wraps :
    ends (run 16 0xF2EC (withSp 0xF800 (withRegs [(2, 0x1234)])))
      (fun s => decide (s.cpu.sp = 0xF7FE ∧ Memory.readWord s.mem 0xFBFE = 0x1234 ∧ bitOf s.cpu.tfr 14 = true)) = true := by decide

/-- POP MDH (R272). -/
theorem test_pop :
    ends (run 16 0x06FC (withWord 0xFBFE 0x1234 (withSp 0xFBFE (withRegs []))))
      (fun s => decide (s.cpu.mdh = 0x1234 ∧ s.cpu.sp = 0xFC00)) = true := by decide

/-- POP R1 with SP = STKUN (R384). -/
theorem test_pop_underflow :
    ends (run 16 0xF1FC (withRegs []))
      (fun s => decide (s.cpu.sp = 0xFC02 ∧ s.cpu.tfr = 0x2000)) = true := by decide

/-- SCXT CP,#FC00h (R273). -/
theorem test_scxt :
    ends (run 32 0xFC0008C6 (withRegs []))
      (fun s => decide (s.cpu.cp = 0xFC00 ∧ s.cpu.sp = 0xFBFE ∧ Memory.readWord s.mem 0xFBFE = 0xFC00)) = true := by decide

/-- JMPA cc_UC,1000h (R281). -/
theorem test_jmpa :
    ends (run 32 0x100000EA (withRegs []))
      (fun s => decide (s.cpu.ip = 0x1000)) = true := by decide

/-- JMPA cc_Z,0200h with Z = 0 (R281). -/
theorem test_jmpa_not :
    ends (run 32 0x020020EA (withRegs []))
      (fun s => decide (s.cpu.ip = 0x0004)) = true := by decide

/-- JMPI cc_UC,[R4] (R282). -/
theorem test_jmpi :
    ends (run 16 0x049C (withRegs [(4, 0x2A00)]))
      (fun s => decide (s.cpu.ip = 0x2A00)) = true := by decide

/-- JMPR cc_UC,+2 at 0100h (R283). -/
theorem test_jmpr :
    ends (run 16 0x020D (withIp 0x0100 (withRegs [])))
      (fun s => decide (s.cpu.ip = 0x0106)) = true := by decide

/-- JMPS 1,0000h (R284). -/
theorem test_jmps :
    ends (run 32 0x000001FA (withRegs []))
      (fun s => decide (s.cpu.ip = 0x0000 ∧ s.cpu.csp = 0x0001)) = true := by decide

/-- JB R0.3,+4 at 0200h (R285). -/
theorem test_jb :
    ends (run 32 0x3004F08A (withIp 0x0200 (withRegs [(0, 0x0008)])))
      (fun s => decide (s.cpu.ip = 0x020C ∧ s.cpu.psw &&& 0x001F = 0b00000)) = true := by decide

/-- JNB MDRIU,+1 with MDRIU = 0 (R286). -/
theorem test_jnb :
    ends (run 32 0x4001879A (withRegs []))
      (fun s => decide (s.cpu.ip = 0x0006)) = true := by decide

/-- JBC R1.0,+1 at 0300h (R287). -/
theorem test_jbc :
    ends (run 32 0x0001F1AA (withIp 0x0300 (withRegs [(1, 0x0001)])))
      (fun s => decide (s.gprWord 1 = 0x0000 ∧ s.cpu.ip = 0x0306 ∧ s.cpu.psw &&& 0x001F = 0b00001)) = true := by decide

/-- JNBS R1.15,-2 at 0400h (R288). -/
theorem test_jnbs :
    ends (run 32 0xF0FEF1BA (withIp 0x0400 (withRegs [])))
      (fun s => decide (s.gprWord 1 = 0x8000 ∧ s.cpu.ip = 0x0400 ∧ s.cpu.psw &&& 0x001F = 0b01000)) = true := by decide

/-- CALLA cc_UC,2000h at 0100h (R296). -/
theorem test_calla :
    ends (run 32 0x200000CA (withIp 0x0100 (withRegs [])))
      (fun s => decide (s.cpu.sp = 0xFBFE ∧ Memory.readWord s.mem 0xFBFE = 0x0104 ∧ s.cpu.ip = 0x2000)) = true := by decide

/-- CALLI cc_NZ,[R2] (R297). -/
theorem test_calli :
    ends (run 16 0x32AB (withRegs [(2, 0x1234)]))
      (fun s => decide (s.cpu.ip = 0x1234 ∧ Memory.readWord s.mem 0xFBFE = 0x0002)) = true := by decide

/-- CALLR +16 at 0200h (R298). -/
theorem test_callr :
    ends (run 16 0x10BB (withIp 0x0200 (withRegs [])))
      (fun s => decide (Memory.readWord s.mem 0xFBFE = 0x0202 ∧ s.cpu.ip = 0x0222)) = true := by decide

/-- CALLS 2,4000h at 0300h (R299). -/
theorem test_calls :
    ends (run 32 0x400002DA (withIp 0x0300 (withRegs [])))
      (fun s => decide (Memory.readWord s.mem 0xFBFE = 0x0000 ∧ Memory.readWord s.mem 0xFBFC = 0x0304 ∧ s.cpu.sp = 0xFBFC ∧ s.cpu.csp = 0x0002 ∧ s.cpu.ip = 0x4000)) = true := by decide

/-- PCALL R5,3000h at 0100h (R300). -/
theorem test_pcall :
    ends (run 32 0x3000F5E2 (withIp 0x0100 (withRegs [(5, 0x00AA)])))
      (fun s => decide (Memory.readWord s.mem 0xFBFE = 0x00AA ∧ Memory.readWord s.mem 0xFBFC = 0x0104 ∧ s.cpu.ip = 0x3000 ∧ s.cpu.psw &&& 0x001F = 0b00000)) = true := by decide

/-- TRAP #10h at 0500h (R301). -/
theorem test_trap :
    ends (run 16 0x209B (withIp 0x0500 (withPsw 0x0400 (withRegs []))))
      (fun s => decide (Memory.readWord s.mem 0xFBFE = 0x0400 ∧ Memory.readWord s.mem 0xFBFA = 0x0502 ∧ s.cpu.sp = 0xFBFA ∧ s.cpu.ip = 0x0040 ∧ s.cpu.psw = 0x0400)) = true := by decide

/-- RET (R302). -/
theorem test_ret :
    ends (run 16 0x00CB (withWord 0xFBFE 0x0104 (withSp 0xFBFE (withRegs []))))
      (fun s => decide (s.cpu.ip = 0x0104 ∧ s.cpu.sp = 0xFC00)) = true := by decide

/-- RETS (R303). -/
theorem test_rets :
    ends (run 16 0x00DB (withWord 0xFBFC 0x0304 (withSp 0xFBFC (withRegs []))))
      (fun s => decide (s.cpu.ip = 0x0304 ∧ s.cpu.csp = 0x0000 ∧ s.cpu.sp = 0xFC00)) = true := by decide

/-- RETP R5 (R304). -/
theorem test_retp :
    ends (run 16 0xF5EB (withWord 0xFBFE 0x00AA (withWord 0xFBFC 0x0104 (withSp 0xFBFC (withRegs [])))))
      (fun s => decide (s.cpu.ip = 0x0104 ∧ s.gprWord 5 = 0x00AA ∧ s.cpu.sp = 0xFC00)) = true := by decide

/-- RETI (R305). -/
theorem test_reti :
    ends (run 16 0x88FB (withWord 0xFBFE 0x0800 (withWord 0xFBFA 0x0502 (withSp 0xFBFA (withRegs [])))))
      (fun s => decide (s.cpu.ip = 0x0502 ∧ s.cpu.csp = 0x0000 ∧ s.cpu.psw = 0x0800 ∧ s.cpu.sp = 0xFC00)) = true := by decide

/-- NOP (R322). -/
theorem test_nop :
    ends (run 16 0x00CC (withRegs []))
      (fun s => decide (s.cpu.ip = 0x0002)) = true := by decide

/-- IDLE (R317). -/
theorem test_idle :
    ends (run 32 0x87877887 (withRegs []))
      (fun s => decide (s.sys.power = .idle ∧ s.cpu.ip = 0x0004)) = true := by decide

/-- PWRDN with NMI high (R318). -/
theorem test_pwrdn :
    ends (run 32 0x97976897 (withRegs []))
      (fun s => decide (s.sys.power = .running ∧ s.cpu.ip = 0x0004)) = true := by decide

/-- SRVWDT (R319). -/
theorem test_srvwdt :
    ends (run 32 0xA7A758A7 (withRegs []))
      (fun s => decide (s.wdt.disLocked = true ∧ s.wdt.wdt = 0x0000)) = true := by decide

/-- DISWDT (R320). -/
theorem test_diswdt :
    ends (run 32 0xA5A55AA5 (withRegs []))
      (fun s => decide (s.wdt.disabled = true)) = true := by decide

/-- EINIT (R321). -/
theorem test_einit :
    ends (run 32 0xB5B54AB5 (withRegs []))
      (fun s => decide (s.sys.einitDone = true)) = true := by decide

/-- SRST (R316). -/
theorem test_srst :
    ends (run 32 0xB7B748B7 (withRegs [(1, 0x0005)]))
      (fun s => decide (s.sys.power = .inReset .software ∧ s.gprWord 1 = 0x0005)) = true := by decide

/-- ATOMIC #3 (R323). -/
theorem test_atomic :
    ends (run 16 0x20D1 (withRegs []))
      (fun s => decide (s.ext = ⟨3, false, .none⟩)) = true := by decide

/-- EXTR #4 (R324). -/
theorem test_extr :
    ends (run 16 0xB0D1 (withRegs []))
      (fun s => decide (s.ext = ⟨4, true, .none⟩)) = true := by decide

/-- EXTP R15,#1 (R325). -/
theorem test_extp_register :
    ends (run 16 0x4FDC (withRegs [(15, 0x0C05)]))
      (fun s => decide (s.ext = ⟨1, false, .page 0x005⟩)) = true := by decide

/-- EXTP #3,#2 (R325). -/
theorem test_extp :
    ends (run 32 0x000350D7 (withRegs []))
      (fun s => decide (s.ext = ⟨2, false, .page 0x003⟩)) = true := by decide

/-- EXTPR #10h,#1 (R326). -/
theorem test_extpr :
    ends (run 32 0x0010C0D7 (withRegs []))
      (fun s => decide (s.ext = ⟨1, true, .page 0x010⟩)) = true := by decide

/-- EXTS #15,#1 (R327). -/
theorem test_exts :
    ends (run 32 0x000F00D7 (withRegs []))
      (fun s => decide (s.ext = ⟨1, false, .segment 0x0F⟩)) = true := by decide

/-- EXTSR #1,#4 (R328). -/
theorem test_extsr :
    ends (run 32 0x0001B0D7 (withRegs []))
      (fun s => decide (s.ext = ⟨4, true, .segment 0x01⟩)) = true := by decide

/-- MOV R0,[R1] with R1 odd: ILLOPA (R387). -/
theorem test_odd_word_operand :
    ends (run 16 0x01A8 (withRegs [(1, 0x3001)]))
      (fun s => decide (s.cpu.tfr = 0x0004 ∧ s.cpu.ip = 0x0002 ∧ s.gprWord 0 = 0x0000)) = true := by decide

/-- opcode byte C1h: UNDOPC (R385). -/
theorem test_undefined_opcode :
    ends (run 16 0x00C1 (withRegs []))
      (fun s => decide (s.cpu.tfr = 0x0080 ∧ s.cpu.ip = 0x0000)) = true := by decide

/-! ## Witnesses: for each statement with hypotheses, a state and operands that meet them -/

/-- Pointers R3 to even, R4 to odd external memory, R5 into the IRAM; data elsewhere. -/
def w0 : State := withRegs [(0, 0x0001), (1, 0x8000), (2, 0x00FF), (3, 0x3000), (4, 0x3001), (5, 0xFA10), (15, 0xFFFF)]

theorem test_witness_alu_registers :
    gprWordOk w0 0 = true ∧ gprWordOk w0 15 = true ∧ gprByteOk w0 0 = true ∧ gprByteOk w0 15 = true := by decide

theorem test_witness_alu_indirect :
    gprWordOk w0 15 = true ∧ gprWordOk w0 3 = true ∧ (∃ b u, readWordOperand (w0.gprWord 3) w0.begin = .ok (b, u))
    ∧ gprByteOk w0 15 = true ∧ ∃ b u, readByteOperand (w0.gprWord 3) w0.begin = .ok (b, u) :=
  ⟨by decide, by decide, ⟨_, _, rfl⟩, by decide, ⟨_, _, rfl⟩⟩

/-- A GPR, SP and PSW as `reg`; memory outside and inside the chip as `mem`. -/
theorem test_witness_alu_reg :
    (∃ a u, readReg 0xFF w0.begin = .ok (a, u) ∧ regIsGpr 0xFF = true ∧ ∃ b u2, readWordOperand 0x3000 u = .ok (b, u2))
    ∧ (∃ a u, readReg 0x09 w0.begin = .ok (a, u) ∧ regIsGpr 0x09 = false ∧ (∃ w, writeReg 0x09 0xFBFE u = .ok ((), w))
        ∧ ∃ b u2, readWordOperand 0xFA10 u = .ok (b, u2))
    ∧ ∃ a u, readReg 0x88 w0.begin = .ok (a, u) ∧ ∃ w, writeReg 0x88 0x0001 u = .ok ((), w) ∧ w.marks.pswWritten = true :=
  ⟨⟨_, _, rfl, rfl, _, _, rfl⟩, ⟨_, _, rfl, rfl, ⟨_, rfl⟩, _, _, rfl⟩, ⟨_, _, rfl, _, rfl, rfl⟩⟩

theorem test_witness_alu_reg_bytes :
    (∃ a u, readRegB 0xF0 w0.begin = .ok (a, u) ∧ regIsGpr 0xF0 = true ∧ ∃ b u2, readByteOperand 0x3001 u = .ok (b, u2))
    ∧ ∃ a u, readRegB 0x06 w0.begin = .ok (a, u) ∧ regIsGpr 0x06 = false ∧ ∃ w, writeRegB 0x06 0x80 u = .ok ((), w) :=
  ⟨⟨_, _, rfl, rfl, _, _, rfl⟩, ⟨_, _, rfl, rfl, _, rfl⟩⟩

/-- A store to external memory, and one to the IRAM, with a GPR as source. -/
theorem test_witness_alu_to_memory :
    aluMemWithReg .xor 0x3000 0xF1 = some (.xorMemReg 0x3000 0xF1)
    ∧ (∃ a r b u, readWordOperand 0x3000 w0.begin = .ok (a, r) ∧ readReg 0xF1 r = .ok (b, u)
        ∧ (plainMemory w0 (dataAddr w0 0x3000) ∧ plainMemory w0 (dataAddr w0 0x3000 + 1)) ∧ Undisturbed u ∧ ∃ w, writeWordOperand 0x3000 (aluValue .xor a b false) u = .ok ((), w))
    ∧ ∃ a r b u, readByteOperand 0xFA11 w0.begin = .ok (a, r) ∧ readRegB 0xF1 r = .ok (b, u)
        ∧ plainMemory w0 (dataAddr w0 0xFA11) ∧ Undisturbed u ∧ ∃ w, writeByteOperand 0xFA11 (aluValue .xor a b false) u = .ok ((), w) :=
  ⟨rfl, ⟨_, _, _, _, rfl, rfl, by unfold plainMemory inIramAt inBoardRam; decide, .inl rfl, _, rfl⟩,
    ⟨_, _, _, _, rfl, rfl, by unfold plainMemory inIramAt inBoardRam; decide, .inl rfl, _, rfl⟩⟩

/-- A store to an SFR: the write has its own effects. -/
theorem test_witness_store_to_sfr : ∃ w, writeWordOperand 0xFE0C 0x1234 w0.begin = .ok ((), w) ∧ w.cpu.mdh = 0x1234 :=
  ⟨_, rfl, rfl⟩

theorem test_witness_loop_compares :
    gprWordOk w0 15 = true ∧ ∃ b u, readWordOperand 0x3000 w0.begin = .ok (b, u) := ⟨by decide, _, _, rfl⟩

theorem test_witness_multiplication : gprWordOk w0 1 = true ∧ gprWordOk w0 15 = true ∧ w0.cpu.mdc &&& 0x00EF = 0 := by decide

/-- DIV: 7 / -2; DIVL: -32768 · 3; DIVU and DIVLU: the greatest quotient. -/
theorem test_witness_division :
    (∃ s : State, s = withMd 0 7 (withRegs [(3, 0xFFFE)]) ∧ gprWordOk s 3 = true ∧ s.cpu.mdc &&& 0x00EF = 0
      ∧ (1 : Int).natAbs < (s.gprWord 3).toInt.natAbs ∧ s.cpu.mdl.toInt = (-3) * (s.gprWord 3).toInt + 1
      ∧ 0 ≤ 1 * s.cpu.mdl.toInt)
    ∧ (∃ s : State, s = withMd 0xFFFE 0x8000 (withRegs [(3, 3)])
      ∧ (s.cpu.mdh ++ s.cpu.mdl : BitVec 32).toInt = (-0x8000) * (s.gprWord 3).toInt + 0)
    ∧ ∃ s : State, s = withMd 2 0xFFFF (withRegs [(3, 3)]) ∧ 2 < (s.gprWord 3).toNat
      ∧ (s.cpu.mdh ++ s.cpu.mdl : BitVec 32).toNat = 0xFFFF * (s.gprWord 3).toNat + 2
      ∧ s.cpu.mdl.toNat = 0x5555 * (s.gprWord 3).toNat + 0 :=
  ⟨⟨_, rfl, by decide⟩, ⟨_, rfl, by decide⟩, ⟨_, rfl, by decide⟩⟩

/-- The divisor 0; 8000h / -1; a quotient of 8000h; 1'0000h / 1 unsigned. -/
theorem test_witness_invalid_division :
    (∃ s : State, s = withRegs [] ∧ s.gprWord 3 = 0 ∧ gprWordOk s 3 = true ∧ s.cpu.mdc &&& 0x00EF = 0)
    ∧ (∃ s : State, s = withMd 0 0x8000 (withRegs [(3, 0xFFFF)]) ∧ s.cpu.mdl = 0x8000 ∧ s.gprWord 3 = 0xFFFF)
    ∧ (∃ s : State, s = withMd 0 0x8000 (withRegs [(3, 1)]) ∧ (0 : Int).natAbs < (s.gprWord 3).toInt.natAbs
      ∧ (s.cpu.mdh ++ s.cpu.mdl : BitVec 32).toInt = 0x8000 * (s.gprWord 3).toInt + 0)
    ∧ ∃ s : State, s = withMd 1 0 (withRegs [(3, 1)])
      ∧ (s.gprWord 3).toNat * 0x10000 ≤ (s.cpu.mdh ++ s.cpu.mdl : BitVec 32).toNat :=
  ⟨⟨_, rfl, by decide⟩, ⟨_, rfl, by decide⟩, ⟨_, rfl, by decide⟩, ⟨_, rfl, by decide⟩⟩

/-- PRIOR of 8000h (no shift), of 1 (15 shifts) and of 0. -/
theorem test_witness_prioritize :
    (bitOf (w0.gprWord 1) 15 = true) ∧ (bitOf (w0.gprWord 0) (15 - 15) = true ∧ ∀ j < 15, bitOf (w0.gprWord 0) (15 - j) = false)
    ∧ w0.gprWord 6 = 0 := by decide

set_option maxRecDepth 8000 in
/-- A bit of a GPR, of the bit-addressable IRAM, of PSW. -/
theorem test_witness_single_bits :
    (∃ x u, readBitWord 0xF0 w0.begin = .ok (x, u) ∧ regIsGpr 0xF0 = true ∧ gprWordOk w0 (regGpr 0xF0) = true)
    ∧ (∃ x u, readBitWord 0x7F w0.begin = .ok (x, u))
    ∧ ∃ x u, readBitWord 0x88 w0.begin = .ok (x, u) ∧ regIsGpr 0x88 = false
      ∧ ∃ w, writeBitWord 0x88 (1#16 <<< 11) (setBit x 11 true) u = .ok ((), w) :=
  ⟨⟨_, _, rfl, rfl, rfl⟩, ⟨_, _, rfl⟩, ⟨_, _, rfl, rfl, _, rfl⟩⟩

set_option maxRecDepth 8000 in
/-- Two words, and one word for both bits. -/
theorem test_witness_two_bits :
    (∃ u x y, TwoBitWords 0xF0 0xF1 w0 u x y) ∧ (∃ u x y, TwoBitWords 0xF2 0xF2 w0 u x y)
    ∧ ∃ u x y, TwoBitWords 0x88 0x00 w0 u x y ∧ ∃ w, writeBitWord 0x88 (1#16 <<< 0) (setBit y 0 true) u = .ok ((), w) :=
  ⟨⟨_, _, _, _, rfl, rfl⟩, ⟨_, _, _, _, rfl, rfl, rfl⟩, ⟨_, _, _, ⟨_, rfl, rfl⟩, _, rfl⟩⟩

set_option maxRecDepth 8000 in
theorem test_witness_bit_fields :
    (∃ x u, readBitWord 0xFF w0.begin = .ok (x, u)) ∧ (∃ x u, readBitWord 0x00 w0.begin = .ok (x, u))
    ∧ ∃ x u, readBitWord 0x88 w0.begin = .ok (x, u) ∧ ∃ w, writeBitWord 0x88 ((0xFF#8 ||| 0x08#8) ++ 0x00#8) 0x0800 u = .ok ((), w) :=
  ⟨⟨_, _, rfl⟩, ⟨_, _, rfl⟩, ⟨_, _, rfl, _, rfl⟩⟩

theorem test_witness_loads :
    (∃ v u, readWordOperand (w0.gprWord 3) w0.begin = .ok (v, u))
    ∧ (∃ v u, readWordOperand (w0.gprWord 4 + 0xFFFF) w0.begin = .ok (v, u))
    ∧ (∃ v u, readByteOperand (w0.gprWord 4) w0.begin = .ok (v, u))
    ∧ ∃ v u, readByteOperand (w0.gprWord 5 + 1) w0.begin = .ok (v, u) :=
  ⟨⟨_, _, rfl⟩, ⟨_, _, rfl⟩, ⟨_, _, rfl⟩, ⟨_, _, rfl⟩⟩

/-- A move to a GPR, to MDH, to PSW, word and byte. -/
theorem test_witness_moves_to_reg :
    (regIsGpr 0xF0 = true ∧ gprWordOk w0 (regGpr 0xF0) = true ∧ gprByteOk w0 (regGpr 0xFF) = true)
    ∧ (regIsGpr 0x06 = false ∧ ∃ w, writeReg 0x06 0x1234 w0.begin = .ok ((), w))
    ∧ (∃ w, writeRegB 0x88 0x01 w0.begin = .ok ((), w))
    ∧ (∃ v u, readWordOperand 0xFE0E w0.begin = .ok (v, u)) ∧ ∃ v u, readByteOperand 0xFE0F w0.begin = .ok (v, u) :=
  ⟨by decide, ⟨rfl, _, rfl⟩, ⟨_, rfl⟩, ⟨_, _, rfl⟩, ⟨_, _, rfl⟩⟩

theorem test_witness_stores :
    (plainMemory w0 (dataAddr w0 (w0.gprWord 3)) ∧ plainMemory w0 (dataAddr w0 (w0.gprWord 3) + 1) ∧ Undisturbed w0 ∧ ∃ w, writeWordOperand (w0.gprWord 3) (w0.gprWord 1) w0.begin = .ok ((), w))
    ∧ (plainMemory w0 (dataAddr w0 (w0.gprWord 4)) ∧ ∃ w, writeByteOperand (w0.gprWord 4) (w0.gprByte 1) w0.begin = .ok ((), w))
    ∧ ∃ v u, readReg 0x07 w0.begin = .ok (v, u) ∧ ∃ w, writeWordOperand 0x3000 v u = .ok ((), w) :=
  ⟨⟨by unfold plainMemory inIramAt inBoardRam; decide, by unfold plainMemory inIramAt inBoardRam; decide, .inl rfl, _, rfl⟩,
    ⟨by unfold plainMemory inIramAt inBoardRam; decide, _, rfl⟩, ⟨_, _, rfl, _, rfl⟩⟩

/-- The pointer apart from the data, and the pointer as the data. -/
theorem test_witness_predecrement :
    (∃ w, writeWordOperand (w0.gprWord 3 - 2) (w0.gprWord 1) (w0.begin.setGprWord 3 (w0.gprWord 3 - 2)) = .ok ((), w))
    ∧ (∀ v, ∃ w, writeWordOperand (w0.gprWord 3 - 2) v ((w0.begin.advanceFree 1).setGprWord 3 (w0.gprWord 3 - 2)) = .ok ((), w))
    ∧ ∃ w, writeByteOperand (w0.gprWord 3 - 1) (w0.gprByte 0) (w0.begin.setGprWord 3 (w0.gprWord 3 - 1)) = .ok ((), w) :=
  ⟨⟨_, rfl⟩, fun _ => ⟨_, rfl⟩, ⟨_, rfl⟩⟩

theorem test_witness_memory_to_memory :
    (∃ v u, readWordOperand (w0.gprWord 3) w0.begin = .ok (v, u)
      ∧ (∃ w, writeWordOperand (w0.gprWord 5) v (u.setGprWord 5 (w0.gprWord 5 + 2)) = .ok ((), w))
      ∧ ∃ w, writeWordOperand 0x4000 v u = .ok ((), w))
    ∧ ∃ v u, readByteOperand (w0.gprWord 4) w0.begin = .ok (v, u)
      ∧ ∃ w, writeByteOperand (w0.gprWord 3) v (u.setGprWord 4 (w0.gprWord 4 + 1)) = .ok ((), w) :=
  ⟨⟨_, _, rfl, ⟨_, rfl⟩, _, rfl⟩, ⟨_, _, rfl, _, rfl⟩⟩

theorem test_witness_pushes :
    (∃ v u, readReg 0xF1 w0.begin = .ok (v, u)) ∧ StackSlot w0 (pushedPointer w0.cpu.sp) 0xFBFE ∧ regIsSp w0 0xF1 = false
    ∧ regIsSp w0 0x09 = true ∧ ∃ v u, readReg 0x09 w0.begin = .ok (v, u) :=
  ⟨⟨_, _, rfl⟩, ⟨rfl, rfl⟩, rfl, rfl, ⟨_, _, rfl⟩⟩

/-- A stack with three words on it. -/
def w1 : State := withWord 0xFBFE 0x0800 (withWord 0xFBFC 0x0001 (withWord 0xFBFA 0x0502 (withSp 0xFBFA w0)))

theorem test_witness_pops :
    w1.marks.spWritten = false ∧ StackSlot w1 w1.cpu.sp 0xFBFA ∧ regIsGpr 0xF5 = true ∧ gprWordOk w1 (regGpr 0xF5) = true
    ∧ regIsGpr 0x06 = false ∧ ∃ w, writeReg 0x06 (Memory.readWord w1.mem 0xFBFA) { w1.begin with cpu := w1.cpu.pop } = .ok ((), w) :=
  ⟨rfl, ⟨rfl, rfl⟩, rfl, rfl, rfl, _, rfl⟩

theorem test_witness_switches :
    (∃ x u, readReg 0xF1 w0.begin = .ok (x, u) ∧ ∃ y r, readWordOperand 0x3000 u = .ok (y, r))
    ∧ StackSlot w0 (pushedPointer w0.cpu.sp) 0xFBFE
    ∧ ∃ x u, readReg 0x08 w0.begin = .ok (x, u) ∧ ∃ w, writeReg 0x08 0xFA00 (u.pushed x) = .ok ((), w) :=
  ⟨⟨_, _, rfl, _, _, rfl⟩, ⟨rfl, rfl⟩, ⟨_, _, rfl, _, rfl⟩⟩

theorem test_witness_jumps_on_bit :
    (∃ x u, readBitWord 0xF0 w0.begin = .ok (x, u) ∧ bitOf x 0 = true)
    ∧ ∃ x u, readBitWord 0x7F w0.begin = .ok (x, u) ∧ bitOf x 15 = false :=
  ⟨⟨_, _, rfl, rfl⟩, ⟨_, _, rfl, rfl⟩⟩

/-- Z = 0: cc_Z fails, cc_NZ holds. -/
theorem test_witness_calls :
    condition 2 w0.cpu.psw = false ∧ condition 3 w0.cpu.psw = true ∧ StackSlot w0 (pushedPointer w0.cpu.sp) 0xFBFE
    ∧ StackSlot w0 (pushedPointer (pushedPointer w0.cpu.sp)) 0xFBFC ∧ ∃ v u, readReg 0xF5 w0.begin = .ok (v, u) :=
  ⟨rfl, rfl, ⟨rfl, rfl⟩, ⟨rfl, rfl⟩, ⟨_, _, rfl⟩⟩

/-- Segmentation disabled (SYSCON.SGTDIS = 1), as if long ago. -/
def unsegmented (s : State) : State := setCpu s { s.cpu with syscon := s.cpu.syscon ||| 0x0800 }

theorem test_witness_traps :
    segmented w0 = true ∧ segmented (unsegmented w0) = false
    ∧ StackSlot w0 (pushedPointer (pushedPointer (pushedPointer w0.cpu.sp))) 0xFBFA
    ∧ StackSlot (unsegmented w0) (pushedPointer (pushedPointer w0.cpu.sp)) 0xFBFC :=
  ⟨rfl, rfl, ⟨rfl, rfl⟩, ⟨rfl, rfl⟩⟩

theorem test_witness_returns :
    w1.marks.spWritten = false ∧ bitOf w1.cpu.psw 5 = false ∧ StackSlot w1 w1.cpu.sp 0xFBFA
    ∧ StackSlot w1 (poppedPointer w1.cpu.sp) 0xFBFC ∧ StackSlot w1 (poppedPointer (poppedPointer w1.cpu.sp)) 0xFBFE
    ∧ segmented w1 = true ∧ segmented (unsegmented w1) = false
    ∧ ∃ w, writeReg 0x06 1 { w1.begin with cpu := w1.cpu.pop.pop } = .ok ((), w) :=
  ⟨rfl, rfl, ⟨rfl, rfl⟩, ⟨rfl, rfl⟩, ⟨rfl, rfl⟩, rfl, rfl, _, rfl⟩

/-- NMI low, the watchdog locked, RSTIN low. -/
theorem test_witness_system :
    w0.pins.nmi = true ∧ ({ w0 with pins := { w0.pins with nmi := false } } : State).pins.nmi = false
    ∧ w0.wdt.disLocked = false ∧ ({ w0 with wdt := { w0.wdt with disLocked := true } } : State).wdt.disLocked = true
    ∧ w0.agenda = [] ∧ w0.pins.rstin = true
    ∧ ({ w0 with pins := { w0.pins with rstin := false } } : State).pins.rstin = false := by decide

/-- Odd pointers in R4 and at R3+1, R4 as the destination pointer too; a GPR and MDH as `reg`; an even source at [R3]. -/
theorem test_witness_odd :
    (isOdd 0x3001 = true ∧ isOdd 0xFFFF = true ∧ aluMemWithReg .add 0x3001 0xF1 = some (.addMemReg 0x3001 0xF1)
      ∧ (∃ v u, readReg 0xF1 w0.begin = .ok (v, u)) ∧ (∃ v u, readReg 0x06 w0.begin = .ok (v, u))
      ∧ (∃ v u, readRegB 0xF1 w0.begin = .ok (v, u))
      ∧ gprWordOk w0 3 = true ∧ ∃ v u, readWordOperand (w0.gprWord 3) w0.begin = .ok (v, u))
    ∧ (gprWordOk w0 4 = true ∧ isOdd (w0.gprWord 4) = true ∧ gprWordOk w0 15 = true)
    ∧ isOdd (w0.gprWord 3 + 1) = true ∧ isOdd (w0.gprWord 4 - 2) = true
    ∧ (∃ s : State, s = withRegs [(2, 0x3001)] ∧ gprWordOk s ((2#2).setWidth 4) = true
      ∧ isOdd (s.gprWord ((2#2).setWidth 4)) = true)
    ∧ ∃ v u, readWordOperand 0x4000 w0.begin = .ok (v, u) :=
  ⟨⟨rfl, rfl, rfl, ⟨_, _, rfl⟩, ⟨_, _, rfl⟩, ⟨_, _, rfl⟩, rfl, _, _, rfl⟩, ⟨rfl, rfl, rfl⟩, rfl, by decide, ⟨_, rfl, rfl, by decide⟩,
    _, _, rfl⟩

/-- The same chip with no window of the bus enabled. -/
def busless (s : State) : State :=
  { s with bus := { s.bus with buscon0 := 0 }, prev := { s.prev with bus := { s.prev.bus with buscon0 := 0 } } }

/-- Words and bytes that need the missing bus, by `mem`, R3, R3 - 2, R3 - 1, R3 + 2, R2 as pointer, at the ends of the address
range; operands in the IRAM that are read before. -/
theorem test_witness_missing_bus :
    (NeedsMissingBus (busless w0) 0x0000 ∧ NeedsMissingBus (busless w0) 0x3000 ∧ NeedsMissingBus (busless w0) 0x2FFE
      ∧ NeedsMissingBus (busless w0) 0x2FFF ∧ NeedsMissingBus (busless w0) 0x3002 ∧ NeedsMissingBus (busless w0) 0xEFFE
      ∧ NeedsMissingBus (busless w0) 0xEFFF)
    ∧ isOdd 0x0000 = false ∧ isOdd 0x3000 = false ∧ isOdd 0x2FFE = false ∧ isOdd 0x3002 = false ∧ isOdd 0xEFFE = false
    ∧ (busless w0).gprWord 3 = 0x3000 ∧ gprWordOk (busless w0) 3 = true ∧ gprWordOk (busless w0) 5 = true
    ∧ gprByteOk (busless w0) 3 = true
    ∧ (∃ s : State, s = busless (withRegs [(2, 0x3000)]) ∧ gprWordOk s ((2#2).setWidth 4) = true
      ∧ isOdd (s.gprWord ((2#2).setWidth 4)) = false ∧ NeedsMissingBus s (s.gprWord ((2#2).setWidth 4)))
    ∧ (readReg 0xF1 (busless w0).begin).isOk = true ∧ (readRegB 0xF1 (busless w0).begin).isOk = true
    ∧ (busless w0).gprWord 5 = 0xFA10 ∧ (readWordOperand 0xFA10 (busless w0).begin).isOk = true
    ∧ (readByteOperand 0xFA10 (busless w0).begin).isOk = true :=
  ⟨by unfold NeedsMissingBus; decide, rfl, rfl, rfl, rfl, rfl, by decide, rfl, rfl, rfl,
    ⟨_, rfl, rfl, by decide, by unfold NeedsMissingBus; decide⟩, by decide, by decide, by decide, by decide, by decide⟩

/-- MOV R1,[R3] without an external bus sets ILLBUS and moves IP on (R389). -/
theorem test_missing_bus :
    ends (exec (.movRwnIndRwm 1 3) (busless w0))
      (fun t => decide (t.cpu.tfr = 0x0001 ∧ t.cpu.ip = 2 ∧ t.gprWord 1 = 0x8000)) = true := by decide

/-- Plain memory: the first and last byte of the IRAM, and external memory with a free bus. -/
theorem test_witness_memory_operands :
    (dataRemapped w0 0xF600 = false ∧ plainMemory w0 (dataAddr w0 0xF600) ∧ plainMemory w0 (dataAddr w0 0xF600 + 1)
      ∧ isOdd 0xF600 = false)
    ∧ (plainMemory w0 (dataAddr w0 0xFDFF) ∧ dataRemapped w0 0xFDFF = false)
    ∧ (dataRemapped w0 0x3000 = false ∧ areaOf w0 w0.prev.cpu.syscon (dataAddr w0 0x3000) = .external
      ∧ externalStop w0 (dataAddr w0 0x3000) = none ∧ plainMemory w0 (dataAddr w0 0x3000)
      ∧ plainMemory w0 (dataAddr w0 0x3000 + 1))
    ∧ Undisturbed w0 := by
  unfold plainMemory inIramAt inBoardRam Undisturbed; decide

/-- The first and the last GPR and bit word of the IRAM. -/
theorem test_witness_short_addresses :
    regIsGpr 0xF0 = true ∧ regIsGpr 0xFF = true ∧ gprWordOk w0 (regGpr 0xF0) = true ∧ gprWordOk w0 (regGpr 0xFF) = true
    ∧ gprByteOk w0 (regGpr 0xF0) = true ∧ gprByteOk w0 (regGpr 0xFF) = true
    ∧ (0x00 : BitVec 8).toNat < 0x80 ∧ (0x7F : BitVec 8).toNat < 0x80 := by decide

/-- A bit write that goes through, with and without TxI, TxM and TxR, and one that stops. -/
theorem test_witness_bit_write :
    (writeSfrWord 0xFF42 0x0040 w0).isOk = true ∧ (0x0400 : Word) &&& 0x007F = 0 ∧ (0x0040 : Word) &&& 0x007F ≠ 0
    ∧ (writeSfrWord 0xFF0C 0 w0).isOk = false := by decide

/-- SYSCON before EINIT, with the ROM enabled, and after it; BUSCONx and ADDRSELx written from the IRAM; the ports of a chip
without a bus. -/
theorem test_witness_registers :
    esfrMode w0.ext = false ∧ (w0.sys.einitDone = false ∧ sfrWriteRefusal .syscon 0xEBFF w0.begin = none)
    ∧ ({ w0 with sys := { w0.sys with einitDone := true } } : State).sys.einitDone = true
    ∧ (∀ r ∈ [Sfr.buscon0, .buscon1, .buscon2, .buscon3, .buscon4, .addrsel1, .addrsel2, .addrsel3, .addrsel4],
        sfrWriteRefusal r 0x1234 (withIp 0xF700 w0).begin = none)
    ∧ busEnabled { w0.bus with buscon0 := 0 } = false ∧ busUsesP0h { w0.bus with buscon0 := 0 } = false
    ∧ busUsesPort1 { w0.bus with buscon0 := 0 } = false := by decide

/-- S0CON and S0BG with S0R = 0 and 1, a mode kept and an asynchronous mode; SSCCON with SSCEN = 0 and 1, on either device; a
node that is there and one that is not; the reads of the ports. -/
theorem test_witness_peripheral_registers :
    w0.asc.rxActive = false ∧ fieldNat 0x8011 0 3 ≠ 0 ∧ bitOf 0x8011 15 = true ∧ bitOf w0.asc.s0con 15 = false
    ∧ (fieldNat 0x8010 0 3 = 0 ↔ fieldNat w0.asc.s0con 0 3 = 0)
    ∧ ¬(fieldNat 0x8011 0 3 = 0 ↔ fieldNat w0.asc.s0con 0 3 = 0)
    ∧ (fieldNat w0.asc.s0con 0 3 = 0 ∧ ({ w0.asc with rxActive := true } : Asc).rxActive = true)
    ∧ w0.board.device = .c165 ∧ w0.ssc.en = false ∧ ({ w0.ssc with en := true } : Ssc).en = true
    ∧ ({ w0.board with device := .c163 } : Board).device = .c163
    ∧ (∀ n ∈ [IrqNode.cc8, .xp0], nodeRegisterPresent w0.board n = true)
    ∧ nodeRegisterPresent { w0.board with device := .c163 } .ssct = false
    ∧ nodeRegisterPresent { w0.board with device := .c163, spareRegisters := false } .xp0 = false
    ∧ (∀ r ∈ [(0xE0 : BitVec 8), 0xE2, 0xE4, 0xE6], (readReg r w0).isOk = true) := by decide

/-- A sequence with the ESFR switch and a page, one with a segment, none, and DPPs without segmentation. -/
theorem test_witness_sequence_operands :
    esfrMode (⟨1, true, .page 3⟩ : Ext) = true ∧ 0 < (⟨1, true, .page 3⟩ : Ext).count ∧ 0 < (⟨4, false, .segment 0xFF⟩ : Ext).count
    ∧ w0.ext.count = 0 ∧ bitOf w0.prev.cpu.syscon 11 = false ∧ bitOf (0x0800 : Word) 11 = true
    ∧ regIsGpr 0x00 = false ∧ regIsGpr 0x80 = false ∧ regIsGpr 0xEF = false ∧ 0x80 ≤ (0xEF : BitVec 8).toNat := by decide

/-- MDH; an address of both spaces with no register: the first and last byte of ESFR and SFR space are such. -/
theorem test_witness_sfr_bytes :
    regIsGpr 0x06 = false ∧ dataRemapped w0 0xFE0D = false ∧ (dataAddr w0 0xFE0D).toNat = 0xFE0D
    ∧ sfrAt w0.board 0xFE0C = some .mdh ∧ sfrWriteRefusal .mdh 0x1200 w0 = none
    ∧ (dataAddr w0 0xF000).toNat = 0xF000 ∧ sfrAt w0.board 0xF000 = none
    ∧ (dataAddr w0 0xF1FF).toNat = 0xF1FF ∧ sfrAt w0.board 0xF1FE = none ∧ dataRemapped w0 0xF1FF = false
    ∧ (dataAddr w0 0xFE00).toNat = 0xFE00 ∧ sfrAt w0.board 0xFE00 = some .dpp0
    ∧ (dataAddr w0 0xFFFF).toNat = 0xFFFF ∧ sfrAt w0.board 0xFFFE = none
    ∧ (isOdd 0xF1FE = false ∧ (dataAddr w0 0xF1FE).toNat = 0xF1FE ∧ (readSfrWord 0xF1FE w0).isOk = true)
    ∧ (isOdd 0xFE0C = false ∧ (dataAddr w0 0xFE0C).toNat = 0xFE0C ∧ (readSfrWord 0xFE0C w0).isOk = true)
    ∧ (dataRemapped w0 0xFE0C = false ∧ dataRemapped w0 0xF1FE = false)
    ∧ inSfrSpaces 0xF000 ∧ inSfrSpaces 0xF1FF ∧ inSfrSpaces 0xFE00 ∧ inSfrSpaces 0xFFFF
    ∧ ¬ inSfrSpaces 0xEFFF ∧ ¬ inSfrSpaces 0xF200 ∧ ¬ inSfrSpaces 0xFDFF := by
  unfold inSfrSpaces; decide

/-- ADD SP,#2 at SP = STKUN and SUB SP,#0202h raise the flags of R100. -/
theorem test_witness_stack_limits :
    popTfr w0.cpu (0xF000 ||| (aluValue .add w0.cpu.sp 2 false &&& 0x0FFE)) = 0x2000
    ∧ pushTfr w0.cpu (0xF000 ||| (aluValue .sub w0.cpu.sp 0x0202 false &&& 0x0FFE)) = 0x4000 := by decide

theorem test_witness_old_values :
    esfrMode w0.ext = false ∧ w0.ext.count ≤ 1 ∧ bitOf w0.cpu.syscon 11 = false := by decide

theorem test_witness_encode_of_decode :
    decodeBytes 0x07 0xF3 0x80 0x55 = .instr (.addbRegData8 0xF3 0x80) ∧ decodeBytes 0x00 0x12 0 0 = .instr (.addRwnRwm 1 2)
    ∧ decodeBytes 0xE6 0xF0 0x34 0x12 = .instr (.movRegData16 0xF0 0x1234)
    ∧ decodeBytes 0xD7 0x50 0x23 0x01 = .instr (.extpPagIrang2 0x123 2) ∧ decodeBytes 0xD7 0x00 0x05 0x00 = .instr (.extsSegIrang2 5 1)
    ∧ decodeBytes 0xF7 0xF3 0x34 0x12 = .instr (.movbMemReg 0x1234 0xF3)
    ∧ (0xD7 : Byte) ∉ regData8Bytes ∧ (0xF7 : Byte) ∉ regData8Bytes ∧ (0xE6 : Byte) ∉ regData8Bytes
    ∧ (0x07 : Byte) ∈ regData8Bytes := by decide

theorem test_witness_protected : (0x48 : Byte) = ~~~0xB7 ∧ (0x78 : Byte) = ~~~0x87 ∧ (0x4A : Byte) = ~~~0xB5 := by decide

theorem atBoundary_w0 (s : State) (ha : s.agenda = []) (hc : s.clocks = 0) (hs : s.sys.stall = .none)
    (hp : s.sys.power = .running) (hh : s.ebc.held = false) (hd : bitOf s.cpu.psw 10 = false) : AtBoundary s :=
  ⟨ha, hc, hs, hp, by simp [holdChange, hh, hd]⟩

/-- MOV R0,#1234h (four bytes), then ADD R1,R2 (two bytes), at IP = 0. -/
def w2 : State := w0.withFetchWord 32 0x1234F0E6

def w3 : State := w0.withFetchWord 16 0x1200

theorem test_witness_step_runs_decoded :
    (AtBoundary w2 ∧ NoTrap w2 ∧ acceptedRequest w2 = none ∧ Fetchable w2 ∧ decodedAt w2 = .instr (.movRegData16 0xF0 0x1234))
    ∧ (AtBoundary w3 ∧ NoTrap w3 ∧ acceptedRequest w3 = none ∧ Fetchable w3 ∧ decodedAt w3 = .instr (.addRwnRwm 1 2)) :=
  ⟨⟨atBoundary_w0 _ rfl rfl rfl rfl rfl rfl, by unfold NoTrap; decide, by decide, by unfold Fetchable CodeReady short Undisturbed; decide, by decide⟩,
    ⟨atBoundary_w0 _ rfl rfl rfl rfl rfl rfl, by unfold NoTrap; decide, by decide, by unfold Fetchable CodeReady short Undisturbed; decide, by decide⟩⟩

theorem test_witness_odd_ip :
    AtBoundary (withIp 0x0101 w0) ∧ isOdd (withIp 0x0101 w0).cpu.ip = true ∧ NoTrap (withIp 0x0101 w0)
    ∧ acceptedRequest (withIp 0x0101 w0) = none ∧ (withIp 0x0101 w0).sys.inA = false :=
  ⟨atBoundary_w0 _ rfl rfl rfl rfl rfl rfl, by decide, by unfold NoTrap; decide, by decide, rfl⟩

/-- An undefined opcode and a broken protected instruction. -/
theorem test_witness_fetch_traps :
    (AtBoundary (w0.withFetchWord 16 0x008B) ∧ NoTrap (w0.withFetchWord 16 0x008B)
      ∧ acceptedRequest (w0.withFetchWord 16 0x008B) = none
      ∧ Fetchable (w0.withFetchWord 16 0x008B) ∧ decodedAt (w0.withFetchWord 16 0x008B) = .undefinedOpcode)
    ∧ (AtBoundary (w0.withFetchWord 32 0xB7B747B7) ∧ NoTrap (w0.withFetchWord 32 0xB7B747B7)
      ∧ acceptedRequest (w0.withFetchWord 32 0xB7B747B7) = none ∧ Fetchable (w0.withFetchWord 32 0xB7B747B7)
      ∧ decodedAt (w0.withFetchWord 32 0xB7B747B7) = .protectionFault) :=
  ⟨⟨atBoundary_w0 _ rfl rfl rfl rfl rfl rfl, by unfold NoTrap; decide, by decide,
      by unfold Fetchable CodeReady short Undisturbed; decide, by decide⟩,
    ⟨atBoundary_w0 _ rfl rfl rfl rfl rfl rfl, by unfold NoTrap; decide, by decide,
      by unfold Fetchable CodeReady short Undisturbed; decide, by decide⟩⟩

/-- Code inside the chip: a word of the IRAM. -/
theorem test_witness_code_inside :
    ∃ s : State, s = (withIp 0xF700 w0).withFetchWord 16 0x1200 ∧ AtBoundary s ∧ NoTrap s ∧ acceptedRequest s = none
      ∧ Fetchable s ∧ CodeInside s ∧ decodedAt s = .instr (.addRwnRwm 1 2)
      ∧ ∀ k ∈ [2, 4], fetchArea s (codeAddr s (s.cpu.ip + BitVec.ofNat 16 k)) ≠ .external :=
  ⟨_, rfl, atBoundary_w0 _ rfl rfl rfl rfl rfl rfl, by unfold NoTrap; decide, by decide,
    by unfold Fetchable CodeReady short Undisturbed; decide, by unfold CodeInside short; decide, by decide, by decide⟩

/-- Class A: STKOF; class B: ILLOPA; three stack words below SP, two with segmentation disabled. -/
theorem test_witness_hardware_traps :
    (∃ s : State, s = { w0 with cpu := { w0.cpu with tfr := 0x4000 } } ∧ AtBoundary s ∧ s.cpu.tfr &&& 0xE000 ≠ 0
      ∧ s.sys.inA = false ∧ s.ext.count = 0 ∧ s.marks.stackDelay = false ∧ bitOf s.cpu.syscon 11 = false
      ∧ StackSlot (settled s) (pushedPointer s.cpu.sp) 0xFBFE
      ∧ StackSlot (settled s) (pushedPointer (pushedPointer s.cpu.sp)) 0xFBFC
      ∧ StackSlot (settled s) (pushedPointer (pushedPointer (pushedPointer s.cpu.sp))) 0xFBFA)
    ∧ ∃ s : State, s = unsegmented { w0 with cpu := { w0.cpu with tfr := 0x0004 } } ∧ AtBoundary s
      ∧ classATakeable s = false ∧ s.cpu.tfr &&& 0x008F ≠ 0 ∧ s.sys.inA = false ∧ s.sys.inB = false
      ∧ bitOf s.cpu.syscon 11 = true ∧ StackSlot (settled s) (pushedPointer s.cpu.sp) 0xFBFE
      ∧ StackSlot (settled s) (pushedPointer (pushedPointer s.cpu.sp)) 0xFBFC :=
  ⟨⟨_, rfl, atBoundary_w0 _ rfl rfl rfl rfl rfl rfl, by decide, rfl, rfl, rfl, rfl, ⟨rfl, rfl⟩, ⟨rfl, rfl⟩, ⟨rfl, rfl⟩⟩,
    ⟨_, rfl, atBoundary_w0 _ rfl rfl rfl rfl rfl rfl, rfl, by decide, rfl, rfl, rfl, ⟨rfl, rfl⟩, ⟨rfl, rfl⟩⟩⟩

/-- CC29 requests at this ILVL and GLVL, and interrupts are enabled. -/
def requesting (ic : Byte) (s : State) : State := withPsw 0x0800 (s.setIc .cc29 ic)

/-- Level 5: an interrupt. T3 requests too, on level 4. -/
def w4 : State := requesting 0xD4 (w0.setIc .t3 0xD0)

theorem test_witness_interrupt_entries : AtBoundary w4 ∧ NoTrap w4 ∧ Wins w4 .cc29 ∧ Serviced w4 .cc29 ∧ isPecRequest w4 .cc29 = false :=
  ⟨atBoundary_w0 _ rfl rfl rfl rfl rfl rfl, by unfold NoTrap; decide,
    ⟨by decide, by intro n h hn; cases n <;> first | exact absurd rfl hn | (revert h; decide), by decide⟩,
    by unfold Serviced; decide, by decide⟩

/-- IEN = 0; an extension sequence; after RETI; level 5 against the CPU's level 5. -/
theorem test_witness_requests_held_off :
    (bitOf (arbitrationPsw w0) 11 = false) ∧ 0 < ({ w4 with ext := ⟨1, false, .none⟩ } : State).ext.count
    ∧ ({ w4 with marks := { w4.marks with irqHold := true } } : State).marks.irqHold = true
    ∧ icLevel ((requesting 0xD4 w0).icOf .cc29) ≤ fieldNat (arbitrationPsw (withPsw 0x5800 (requesting 0xD4 w0))) 12 4 := by
  decide

/-- Level 14, group 1: PEC channel 1, a word, COUNT = 1, from FA10h to FA20h, the destination pointer counting. -/
def w5 : State :=
  withWord 0xFCE4 0xFA10 (withWord 0xFCE6 0xFA20 (withWord 0xFA10 0xBEEF
    { requesting 0xF9 w0 with pecc := w0.pecc.set 1 0x0201 }))

theorem test_witness_pec_transfers :
    AtBoundary w5 ∧ NoTrap w5 ∧ Wins w5 .cc29 ∧ Serviced w5 .cc29 ∧ 14 ≤ icLevel (w5.icOf .cc29)
    ∧ (w5.icOf .cc29).toNat % 8 = 1 ∧ w5.pecc[(1 : Fin 8)] = 0x0201 ∧ Memory.readWord w5.mem (0xFCE0 + 4 * 1) = 0xFA10
    ∧ Memory.readWord w5.mem (0xFCE2 + 4 * 1) = 0xFA20 ∧ inIram w5.board.device 0xFA10 1 = true
    ∧ inIram w5.board.device 0xFA20 1 = true :=
  ⟨atBoundary_w0 _ rfl rfl rfl rfl rfl rfl, by unfold NoTrap; decide,
    ⟨by decide, by intro n h hn; cases n <;> first | exact absurd rfl hn | (revert h; decide), by decide⟩,
    by unfold Serviced; decide, by decide, by decide, by decide, by decide, by decide, by decide, by decide⟩

/-- A clock with the watchdog at FFFFh. -/
def w6 : State := { w0 with wdt := { w0.wdt with wdt := 0xFFFF, psc := some 1 }, clocks := 1 }

theorem test_witness_watchdog :
    w6.agenda = [] ∧ w6.clocks = 0 + 1 ∧ ({ w6 with agenda := [.pass] } : State).agenda = Event.pass :: [] ∧ w6.sys.power = .running ∧ w6.wdt.disabled = false ∧ w6.wdt.psc = some 1
    ∧ w6.wdt.wdt = 0xFFFF ∧ clockRefusal w6 = none := by decide

/-- T3 counts up past FFFFh, and down past 0. -/
theorem test_witness_timer_counts :
    (∃ s : State, s = { w0 with gpt := { w0.gpt with t3 := 0xFFFF } } ∧ s.gpt.t3 + 1 = 0
      ∧ (bitOf s.gpt.t3con 7 != (bitOf s.gpt.t3con 8 && pinT3eud s)) = false)
    ∧ ∃ s : State, s = { w0 with gpt := { w0.gpt with t3con := 0x0080 } } ∧ s.gpt.t3 - 1 = 0xFFFF
      ∧ (bitOf s.gpt.t3con 7 != (bitOf s.gpt.t3con 8 && pinT3eud s)) = true :=
  ⟨⟨_, rfl, by decide⟩, ⟨_, rfl, by decide⟩⟩

/-- T3 has been written; the last clock of the step, and one before it. -/
def w9 : State := { w0 with marks := { w0.marks with timerWrite := some ⟨.t3, 0x0005⟩ } }

theorem test_witness_timer_write :
    esfrMode w0.ext = false ∧ w9.marks.timerWrite = some ⟨.t3, 0x0005⟩ ∧ w9.clocks = 0
    ∧ ({ w9 with clocks := 1 } : State).clocks ≠ 0 := by decide

/-- A step from a state with the invariant. -/
theorem test_witness_invariant : Inv w3 ∧ ends (step w3) (fun t => decide (t.cpu.ip = 2)) = true := by
  refine ⟨⟨by decide, by unfold memoryInRam; decide, by unfold Cpu.Tied; decide, by unfold Cpu.Tied; decide, by decide, ?_⟩,
    by decide⟩
  intro n h
  have running : w3.sys.power = .running := by decide
  simp [running] at h

/-! ## The hardware between instructions -/

theorem test_interrupt_entry :
    ends (step w4) (fun t => decide (t.cpu.ip = BitVec.ofNat 16 (4 * nodeTrap .cc29) ∧ t.cpu.psw = 0x5800 ∧ t.cpu.sp = 0xFBFA
      ∧ Memory.readWord t.mem 0xFBFE = 0x0800 ∧ t.icOf .cc29 = 0x54 ∧ t.icOf .t3 = 0xD0)) = true := by decide

/-- COUNT = 1: the request flag stays (R360). -/
theorem test_pec_transfer :
    ends (step w5) (fun t => decide (Memory.readWord t.mem 0xFA20 = 0xBEEF ∧ Memory.readWord t.mem 0xFCE6 = 0xFA22
      ∧ t.pecc[(1 : Fin 8)] = 0x0200 ∧ t.icOf .cc29 = 0xF9 ∧ t.cpu = w5.cpu)) = true := by decide

theorem test_stack_overflow_trap :
    ends (step { w0 with cpu := { w0.cpu with tfr := 0x4000, ip := 0x0106 } }) (fun t => decide (t.cpu.ip = 0x0010
      ∧ t.cpu.psw = 0xF000 ∧ Memory.readWord t.mem 0xFBFA = 0x0106 ∧ t.sys.inA = true ∧ t.cpu.tfr = 0x4000)) = true := by decide

set_option maxRecDepth 8000 in
/-- A falling edge on NMI sets TFR.NMI at the next clock (R382). -/
theorem test_nmi_edge :
    ends (step { w0 with pins := { w0.pins with nmi := false }, clocks := 1 })
      (fun t => decide (t.cpu.tfr = 0x8000)) = true := by decide

theorem test_timer_overflow :
    (countT3 { w0 with gpt := { w0.gpt with t3 := 0xFFFF } }).1.gpt.t3con = 0x0400
    ∧ icRequest ((countT3 { w0 with gpt := { w0.gpt with t3 := 0xFFFF } }).1.icOf .t3) = true := by decide

set_option maxRecDepth 8000 in
theorem test_watchdog_overflow :
    ends (step w6) (fun t => decide (t.sys.power = .inReset .watchdog ∧ t.wdt.wdtcon = 0x0002)) = true := by decide

/-- MUL and POP after a write of SP stop by name (U12, U34). -/
theorem test_refusals :
    refuses (run 16 0x010B (setCpu w0 { w0.cpu with mdc := 1 })) .mdcNotInitialised = true
    ∧ refuses (run 16 0xF1FC { w1 with marks := { w1.marks with spWritten := true } }) .popAfterSpWrite = true := by decide

/-- A bit instruction on T3CON does not disturb the running timer's prescaler (R524, R53). -/
theorem test_timer_keeps_phase :
    ends (run 16 0xA1AF { w0 with gpt := { w0.gpt with t3con := 0x0040, psc3 := some 5 } })
      (fun t => decide (t.gpt.t3con = 0x0440 ∧ t.gpt.psc3 = some 5)) = true := by decide

/-- An undefined opcode in the last word of the IRAM: only its first word is fetched (R385). -/
theorem test_undefined_opcode_alone :
    ends (step (withWord 0xFDFE 0x00C7 (withIp 0xFDFE w0)))
      (fun t => decide (t.cpu.tfr = 0x0080 ∧ t.cpu.ip = 0xFDFE)) = true := by decide

/-- Address lines that are not driven do not count (R681): at reset 18 lines are. -/
theorem test_board_sees_driven_lines :
    cellOf w0 0x043000 = cellOf w0 0x003000 ∧ cellOf w0 0x013000 ≠ cellOf w0 0x003000 := by decide

/-- A read of a device of the board takes its next answer (R88, R106). -/
theorem test_device_answers :
    ends (run 16 0x13A8 { withIp 0xF700 w0 with
        answers := [0xBEEF, 1], board := { w0.board with regions := [⟨none, 0x3000, 2, .device⟩] } })
      (fun t => decide (t.gprWord 1 = 0xBEEF)) = true := by decide

/-- A write to a ROM of the board has no effect (R88). -/
theorem test_board_rom :
    ends (run 16 0x03B8 { w0 with board := { w0.board with regions := [⟨none, 0x3000, 2, .rom⟩] } })
      (fun t => decide (Memory.readWord t.mem 0x1003000 = Memory.readWord w0.mem 0x1003000)) = true := by decide

/-- A fetch that waits for READY hangs the CPU, IP stays; NMI does not wake it (R486). -/
theorem test_ready_hangs :
    ends (run 16 0x1200 { w0 with bus := { w0.bus with buscon0 := 0x1680 }, prev := { w0.prev with
        bus := { w0.bus with buscon0 := 0x1680 } }, pins := { w0.pins with ready := true } })
      (fun t => decide (t.sys.stall = .instr ∧ t.cpu.ip = 0)) = true
    ∧ ends (cpuStep { w0 with sys := { w0.sys with stall := .instr }, cpu := { w0.cpu with tfr := 0x8000 } })
      (fun t => decide (t.cpu.csp = 0 ∧ t.cpu.sp = 0xFC00)) = true := by decide

/-- RSTOUT is low until EINIT (R673). -/
theorem test_rstout :
    rstoutLevel w0 = false ∧ ends (run 32 0xB5B54AB5 w0) (fun t => rstoutLevel t) = true := by decide

/-- In Power Down mode a lost clock sets no request flag (R702). -/
theorem test_power_down_quiet :
    clockFails { w0 with sys := { w0.sys with power := .powerDown }, board := { w0.board with device := .c163 } }
      = { w0 with sys := { w0.sys with power := .powerDown }, board := { w0.board with device := .c163 } } := by decide

/-- A word written through an 8-bit bus reaches the board as two byte cycles, the low byte first (R102, R480); its last byte
stays on P0L until the next cycle, A15 to A8 on P0H (R472, R482), but P0L floats in Idle mode (R703). -/
theorem test_board_sees_both_bytes :
    ends (run 16 0x13B8 { withIp 0xF700 w0 with bus := { w0.bus with buscon0 := 0x0640 }, prev := { w0.prev with
        bus := { w0.bus with buscon0 := 0x0640 } }, pins := { w0.pins with p0l := 0x55 } })
      (fun t => decide (t.ebc.stepCycles.map (fun c => (c.addr, c.write)) = [(0x3000, some 0x0000), (0x3001, some 0x8080)]
        ∧ levelP0L t = 0x80 ∧ levelP0H t = 0x30
        ∧ levelP0L { t with sys := { t.sys with power := .idle } } = 0x55)) = true := by decide

/-- Words behind the last one of the ROM area are read ahead from the external bus, those of the IRAM are not (R90). -/
theorem test_words_ahead :
    wordsAhead w0 2 = [2, 4] ∧ wordsAhead (withIp 0xF700 w0) 2 = []
    ∧ wordsAhead { withIp 0x7FFC w0 with prev := { w0.prev with cpu := { w0.prev.cpu with syscon := 0x0400 } } } 4
      = [0x8000, 0x8002] := by decide

/-- A pushed return address breaks a cached jump target (R110, log entry 45). -/
theorem test_trap_breaks_cached_target :
    ends (step { w0 with cpu := { w0.cpu with tfr := 0x4000, ip := 0x0106 }, hz := { w0.hz with cacheTargets := [0xFBFA] } })
      (fun t => t.hz.cacheBroken) = true := by decide

/-- ASC0's outputs are high while no character is transferred (R438); the receiver follows its input while S0R = 0 (R599). -/
theorem test_asc_idle_lines :
    txdLevel { w0 with asc := { w0.asc with s0con := 0x8000, txd := false } } = true
    ∧ rxdOutLevel { w0 with asc := { w0.asc with s0con := 0x8001, rxdOut := false, txBusy := true } } = true
    ∧ (clockAsc { w0 with pins := { w0.pins with p3 := 0 } }).asc.rxPrev = false := by decide

/-- The C163: 20 nodes (R3, R342) and the 25 registers of R57's table, or the 21 of each that R340 and R343 name. -/
theorem test_c163_nodes :
    (allNodes.filter (nodePresent { Board.initial with device := .c163 })).length = 20
    ∧ (allNodes.filter (nodeRegisterPresent { Board.initial with device := .c163 })).length = 25
    ∧ (allNodes.filter (nodePresent { Board.initial with device := .c163, absentNode := none })).length = 21
    ∧ (allNodes.filter (nodeRegisterPresent
        { Board.initial with device := .c163, absentNode := none, spareRegisters := false })).length = 21 := by decide

/-- On the C163 XP0IC keeps what is written to it, as R57's table has it, and its request is never a candidate (R343). -/
theorem test_c163_spare_register :
    (match writeReg 0xC3 0x00D4 { w0 with ext := ⟨1, true, .none⟩, board := { w0.board with device := .c163 } } with
      | .ok (_, t) => t.icOf .xp0 == 0xD4 && !isCandidate t .xp0
      | .error _ => false) = true := by decide

/-- A timer may hold a reserved code while it stands still (R526, R530); running with it stops the model (U22). -/
theorem test_reserved_code_of_stopped_timer :
    clockRefusal { w0 with gpt := { w0.gpt with t3con := 0x0020, t6con := 0x000C, t2con := 0x0030 } } = none
    ∧ clockRefusal { w0 with gpt := { w0.gpt with t3con := 0x0060 } } = some .reservedTimerMode := by decide

/-- RETI to PSW = 0800h with CC29 requesting on level 5: the boundary after it accepts the request (R305), or holds it off for
one instruction (R372), as the board says (log entry 65). -/
theorem test_request_after_reti :
    (∀ b ∈ [false, true],
      ends (run 16 0x88FB (withWord 0xFBFE 0x0800 (withWord 0xFBFA 0x0502 (withSp 0xFBFA
          { w0.setIc .cc29 0xD4 with board := { w0.board with oneAfterReti := b } }))))
        (fun t => acceptedRequest t == (if b then none else some .cc29)) = true) := by decide

/-- IDLE, fetched from the external bus, leaves no word that could be read ahead in Idle mode (R700). -/
theorem test_idle_ends_prefetch :
    ends (run 32 0x87877887 w0) (fun t => decide (t.sys.power = .idle ∧ t.ebc.ahead = [])) = true := by decide

/-- A chip with this word at 0 of its ROM, mapped to segment 0; it runs from the IRAM. -/
def w8 (l h : Byte) : State :=
  let s := setCpu w0 { w0.cpu with ip := 0xF700, syscon := 0x0400 }
  { s with board := { s.board with rom := some [l, h] } }

/-- MOV SYSCON,0 with its operand in the ROM stops where it changes the mapping, not where it keeps it (R717, U10). -/
theorem test_remap_by_rom_operand :
    refuses (run 32 0x000089F2 (w8 0x00 0x00)) .romRemapped = true
    ∧ ends (run 32 0x000089F2 (w8 0x01 0x04)) (fun t => decide (t.cpu.syscon = 0x0401)) = true := by decide

/-- The same of a PEC transfer from the ROM to SYSCON. -/
theorem test_remap_by_pec :
    refuses (runPec .cc29 (withWord 0xFCE6 0xFF12 { requesting 0xF9 (w8 0x00 0x00) with pecc := w0.pecc.set 1 0x0001 }))
      .romRemapped = true := by decide

/-- With an image of 48 KByte a remapping of the ROM concerns 01'8000h to 01'BFFFh, and external addresses behind it not (R86,
R717). -/
theorem test_remap_ends_with_image (s : State) (h : romSize s = 0xC000) :
    inRemapped s ⟨false, false, true⟩ 0x1BFFF = true ∧ inRemapped s ⟨false, false, true⟩ 0x1C000 = false := by
  simp [inRemapped, h]

/-- In a reset PORT0 shows what the board pulls low, the other lines are high (R432). -/
theorem test_port0_in_reset :
    let s := { w0 with sys := { w0.sys with power := .inReset .hardware }, pins := { w0.pins with p0l := 0x00 },
                       board := { w0.board with resetPins := { w0.board.resetPins with port0 := 0xFE7F } } }
    levelP0L s = 0x7F ∧ levelP0H s = 0xFE := by decide

/-- HLDA and BREQ: port lines in Idle mode without an external bus, arbitration pins with one (R703). -/
theorem test_idle_arbitration_pins :
    let s := { w0 with sys := { w0.sys with power := .idle }, ebc := { w0.ebc with hldenOnce := true } }
    p6Auto s &&& 0x00C0 = 0x00C0
    ∧ p6Auto { s with prev := { s.prev with bus := { s.prev.bus with buscon0 := 0 } } } &&& 0x00C0 = 0 := by decide

/-- BUSCON0 after a reset with 8-bit demultiplexed and 16-bit multiplexed bus; the minimum of both (R485, R730). -/
theorem test_bus_cycle_clocks :
    busCycleClocks 0x0600 false = 19 ∧ busCycleClocks 0x06C0 false = 20 ∧ busCycleClocks 0x06C0 true = 21
    ∧ busCycleClocks 0x04AF false = 2 ∧ busCycleClocks 0x04EF false = 3 ∧ busCycleClocks 0x14AA false = 7 := by decide

/-- A write operation does not count as a completed read, whatever SSPRW is at its end (R654). -/
theorem test_ssp_write_is_no_read :
    (sspPhaseEnd { w0 with ssp := { w0.ssp with con0 := 0x8080 } }
      { out := [], toRead := 0, shift := 0, clocks := 1, lead := false, tail := true, isRead := false } 2).ssp.readDone = false := by
  decide

/-- With SGTDIS = 1 and CSP = 1 the vector of T3 is fetched at 01'008Ch (R366, vector IN2) or at 00'008Ch (R28), as the board
says (log entry 42). -/
theorem test_vector_without_segmentation :
    (∀ b ∈ [false, true],
      codeAddr { unsegmented (setCpu w0 { w0.cpu with csp := 1 }) with board := { w0.board with flatCodeInCsp := b } } 0x008C
        = if b then 0x01008C else 0x00008C) := by decide

/-- With SSCEN = 0 an enabled error flag of the SSC still requests, and a phase check under way ends (R627, log entry 33). -/
theorem test_ssc_errors_while_disabled :
    let t := clockSsc { w0 with ssc := { w0.ssc with ctl := 0x0100, stat := 0x0100, edgeAge := some 0 } }
    icRequest (t.icOf .ssce) = true ∧ t.ssc.edgeAge = none := by decide

/-- MOV T3,#1234h with a count of T3 = FFFFh due in its first clock: T3 keeps what was written, and the wrap sets T3IR (R522, log
entry 66); the next count after the step acts on it. -/
theorem test_timer_write_priority :
    ends (exec (.movRegData16 0x21 0x1234) { w0 with gpt := { w0.gpt with t3 := 0xFFFF, t3con := 0x0040, psc3 := some 1 } })
      (fun t =>
        let u := clockTimers { t with clocks := 1 }
        let v := clockTimers { u with clocks := 0 }
        decide (u.gpt.t3 = 0x1234 ∧ icRequest (u.icOf .t3) = true ∧ u.marks.timerWrite = some ⟨.t3, 0⟩
          ∧ v.gpt.t3 = 0x1234 ∧ v.marks.timerWrite = none
          ∧ (clockTimers { v with gpt := { v.gpt with psc3 := some 1 } }).gpt.t3 = 0x1235)) = true := by decide

/-- The same of a reload of T3 from T2 by T2's input in the last clock: T3 keeps what was written (R522, R534). -/
theorem test_timer_write_against_reload :
    let t := (w0.writeTimer .t3 0x1234)
    let u := clockTimers { t with gpt := { t.gpt with t2 := 0x7777, t2con := 0x0023, sample1 := 1, t2in := false } }
    u.gpt.t3 = 0x1234 ∧ icRequest (u.icOf .t2) = true := by decide

/-- JMPA cc_UC,0FA20h in segment 1 right after an instruction that set SGTDIS: its target is fetched at 00'FA20h in the IRAM, and
that cell is the cached target (R289, R717), now and after the next instruction; a store there breaks it (R110). -/
theorem test_cache_jump_target :
    ends (run 32 0xFA2000EA (let s := setCpu w0 { w0.cpu with csp := 1 }
      { s with cpu := { s.cpu with syscon := s.cpu.syscon ||| 0x0800 } }))
      (fun t => decide (fetchAddr t = 0x00FA20 ∧ cachedTargets t = [0xFA20] ∧ hitsCachedTarget t [0xFA20] = true)
        && ends (exec .nop t) (fun u => decide (u.hz.cacheTargets = [0xFA20] ∧ u.marks.cacheJump = false))) = true := by
  decide

/-- A PEC transfer between a cache jump and the fetch of its target leaves the target to be recorded; a byte that it stores there
breaks it (R110). -/
theorem test_pec_after_cache_jump :
    ends (runPec .cc29 { w5 with cpu := { w5.cpu with ip := 0xFA20 }, marks := { w5.marks with cacheJump := true } })
      (fun t => t.marks.cacheJump && t.hz.cacheBroken && decide (cachedTargets t = [0xFA20])) = true := by decide

theorem test_reset_pc : State.reset.cpu.ip = 0 ∧ State.reset.cpu.csp = 0 ∧ State.reset.cpu.sp = 0xFC00 := by decide

end Sys2Proof.Tests
end

