-- ==== Sys2Proof/Proofs/ResetState.lean ====
section
/-! PROOFS. The state right after reset: its registers (O58) and the invariant (O59).
Spec: 10_state.md rules R42 to R46, R57, R60, R475, R683. -/

namespace Sys2Proof.Machine

/-- SYSCON may take any value whose reserved bits are 0. -/
theorem Cpu.Tied.withSyscon {c : Cpu} {v : Word} (h : c.Tied) (hv : v &&& 0x0078 = 0) :
    Cpu.Tied { c with syscon := v } := by
  obtain ⟨hcp, hsp, hov, hun, h0, h1, h2, h3, hcsp, hmdc, hpsw, -, htfr⟩ := h
  exact ⟨hcp, hsp, hov, hun, h0, h1, h2, h3, hcsp, hmdc, hpsw, hv, htfr⟩

theorem resetSyscon_reserved (p : ResetPins) : resetSyscon p &&& 0x0078 = 0 := by
  unfold resetSyscon
  cases p.ea <;> cases p.port0.getLsbD 7 <;> cases p.port0.getLsbD 8 <;> decide

theorem Cpu.tied_reset : Cpu.reset.Tied := by
  unfold Cpu.Tied
  decide

theorem Cpu.tied_resetWith (p : ResetPins) : (Cpu.resetWith p).Tied :=
  Cpu.tied_reset.withSyscon (resetSyscon_reserved p)

/-- Settles O59: memory lists nothing, and the CPU's registers are those of `Cpu.resetWith`. -/
theorem invAtReset : Obligations.InvAtReset := by
  have memory : Memory.wf State.reset.mem := ⟨.nil, by simp [State.reset]⟩
  refine ⟨memory, ?_, Cpu.tied_resetWith _, Cpu.tied_resetWith _, Nat.zero_le _, ?_⟩
  · intro c hc
    simp [State.reset] at hc
  · intro n hn
    simp [State.reset, Sys.reset] at hn

/-- RP0H shows the high byte of the pins of PORT0, with zeros above it. -/
theorem resetRp0h_bytes (p : ResetPins) : resetRp0h p = 0x00#8 ++ p.port0.extractLsb' 8 8 := by
  unfold resetRp0h
  ext i hi
  simp
  grind

/-- What BUSCON0 and SYSCON take from the reset pins, without and with EA. -/
theorem registers_at_reset_pins (p : ResetPins) :
    (p.ea = false → (Bus.resetWith p).buscon0 = 0x0600 ||| (p.port0 &&& 0x00C0)
      ∧ (Cpu.resetWith p).syscon = (if bitOf p.port0 7 then 0 else 0x0200) ||| (if bitOf p.port0 8 then 0 else 0x0080))
    ∧ (p.ea = true → (Bus.resetWith p).buscon0 = 0
      ∧ (Cpu.resetWith p).syscon = 0x0400 ||| (if bitOf p.port0 8 then 0 else 0x0080)) := by
  constructor
  · intro without
    simp [Bus.resetWith, Cpu.resetWith, resetBuscon0, resetSyscon, without, bitOf]
  · intro within
    simp [Bus.resetWith, Cpu.resetWith, resetBuscon0, resetSyscon, within, bitOf]

theorem icOf_reset (n : IrqNode) : State.reset.icOf n = 0 := by
  cases n <;> rfl

/-- Settles O58: the state of reset is written out in the model, and each register is read off it. -/
theorem resetValues : Obligations.ResetValues := by
  refine ⟨?_, fun p => ⟨resetRp0h_bytes p, registers_at_reset_pins p⟩⟩
  rintro s rfl
  refine ⟨rfl, rfl, rfl, rfl, rfl, icOf_reset, by decide, ?_⟩
  repeat' constructor

end Sys2Proof.Machine
end

