-- ==== Sys2Proof/Proofs/InvariantClocks.lean ====
section
/-! PROOFS. The clocks of the timers, serial units and external inputs keep the invariant: they change registers of their own
and request flags, of which `Inv` does not speak. -/

namespace Sys2Proof.Machine

variable {s : State}

/-- `Inv` speaks of memory, the board, the CPU's registers, the extension sequence and the power state only. -/
theorem inv_mk (s : State) (bus ebc ports pins gpt wdt asc ssc ssp ic pecc) (sys : Sys)
    (marks hz clocks agenda answers gaps free) (power : sys.power = s.sys.power) :
    Inv ⟨s.cpu, bus, ebc, ports, pins, gpt, wdt, asc, ssc, ssp, ic, pecc, s.ext, sys, s.prev, marks, hz, s.board, s.mem,
      clocks, agenda, answers, gaps, free⟩ ↔ Inv s := by
  simp [Inv, power]

/-! ## Requests and free values -/

@[simp] theorem inv_setIc (n : IrqNode) (v : Byte) : Inv (s.setIc n v) ↔ Inv s := Iff.rfl

@[simp] theorem inv_clearRequest (n : IrqNode) : Inv (s.clearRequest n) ↔ Inv s := Iff.rfl

@[simp] theorem inv_advanceFree (n : Nat) : Inv (s.advanceFree n) ↔ Inv s := Iff.rfl

@[simp] theorem inv_request (n : IrqNode) : Inv (s.request n) ↔ Inv s := by
  simp [State.request, apply_ite Inv]

@[simp] theorem inv_requestIf (b : Bool) (n : IrqNode) : Inv (s.requestIf b n) ↔ Inv s := by
  simp [State.requestIf, apply_ite Inv]

/-! ## The timer units -/

@[simp] theorem inv_countT3 : Inv (countT3 s).1 ↔ Inv s := by
  simp [countT3, inv_mk]

@[simp] theorem inv_countT6 : Inv (countT6 s).1 ↔ Inv s := by
  simp [countT6, inv_mk]

@[simp] theorem inv_stepT2 (tick sample old new : Bool) (sig : ToggleSignal) (v : Word) :
    Inv (stepT2 s tick sample old new sig v) ↔ Inv s := by
  simp [stepT2, apply_ite Inv, inv_mk]

@[simp] theorem inv_stepT4 (tick sample old new : Bool) (sig : ToggleSignal) (v : Word) :
    Inv (stepT4 s tick sample old new sig v) ↔ Inv s := by
  simp [stepT4, apply_ite Inv, inv_mk]

@[simp] theorem inv_stepT5 (tick sample old new : Bool) (sig : ToggleSignal) :
    Inv (stepT5 s tick sample old new sig) ↔ Inv s := by
  simp [stepT5, apply_ite Inv, inv_mk]

@[simp] theorem inv_captureT5 : Inv (captureT5 s) ↔ Inv s := by
  simp [captureT5, inv_mk]

@[simp] theorem inv_clockGpt1 : Inv (clockGpt1 s) ↔ Inv s := by
  simp [clockGpt1, apply_ite Inv, apply_ite Prod.fst, inv_mk]

@[simp] theorem inv_clockGpt2 : Inv (clockGpt2 s) ↔ Inv s := by
  simp [clockGpt2, apply_ite Inv, apply_ite Prod.fst, inv_mk]

@[simp] theorem inv_clockTimers : Inv (clockTimers s) ↔ Inv s := by
  unfold clockTimers
  split <;> simp [inv_mk]

@[simp] theorem inv_clockWdt : Inv (clockWdt s).1 ↔ Inv s := by
  simp [clockWdt, inv_mk]

/-! ## ASC0 -/

@[simp] theorem inv_ascReceive (d : Word) (b : Bool) : Inv (ascReceive d b s) ↔ Inv s := by
  simp [ascReceive, apply_ite Inv, inv_mk]

@[simp] theorem inv_ascLoad : Inv (ascLoad s) ↔ Inv s := by
  simp [ascLoad, inv_mk]

@[simp] theorem inv_ascStart : Inv (ascStart s) ↔ Inv s := by
  simp [ascStart, apply_ite Inv, inv_mk]

@[simp] theorem inv_ascMidBit : Inv (ascMidBit s) ↔ Inv s := by
  simp [ascMidBit, apply_ite Inv, inv_mk]

@[simp] theorem inv_ascSyncBoundary : Inv (ascSyncBoundary s) ↔ Inv s := by
  unfold ascSyncBoundary
  split
  · simp [apply_ite Inv, inv_mk]
  · split
    · split <;> simp [inv_mk]
    · rfl

@[simp] theorem inv_ascDriveNext : Inv (ascDriveNext s) ↔ Inv s := by
  unfold ascDriveNext
  split <;> simp [inv_mk]

@[simp] theorem inv_ascAsyncBoundary : Inv (ascAsyncBoundary s) ↔ Inv s := by
  simp [ascAsyncBoundary, apply_ite Inv, inv_mk]

@[simp] theorem inv_ascBitDecided (f : AscFrame) : Inv (ascBitDecided f s) ↔ Inv s := by
  simp [ascBitDecided, apply_ite Inv, inv_mk]

@[simp] theorem inv_ascSample : Inv (ascSample s) ↔ Inv s := by
  unfold ascSample
  dsimp only
  split <;> simp [apply_ite Inv, inv_mk]

@[simp] theorem inv_ascReceiver : Inv (ascReceiver s) ↔ Inv s := by
  simp [ascReceiver, apply_ite Inv, inv_mk]

@[simp] theorem inv_ascPulse : Inv (ascPulse s) ↔ Inv s := by
  simp [ascPulse, apply_ite Inv, inv_mk]

@[simp] theorem inv_ascFollow : Inv (ascFollow s) ↔ Inv s := by
  simp [ascFollow, apply_ite Inv, inv_mk]

@[simp] theorem inv_clockAsc : Inv (clockAsc s) ↔ Inv s := by
  simp [clockAsc, apply_ite Inv, inv_mk]

/-! ## SSC -/

@[simp] theorem inv_sscErrorIf (b : Bool) (flag : Nat) : Inv (sscErrorIf b flag s) ↔ Inv s := by
  simp [sscErrorIf, apply_ite Inv, inv_mk]

@[simp] theorem inv_sscLoad : Inv (sscLoad s) ↔ Inv s := by
  simp [sscLoad, inv_mk]

@[simp] theorem inv_sscLatch (b : Bool) : Inv (sscLatch s b) ↔ Inv s := by
  simp [sscLatch, inv_mk]

@[simp] theorem inv_sscComplete : Inv (sscComplete s) ↔ Inv s := by
  simp [sscComplete, inv_mk]

@[simp] theorem inv_sscBitStart : Inv (sscBitStart s) ↔ Inv s := by
  simp [sscBitStart, inv_mk]

@[simp] theorem inv_sscMasterBoundary : Inv (sscMasterBoundary s) ↔ Inv s := by
  simp [sscMasterBoundary, apply_ite Inv, inv_mk]

@[simp] theorem inv_sscMasterMid : Inv (sscMasterMid s) ↔ Inv s := by
  simp [sscMasterMid, apply_ite Inv, inv_mk]

@[simp] theorem inv_sscCount : Inv (sscCount s) ↔ Inv s := by
  simp [sscCount, apply_ite Inv, inv_mk]

@[simp] theorem inv_clockSscMaster : Inv (clockSscMaster s) ↔ Inv s := by
  simp [clockSscMaster, apply_ite Inv]

@[simp] theorem inv_sscAutoReset : Inv (sscAutoReset s) ↔ Inv s := by
  simp [sscAutoReset, inv_mk]

@[simp] theorem inv_sscStale : Inv (sscStale s) ↔ Inv s := by
  simp [sscStale, apply_ite Inv, inv_mk]

@[simp] theorem inv_sscSlaveLeading (b : Bool) : Inv (sscSlaveLeading s b) ↔ Inv s := by
  simp [sscSlaveLeading, apply_ite Inv, inv_mk]

@[simp] theorem inv_sscSlaveTrailing (b : Bool) : Inv (sscSlaveTrailing s b) ↔ Inv s := by
  simp [sscSlaveTrailing, apply_ite Inv, inv_mk]

@[simp] theorem inv_clockSscSlave : Inv (clockSscSlave s) ↔ Inv s := by
  simp [clockSscSlave, apply_ite Inv, inv_mk]

@[simp] theorem inv_sscPhaseCheck (b : Bool) : Inv (sscPhaseCheck s b) ↔ Inv s := by
  unfold sscPhaseCheck
  split <;> simp [inv_mk]

@[simp] theorem inv_sscStopped : Inv (sscStopped s) ↔ Inv s := by
  simp [sscStopped, inv_mk]

@[simp] theorem inv_sscRunning : Inv (sscRunning s) ↔ Inv s := by
  simp [sscRunning, apply_ite Inv]

@[simp] theorem inv_clockSsc : Inv (clockSsc s) ↔ Inv s := by
  simp [clockSsc, apply_ite Inv, inv_mk]

/-! ## SSP -/

@[simp] theorem inv_sspStart : Inv (sspStart s) ↔ Inv s := by
  simp [sspStart, inv_mk]

@[simp] theorem inv_sspContinue : Inv (sspContinue s) ↔ Inv s := by
  simp [sspContinue, inv_mk]

@[simp] theorem inv_sspReadEffect : Inv (sspReadEffect s) ↔ Inv s := by
  simp [sspReadEffect, apply_ite Inv]

@[simp] theorem inv_sspEnd (b : Bool) : Inv (sspEnd s b) ↔ Inv s := by
  simp [sspEnd, inv_mk]

@[simp] theorem inv_sspPhaseEnd (t : SspTransfer) (n : Nat) : Inv (sspPhaseEnd s t n) ↔ Inv s := by
  unfold sspPhaseEnd
  dsimp only
  repeat' split
  all_goals simp [inv_mk]

@[simp] theorem inv_clockSsp : Inv (clockSsp s) ↔ Inv s := by
  unfold clockSsp
  split
  · split
    · simp [apply_ite Inv, inv_mk]
    · rfl
  · rfl

@[simp] theorem inv_writeSspMasked (offset : Nat) (mask v : Word) : Inv (writeSspMasked offset mask v s) ↔ Inv s := by
  unfold writeSspMasked
  split <;> simp [apply_ite Inv, inv_mk]

@[simp] theorem inv_writeSsp (offset : Nat) (wide : Bool) (v : Word) : Inv (writeSsp offset wide v s) ↔ Inv s := by
  simp [writeSsp, apply_ite Inv]

@[simp] theorem inv_touchSsp (offset : Nat) : Inv (touchSsp offset s) ↔ Inv s := by
  simp [touchSsp, apply_ite Inv]

/-! ## The external interrupt inputs -/

theorem inv_foldl {α : Type} (f : State → α → State) (hf : ∀ t a, Inv t → Inv (f t a)) (l : List α) (h : Inv s) :
    Inv (l.foldl f s) := by
  induction l generalizing s with
  | nil => exact h
  | cons a l ih => exact ih (hf s a h)

theorem Inv.clockExternalInputs (h : Inv s) : Inv (clockExternalInputs s) := by
  have folded := inv_foldl (clockExternalInput (levelP2 s)) (fun t x ht => (inv_requestIf _ _).2 ht)
    [0, 1, 2, 3, 4, 5, 6, 7] h
  exact folded

end Sys2Proof.Machine
end

