-- ==== Sys2Proof/Proofs/InvariantState.lean ====
section
/-! PROOFS. What the operations on registers and memory do to the invariant: the tied bits of each register of the CPU, and
stores inside the RAM areas. Spec: 10_state.md rules R27 to R50, 20_memory.md rules R83 to R86, R99, R381. -/

namespace Sys2Proof.Machine

/-! ## Masks -/

theorem and_and_of_disjoint (v : Word) {m k : Word} (h : m &&& k = 0) : v &&& m &&& k = 0 := by
  rw [BitVec.and_assoc, h]
  exact BitVec.and_zero

theorem or_and_word (v w k : Word) : (v ||| w) &&& k = (v &&& k) ||| (w &&& k) := by
  ext i hi
  simp [Bool.and_or_distrib_right]

theorem or_and_eq_zero {v w k : Word} (hv : v &&& k = 0) (hw : w &&& k = 0) : (v ||| w) &&& k = 0 := by
  rw [or_and_word, hv, hw]
  rfl

theorem and_and_eq_zero {v k : Word} (m : Word) (h : v &&& k = 0) : v &&& m &&& k = 0 := by
  rw [BitVec.and_assoc, BitVec.and_comm m, ← BitVec.and_assoc, h]
  exact BitVec.zero_and

theorem merge_and_eq_zero {mask old k : Word} (new : Word) (ho : old &&& k = 0) (hm : mask &&& k = 0) :
    merge mask old new &&& k = 0 :=
  or_and_eq_zero (and_and_eq_zero _ ho) (and_and_of_disjoint _ hm)

theorem tieStack_tied (v : Word) : tieStack v &&& 0xF001 = 0xF000 := by
  rw [tieStack, or_and_word, and_and_of_disjoint v (by decide)]
  decide

theorem tieCp_tied (v : Word) : tieCp v &&& 0xF001 = 0xF000 := by
  unfold tieCp
  split <;> (rw [or_and_word, and_and_of_disjoint v (by decide)]; decide)

theorem setWidth_byte_tied (b : Byte) : b.setWidth 16 &&& 0xFF00 = 0 := by
  have low : b.setWidth 16 = b.setWidth 16 &&& 0x00FF := by
    apply BitVec.eq_of_toNat_eq
    have := b.isLt
    rw [BitVec.toNat_and, BitVec.toNat_setWidth, show (0x00FF : Word).toNat = 2 ^ 8 - 1 from rfl,
      Nat.and_two_pow_sub_one_eq_mod]
    omega
  rw [low]
  exact and_and_of_disjoint _ (by decide)

/-! ## The tied registers -/

/-- `Cpu.Tied` with its parts named, so that a write of one register replaces one part. -/
structure Cpu.TiedBits (c : Cpu) : Prop where
  cp : c.cp &&& 0xF001 = 0xF000
  sp : c.sp &&& 0xF001 = 0xF000
  stkov : c.stkov &&& 0xF001 = 0xF000
  stkun : c.stkun &&& 0xF001 = 0xF000
  dpp0 : c.dpp0 &&& 0xFC00 = 0
  dpp1 : c.dpp1 &&& 0xFC00 = 0
  dpp2 : c.dpp2 &&& 0xFC00 = 0
  dpp3 : c.dpp3 &&& 0xFC00 = 0
  csp : c.csp &&& 0xFF00 = 0
  mdc : c.mdc &&& 0xFF00 = 0
  psw : c.psw &&& 0x0380 = 0
  syscon : c.syscon &&& 0x0078 = 0
  tfr : c.tfr &&& 0x1F70 = 0

theorem Cpu.tied_iff {c : Cpu} : c.Tied ↔ c.TiedBits := by
  constructor
  · rintro ⟨hcp, hsp, hov, hun, h0, h1, h2, h3, hcsp, hmdc, hpsw, hsys, htfr⟩
    exact ⟨hcp, hsp, hov, hun, h0, h1, h2, h3, hcsp, hmdc, hpsw, hsys, htfr⟩
  · rintro ⟨hcp, hsp, hov, hun, h0, h1, h2, h3, hcsp, hmdc, hpsw, hsys, htfr⟩
    exact ⟨hcp, hsp, hov, hun, h0, h1, h2, h3, hcsp, hmdc, hpsw, hsys, htfr⟩

variable {s : State}

/-- A state whose CPU alone differs, with tied registers. -/
theorem Inv.withCpu (h : Inv s) {c : Cpu} (hc : c.TiedBits) : Inv { s with cpu := c } := by
  obtain ⟨hwf, hram, -, hprev, hext, hload⟩ := h
  exact ⟨hwf, hram, Cpu.tied_iff.2 hc, hprev, hext, hload⟩

theorem Inv.tiedBits (h : Inv s) : s.cpu.TiedBits := by
  obtain ⟨-, -, hc, -⟩ := h
  exact Cpu.tied_iff.1 hc

theorem FlagUpdate.apply_reserved (f : FlagUpdate) {p : Word} (h : p &&& 0x0380 = 0) : f.apply p &&& 0x0380 = 0 := by
  have status := congrArg (· &&& (0x0380 : Word)) (f.apply_status p)
  simp only [BitVec.and_assoc] at status
  exact status.trans h

theorem Inv.setFlags (h : Inv s) (f : FlagUpdate) : Inv (s.setFlags f) := by
  unfold State.setFlags
  split
  · exact h
  · exact h.withCpu { h.tiedBits with psw := f.apply_reserved h.tiedBits.psw }

theorem Inv.setPsw (h : Inv s) (v : Word) : Inv (s.setPsw v) :=
  h.withCpu { h.tiedBits with psw := and_and_of_disjoint v (by decide) }

theorem Inv.setMd (h : Inv s) (r : MdResult) : Inv (s.setMd r) :=
  Inv.setFlags (h.withCpu (c := { s.cpu with mdh := r.mdh, mdl := r.mdl, mdc := s.cpu.mdc ||| 0x0010 })
    { h.tiedBits with mdc := or_and_eq_zero h.tiedBits.mdc (by decide) }) _

theorem Inv.setMdInvalid (h : Inv s) : Inv s.setMdInvalid :=
  Inv.setMd (s := s.advanceFree 3) h _

/-- The bits of TFR that are flags (R381). -/
def trapFlags : List Nat := [0, 1, 2, 3, 7, 13, 14, 15]

theorem withBit_trapFlag {w : Word} (h : w &&& 0x1F70 = 0) {k : Nat} (hk : k ∈ trapFlags) :
    withBit w k true &&& 0x1F70 = 0 := by
  have flags : ∀ k ∈ trapFlags, (1#16 <<< k) &&& 0x1F70 = 0 := by decide
  exact or_and_eq_zero h (flags k hk)

theorem Inv.raise (h : Inv s) {k : Nat} (hk : k ∈ trapFlags) : Inv (s.raise k) :=
  h.withCpu { h.tiedBits with tfr := withBit_trapFlag h.tiedBits.tfr hk }

theorem Inv.raiseIf (h : Inv s) (b : Bool) {k : Nat} (hk : k ∈ trapFlags) : Inv (s.raiseIf b k) := by
  cases b
  · exact h
  · exact h.raise hk

theorem Inv.jumpTo (h : Inv s) (v : Word) : Inv (s.jumpTo v) := h.withCpu { h.tiedBits with }

theorem Inv.cacheJump (h : Inv s) (v : Word) : Inv (s.cacheJump v) := h.jumpTo v

theorem Inv.farJumpTo (h : Inv s) (g : Byte) (v : Word) : Inv (s.farJumpTo g v) :=
  h.withCpu { h.tiedBits with csp := setWidth_byte_tied g }

theorem Inv.writeSyscon (h : Inv s) (v : Word) : Inv (writeSyscon v s) := by
  unfold Machine.writeSyscon
  split
  · exact h
  · exact h.withCpu { h.tiedBits with syscon := and_and_of_disjoint v (by decide) }

/-- A write of an (E)SFR keeps the invariant: each register of the CPU takes the bits that it implements. -/
theorem Inv.writeSfr (h : Inv s) (r : Sfr) (v : Word) : Inv (writeSfr r v s) := by
  have tied := h.tiedBits
  cases r with
  | dpp0 => exact h.withCpu { tied with dpp0 := and_and_of_disjoint v (by decide) }
  | dpp1 => exact h.withCpu { tied with dpp1 := and_and_of_disjoint v (by decide) }
  | dpp2 => exact h.withCpu { tied with dpp2 := and_and_of_disjoint v (by decide) }
  | dpp3 => exact h.withCpu { tied with dpp3 := and_and_of_disjoint v (by decide) }
  | mdh => exact h.withCpu { tied with mdc := or_and_eq_zero tied.mdc (by decide) }
  | mdl => exact h.withCpu { tied with mdc := or_and_eq_zero tied.mdc (by decide) }
  | cp => exact h.withCpu { tied with cp := tieCp_tied v }
  | sp => exact h.withCpu { tied with sp := tieStack_tied v }
  | stkov => exact h.withCpu { tied with stkov := tieStack_tied v }
  | stkun => exact h.withCpu { tied with stkun := tieStack_tied v }
  | mdc => exact h.withCpu { tied with mdc := and_and_of_disjoint v (by decide) }
  | psw => exact h.setPsw v
  | syscon => exact h.writeSyscon v
  | tfr => exact h.withCpu { tied with tfr := and_and_of_disjoint v (by decide) }
  | s0tbuf =>
    simp only [Machine.writeSfr]
    split <;> exact h
  | s0bg =>
    simp only [Machine.writeSfr]
    split <;> exact h
  | _ => exact h

theorem Inv.sfrReadEffect (h : Inv s) (r : Sfr) : Inv (sfrReadEffect r s) := by
  unfold Machine.sfrReadEffect
  split
  · exact h.withCpu { h.tiedBits with mdc := and_and_eq_zero _ h.tiedBits.mdc }
  all_goals first | exact h | (split <;> exact h)

/-! ## Stores -/

/-- A byte of the RAM areas: the IRAM of this device, or the board's memory. -/
def ramCell (d : Device) (a : Nat) : Prop := iramBase d ≤ a ∧ a < 0xFE00 ∨ 2 ^ 24 ≤ a ∧ a < Memory.size

theorem ramCell_lt {d : Device} {a : Nat} (h : ramCell d a) : a < Memory.size := by
  unfold ramCell Memory.size at *
  omega

theorem ramCell_boardCell (d : Device) (bank : Fin 5) (a : PhysAddr) : ramCell d (Memory.boardCell bank a.toNat) := by
  have := a.isLt
  have := bank.isLt
  unfold ramCell Memory.boardCell Memory.size
  omega

theorem ramCell_of_inIram {d : Device} {a n : Nat} (h : inIram d a n = true) {k : Nat} (hk : k < n) : ramCell d (a + k) := by
  simp only [inIram, decide_eq_true_eq] at h
  exact .inl ⟨by omega, by omega⟩

theorem memoryInRam_write {d : Device} {m : List Host.Cell} (h : memoryInRam d m) {a : Nat} (ha : ramCell d a) (v : Byte) :
    memoryInRam d (Memory.write m a v) := by
  have erased : memoryInRam d (Memory.erase m a) := fun c hc => h c (Memory.mem_erase.1 hc).1
  unfold Memory.write
  split
  · exact erased
  · intro c hc
    rcases Memory.mem_insert.1 hc with rfl | hc
    · exact ha.imp id And.left
    · exact erased c hc

theorem Inv.withMem (h : Inv s) {a : Nat} (ha : ramCell s.board.device a) (v : Byte) :
    Inv { s with mem := Memory.write s.mem a v } := by
  obtain ⟨hwf, hram, rest⟩ := h
  exact ⟨Memory.write_wf v hwf (ramCell_lt ha), memoryInRam_write hram ha v, rest⟩

theorem Inv.storeByte (h : Inv s) {a : Nat} (ha : ramCell s.board.device a) (v : Byte) : Inv (s.storeByte a v) :=
  h.withMem ha v

theorem Inv.storeWord (h : Inv s) {a : Nat} (ha : ramCell s.board.device a) (hb : ramCell s.board.device (a + 1)) (v : Word) :
    Inv (s.storeWord a v) :=
  (h.withMem ha _).withMem hb _

theorem Inv.storeWordInIram (h : Inv s) {a : Nat} (ha : inIram s.board.device a 2 = true) (v : Word) : Inv (s.storeWord a v) :=
  h.storeWord (ramCell_of_inIram ha (k := 0) (by omega)) (ramCell_of_inIram ha (by omega)) v

/-! ## The stack -/

theorem inIram_of_stackRefusal {sp : Word} (h : stackRefusal s sp = none) :
    inIram s.board.device ((stackPhys s sp).getD 0) 2 = true := by
  unfold stackRefusal at h
  split at h
  · cases h
  · next a ha =>
    rw [ha]
    simpa using h

theorem Inv.pushed (h : Inv s) (ok : stackRefusal s (spDown s) = none) (v : Word) : Inv (s.pushed v) := by
  have moved : Inv { s with cpu := { s.cpu with sp := spDown s } } :=
    h.withCpu { h.tiedBits with sp := tieStack_tied _ }
  exact (moved.storeWordInIram (inIram_of_stackRefusal ok) v).raiseIf _ (by decide)

theorem Inv.popped (h : Inv s) : Inv s.popped :=
  (h.withCpu (c := { s.cpu with sp := spUp s }) { h.tiedBits with sp := tieStack_tied _ }).raiseIf _ (by decide)

/-! ## The frame of an instruction -/

theorem Inv.begin (h : Inv s) : Inv s.begin := h

theorem Ext.tick_count {e : Ext} (h : e.count ≤ 4) : e.tick.count ≤ 4 := by
  unfold Ext.tick
  split
  · exact Nat.zero_le _
  · exact (Nat.sub_le _ _).trans h

theorem Inv.settle (h : Inv s) : Inv s.settle := by
  obtain ⟨hwf, hram, hc, -, hext, hload⟩ := h
  exact ⟨hwf, hram, hc, hc, hext, hload⟩

theorem Inv.finish {t : State} (hs : Inv s) (ht : Inv t) (len : Nat) : Inv (finish len s t) := by
  obtain ⟨-, -, hc, -, hext, -⟩ := hs
  obtain ⟨hwf, hram, hc', -, hext', hload⟩ := ht
  refine ⟨hwf, hram, Cpu.tied_iff.2 { Cpu.tied_iff.1 hc' with }, hc, ?_, hload⟩
  simp only [Machine.finish]
  split
  · exact hext'
  · exact Ext.tick_count hext

theorem Inv.stalled (h : Inv s) (x : Stall) : Inv (s.stalled x) := h

end Sys2Proof.Machine
end

