-- ==== Sys2Proof/Proofs/InvariantOps.lean ====
section
/-! PROOFS. The operations of the instructions keep the invariant: a small logic over the monad `Op`, then every access to
memory, registers, bits and the stack. -/

namespace Sys2Proof.Machine

variable {α β : Type}

/-! ## The logic -/

/-- From a state with the invariant, the operation answers in such a state; and if it ends in a class B trap, the flag is
ILLBUS or ILLOPA. -/
def KeepsInvAt (x : Op α) (s : State) : Prop :=
  Inv s → (∀ a t, x s = .ok (a, t) → Inv t) ∧ ∀ k, x s = .error (.trap k) → k = 0 ∨ k = 2

/-- The same from every state. -/
def KeepsInv (x : Op α) : Prop := ∀ s, KeepsInvAt x s

theorem KeepsInvAt.bind {x : Op α} {f : α → Op β} {s : State} (hx : KeepsInvAt x s)
    (hf : ∀ a t, x s = .ok (a, t) → KeepsInvAt (f a) t) : KeepsInvAt (x >>= f) s := by
  intro hs
  obtain ⟨ok, trap⟩ := hx hs
  constructor
  · intro b u h
    obtain ⟨a, t, h1, h2⟩ := Op.bind_eq_ok.1 h
    exact (hf a t h1 (ok a t h1)).1 b u h2
  · intro k h
    rcases Op.bind_eq_error.1 h with h | ⟨a, t, h1, h2⟩
    · exact trap k h
    · exact (hf a t h1 (ok a t h1)).2 k h2

theorem KeepsInv.bind {x : Op α} {f : α → Op β} (hx : KeepsInv x) (hf : ∀ a, KeepsInv (f a)) : KeepsInv (x >>= f) :=
  fun s => (hx s).bind (fun a t _ => hf a t)

theorem keepsInvAt_ok {x : Op α} {s t : State} {a : α} (h : x s = .ok (a, t)) (ht : Inv s → Inv t) : KeepsInvAt x s := by
  intro hs
  constructor
  · intro b u hu
    rw [h, Except.ok.injEq, Prod.mk.injEq] at hu
    exact hu.2 ▸ ht hs
  · intro k hk
    rw [h] at hk
    cases hk

theorem keepsInvAt_error {x : Op α} {s : State} {e : Stop} (h : x s = .error e) (he : ∀ k, e = .trap k → k = 0 ∨ k = 2) :
    KeepsInvAt x s := by
  intro _
  constructor
  · intro b u hu
    rw [h] at hu
    cases hu
  · intro k hk
    rw [h, Except.error.injEq] at hk
    exact he k hk

theorem keepsInv_pure (a : α) : KeepsInv (pure a : Op α) := fun _ => keepsInvAt_ok rfl id

theorem keepsInv_look (f : State → α) : KeepsInv (look f) := fun _ => keepsInvAt_ok rfl id

theorem keepsInv_update {f : State → State} (h : ∀ s, Inv s → Inv (f s)) : KeepsInv (update f) :=
  fun s => keepsInvAt_ok rfl (h s)

theorem keepsInv_advanceFree (n : Nat) : KeepsInv (update (State.advanceFree · n)) := keepsInv_update fun _ hs => hs

theorem keepsInv_trap {k : Nat} (h : k = 0 ∨ k = 2) : KeepsInv (stop (.trap k) : Op α) :=
  fun _ => keepsInvAt_error rfl (fun j hj => by cases hj; exact h)

theorem keepsInv_refuse (r : Refusal) : KeepsInv (stop (.refused r) : Op α) :=
  fun _ => keepsInvAt_error rfl (fun j hj => by cases hj)

theorem keepsInv_refuseIf (b : State → Bool) (r : Refusal) : KeepsInv (refuseIf b r) := by
  intro s
  cases hb : b s
  · exact keepsInvAt_ok (by simp [refuseIf_apply, hb]; rfl) id
  · exact keepsInvAt_error (by simp [refuseIf_apply, hb]; rfl) (fun k hk => by cases hk)

theorem KeepsInv.ite {p : Prop} [Decidable p] {x y : Op α} (hx : KeepsInv x) (hy : KeepsInv y) :
    KeepsInv (if p then x else y) := by
  split
  · exact hx
  · exact hy

/-- A read of a value, then what depends on it. -/
theorem keepsInv_lookThen {f : State → β} {g : β → Op α} (h : ∀ b, KeepsInv (g b)) : KeepsInv (look f >>= g) :=
  (keepsInv_look f).bind h

/-! ## Other masters and bus cycles -/

theorem Inv.masterAccess {s : State} (h : Inv s) (m : MasterAccess) : Inv (masterAccess s m) := by
  cases m with
  | write bank a b => exact h.withMem (ramCell_boardCell _ _ _) b
  | sspRead offset wide => simpa [Machine.masterAccess, apply_ite Inv] using h
  | sspWrite offset wide v => simpa [Machine.masterAccess, apply_ite Inv] using h

theorem Inv.betweenCycles {s : State} (h : Inv s) : Inv s.betweenCycles := by
  unfold State.betweenCycles
  split
  · exact h
  · split
    · exact inv_foldl _ (fun _ m ht => ht.masterAccess m) _ h
    · exact h

theorem externalStop_trap {s : State} {a : PhysAddr} {k : Nat} (h : externalStop s a = some (.trap k)) : k = 0 := by
  unfold externalStop at h
  dsimp only at h
  grind

theorem keepsInv_busCycle (a : PhysAddr) (wide : Bool) (data : Option Word) : KeepsInv (busCycle a wide data) := by
  intro s
  cases h : externalStop s a with
  | some e =>
    refine keepsInvAt_error (e := e) (by simp [busCycle, h]) ?_
    rintro k rfl
    exact .inl (externalStop_trap h)
  | none => exact keepsInvAt_ok (a := ()) (busCycle_ok.2 ⟨h, rfl⟩) (fun hs => Inv.betweenCycles (s := s.prefetchTurn) hs)

theorem keepsInv_deviceAnswer : KeepsInv deviceAnswer := by
  intro s
  cases h : s.answers with
  | nil => exact keepsInvAt_ok (t := s.advanceFree 1) (a := s.freeWord) (by simp [deviceAnswer, h]) id
  | cons w rest => exact keepsInvAt_ok (t := { s with answers := rest }) (a := w) (by simp [deviceAnswer, h]) id

theorem keepsInv_readExternalByte (a : PhysAddr) : KeepsInv (readExternalByte a) := by
  refine (keepsInv_busCycle _ _ _).bind fun _ => keepsInv_lookThen fun kind => ?_
  cases kind with
  | device => exact keepsInv_deviceAnswer.bind fun _ => keepsInv_pure _
  | ram => exact keepsInv_look _
  | rom => exact keepsInv_look _

theorem keepsInv_readExternalWord (a : PhysAddr) : KeepsInv (readExternalWord a) := by
  refine keepsInv_lookThen fun split => KeepsInv.ite ?_ ?_
  · exact (keepsInv_readExternalByte _).bind fun _ => (keepsInv_readExternalByte _).bind fun _ => keepsInv_pure _
  · refine (keepsInv_busCycle _ _ _).bind fun _ => keepsInv_lookThen fun kind => ?_
    cases kind with
    | device => exact keepsInv_deviceAnswer
    | ram => exact keepsInv_look _
    | rom => exact keepsInv_look _

theorem ramCell_external (s : State) (a : PhysAddr) : ramCell s.board.device (externalCell s a) :=
  .inr ⟨externalCell_ge s a, externalCell_lt s a⟩

theorem keepsInv_writeExternalByte (a : PhysAddr) (v : Byte) : KeepsInv (writeExternalByte a v) := by
  refine (keepsInv_busCycle _ _ _).bind fun _ => keepsInv_lookThen fun kind => ?_
  cases kind with
  | ram => exact keepsInv_update fun s hs => hs.storeByte (ramCell_external s a) v
  | rom => exact keepsInv_pure _
  | device => exact keepsInv_pure _

theorem keepsInv_writeExternalWord {a : PhysAddr} (even : a.getLsbD 0 = false) (v : Word) :
    KeepsInv (writeExternalWord a v) := by
  refine keepsInv_lookThen fun split => KeepsInv.ite ?_ ?_
  · exact (keepsInv_writeExternalByte _ _).bind fun _ => keepsInv_writeExternalByte _ _
  · refine (keepsInv_busCycle _ _ _).bind fun _ => keepsInv_lookThen fun kind => ?_
    cases kind with
    | ram =>
      refine keepsInv_update fun s hs => hs.storeWord (ramCell_external s a) ?_ v
      rw [← externalCell_succ s even]
      exact ramCell_external s (a + 1)
    | rom => exact keepsInv_pure _
    | device => exact keepsInv_pure _

/-! ## Physical accesses -/

theorem keepsInv_readSfrWord (a : Nat) : KeepsInv (readSfrWord a) := by
  intro s
  cases h : sfrAt s.board a with
  | none => exact keepsInvAt_ok (readSfrWord_ok.2 (by rw [h]; exact ⟨rfl, rfl⟩)) id
  | some r => exact keepsInvAt_ok (readSfrWord_ok.2 (by rw [h]; exact ⟨rfl, rfl⟩)) (·.sfrReadEffect r)

theorem keepsInv_writeSfrWord (a : Nat) (v : Word) : KeepsInv (writeSfrWord a v) := by
  intro s
  cases h : sfrAt s.board a with
  | none => exact keepsInvAt_ok (writeSfrWord_ok.2 (by rw [h])) id
  | some r =>
    cases hr : sfrWriteRefusal r v s with
    | none => exact keepsInvAt_ok (writeSfrWord_ok.2 (by rw [h]; exact ⟨hr, rfl⟩)) (·.writeSfr r v)
    | some e => exact keepsInvAt_error (by simp [writeSfrWord, h, hr]; rfl) (fun k hk => by cases hk)

theorem Inv.xbusTrace {s : State} (h : Inv s) (a : PhysAddr) (wide : Bool) (w r : Option Word) :
    Inv (xbusTrace a wide w r s) := by
  unfold Machine.xbusTrace
  split <;> exact h

theorem Inv.romRead {s : State} (h : Inv s) (p : Prop) [Decidable p] :
    Inv (if p then s else s.advanceFree 1).romWasRead := by
  split <;> exact h

theorem Inv.sspRead {s : State} (h : Inv s) (p : Prop) [Decidable p] (o : Nat) (a : PhysAddr) (wide : Bool) (r : Option Word) :
    Inv (Machine.xbusTrace a wide none r (touchSsp o (if p then s.advanceFree 1 else s))) := by
  refine Inv.xbusTrace ?_ _ _ _ _
  rw [inv_touchSsp]
  split <;> exact h

theorem keepsInv_readPhysWord (a : PhysAddr) : KeepsInv (readPhysWord a) := by
  refine keepsInv_lookThen fun area => ?_
  cases area with
  | sfr w => exact keepsInv_readSfrWord w
  | iram => exact keepsInv_look _
  | reserved => exact keepsInv_lookThen fun _ => (keepsInv_advanceFree 1).bind fun _ => keepsInv_pure _
  | rom o => exact keepsInv_lookThen fun _ => (keepsInv_update fun _ hs => hs.romRead _).bind fun _ => keepsInv_pure _
  | ssp o => exact keepsInv_lookThen fun _ => (keepsInv_update fun _ hs => hs.sspRead _ _ _ _ _).bind fun _ => keepsInv_pure _
  | external => exact keepsInv_readExternalWord a

theorem keepsInv_readPhysByte (a : PhysAddr) : KeepsInv (readPhysByte a) := by
  refine keepsInv_lookThen fun area => ?_
  cases area with
  | sfr w => exact (keepsInv_readSfrWord w).bind fun _ => keepsInv_pure _
  | iram => exact keepsInv_look _
  | reserved => exact keepsInv_lookThen fun _ => (keepsInv_advanceFree 1).bind fun _ => keepsInv_pure _
  | rom o => exact keepsInv_lookThen fun _ => (keepsInv_update fun _ hs => hs.romRead _).bind fun _ => keepsInv_pure _
  | ssp o => exact keepsInv_lookThen fun _ => (keepsInv_update fun _ hs => hs.sspRead _ _ _ _ _).bind fun _ => keepsInv_pure _
  | external => exact keepsInv_readExternalByte a

/-- An address that decodes to the IRAM lies in it. -/
theorem ramCell_of_areaOf {s : State} {w : Word} {a : PhysAddr} (h : areaOf s w a = .iram) :
    ramCell s.board.device a.toNat := by
  unfold areaOf at h
  dsimp only at h
  split at h
  · split at h
    · cases h
    · split at h
      · exact .inl ⟨by assumption, by omega⟩
      · cases h
  · split at h
    · cases h
    · split at h <;> cases h

theorem keepsInv_writePhysWord {a : PhysAddr} (even : a.getLsbD 0 = false) (v : Word) : KeepsInv (writePhysWord a v) := by
  intro s
  refine KeepsInvAt.bind (keepsInv_look _ s) ?_
  intro area t ht
  simp only [look_apply, Except.ok.injEq, Prod.mk.injEq] at ht
  obtain ⟨rfl, rfl⟩ := ht
  split
  · exact keepsInv_writeSfrWord _ v s
  · next iram =>
    refine keepsInvAt_ok rfl fun hs => hs.storeWord (ramCell_of_areaOf iram) ?_ v
    rw [← toNat_succ_of_even even]
    exact ramCell_of_areaOf ((areaOf_succ s _ even).2 iram)
  · exact keepsInv_refuse _ s
  · exact keepsInv_refuse _ s
  · exact keepsInvAt_ok rfl fun hs => Inv.xbusTrace ((inv_writeSsp _ _ _).2 hs) _ _ _ _
  · exact keepsInv_writeExternalWord even v s

theorem keepsInv_writePhysByte (a : PhysAddr) (v : Byte) : KeepsInv (writePhysByte a v) := by
  intro s
  refine KeepsInvAt.bind (keepsInv_look _ s) ?_
  intro area t ht
  simp only [look_apply, Except.ok.injEq, Prod.mk.injEq] at ht
  obtain ⟨rfl, rfl⟩ := ht
  dsimp only
  split
  · exact keepsInv_writeSfrWord _ _ s
  · next iram => exact keepsInvAt_ok rfl fun hs => hs.storeByte (ramCell_of_areaOf iram) v
  · exact keepsInv_refuse _ s
  · exact keepsInv_refuse _ s
  · exact keepsInvAt_ok rfl fun hs => Inv.xbusTrace ((inv_writeSsp _ _ _).2 hs) _ _ _ _
  · exact keepsInv_writeExternalByte a v s

/-! ## Operands by data address -/

theorem keepsInv_translate (a : Word) : KeepsInv (translate a) :=
  (keepsInv_refuseIf _ _).bind fun _ => keepsInv_look _

theorem keepsInv_readWordOperand (a : Word) : KeepsInv (readWordOperand a) :=
  KeepsInv.ite (keepsInv_trap (.inr rfl)) ((keepsInv_translate a).bind fun _ => keepsInv_readPhysWord _)

theorem keepsInv_readByteOperand (a : Word) : KeepsInv (readByteOperand a) :=
  (keepsInv_translate a).bind fun _ => keepsInv_readPhysByte _

theorem keepsInv_writeByteOperand (a : Word) (v : Byte) : KeepsInv (writeByteOperand a v) :=
  (keepsInv_translate a).bind fun _ => keepsInv_writePhysByte _ v

theorem translate_even {a : Word} (even : isOdd a = false) {p : PhysAddr} {s t : State} (h : translate a s = .ok (p, t)) :
    p.getLsbD 0 = false := by
  rw [translate_apply] at h
  split at h
  · cases h
  · simp only [Except.ok.injEq, Prod.mk.injEq] at h
    rw [← h.1]
    exact dataAddr_even even

theorem keepsInv_writeWordOperand (a v : Word) : KeepsInv (writeWordOperand a v) := by
  unfold writeWordOperand
  split
  · exact keepsInv_trap (.inr rfl)
  · next even =>
    intro s
    exact (keepsInv_translate a s).bind fun p t h =>
      keepsInv_writePhysWord (translate_even (by simpa using even) h) v t

/-! ## Registers -/

theorem keepsInv_readGpr (n : BitVec 4) : KeepsInv (readGpr n) := (keepsInv_refuseIf _ _).bind fun _ => keepsInv_look _

theorem keepsInv_readGprB (n : BitVec 4) : KeepsInv (readGprB n) := (keepsInv_refuseIf _ _).bind fun _ => keepsInv_look _

theorem keepsInv_writeGpr (n : BitVec 4) (v : Word) : KeepsInv (writeGpr n v) := by
  intro s
  cases ok : gprWordOk s n
  · exact keepsInvAt_error (by rw [writeGpr_apply, ok]; rfl) (fun k hk => by cases hk)
  · exact keepsInvAt_ok (writeGpr_ok.2 ⟨ok, rfl⟩) (fun hs => hs.storeWordInIram ok v)

theorem keepsInv_writeGprB (n : BitVec 4) (v : Byte) : KeepsInv (writeGprB n v) := by
  intro s
  cases ok : gprByteOk s n
  · exact keepsInvAt_error (by rw [writeGprB_apply, ok]; rfl) (fun k hk => by cases hk)
  · exact keepsInvAt_ok (writeGprB_ok.2 ⟨ok, rfl⟩) (fun hs => hs.storeByte (ramCell_of_inIram ok (k := 0) (by omega)) v)

theorem keepsInv_readReg (reg : BitVec 8) : KeepsInv (readReg reg) :=
  KeepsInv.ite (keepsInv_readGpr _) (keepsInv_lookThen fun _ => keepsInv_readSfrWord _)

theorem keepsInv_writeReg (reg : BitVec 8) (v : Word) : KeepsInv (writeReg reg v) :=
  KeepsInv.ite (keepsInv_writeGpr _ v) (keepsInv_lookThen fun _ => keepsInv_writeSfrWord _ v)

theorem keepsInv_readRegB (reg : BitVec 8) : KeepsInv (readRegB reg) :=
  KeepsInv.ite (keepsInv_readGprB _)
    (keepsInv_lookThen fun _ => (keepsInv_readSfrWord _).bind fun _ => keepsInv_pure _)

theorem keepsInv_writeRegB (reg : BitVec 8) (v : Byte) : KeepsInv (writeRegB reg v) :=
  KeepsInv.ite (keepsInv_writeGprB _ v) (keepsInv_lookThen fun _ => keepsInv_writeSfrWord _ _)

theorem keepsInv_readBitWord (bo : BitVec 8) : KeepsInv (readBitWord bo) :=
  KeepsInv.ite (keepsInv_readGpr _)
    (KeepsInv.ite (keepsInv_look _) (keepsInv_lookThen fun _ => keepsInv_readSfrWord _))

theorem Inv.keepPhases {s t : State} (h : Inv t) (mask : Word) : Inv (State.keepPhases mask s t) := by
  unfold State.keepPhases
  split <;> exact h

theorem keepsInv_writeSfrBits (a : Nat) (mask v : Word) : KeepsInv (writeSfrBits a mask v) := by
  intro s hs
  obtain ⟨ok, trap⟩ := keepsInv_writeSfrWord a v s hs
  unfold writeSfrBits
  cases h : writeSfrWord a v s with
  | ok p =>
    obtain ⟨u, t⟩ := p
    exact keepsInvAt_ok (x := fun _ => .ok ((), State.keepPhases mask s t)) rfl (fun _ => (ok u t h).keepPhases mask) hs
  | error e =>
    refine keepsInvAt_error (x := fun _ => .error e) rfl ?_ hs
    rintro k rfl
    exact trap k h

theorem bitIramAddr_inIram (d : Device) {bo : BitVec 8} (h : bo.toNat < 0x80) : inIram d (bitIramAddr bo) 2 = true := by
  unfold inIram bitIramAddr iramBase
  cases d <;> simp <;> omega

theorem keepsInv_writeBitWord (bo : BitVec 8) (mask v : Word) : KeepsInv (writeBitWord bo mask v) := by
  unfold writeBitWord
  refine KeepsInv.ite (keepsInv_writeGpr _ v) ?_
  split
  · next low => exact keepsInv_update fun s hs => hs.storeWordInIram (bitIramAddr_inIram _ low) v
  · exact keepsInv_lookThen fun _ => keepsInv_writeSfrBits _ mask v

/-! ## The stack -/

theorem keepsInv_push (v : Word) : KeepsInv (push v) := by
  intro s
  cases h : stackRefusal s (spDown s) with
  | some r => exact keepsInvAt_error (by simp [push, h]; rfl) (fun k hk => by cases hk)
  | none => exact keepsInvAt_ok (a := ()) (push_ok.2 ⟨h, rfl⟩) (·.pushed h v)

theorem keepsInv_pop : KeepsInv pop := by
  intro s
  cases h : stackRefusal s s.cpu.sp with
  | some r => exact keepsInvAt_error (by simp [pop, h]; rfl) (fun k hk => by cases hk)
  | none => exact keepsInvAt_ok (pop_ok.2 ⟨h, rfl, rfl⟩) (·.popped)

theorem keepsInv_takeException (trap : Nat) (resume : Word) (level : Option Nat) :
    KeepsInv (takeException trap resume level) := by
  have pushCsp : KeepsInv pushCspIfSegmented :=
    keepsInv_lookThen fun _ => KeepsInv.ite (keepsInv_lookThen fun _ => keepsInv_push _) (keepsInv_pure _)
  refine keepsInv_lookThen fun _ => (keepsInv_push _).bind fun _ => pushCsp.bind fun _ => (keepsInv_push _).bind fun _ =>
    keepsInv_update fun s hs => hs.withCpu { hs.tiedBits with psw := ?psw, csp := ?csp }
  case psw =>
    cases level with
    | none => exact hs.tiedBits.psw
    | some l => exact merge_and_eq_zero _ hs.tiedBits.psw (by decide)
  case csp =>
    dsimp only
    split
    · rfl
    · exact hs.tiedBits.csp

/-- The state to which RETI returns: PSW as popped, and a code segment of 8 bits. -/
theorem Inv.resumed {s : State} (h : Inv s) (psw ip : Word) {csp : Word} (hcsp : csp &&& 0xFF00 = 0) (inB : Bool)
    (marks : Marks) :
    Inv { s.setPsw psw with
          cpu := { (s.setPsw psw).cpu with ip := ip, csp := csp }
          sys := { (s.setPsw psw).sys with inA := false, inB := inB }
          marks := marks } :=
  (h.setPsw psw).withCpu { (h.setPsw psw).tiedBits with csp := hcsp }

theorem keepsInv_returnFromException : KeepsInv returnFromException := by
  refine (keepsInv_refuseIf _ _).bind fun _ => keepsInv_pop.bind fun ip => keepsInv_lookThen fun seg => ?_
  cases seg with
  | true =>
    exact keepsInv_pop.bind fun csp => keepsInv_pop.bind fun psw =>
      keepsInv_update fun s hs => hs.resumed psw ip (and_and_of_disjoint csp (by decide)) _ _
  | false =>
    exact (keepsInv_look _).bind fun csp => keepsInv_pop.bind fun psw =>
      keepsInv_update fun s hs => hs.resumed psw ip hs.tiedBits.csp _ _

/-! ## Instructions -/

/-- An instruction whose body keeps the invariant keeps it, abandoned or waiting too. -/
theorem Inv.runInstr {s t : State} (hs : Inv s) {len : Nat} {body : Op Unit} (hb : KeepsInv body)
    (h : runInstr len body s = .next t) : Inv t := by
  obtain ⟨ok, trap⟩ := hb s.begin hs
  rcases runInstr_cases h with ⟨u, hu, rfl⟩ | ⟨k, hk, rfl⟩ | ⟨-, rfl⟩ | ⟨-, rfl⟩
  · exact hs.finish (ok _ _ hu) len
  · refine hs.finish (Inv.raise (s := s.begin) hs ?_) len
    rcases trap k hk with rfl | rfl <;> decide
  · exact hs
  · exact hs

theorem Inv.runPopInstr {s t : State} (hs : Inv s) {len : Nat} {body : Op Unit} (hb : KeepsInv body)
    (h : runPopInstr len body s = .next t) : Inv t := by
  unfold Machine.runPopInstr at h
  split at h
  · cases h
  · exact hs.runInstr hb h

end Sys2Proof.Machine
end

