-- ==== Sys2Proof/Proofs/InvariantExec.lean ====
section
/-! PROOFS. Every instruction keeps the invariant: first the bodies that the instruction families share, then `exec`. -/

namespace Sys2Proof.Machine

/-! ## Small steps -/

theorem keepsInv_setFlags (f : FlagUpdate) : KeepsInv (setFlags f) := keepsInv_update fun _ hs => hs.setFlags f

theorem keepsInv_jumpTo (v : Word) : KeepsInv (update (State.jumpTo · v)) := keepsInv_update fun _ hs => hs.jumpTo v

theorem keepsInv_cacheJump (v : Word) : KeepsInv (update (State.cacheJump · v)) := keepsInv_update fun _ hs => hs.cacheJump v

theorem keepsInv_farJumpTo (g : Byte) (v : Word) : KeepsInv (update (State.farJumpTo · g v)) :=
  keepsInv_update fun _ hs => hs.farJumpTo g v

theorem keepsInv_jumpRelative (len : Nat) (rel : BitVec 8) : KeepsInv (jumpRelative len rel) :=
  keepsInv_update fun _ hs => hs.cacheJump _

theorem keepsInv_callTo (len : Nat) (v : Word) : KeepsInv (callTo len v) :=
  keepsInv_lookThen fun _ => (keepsInv_push _).bind fun _ => keepsInv_jumpTo v

/-- A change of the power state to one in which the loader's count is in range. -/
theorem Inv.withPower {s : State} (h : Inv s) {p : Power} (hp : loaderInRange p) :
    Inv { s with sys := { s.sys with power := p } } := by
  obtain ⟨hwf, hram, hc, hprev, hext, -⟩ := h
  exact ⟨hwf, hram, hc, hprev, hext, hp⟩

theorem Inv.withSys {s : State} (h : Inv s) {sys : Sys} (hp : sys.power = s.sys.power) : Inv { s with sys := sys } :=
  (inv_mk s _ _ _ _ _ _ _ _ _ _ _ sys _ _ _ _ _ _ _ hp).2 h

theorem Inv.withExt {s : State} (h : Inv s) {e : Ext} (he : e.count ≤ 4) : Inv { s with ext := e } := by
  obtain ⟨hwf, hram, hc, hprev, -, hload⟩ := h
  exact ⟨hwf, hram, hc, hprev, he, hload⟩

theorem Inv.startReset {s : State} (h : Inv s) (cause : ResetCause) : Inv (startReset cause s) := by
  obtain ⟨hwf, hram, -⟩ := h
  exact ⟨hwf, hram, Cpu.tied_reset, Cpu.tied_reset, Nat.zero_le _, fun n hn => by cases hn⟩

theorem keepsInv_startSequence {count : Nat} (h : count ≤ 4) (esfr : Bool) (o : Override) :
    KeepsInv (startSequence count esfr o) :=
  keepsInv_update fun _ hs => hs.withExt (e := ⟨count, esfr, o⟩) h

/-! ## Arithmetic and logic -/

theorem keepsInv_aluFinish {w : Nat} (op : Alu) (a b : BitVec w) {write : BitVec w → Op Unit} (h : ∀ v, KeepsInv (write v)) :
    KeepsInv (aluFinish op a b write) :=
  keepsInv_lookThen fun _ => KeepsInv.ite (keepsInv_setFlags _) ((h _).bind fun _ => keepsInv_setFlags _)

theorem Inv.stackDelay {s : State} (h : Inv s) {k : Nat} (hk : k ∈ trapFlags) (p : Prop) [Decidable p] :
    Inv (if p then { s.raise k with marks := { s.marks with stackDelay := true } } else s) := by
  split
  · exact h.raise hk
  · exact h

theorem keepsInv_stackLimitCheck (op : Alu) (reg : BitVec 8) : KeepsInv (stackLimitCheck op reg) := by
  refine keepsInv_update fun s hs => ?_
  split
  · cases op with
    | add | addc => exact hs.stackDelay (by decide) _
    | sub | subc => exact hs.stackDelay (by decide) _
    | and | or | xor | cmp => exact hs
  · exact hs

theorem keepsInv_writeAluReg (op : Alu) (reg : BitVec 8) (v : Word) : KeepsInv (writeAluReg op reg v) :=
  (keepsInv_writeReg reg v).bind fun _ => keepsInv_stackLimitCheck op reg

theorem keepsInv_aluRR (op : Alu) (n m : BitVec 4) : KeepsInv (aluRR op n m) :=
  (keepsInv_readGpr n).bind fun _ => (keepsInv_readGpr m).bind fun _ => keepsInv_aluFinish _ _ _ (keepsInv_writeGpr n)

theorem keepsInv_aluRInd (op : Alu) (n : BitVec 4) (i : BitVec 2) : KeepsInv (aluRInd op n i) :=
  (keepsInv_readGpr n).bind fun _ => (keepsInv_readGpr _).bind fun _ => (keepsInv_readWordOperand _).bind fun _ =>
    keepsInv_aluFinish _ _ _ (keepsInv_writeGpr n)

theorem keepsInv_aluRIndInc (op : Alu) (n : BitVec 4) (i : BitVec 2) : KeepsInv (aluRIndInc op n i) :=
  (keepsInv_readGpr n).bind fun _ => (keepsInv_readGpr _).bind fun _ => (keepsInv_readWordOperand _).bind fun _ =>
    (keepsInv_writeGpr _ _).bind fun _ => keepsInv_aluFinish _ _ _ (keepsInv_writeGpr n)

theorem keepsInv_aluRImm3 (op : Alu) (n : BitVec 4) (d : BitVec 3) : KeepsInv (aluRImm3 op n d) :=
  (keepsInv_readGpr n).bind fun _ => keepsInv_aluFinish _ _ _ (keepsInv_writeGpr n)

theorem keepsInv_aluRegImm (op : Alu) (reg : BitVec 8) (d : Word) : KeepsInv (aluRegImm op reg d) :=
  (keepsInv_readReg reg).bind fun _ => keepsInv_aluFinish _ _ _ (keepsInv_writeAluReg op reg)

theorem keepsInv_aluRegMem (op : Alu) (reg : BitVec 8) (mem : Word) : KeepsInv (aluRegMem op reg mem) :=
  (keepsInv_readReg reg).bind fun _ => (keepsInv_readWordOperand mem).bind fun _ =>
    keepsInv_aluFinish _ _ _ (keepsInv_writeAluReg op reg)

theorem keepsInv_aluMemReg (op : Alu) (mem : Word) (reg : BitVec 8) : KeepsInv (aluMemReg op mem reg) :=
  (keepsInv_readWordOperand mem).bind fun _ => (keepsInv_readReg reg).bind fun _ =>
    keepsInv_aluFinish _ _ _ (keepsInv_writeWordOperand mem)

theorem keepsInv_aluRRB (op : Alu) (n m : BitVec 4) : KeepsInv (aluRRB op n m) :=
  (keepsInv_readGprB n).bind fun _ => (keepsInv_readGprB m).bind fun _ => keepsInv_aluFinish _ _ _ (keepsInv_writeGprB n)

theorem keepsInv_aluRIndB (op : Alu) (n : BitVec 4) (i : BitVec 2) : KeepsInv (aluRIndB op n i) :=
  (keepsInv_readGprB n).bind fun _ => (keepsInv_readGpr _).bind fun _ => (keepsInv_readByteOperand _).bind fun _ =>
    keepsInv_aluFinish _ _ _ (keepsInv_writeGprB n)

theorem keepsInv_aluRIndIncB (op : Alu) (n : BitVec 4) (i : BitVec 2) : KeepsInv (aluRIndIncB op n i) :=
  (keepsInv_readGprB n).bind fun _ => (keepsInv_readGpr _).bind fun _ => (keepsInv_readByteOperand _).bind fun _ =>
    (keepsInv_writeGpr _ _).bind fun _ => keepsInv_aluFinish _ _ _ (keepsInv_writeGprB n)

theorem keepsInv_aluRImm3B (op : Alu) (n : BitVec 4) (d : BitVec 3) : KeepsInv (aluRImm3B op n d) :=
  (keepsInv_readGprB n).bind fun _ => keepsInv_aluFinish _ _ _ (keepsInv_writeGprB n)

theorem keepsInv_aluRegImmB (op : Alu) (reg : BitVec 8) (d : Byte) : KeepsInv (aluRegImmB op reg d) :=
  (keepsInv_readRegB reg).bind fun _ => keepsInv_aluFinish _ _ _ (keepsInv_writeRegB reg)

theorem keepsInv_aluRegMemB (op : Alu) (reg : BitVec 8) (mem : Word) : KeepsInv (aluRegMemB op reg mem) :=
  (keepsInv_readRegB reg).bind fun _ => (keepsInv_readByteOperand mem).bind fun _ =>
    keepsInv_aluFinish _ _ _ (keepsInv_writeRegB reg)

theorem keepsInv_aluMemRegB (op : Alu) (mem : Word) (reg : BitVec 8) : KeepsInv (aluMemRegB op mem reg) :=
  (keepsInv_readByteOperand mem).bind fun _ => (keepsInv_readRegB reg).bind fun _ =>
    keepsInv_aluFinish _ _ _ (keepsInv_writeByteOperand mem)

theorem keepsInv_cmpStep (n : BitVec 4) (b delta : Word) : KeepsInv (cmpStep n b delta) :=
  (keepsInv_readGpr n).bind fun _ => (keepsInv_writeGpr n _).bind fun _ => keepsInv_setFlags _

theorem keepsInv_cmpStepMem (n : BitVec 4) (mem delta : Word) : KeepsInv (cmpStepMem n mem delta) :=
  (keepsInv_readWordOperand mem).bind fun _ => keepsInv_cmpStep n _ delta

theorem keepsInv_multiply (f : Word → Word → MdResult) (n m : BitVec 4) : KeepsInv (multiply f n m) :=
  (keepsInv_refuseIf _ _).bind fun _ => (keepsInv_readGpr n).bind fun _ => (keepsInv_readGpr m).bind fun _ =>
    keepsInv_update fun _ hs => hs.setMd _

theorem keepsInv_divide (f : Cpu → Word → Option MdResult) (n : BitVec 4) : KeepsInv (divide f n) := by
  refine (keepsInv_refuseIf _ _).bind fun _ => (keepsInv_readGpr n).bind fun _ => keepsInv_update fun s hs => ?_
  split
  · exact hs.setMd _
  · exact hs.setMdInvalid

theorem keepsInv_unaryWord (f : Word → Word × FlagUpdate) (n : BitVec 4) : KeepsInv (unaryWord f n) :=
  (keepsInv_readGpr n).bind fun _ => (keepsInv_writeGpr n _).bind fun _ => keepsInv_setFlags _

theorem keepsInv_unaryByte (f : Byte → Byte × FlagUpdate) (n : BitVec 4) : KeepsInv (unaryByte f n) :=
  (keepsInv_readGprB n).bind fun _ => (keepsInv_writeGprB n _).bind fun _ => keepsInv_setFlags _

theorem keepsInv_shiftByReg (op : Shift) (n m : BitVec 4) : KeepsInv (shiftByReg op n m) :=
  (keepsInv_readGpr m).bind fun _ => keepsInv_unaryWord _ n

theorem keepsInv_shiftByImm (op : Shift) (n k : BitVec 4) : KeepsInv (shiftByImm op n k) := keepsInv_unaryWord _ n

/-! ## Moves -/

theorem keepsInv_moveToReg (reg : BitVec 8) (v : Word) : KeepsInv (moveToReg reg v) :=
  (keepsInv_writeReg reg v).bind fun _ => keepsInv_setFlags _

theorem keepsInv_moveToRegB (reg : BitVec 8) (v : Byte) : KeepsInv (moveToRegB reg v) :=
  (keepsInv_writeRegB reg v).bind fun _ => keepsInv_setFlags _

theorem keepsInv_moveToGpr (n : BitVec 4) (v : Word) : KeepsInv (moveToGpr n v) :=
  (keepsInv_writeGpr n v).bind fun _ => keepsInv_setFlags _

theorem keepsInv_moveToGprB (n : BitVec 4) (v : Byte) : KeepsInv (moveToGprB n v) :=
  (keepsInv_writeGprB n v).bind fun _ => keepsInv_setFlags _

theorem keepsInv_moveToMem (a v : Word) : KeepsInv (moveToMem a v) :=
  (keepsInv_writeWordOperand a v).bind fun _ => keepsInv_setFlags _

theorem keepsInv_moveToMemB (a : Word) (v : Byte) : KeepsInv (moveToMemB a v) :=
  (keepsInv_writeByteOperand a v).bind fun _ => keepsInv_setFlags _

theorem keepsInv_storedWord (own : Bool) (v : Word) : KeepsInv (storedWord own v) :=
  KeepsInv.ite (keepsInv_lookThen fun _ => (keepsInv_advanceFree 1).bind fun _ => keepsInv_pure _) (keepsInv_pure v)

theorem keepsInv_storedByte (own : Bool) (v : Byte) : KeepsInv (storedByte own v) :=
  KeepsInv.ite (keepsInv_lookThen fun _ => (keepsInv_advanceFree 1).bind fun _ => keepsInv_pure _) (keepsInv_pure v)

theorem keepsInv_pushedSp (own : Bool) (v : Word) : KeepsInv (pushedSp own v) :=
  KeepsInv.ite (keepsInv_lookThen fun _ => keepsInv_lookThen fun _ => (keepsInv_advanceFree 1).bind fun _ => keepsInv_pure _)
    (keepsInv_pure v)

/-! ## Bits -/

theorem keepsInv_readTwoBitWords (zo qo : BitVec 8) (q : BitVec 4) : KeepsInv (readTwoBitWords zo qo q) :=
  (keepsInv_readBitWord qo).bind fun _ =>
    KeepsInv.ite (keepsInv_pure _) ((keepsInv_readBitWord zo).bind fun _ => keepsInv_pure _)

theorem keepsInv_twoBitOp (f : Bool → Bool → Bool) (fl : Bool → Bool → FlagUpdate) (zo : BitVec 8) (z : BitVec 4)
    (qo : BitVec 8) (q : BitVec 4) : KeepsInv (twoBitOp f fl zo z qo q) :=
  (keepsInv_readTwoBitWords zo qo q).bind fun _ => (keepsInv_writeBitWord zo _ _).bind fun _ => keepsInv_setFlags _

theorem keepsInv_oneBitOp (v : Bool) (qo : BitVec 8) (q : BitVec 4) : KeepsInv (oneBitOp v qo q) :=
  (keepsInv_readBitWord qo).bind fun _ => (keepsInv_writeBitWord qo _ _).bind fun _ => keepsInv_setFlags _

theorem keepsInv_bitField (bo : BitVec 8) (mask data : Word) : KeepsInv (bitField bo mask data) :=
  (keepsInv_readBitWord bo).bind fun _ => (keepsInv_writeBitWord bo _ _).bind fun _ => keepsInv_setFlags _

theorem keepsInv_jumpOnBit (v : Bool) (qo : BitVec 8) (q : BitVec 4) (rel : BitVec 8) : KeepsInv (jumpOnBit v qo q rel) :=
  (keepsInv_readBitWord qo).bind fun _ => (keepsInv_jumpRelative 4 rel).ite (keepsInv_pure _)

theorem keepsInv_jumpOnBitAndChange (v : Bool) (qo : BitVec 8) (q : BitVec 4) (rel : BitVec 8) :
    KeepsInv (jumpOnBitAndChange v qo q rel) :=
  (keepsInv_readBitWord qo).bind fun _ =>
    KeepsInv.ite ((keepsInv_writeBitWord qo _ _).bind fun _ => (keepsInv_setFlags _).bind fun _ => keepsInv_jumpRelative 4 rel)
      (keepsInv_setFlags _)

/-! ## Every instruction -/

theorem irang2_le {k : Nat} (h : irang2Ok k = true) : k ≤ 4 := by
  unfold irang2Ok at h
  simp at h
  exact h.2

/-- An instruction keeps the invariant: the range of `#irang2` keeps the extension count at 4 or below (R142, R329). -/
theorem Inv.exec {i : Instr} {s t : State} (hs : Inv s) (hw : i.wellFormed = true) (h : exec i s = .next t) : Inv t := by
  cases i with
  | addRwnRwm | addcRwnRwm | subRwnRwm | subcRwnRwm | cmpRwnRwm | xorRwnRwm | andRwnRwm | orRwnRwm =>
    exact hs.runInstr (keepsInv_aluRR _ _ _) h
  | addRegMem | addcRegMem | subRegMem | subcRegMem | cmpRegMem | xorRegMem | andRegMem | orRegMem =>
    exact hs.runInstr (keepsInv_aluRegMem _ _ _) h
  | addMemReg | addcMemReg | subMemReg | subcMemReg | xorMemReg | andMemReg | orMemReg =>
    exact hs.runInstr (keepsInv_aluMemReg _ _ _) h
  | addRegData16 | addcRegData16 | subRegData16 | subcRegData16 | cmpRegData16 | xorRegData16 | andRegData16
  | orRegData16 =>
    exact hs.runInstr (keepsInv_aluRegImm _ _ _) h
  | addRwnIndRwi | addcRwnIndRwi | subRwnIndRwi | subcRwnIndRwi | cmpRwnIndRwi | xorRwnIndRwi | andRwnIndRwi
  | orRwnIndRwi =>
    exact hs.runInstr (keepsInv_aluRInd _ _ _) h
  | addRwnIndRwiInc | addcRwnIndRwiInc | subRwnIndRwiInc | subcRwnIndRwiInc | cmpRwnIndRwiInc | xorRwnIndRwiInc
  | andRwnIndRwiInc | orRwnIndRwiInc =>
    exact hs.runInstr (keepsInv_aluRIndInc _ _ _) h
  | addRwnData3 | addcRwnData3 | subRwnData3 | subcRwnData3 | cmpRwnData3 | xorRwnData3 | andRwnData3 | orRwnData3 =>
    exact hs.runInstr (keepsInv_aluRImm3 _ _ _) h
  | addbRbnRbm | addcbRbnRbm | subbRbnRbm | subcbRbnRbm | cmpbRbnRbm | xorbRbnRbm | andbRbnRbm | orbRbnRbm =>
    exact hs.runInstr (keepsInv_aluRRB _ _ _) h
  | addbRegMem | addcbRegMem | subbRegMem | subcbRegMem | cmpbRegMem | xorbRegMem | andbRegMem | orbRegMem =>
    exact hs.runInstr (keepsInv_aluRegMemB _ _ _) h
  | addbMemReg | addcbMemReg | subbMemReg | subcbMemReg | xorbMemReg | andbMemReg | orbMemReg =>
    exact hs.runInstr (keepsInv_aluMemRegB _ _ _) h
  | addbRegData8 | addcbRegData8 | subbRegData8 | subcbRegData8 | cmpbRegData8 | xorbRegData8 | andbRegData8
  | orbRegData8 =>
    exact hs.runInstr (keepsInv_aluRegImmB _ _ _) h
  | addbRbnIndRwi | addcbRbnIndRwi | subbRbnIndRwi | subcbRbnIndRwi | cmpbRbnIndRwi | xorbRbnIndRwi | andbRbnIndRwi
  | orbRbnIndRwi =>
    exact hs.runInstr (keepsInv_aluRIndB _ _ _) h
  | addbRbnIndRwiInc | addcbRbnIndRwiInc | subbRbnIndRwiInc | subcbRbnIndRwiInc | cmpbRbnIndRwiInc | xorbRbnIndRwiInc
  | andbRbnIndRwiInc | orbRbnIndRwiInc =>
    exact hs.runInstr (keepsInv_aluRIndIncB _ _ _) h
  | addbRbnData3 | addcbRbnData3 | subbRbnData3 | subcbRbnData3 | cmpbRbnData3 | xorbRbnData3 | andbRbnData3
  | orbRbnData3 =>
    exact hs.runInstr (keepsInv_aluRImm3B _ _ _) h
  | negRwn | cplRwn =>
    exact hs.runInstr (keepsInv_unaryWord _ _) h
  | negbRbn | cplbRbn =>
    exact hs.runInstr (keepsInv_unaryByte _ _) h
  | mulRwnRwm | muluRwnRwm =>
    exact hs.runInstr (keepsInv_multiply _ _ _) h
  | divRwn | divuRwn | divlRwn | divluRwn =>
    exact hs.runInstr (keepsInv_divide _ _) h
  | bfldlBitoffMask8Data8 | bfldhBitoffMask8Data8 =>
    exact hs.runInstr (keepsInv_bitField _ _ _) h
  | bcmpBitZBitQ =>
    exact hs.runInstr ((keepsInv_readTwoBitWords _ _ _).bind fun _ => keepsInv_setFlags _) h
  | bmovnBitZBitQ | bmovBitZBitQ | borBitZBitQ | bandBitZBitQ | bxorBitZBitQ =>
    exact hs.runInstr (keepsInv_twoBitOp _ _ _ _ _ _) h
  | bclrBitQ | bsetBitQ =>
    exact hs.runInstr (keepsInv_oneBitOp _ _ _) h
  | pcallRegCaddr =>
    exact hs.runInstr ((keepsInv_readReg _).bind fun _ => (keepsInv_push _).bind fun _ => (keepsInv_callTo _ _).bind fun _ =>
      keepsInv_setFlags _) h
  | callaCcCaddr =>
    exact hs.runInstr (keepsInv_lookThen fun _ => (keepsInv_callTo _ _).ite (keepsInv_pure _)) h
  | callsSegCaddr =>
    exact hs.runInstr (keepsInv_lookThen fun _ => keepsInv_lookThen fun _ => (keepsInv_push _).bind fun _ =>
      (keepsInv_push _).bind fun _ => keepsInv_farJumpTo _ _) h
  | trapTrap7 =>
    exact hs.runInstr (keepsInv_lookThen fun _ => keepsInv_takeException _ _ _) h
  | calliCcIndRwn =>
    exact hs.runInstr (keepsInv_lookThen fun _ => KeepsInv.ite ((keepsInv_readGpr _).bind fun _ =>
      keepsInv_callTo _ _) (keepsInv_pure _)) h
  | callrRel =>
    exact hs.runInstr (keepsInv_lookThen fun _ => keepsInv_callTo _ _) h
  | ret =>
    exact hs.runPopInstr (keepsInv_pop.bind fun _ => keepsInv_jumpTo _) h
  | rets =>
    exact hs.runPopInstr (keepsInv_pop.bind fun _ => keepsInv_pop.bind fun _ => keepsInv_farJumpTo _ _) h
  | retpReg =>
    exact hs.runPopInstr (keepsInv_pop.bind fun _ => keepsInv_pop.bind fun _ => (keepsInv_moveToReg _ _).bind fun _ =>
      keepsInv_jumpTo _) h
  | reti =>
    exact hs.runPopInstr (keepsInv_returnFromException) h
  | cmpi1RwnData4 | cmpi1RwnData16 | cmpi2RwnData4 | cmpi2RwnData16 | cmpd1RwnData4 | cmpd1RwnData16 | cmpd2RwnData4
  | cmpd2RwnData16 =>
    exact hs.runInstr (keepsInv_cmpStep _ _ _) h
  | cmpi1RwnMem | cmpi2RwnMem | cmpd1RwnMem | cmpd2RwnMem =>
    exact hs.runInstr (keepsInv_cmpStepMem _ _ _) h
  | movbzRwnRbm | movbsRwnRbm =>
    exact hs.runInstr ((keepsInv_readGprB _).bind fun _ => (keepsInv_writeGpr _ _).bind fun _ => keepsInv_setFlags _) h
  | movbzRegMem | movbsRegMem =>
    exact hs.runInstr ((keepsInv_readByteOperand _).bind fun _ => (keepsInv_writeReg _ _).bind fun _ =>
      keepsInv_setFlags _) h
  | movbzMemReg | movbsMemReg =>
    exact hs.runInstr ((keepsInv_readRegB _).bind fun _ => (keepsInv_writeWordOperand _ _).bind fun _ =>
      keepsInv_setFlags _) h
  | movRwnData4 =>
    exact hs.runInstr (keepsInv_moveToGpr _ _) h
  | movbRbnData4 =>
    exact hs.runInstr (keepsInv_moveToGprB _ _) h
  | movRwnRwm =>
    exact hs.runInstr ((keepsInv_readGpr _).bind fun _ => keepsInv_moveToGpr _ _) h
  | movbRbnRbm =>
    exact hs.runInstr ((keepsInv_readGprB _).bind fun _ => keepsInv_moveToGprB _ _) h
  | movRegMem =>
    exact hs.runInstr ((keepsInv_readWordOperand _).bind fun _ => keepsInv_moveToReg _ _) h
  | movbRegMem =>
    exact hs.runInstr ((keepsInv_readByteOperand _).bind fun _ => keepsInv_moveToRegB _ _) h
  | movIndRwnMem =>
    exact hs.runInstr ((keepsInv_readWordOperand _).bind fun _ => (keepsInv_readGpr _).bind fun _ =>
      keepsInv_moveToMem _ _) h
  | movMemIndRwn =>
    exact hs.runInstr ((keepsInv_readGpr _).bind fun _ => (keepsInv_readWordOperand _).bind fun _ =>
      keepsInv_moveToMem _ _) h
  | movbIndRwnMem =>
    exact hs.runInstr ((keepsInv_readByteOperand _).bind fun _ => (keepsInv_readGpr _).bind fun _ =>
      keepsInv_moveToMemB _ _) h
  | movbMemIndRwn =>
    exact hs.runInstr ((keepsInv_readGpr _).bind fun _ => (keepsInv_readByteOperand _).bind fun _ =>
      keepsInv_moveToMemB _ _) h
  | movIndRwmData16Rwn | movIndRwmRwn =>
    exact hs.runInstr ((keepsInv_readGpr _).bind fun _ => (keepsInv_readGpr _).bind fun _ => keepsInv_moveToMem _ _) h
  | movRwnIndRwmData16 | movRwnIndRwm =>
    exact hs.runInstr ((keepsInv_readGpr _).bind fun _ => (keepsInv_readWordOperand _).bind fun _ =>
      keepsInv_moveToGpr _ _) h
  | movbIndRwmData16Rbn | movbIndRwmRbn =>
    exact hs.runInstr ((keepsInv_readGprB _).bind fun _ => (keepsInv_readGpr _).bind fun _ => keepsInv_moveToMemB _ _) h
  | movbRbnIndRwmData16 | movbRbnIndRwm =>
    exact hs.runInstr ((keepsInv_readGpr _).bind fun _ => (keepsInv_readByteOperand _).bind fun _ =>
      keepsInv_moveToGprB _ _) h
  | movRegData16 =>
    exact hs.runInstr (keepsInv_moveToReg _ _) h
  | movbRegData8 =>
    exact hs.runInstr (keepsInv_moveToRegB _ _) h
  | movMemReg =>
    exact hs.runInstr ((keepsInv_readReg _).bind fun _ => keepsInv_moveToMem _ _) h
  | movbMemReg =>
    exact hs.runInstr ((keepsInv_readRegB _).bind fun _ => keepsInv_moveToMemB _ _) h
  | movIndDecRwmRwn =>
    exact hs.runInstr ((keepsInv_readGpr _).bind fun _ => (keepsInv_readGpr _).bind fun _ =>
      (keepsInv_storedWord _ _).bind fun _ => (keepsInv_writeGpr _ _).bind fun _ => keepsInv_moveToMem _ _) h
  | movbIndDecRwmRbn =>
    exact hs.runInstr ((keepsInv_readGprB _).bind fun _ => (keepsInv_readGpr _).bind fun _ =>
      (keepsInv_storedByte _ _).bind fun _ => (keepsInv_writeGpr _ _).bind fun _ => keepsInv_moveToMemB _ _) h
  | movRwnIndRwmInc =>
    exact hs.runInstr ((keepsInv_readGpr _).bind fun _ => (keepsInv_readWordOperand _).bind fun _ =>
      (keepsInv_writeGpr _ _).bind fun _ => keepsInv_moveToGpr _ _) h
  | movbRbnIndRwmInc =>
    exact hs.runInstr ((keepsInv_readGpr _).bind fun _ => (keepsInv_readByteOperand _).bind fun _ =>
      (keepsInv_writeGpr _ _).bind fun _ => keepsInv_moveToGprB _ _) h
  | movIndRwnIndRwm =>
    exact hs.runInstr ((keepsInv_readGpr _).bind fun _ => (keepsInv_readWordOperand _).bind fun _ =>
      (keepsInv_readGpr _).bind fun _ => keepsInv_moveToMem _ _) h
  | movbIndRwnIndRwm =>
    exact hs.runInstr ((keepsInv_readGpr _).bind fun _ => (keepsInv_readByteOperand _).bind fun _ =>
      (keepsInv_readGpr _).bind fun _ => keepsInv_moveToMemB _ _) h
  | movIndRwnIncIndRwm | movIndRwnIndRwmInc =>
    exact hs.runInstr ((keepsInv_readGpr _).bind fun _ => (keepsInv_readWordOperand _).bind fun _ =>
      (keepsInv_readGpr _).bind fun _ => (keepsInv_writeGpr _ _).bind fun _ => keepsInv_moveToMem _ _) h
  | movbIndRwnIncIndRwm | movbIndRwnIndRwmInc =>
    exact hs.runInstr ((keepsInv_readGpr _).bind fun _ => (keepsInv_readByteOperand _).bind fun _ =>
      (keepsInv_readGpr _).bind fun _ => (keepsInv_writeGpr _ _).bind fun _ => keepsInv_moveToMemB _ _) h
  | jbBitQRel | jnbBitQRel =>
    exact hs.runInstr (keepsInv_jumpOnBit _ _ _ _) h
  | jbcBitQRel | jnbsBitQRel =>
    exact hs.runInstr (keepsInv_jumpOnBitAndChange _ _ _ _) h
  | jmpaCcCaddr =>
    exact hs.runInstr (keepsInv_lookThen fun _ => (keepsInv_cacheJump _).ite (keepsInv_pure _)) h
  | jmpiCcIndRwn =>
    exact hs.runInstr (keepsInv_lookThen fun _ => KeepsInv.ite ((keepsInv_readGpr _).bind fun _ =>
      keepsInv_jumpTo _) (keepsInv_pure _)) h
  | jmprCcRel =>
    exact hs.runInstr (keepsInv_lookThen fun _ => (keepsInv_jumpRelative _ _).ite (keepsInv_pure _)) h
  | priorRwnRwm =>
    exact hs.runInstr ((keepsInv_readGpr _).bind fun _ => (keepsInv_writeGpr _ _).bind fun _ => keepsInv_setFlags _) h
  | rolRwnRwm | rorRwnRwm | shlRwnRwm | shrRwnRwm | ashrRwnRwm =>
    exact hs.runInstr (keepsInv_shiftByReg _ _ _) h
  | rolRwnData4 | rorRwnData4 | shlRwnData4 | shrRwnData4 | ashrRwnData4 =>
    exact hs.runInstr (keepsInv_shiftByImm _ _ _) h
  | scxtRegData16 =>
    exact hs.runInstr ((keepsInv_readReg _).bind fun _ => (keepsInv_push _).bind fun _ => keepsInv_writeReg _ _) h
  | scxtRegMem =>
    exact hs.runInstr ((keepsInv_readReg _).bind fun _ => (keepsInv_readWordOperand _).bind fun _ =>
      (keepsInv_push _).bind fun _ => keepsInv_writeReg _ _) h
  | pushReg =>
    exact hs.runInstr (keepsInv_lookThen fun _ => (keepsInv_readReg _).bind fun _ => (keepsInv_pushedSp _ _).bind fun _ =>
      (keepsInv_push _).bind fun _ => keepsInv_setFlags _) h
  | popReg =>
    exact hs.runPopInstr (keepsInv_pop.bind fun _ => keepsInv_moveToReg _ _) h
  | atomicIrang2 | extrIrang2 | extsSegIrang2 | extsrSegIrang2 | extpPagIrang2 | extprPagIrang2 =>
    exact hs.runInstr (keepsInv_startSequence (irang2_le hw) _ _) h
  | extsRwmIrang2 | extpRwmIrang2 | extsrRwmIrang2 | extprRwmIrang2 =>
    exact hs.runInstr ((keepsInv_readGpr _).bind fun _ => keepsInv_startSequence (irang2_le hw) _ _) h
  | jmpsSegCaddr =>
    exact hs.runInstr (keepsInv_farJumpTo _ _) h
  | einit =>
    rw [Machine.exec, execEinit] at h
    refine hs.runInstr (keepsInv_update fun _ hu => ?_) h
    exact hu
  | idle =>
    exact hs.runInstr (keepsInv_update fun _ hu => hu.withPower fun _ hp => by cases hp) h
  | srvwdt =>
    rw [Machine.exec, execSrvwdt] at h
    refine hs.runInstr (keepsInv_update fun _ hu => ?_) h
    exact hu
  | diswdt =>
    rw [Machine.exec, execDiswdt] at h
    refine hs.runInstr (keepsInv_update fun _ hu => ?_) h
    split <;> exact hu
  | pwrdn =>
    rw [Machine.exec, execPwrdn] at h
    refine hs.runInstr (keepsInv_update fun _ hu => ?_) h
    split
    · exact hu
    · exact hu.withPower fun _ hp => by cases hp
  | srst =>
    cases h
    exact hs.startReset .software
  | nop =>
    exact hs.runInstr (keepsInv_pure ()) h

end Sys2Proof.Machine
end

