-- ==== Sys2Proof/Proofs/DecodeWellFormed.lean ====
section
/-! PROOFS. Whatever decodes is well formed: the field of `#irang2` has two bits (R142). -/

namespace Sys2Proof

/-- If it is an instruction, it is a well formed one. -/
def Decoded.WellFormed : Decoded → Prop
  | .instr i => i.wellFormed = true
  | _ => True

theorem irang2Ok_irang2Of (b : Byte) : irang2Ok (irang2Of b) = true := by
  have := (b.extractLsb' 4 2).isLt
  simp [irang2Ok, irang2Of]
  omega

/-! ## Row by row of the opcode table -/

theorem decodeNibble0_wf (h : BitVec 4) (b1 : Byte) : (decodeNibble0 h b1).WellFormed := by
  unfold decodeNibble0
  repeat' split
  all_goals simp [Decoded.WellFormed, Instr.wellFormed]

theorem decodeNibble1_wf (h : BitVec 4) (b1 : Byte) : (decodeNibble1 h b1).WellFormed := by
  unfold decodeNibble1
  repeat' split
  all_goals simp [Decoded.WellFormed, Instr.wellFormed, irang2Ok_irang2Of]

theorem decodeNibble2_wf (h : BitVec 4) (b1 b2 b3 : Byte) : (decodeNibble2 h b1 b2 b3).WellFormed := by
  unfold decodeNibble2
  repeat' split
  all_goals simp [Decoded.WellFormed, Instr.wellFormed]

theorem decodeNibble3_wf (h : BitVec 4) (b1 b2 b3 : Byte) : (decodeNibble3 h b1 b2 b3).WellFormed := by
  unfold decodeNibble3
  repeat' split
  all_goals simp [Decoded.WellFormed, Instr.wellFormed]

theorem decodeNibble4_wf (h : BitVec 4) (b1 b2 b3 : Byte) : (decodeNibble4 h b1 b2 b3).WellFormed := by
  unfold decodeNibble4
  repeat' split
  all_goals simp [Decoded.WellFormed, Instr.wellFormed]

theorem decodeNibble5_wf (h : BitVec 4) (b1 b2 b3 : Byte) : (decodeNibble5 h b1 b2 b3).WellFormed := by
  unfold decodeNibble5
  repeat' split
  all_goals simp [Decoded.WellFormed, Instr.wellFormed]

theorem decodeNibble6_wf (h : BitVec 4) (b1 b2 b3 : Byte) : (decodeNibble6 h b1 b2 b3).WellFormed := by
  unfold decodeNibble6
  repeat' split
  all_goals simp [Decoded.WellFormed, Instr.wellFormed]

theorem decodeNibble7_wf (h : BitVec 4) (b1 b2 b3 : Byte) : (decodeNibble7 h b1 b2 b3).WellFormed := by
  unfold decodeNibble7
  repeat' split
  all_goals simp [Decoded.WellFormed, Instr.wellFormed, irang2Ok_irang2Of]

theorem decodeNibble8_wf (h : BitVec 4) (b1 : Byte) : (decodeNibble8 h b1).WellFormed := by
  unfold decodeNibble8
  repeat' split
  all_goals simp [Decoded.WellFormed, Instr.wellFormed]

theorem decodeNibble9_wf (h : BitVec 4) (b1 : Byte) : (decodeNibble9 h b1).WellFormed := by
  unfold decodeNibble9
  repeat' split
  all_goals simp [Decoded.WellFormed, Instr.wellFormed]

theorem decodeNibbleA_wf (h : BitVec 4) (b1 b2 b3 : Byte) : (decodeNibbleA h b1 b2 b3).WellFormed := by
  unfold decodeNibbleA
  repeat' split
  all_goals simp [Decoded.WellFormed, Instr.wellFormed]

theorem decodeNibbleB_wf (h : BitVec 4) (b1 : Byte) : (decodeNibbleB h b1).WellFormed := by
  unfold decodeNibbleB
  repeat' split
  all_goals simp [Decoded.WellFormed, Instr.wellFormed]

theorem decodeNibbleC_wf (h : BitVec 4) (b1 : Byte) : (decodeNibbleC h b1).WellFormed := by
  unfold decodeNibbleC
  repeat' split
  all_goals simp [Decoded.WellFormed, Instr.wellFormed, irang2Ok_irang2Of]

theorem decodeNibbleD_wf (h : BitVec 4) (b1 : Byte) : (decodeNibbleD h b1).WellFormed := rfl

theorem decodeNibbleE_wf (h : BitVec 4) (b1 : Byte) : (decodeNibbleE h b1).WellFormed := rfl

theorem decodeNibbleF_wf (h : BitVec 4) (b1 : Byte) : (decodeNibbleF h b1).WellFormed := rfl

theorem decodeBytes_wf (b0 b1 b2 b3 : Byte) : (decodeBytes b0 b1 b2 b3).WellFormed := by
  unfold decodeBytes
  split
  · exact decodeNibble0_wf _ _
  · exact decodeNibble1_wf _ _
  · exact decodeNibble2_wf _ _ _ _
  · exact decodeNibble3_wf _ _ _ _
  · exact decodeNibble4_wf _ _ _ _
  · exact decodeNibble5_wf _ _ _ _
  · exact decodeNibble6_wf _ _ _ _
  · exact decodeNibble7_wf _ _ _ _
  · exact decodeNibble8_wf _ _
  · exact decodeNibble9_wf _ _
  · exact decodeNibbleA_wf _ _ _ _
  · exact decodeNibbleB_wf _ _
  · exact decodeNibbleC_wf _ _
  · exact decodeNibbleD_wf _ _
  · exact decodeNibbleE_wf _ _
  · exact decodeNibbleF_wf _ _

theorem wellFormed_of_decodeBytes {b0 b1 b2 b3 : Byte} {i : Instr} (h : decodeBytes b0 b1 b2 b3 = .instr i) :
    i.wellFormed = true := by
  have wf := decodeBytes_wf b0 b1 b2 b3
  rw [h] at wf
  exact wf

end Sys2Proof
end

