-- ==== Sys2Proof/Proofs/InvariantStep.lean ====
section
/-! PROOFS. Every step keeps the invariant (O60): entries and PEC transfers, the clocks, the events of the outside, the loader,
the fetch, and the steps put together. -/

namespace Sys2Proof.Machine

variable {s t : State}

/-! ## Entries and PEC transfers -/

theorem Inv.wake (h : Inv s) : Inv s.wake := h.withPower fun n hn => by cases hn

theorem Inv.runEntry (hs : Inv s) {isInterrupt : Bool} {body : Op Unit} (hb : KeepsInv body)
    (h : runEntry isInterrupt body s = .next t) : Inv t := by
  obtain ⟨ok, -⟩ := hb s.settle hs.settle
  unfold Machine.runEntry at h
  split at h
  · next u hu =>
    have kept := ok _ _ hu
    cases h
    exact kept
  · cases h
  · cases h
    exact hs

theorem Inv.enterClassA (hs : Inv s) (h : enterClassA s = .next t) : Inv t := by
  refine hs.wake.runEntry ((keepsInv_takeException _ _ _).bind fun _ => keepsInv_update fun _ hu => ?_) h
  exact hu.withSys rfl

theorem Inv.enterClassB (hs : Inv s) (h : enterClassB s = .next t) : Inv t := by
  refine hs.wake.runEntry ((keepsInv_update fun _ hu => ?_).bind fun _ => (keepsInv_takeException _ _ _).bind fun _ =>
    keepsInv_update fun _ hu => ?_) h
  · exact hu.withExt (Nat.zero_le _)
  · exact hu.withSys rfl

theorem Inv.enterInterrupt (hs : Inv s) {w : IrqNode} (h : enterInterrupt w s = .next t) : Inv t :=
  hs.wake.runEntry ((keepsInv_takeException _ _ _).bind fun _ => keepsInv_update fun _ hu => (inv_clearRequest w).2 hu) h

/-- The PEC pointers lie in the IRAM of both devices (R362). -/
theorem pecPointer_inIram (d : Device) (x : Fin 8) {k : Nat} (hk : k ≤ 2) : inIram d (pecPointer x + k) 2 = true := by
  have := x.isLt
  unfold inIram pecPointer iramBase
  cases d <;> simp <;> omega

theorem segment0_even {p : Word} (h : isOdd p = false) : (segment0 p).getLsbD 0 = false := by
  simpa [segment0, isOdd] using h

theorem keepsInv_pecMove (byte : Bool) (src dst : Word) : KeepsInv (pecMove byte src dst) := by
  refine (keepsInv_refuseIf _ _).bind fun _ =>
    KeepsInv.ite ((keepsInv_readPhysByte _).bind fun _ => keepsInv_writePhysByte _ _) ?_
  split
  · exact keepsInv_trap (.inr rfl)
  · next even =>
    simp only [Bool.or_eq_true, not_or, Bool.not_eq_true] at even
    exact (keepsInv_readPhysWord _).bind fun _ => keepsInv_writePhysWord (segment0_even even.2) _

/-- COUNT goes down, or stays; the request flag is cleared, or stays (R360, R361). -/
theorem Inv.pecCounted (h : Inv s) (pecc : Vector Word 8) (w : IrqNode) (p q : Prop) [Decidable p] [Decidable q] :
    Inv (if p then if q then s else { s with pecc := pecc }
      else State.clearRequest (if q then s else { s with pecc := pecc }) w) := by
  split <;> split <;> exact h

theorem keepsInv_pecService (x : Fin 8) (w : IrqNode) : KeepsInv (pecService x w) := by
  have store (k : Nat) (hk : k ≤ 2) (v : Word) : KeepsInv (update (State.storeWord · (pecPointer x + k) v)) :=
    keepsInv_update fun s hs => hs.storeWordInIram (pecPointer_inIram _ x hk) v
  refine keepsInv_lookThen fun c => keepsInv_lookThen fun src => keepsInv_lookThen fun dst =>
    (keepsInv_pecMove _ src dst).bind fun _ => ?_
  dsimp only
  split
  · exact (store 2 (le_refl _) _).bind fun _ => keepsInv_update fun s hs => hs.pecCounted _ _ _ _
  · split
    · exact keepsInv_update fun s hs => hs.pecCounted _ _ _ _
    · exact (store 0 (Nat.zero_le _) _).bind fun _ => keepsInv_update fun s hs => hs.pecCounted _ _ _ _

theorem Inv.runPec (hs : Inv s) {w : IrqNode} (h : runPec w s = .next t) : Inv t := by
  obtain ⟨ok, trap⟩ := keepsInv_pecService (pecChannel (s.icOf w)) w s.settle hs.settle
  unfold Machine.runPec at h
  split at h
  · next u hu =>
    have kept := ok _ _ hu
    cases h
    exact kept
  · next k hk =>
    cases h
    refine hs.settle.raise ?_
    rcases trap k hk with rfl | rfl <;> decide
  · cases h
    exact hs
  · cases h
    exact hs
  · cases h

theorem Inv.serve (hs : Inv s) {w : IrqNode} (h : serve w s = .next t) : Inv t := by
  unfold Machine.serve at h
  split at h
  · cases h
  · split at h
    · exact hs.runPec h
    · exact hs.enterInterrupt h

theorem Inv.holdChange (hs : Inv s) (h : holdChange s = some t) : Inv t := by
  unfold Machine.holdChange at h
  split at h
  · split at h <;> cases h
    exact hs
  · split at h <;> cases h
    exact hs

theorem Inv.boundaryAction (hs : Inv s) (h : boundaryAction s = some (.next t)) : Inv t := by
  unfold Machine.boundaryAction at h
  split at h
  · next u hu =>
    cases h
    exact hs.holdChange hu
  · split at h
    · exact hs.enterClassA (Option.some.inj h)
    · split at h
      · exact hs.enterClassB (Option.some.inj h)
      · split at h
        · exact hs.serve (Option.some.inj h)
        · cases h

theorem Inv.idleStep (hs : Inv s) (h : idleStep s = .next t) : Inv t := by
  unfold Machine.idleStep at h
  split at h
  · next o ho => exact hs.boundaryAction (h ▸ ho)
  · split at h
    · cases h
      exact hs
    · split at h <;> cases h
      · exact hs.wake
      · exact hs

/-! ## Instructions -/

theorem Inv.fetchWord (hs : Inv s) {a : PhysAddr} {w : Word} (h : fetchWord a s = .ok (w, t)) : Inv t := by
  have codeWord : KeepsInv (codeWord a) := by
    refine keepsInv_lookThen fun area => ?_
    split
    · exact keepsInv_readExternalWord a
    · exact keepsInv_look _
    · exact keepsInv_look _
  have word : KeepsInv (Machine.fetchWord a) := by
    refine keepsInv_lookThen fun forbidden => ?_
    split
    · exact keepsInv_refuse _
    · exact codeWord
  exact (word s hs).1 w t h

/-- The state that a fetch leaves, with an instruction or without one. -/
def Fetched.Keeps : Fetched → Prop
  | .instr i s => Inv s ∧ i.wellFormed = true
  | .none s => Inv s
  | .refused _ => True

theorem Inv.fetchTrap (hs : Inv s) {k : Nat} (hk : k ∈ trapFlags) : (fetchTrap s k).Keeps := by
  unfold Machine.fetchTrap
  split
  · trivial
  · exact hs.raise hk

theorem Inv.fetchStopped (hs : Inv s) (e : Stop) : (fetchStopped s e).Keeps := by
  cases e with
  | trap k =>
    have raised : Inv ((s.advanceFree 1).raise 0) := Inv.raise (s := s.advanceFree 1) hs (by decide)
    exact raised.withCpu { raised.tiedBits with }
  | busHeld => exact hs
  | notReady => exact hs
  | refused r => trivial

theorem Inv.fetchDecode (hs : Inv s) (b0 b1 b2 b3 : Byte) : (fetchDecode (decodeBytes b0 b1 b2 b3) s).Keeps := by
  cases h : decodeBytes b0 b1 b2 b3 with
  | instr i => exact ⟨hs, wellFormed_of_decodeBytes h⟩
  | undefinedOpcode => exact hs.fetchTrap (by decide)
  | protectionFault => exact hs.fetchTrap (by decide)
  | nonCanonical => trivial

theorem Inv.fetchSecond (hs : Inv s) (ht : Inv t) (w : Word) : (fetchSecond s w t).Keeps := by
  unfold Machine.fetchSecond
  split
  · trivial
  · split
    · exact hs.fetchStopped _
    · next u hu =>
      split
      · trivial
      · exact (ht.fetchWord hu).fetchDecode _ _ _ _

theorem Inv.fetch (hs : Inv s) : (fetch s).Keeps := by
  unfold Machine.fetch
  split
  · exact hs.fetchTrap (by decide)
  · split
    · trivial
    · split
      · trivial
      · split
        · exact hs.fetchStopped _
        · next u hu =>
          have fetched := hs.fetchWord hu
          split
          · trivial
          · split
            · exact fetched.fetchDecode _ _ _ _
            · exact hs.fetchSecond fetched _

theorem Inv.afterInstruction (hs : Inv s) : Inv (afterInstruction s) := by
  rw [(afterInstruction_spec s).1]
  exact hs

theorem Inv.runFetched (ht : Inv t) {i : Instr} (hw : i.wellFormed = true) {u : State}
    (h : runFetched s i t = .next u) : Inv u := by
  unfold Machine.runFetched at h
  split at h
  · exact Inv.exec (s := t.mayReadAhead []) ht hw h
  · next a rest _ =>
    split at h
    · next v hv =>
      cases h
      exact (Inv.exec (s := t.mayReadAhead (a :: rest)) ht hw hv).afterInstruction
    · cases h
    · cases h

theorem Inv.instructionStep (hs : Inv s) (h : instructionStep s = .next t) : Inv t := by
  have fetched := hs.fetch
  unfold Machine.instructionStep at h
  split at h
  · next i u hu =>
    rw [hu] at fetched
    exact fetched.1.runFetched fetched.2 h
  · next u hu =>
    cases h
    rw [hu] at fetched
    exact fetched
  · cases h

/-! ## The end of a reset, and the loader -/

theorem Inv.resetRegisters (h : Inv s) (cause : ResetCause) : Inv (s.resetRegisters cause) := h.startReset cause

theorem Inv.latchPins (h : Inv s) : Inv s.latchPins := by
  obtain ⟨hwf, hram, -, -, hext, -⟩ := h
  exact ⟨hwf, hram, Cpu.tied_resetWith _, Cpu.tied_resetWith _, hext, fun n hn => by cases hn⟩

theorem Cpu.tied_bootstrap : Cpu.bootstrap.Tied := by
  unfold Cpu.Tied
  decide

theorem Inv.enterBootstrap (h : Inv s) : Inv s.enterBootstrap := by
  obtain ⟨hwf, hram, -, -, hext, -⟩ := h
  exact ⟨hwf, hram, Cpu.tied_bootstrap, Cpu.tied_bootstrap, hext, fun n hn => by cases hn⟩

theorem Inv.finishReset (hs : Inv s) {cause : ResetCause} (h : finishReset cause s = .next t) : Inv t := by
  have latched := (hs.resetRegisters cause).latchPins
  unfold Machine.finishReset at h
  dsimp only at h
  split at h
  · split at h
    · cases h
    · split at h
      · cases h
      · split at h <;> cases h
        · exact latched.enterBootstrap
        · exact latched
  · cases h
    exact latched

theorem Inv.bootstrapZeroByte (hs : Inv s) {t6 : Nat} (h : bootstrapZeroByte t6 s = .next t) : Inv t := by
  unfold Machine.bootstrapZeroByte at h
  split at h
  · cases h
  · cases h
    exact hs.withPower (p := .loading 0) fun n hn => by cases hn; decide

/-- The bytes from FA00h to FDFFh are IRAM on both devices (R84). -/
theorem ramCell_loader (d : Device) {a : Nat} (h : 0xFA00 ≤ a) (h' : a < 0xFE00) : ramCell d a := by
  refine .inl ⟨?_, h'⟩
  unfold iramBase
  cases d <;> simp <;> omega

theorem Inv.freeBytes (hs : Inv s) (start : Nat) (n : Nat) (hn : n ≤ 32) :
    Inv { s with mem := freeBytes s.mem 0xFA00 start n } := by
  induction n with
  | zero => exact hs
  | succ n ih =>
    exact ((ih (by omega)).withMem (ramCell_loader _ (by omega) (by omega)) _).withMem
      (ramCell_loader _ (by omega) (by omega)) _

theorem Inv.bootstrapDone (hs : Inv s) : Inv (bootstrapDone s) := by
  obtain ⟨hwf, hram, -⟩ := hs.freeBytes s.free 32 (le_refl _)
  obtain ⟨-, -, hc, hprev, hext, -⟩ := hs
  have psw : Config.freeWord (s.free + 36) &&& 0x001F &&& 0x0380 = 0 := and_and_of_disjoint _ (by decide)
  have running : loaderInRange .running := fun n hn => by cases hn
  have csp : (0 : Word) &&& 0xFF00 = 0 := by decide
  exact ⟨hwf, hram, Cpu.tied_iff.2 { Cpu.tied_iff.1 hc with psw := psw, csp := csp },
    Cpu.tied_iff.2 { Cpu.tied_iff.1 hprev with psw := psw }, hext, running⟩

theorem Inv.bootstrapByte (hs : Inv s) {n : Nat} (hn : n < 32) (b : Byte) : Inv (bootstrapByte n b s) := by
  have stored : Inv { s with mem := Memory.write s.mem (0xFA40 + n) b } :=
    hs.withMem (ramCell_loader _ (by omega) (by omega)) b
  unfold Machine.bootstrapByte
  split
  · exact hs
  · dsimp only
    split
    · exact stored.withPower fun m hm => by cases hm; omega
    · exact stored.bootstrapDone

/-! ## Clocks and events -/

theorem Inv.clockNmi (hs : Inv s) : Inv (clockNmi s) := by
  obtain ⟨hwf, hram, hc, hprev, hext, hload⟩ := hs.raiseIf (s.sys.nmiSample && !s.pins.nmi) (k := 15) (by decide)
  refine ⟨hwf, hram, hc, hprev, hext, fun n hn => ?_⟩
  dsimp only [Machine.clockNmi] at hn
  split at hn
  · cases hn
  · exact hload n hn

theorem Inv.clockPeripherals (hs : Inv s) : Inv (clockPeripherals s) := by
  have clocked : Inv (clockWdt (clockSsp (clockSsc (clockAsc (clockTimers
      (Machine.clockNmi (Machine.clockExternalInputs s))))))).1 := by
    simpa using hs.clockExternalInputs.clockNmi
  unfold Machine.clockPeripherals
  dsimp only
  split
  · exact clocked.startReset .watchdog
  · exact clocked

theorem Inv.clockStep (hs : Inv s) (h : clockStep s = .next t) : Inv t := by
  unfold Machine.clockStep at h
  split at h
  · split at h
    · cases h
    · cases h
      exact hs.clockPeripherals
  · cases h
    exact hs

theorem Inv.setPins (hs : Inv s) (p : Pins) : Inv (setPins p s) := by
  unfold Machine.setPins
  dsimp only
  split
  · exact hs
  · exact Inv.startReset (s := { s with pins := p }) hs _

theorem Inv.clockFails (hs : Inv s) : Inv (clockFails s) := by
  unfold Machine.clockFails
  split
  · exact ((inv_request .xp3).2 hs).withSys rfl
  · exact hs

theorem Inv.agentStep (hs : Inv s) {e : Event} (h : agentStep e s = .next t) : Inv t := by
  cases e with
  | pass | setResetPins p | deferInterrupts =>
    cases h
    exact hs
  | setPins p =>
    cases h
    exact hs.setPins p
  | boardWrite bank a b =>
    cases h
    exact hs.withMem (ramCell_boardCell _ _ _) b
  | master m =>
    cases h
    split
    · exact hs.masterAccess m
    · exact hs
  | bslZeroByte t6 =>
    dsimp only [Machine.agentStep] at h
    split at h
    · exact hs.bootstrapZeroByte h
    · cases h
      exact hs
  | bslByte b =>
    obtain ⟨-, -, -, -, -, hload⟩ := id hs
    dsimp only [Machine.agentStep] at h
    split at h <;> cases h
    · next n hn => exact hs.bootstrapByte (hload n hn) b
    · exact hs
  | clockFail =>
    cases h
    exact hs.clockFails

/-! ## The steps -/

theorem Inv.cpuStep (hs : Inv s) (h : cpuStep s = .next t) : Inv t := by
  unfold Machine.cpuStep at h
  split at h
  · exact (hs.stalled .none).instructionStep h
  · exact (hs.stalled .none).runPec h
  · split at h
    · unfold runningStep at h
      split at h
      · next o ho => exact hs.boundaryAction (h ▸ ho)
      · exact hs.instructionStep h
    · exact hs.idleStep h
    · split at h
      · exact hs.finishReset h
      · cases h
        exact hs
    · cases h
      exact hs
    · cases h
      exact hs
    · cases h
      exact hs

theorem Inv.lapse {o : Host.Outcome State Fault Refusal} (ho : ∀ u, o = .next u → Inv u) (h : lapse o = .next t) : Inv t := by
  cases o with
  | next u =>
    cases h
    exact ho u rfl
  | fault e => cases h
  | refused r => cases h

theorem Inv.chipStep (hs : Inv s) (h : chipStep s = .next t) : Inv t := by
  unfold Machine.chipStep at h
  split at h
  · exact Inv.lapse (fun _ hu => hs.cpuStep hu) h
  · exact Inv.clockStep (s := { s with clocks := s.clocks - 1 }) hs h

/-- Settles O60: `Inv` is preserved by each thing that a step can be, an event of the outside, a clock, or a step of the CPU. -/
theorem invKeptByStep : Obligations.InvKeptByStep := by
  intro s t hs h
  unfold step at h
  split at h
  · exact hs.chipStep h
  · next rest _ => exact Inv.chipStep (s := { s with agenda := rest }) hs h
  · next e rest _ _ => exact Inv.agentStep (s := { s with agenda := rest }) hs h

end Sys2Proof.Machine
end

