-- ==== Sys2Proof/Proofs/RegOperands.lean ====
section
/-! PROOFS. Instructions with a `reg` destination: moves (O20) and the eight two-operand operations (O5, O6).
Spec: 30_encoding.md rule R135, 40_arithmetic.md rule R180, decision D15. -/

namespace Sys2Proof.Machine

open Sys2Proof.Claims

/-! ## Moves -/

theorem moveToReg_ok {reg : BitVec 8} {v : Word} {s w : State} (h : writeReg reg v s = .ok ((), w)) :
    moveToReg reg v s = .ok ((), w.setFlags (moveFlags v)) := by
  rw [moveToReg, Op.bind_of_ok h, setFlags_apply]

theorem moveToRegB_ok {reg : BitVec 8} {v : Byte} {s w : State} (h : writeRegB reg v s = .ok ((), w)) :
    moveToRegB reg v s = .ok ((), w.setFlags (moveFlags v)) := by
  rw [moveToRegB, Op.bind_of_ok h, setFlags_apply]

/-- A byte extension to `reg`: the write, then the flags. -/
theorem extendToReg_ok {reg : BitVec 8} {v : Word} {s w : State} (h : writeReg reg v s = .ok ((), w)) :
    (do writeReg reg v; setFlags (extendFlags v) : Op Unit) s = .ok ((), w.setFlags (extendFlags v)) := by
  rw [Op.bind_of_ok h, setFlags_apply]

/-- Settles O20: each form reads its operand, then moves it to `reg`. -/
theorem movesToReg : Obligations.MovesToReg := by
  intro reg d mem d8 s
  refine ⟨?_, ?_, ?_, ?_⟩
  · exact setsReg_of (len := 4) (body := moveToReg reg d) rfl (OnlyRead.refl _) (fun w hw => moveToReg_ok hw)
      (condFlags_moveFlags _ _)
  · exact setsRegB_of (len := 4) (body := moveToRegB reg d8) rfl (OnlyRead.refl _) (fun w hw => moveToRegB_ok hw)
      (condFlags_moveFlags _ _)
  · intro u v hread
    refine setsReg_of (len := 4) rfl (OnlyRead.readWordOperand hread) (fun w hw => ?_) (condFlags_moveFlags v _)
    exact (Op.bind_of_ok hread).trans (moveToReg_ok hw)
  · intro u v hread
    have read := OnlyRead.readByteOperand hread
    refine ⟨setsRegB_of (len := 4) rfl read (fun w hw => ?_) (condFlags_moveFlags v _),
      setsReg_of (len := 4) rfl read (fun w hw => ?_) (condFlags_extendFlags (v.signExtend 16) _),
      setsReg_of (len := 4) rfl read (fun w hw => ?_) (condFlags_extendFlags (v.setWidth 16) _)⟩
    · exact (Op.bind_of_ok hread).trans (moveToRegB_ok hw)
    · exact (Op.bind_of_ok hread).trans (extendToReg_ok hw)
    · exact (Op.bind_of_ok hread).trans (extendToReg_ok hw)

/-! ## The check of SP -/

theorem regIsSp_of_gpr {reg : BitVec 8} (h : regIsGpr reg = true) (s : State) : regIsSp s reg = false := by
  have notSp : (reg == 0x09) = false := by
    revert h
    revert reg
    decide
  rw [regIsSp, notSp, Bool.false_and]

/-- The check raises STKUF or STKOF as R100 says, starts the trap's delay with it, and changes nothing else. -/
theorem stackLimitCheck_apply (op : Alu) (reg : BitVec 8) (w : State) :
    ∃ delay, (limitTfr op w w reg ≠ w.cpu.tfr → delay = true)
      ∧ stackLimitCheck op reg w = .ok ((), { w with
          cpu := { w.cpu with tfr := limitTfr op w w reg }
          marks := { w.marks with stackDelay := delay } }) := by
  simp only [stackLimitCheck, update_apply, limitTfr]
  cases regIsSp w reg
  · exact ⟨w.marks.stackDelay, fun h => absurd rfl h, rfl⟩
  · cases op with
    | add | addc =>
      by_cases hlimit : w.cpu.stkun < w.cpu.sp
      · exact ⟨true, fun _ => rfl, by simp [hlimit, State.raise, withBit]⟩
      · exact ⟨w.marks.stackDelay, by simp [hlimit], by simp [hlimit]⟩
    | sub | subc =>
      by_cases hlimit : w.cpu.sp < w.cpu.stkov
      · exact ⟨true, fun _ => rfl, by simp [hlimit, State.raise, withBit]⟩
      · exact ⟨w.marks.stackDelay, by simp [hlimit], by simp [hlimit]⟩
    | and | or | xor | cmp => exact ⟨w.marks.stackDelay, fun h => absurd rfl h, rfl⟩

/-- On a GPR the two-operand instructions write the result and check nothing. -/
theorem writeAluReg_gpr (op : Alu) {reg : BitVec 8} (h : regIsGpr reg = true) :
    writeAluReg op reg = writeGpr (regGpr reg) := by
  funext v s
  rw [writeAluReg, Op.bind_apply, writeReg_gpr h, writeGpr_apply]
  cases gprWordOk s (regGpr reg)
  · rfl
  · simp [stackLimitCheck, regIsSp_of_gpr h]

/-! ## The eight operations on words -/

theorem exec_aluRegData16 (op : Alu) (reg : BitVec 8) (d : Word) (s : State) :
    exec (aluRegData16 op reg d) s = runInstr 4 (aluRegImm op reg d) s := by
  cases op <;> rfl

theorem exec_aluRegWithMem (op : Alu) (reg : BitVec 8) (mem : Word) (s : State) :
    exec (aluRegWithMem op reg mem) s = runInstr 4 (aluRegMem op reg mem) s := by
  cases op <;> rfl

theorem gprWordOk_of_readReg {reg : BitVec 8} {a : Word} {s u : State} (h : readReg reg s.begin = .ok (a, u))
    (hg : regIsGpr reg = true) : gprWordOk s (regGpr reg) = true := by
  rw [readReg_gpr hg] at h
  exact (readGpr_ok.1 h).1

theorem gprByteOk_of_readRegB {reg : BitVec 8} {a : Byte} {s u : State} (h : readRegB reg s.begin = .ok (a, u))
    (hg : regIsGpr reg = true) : gprByteOk s (regGpr reg) = true := by
  rw [readRegB_gpr hg] at h
  exact (readGprB_ok.1 h).1

/-- A comparison on operands that have been read in `u`. -/
theorem computes_cmp {w : Nat} {i : Instr} {len : Nat} {body : Op Unit} {s u : State} {a b : BitVec (w + 1)}
    {write : BitVec (w + 1) → Op Unit} (hi : exec i s = runInstr len body s) (hr : OnlyRead s.begin u)
    (hb : body s.begin = aluFinish .cmp a b write u) :
    Computes i (ipAfter len s) s u (aluCond .cmp a b (old s)) (bytesOf u) := by
  rw [aluFinish_cmp, hr.psw] at hb
  exact computes_of_quiet hi hr hb (Quiet.refl u) (condFlags_aluResult _ _ _ _) (fun _ => rfl)

/-- `op` on words whose operands have been read in `u`, with the result to `reg`. -/
theorem aluReg_of {op : Alu} {i : Instr} {body : Op Unit} {s u : State} {reg : BitVec 8} {a b : Word}
    (hi : exec i s = runInstr 4 body s) (hr : OnlyRead s.begin u)
    (hok : regIsGpr reg = true → gprWordOk s (regGpr reg) = true)
    (hb : body s.begin = aluFinish op a b (writeAluReg op reg) u) : AluReg op i s u reg a b := by
  refine ⟨fun hg => ?_, fun _ hop => ?_, fun w hg hop hw => ?_⟩
  · have ok : gprWordOk u (regGpr reg) = true := by rw [hr.gprWordOk, hok hg]
    obtain ⟨w, f, done, quiet, bytes, flags⟩ := aluFinish_gpr op a b (regGpr reg) ok
    rw [hr.psw] at bytes flags
    rw [hr.gprWordAddr] at bytes
    rw [writeAluReg_gpr op hg, done] at hb
    exact computes_of_quiet hi hr hb quiet flags bytes
  · subst hop
    exact computes_cmp hi hr hb
  · have kept : SfrKept u w := by
      rw [writeReg_sfr hg] at hw
      exact writeSfrWord_kept hw
    obtain ⟨delay, -, checked⟩ := stackLimitCheck_apply op reg w
    have limit : limitTfr op w w reg = limitTfr op s w reg := by
      have : regIsSp w reg = regIsSp s reg := by rw [regIsSp, kept.ext, hr.ext]; rfl
      unfold limitTfr
      rw [this]
    have written := hw
    rw [show aluValue op a b (old s).c = (aluResult op a b (bitOf u.cpu.psw 1) (bitOf u.cpu.psw 3)).1 by
      rw [aluResult_value, aluTested_of_ne hop, hr.psw]; rfl] at written
    rw [aluFinish_of_ne hop ((Op.bind_of_ok written).trans checked), limit] at hb
    have finished := finishes_of (fl := aluCond op a b (old s)) hi hb
      (kept.branched.trans (by rw [hr.marks]; rfl)) (kept.extStarted.trans (by rw [hr.marks]; rfl))
      (fun hp => by
        have : w.cpu.psw = s.cpu.psw := (kept.psw hp).trans hr.psw
        simp only [this, hr.psw]
        exact condFlags_aluResult _ _ _ _)
    exact ⟨runsTo_conv finished rfl (fun _ => rfl) ⟨by constructor <;> rfl, rfl⟩, fun x _ => by rw [kept.mem]⟩

/-- Settles O5: `reg` is read, then memory in the second form, and the operation ends in `aluFinish`. -/
theorem aluWordsOnReg : Obligations.AluWordsOnReg := by
  intro op reg d mem s u a hread
  have ok := gprWordOk_of_readReg hread
  refine ⟨?_, fun u2 b hmem => ?_⟩
  · exact aluReg_of (exec_aluRegData16 _ _ _ _) (OnlyRead.readReg hread) ok (Op.bind_of_ok hread)
  · exact aluReg_of (exec_aluRegWithMem _ _ _ _) ((OnlyRead.readReg hread).trans (OnlyRead.readWordOperand hmem)) ok
      ((Op.bind_of_ok hread).trans (Op.bind_of_ok hmem))

/-! ## The eight operations on bytes -/

theorem exec_aluRegData8 (op : Alu) (reg : BitVec 8) (d : Byte) (s : State) :
    exec (aluRegData8 op reg d) s = runInstr 4 (aluRegImmB op reg d) s := by
  cases op <;> rfl

theorem exec_aluRegWithMemB (op : Alu) (reg : BitVec 8) (mem : Word) (s : State) :
    exec (aluRegWithMemB op reg mem) s = runInstr 4 (aluRegMemB op reg mem) s := by
  cases op <;> rfl

theorem writeRegB_of_gpr {reg : BitVec 8} (h : regIsGpr reg = true) : writeRegB reg = writeGprB (regGpr reg) := by
  funext v s
  exact writeRegB_gpr h v s

/-- `op` on bytes whose operands have been read in `u`, with the result to `reg`. -/
theorem aluRegB_of {op : Alu} {i : Instr} {body : Op Unit} {s u : State} {reg : BitVec 8} {a b : Byte}
    (hi : exec i s = runInstr 4 body s) (hr : OnlyRead s.begin u)
    (hok : regIsGpr reg = true → gprByteOk s (regGpr reg) = true)
    (hb : body s.begin = aluFinish op a b (writeRegB reg) u) : AluRegB op i s u reg a b := by
  refine ⟨fun hg => ?_, fun _ hop => ?_, fun w hg hop hw => ?_⟩
  · have ok : gprByteOk u (regGpr reg) = true := by rw [hr.gprByteOk, hok hg]
    obtain ⟨w, f, done, quiet, bytes, flags⟩ := aluFinish_gprB op a b (regGpr reg) ok
    rw [hr.psw] at bytes flags
    rw [hr.gprByteAddr] at bytes
    rw [writeRegB_of_gpr hg, done] at hb
    exact computes_of_quiet hi hr hb quiet flags bytes
  · subst hop
    exact computes_cmp hi hr hb
  · have kept : SfrKept u w := by
      rw [writeRegB_sfr hg] at hw
      exact writeSfrWord_kept hw
    rw [show aluValue op a b (old s).c = (aluResult op a b (bitOf u.cpu.psw 1) (bitOf u.cpu.psw 3)).1 by
      rw [aluResult_value, aluTested_of_ne hop, hr.psw]; rfl] at hw
    rw [aluFinish_of_ne hop hw] at hb
    refine ⟨finishes_of hi hb (kept.branched.trans (by rw [hr.marks]; rfl))
      (kept.extStarted.trans (by rw [hr.marks]; rfl)) (fun hp => ?_), fun x _ => by rw [kept.mem]⟩
    rw [kept.psw hp, hr.psw]
    exact condFlags_aluResult _ _ _ _

/-- Settles O6: as O5, with byte operands and no check of SP. -/
theorem aluBytesOnReg : Obligations.AluBytesOnReg := by
  intro op reg d mem s u a hread
  have ok := gprByteOk_of_readRegB hread
  refine ⟨?_, fun u2 b hmem => ?_⟩
  · exact aluRegB_of (exec_aluRegData8 _ _ _ _) (OnlyRead.readRegB hread) ok (Op.bind_of_ok hread)
  · exact aluRegB_of (exec_aluRegWithMemB _ _ _ _) ((OnlyRead.readRegB hread).trans (OnlyRead.readByteOperand hmem)) ok
      ((Op.bind_of_ok hread).trans (Op.bind_of_ok hmem))

end Sys2Proof.Machine
end

