-- ==== Sys2Proof/Proofs/StackLimits.lean ====
section
/-! PROOFS. ADD, ADDC, SUB and SUBC on SP check its limits, with the trap one instruction later (O43).
Spec: 10_state.md rule R44, 60_exceptions.md rules R383 and R384, decisions D15 and D23. -/

namespace Sys2Proof.Machine

open Sys2Proof.Claims

theorem regSfrAddr_sfr {s : State} (h : esfrMode s.ext = false) (reg : BitVec 8) :
    regSfrAddr s reg = 0xFE00 + 2 * reg.toNat := by
  simp [regSfrAddr, h]

theorem regIsSp_sp {s : State} (h : esfrMode s.ext = false) : regIsSp s 0x09 = true := by
  simp [regIsSp, h]

/-- SP as `reg` reads as it stands. -/
theorem readReg_sp {s : State} (h : esfrMode s.ext = false) : readReg 0x09 s = .ok (s.cpu.sp, s) :=
  readReg_register (r := .sp) (by decide) (regSfrAddr_sfr h _) rfl

/-- SP as `reg` takes eleven bits, and the write is marked. -/
theorem writeReg_sp {s : State} (h : esfrMode s.ext = false) (v : Word) :
    writeReg 0x09 v s = .ok ((), { s with
      cpu := { s.cpu with sp := tieStack v }, marks := { s.marks with spWritten := true } }) :=
  writeReg_register (r := .sp) (by decide) (regSfrAddr_sfr h _) rfl rfl

theorem ne_cmp_of_checked {op : Alu} (h : op ∈ [Alu.add, .addc, .sub, .subc]) : op ≠ .cmp := by
  rintro rfl
  simp at h

/-- TFR after the check of SP, by the operation. -/
theorem limitTfr_sp {op : Alu} (hop : op ∈ [Alu.add, .addc, .sub, .subc]) {w : State} (h : esfrMode w.ext = false) :
    limitTfr op w w 0x09 = if op ∈ [Alu.add, .addc] then popTfr w.cpu w.cpu.sp else pushTfr w.cpu w.cpu.sp := by
  unfold limitTfr
  rw [if_pos (regIsSp_sp h)]
  cases op with
  | add | addc => simp [popTfr]
  | sub | subc => simp [pushTfr]
  | and | or | xor | cmp => simp at hop

/-- An instruction that has just started the stack trap's delay: no class A trap is taken at the boundary behind it. -/
theorem classATakeable_of_delay {s : State} (h : s.marks.stackDelay = true) : classATakeable s = false := by
  simp [classATakeable, h]

/-- The body of `op SP,#data16`: SP is read, written with its eleven bits, and checked. -/
theorem aluRegImm_sp {op : Alu} (hop : op ∈ [Alu.add, .addc, .sub, .subc]) {s : State} (hsfr : esfrMode s.ext = false)
    {d sp : Word} (hsp : sp = 0xF000 ||| (aluValue op s.cpu.sp d (old s).c &&& 0x0FFE)) :
    ∃ u f, aluRegImm op 0x09 d s.begin = .ok ((), u.setFlags f)
      ∧ u.cpu = { s.cpu with sp := sp, tfr := if op ∈ [Alu.add, .addc] then popTfr s.cpu sp else pushTfr s.cpu sp }
      ∧ (u.cpu.tfr ≠ s.cpu.tfr → u.marks.stackDelay = true)
      ∧ (u.marks.pswWritten = false ∧ u.marks.branched = false ∧ u.marks.extStarted = false)
      ∧ u.mem = s.mem ∧ SameOutside s u ∧ condFlags (f.apply s.cpu.psw) = aluCond op s.cpu.sp d (old s) := by
  have hne := ne_cmp_of_checked hop
  have value : (aluResult op s.cpu.sp d (bitOf s.cpu.psw 1) (bitOf s.cpu.psw 3)).1 = aluValue op s.cpu.sp d (old s).c := by
    rw [aluResult_value, aluTested_of_ne hne]
    rfl
  obtain ⟨w, hw⟩ : ∃ w, w = ({ s.begin with
      cpu := { s.begin.cpu with sp := sp }, marks := { s.begin.marks with spWritten := true } } : State) := ⟨_, rfl⟩
  have written : writeReg 0x09 (aluValue op s.cpu.sp d (old s).c) s.begin = .ok ((), w) := by
    rw [hw, hsp]
    exact writeReg_sp (s := s.begin) hsfr _
  have wcpu : w.cpu = { s.cpu with sp := sp } := by rw [hw]; rfl
  have wext : esfrMode w.ext = false := by rw [hw]; exact hsfr
  have wmarks : w.marks.pswWritten = false ∧ w.marks.branched = false ∧ w.marks.extStarted = false := by
    rw [hw]
    exact ⟨rfl, rfl, rfl⟩
  have wmem : w.mem = s.mem := by rw [hw]; rfl
  have wout : SameOutside s w := by
    rw [hw]
    exact ⟨by constructor <;> rfl, rfl⟩
  obtain ⟨delay, hdelay, checked⟩ := stackLimitCheck_apply op 0x09 w
  rw [limitTfr_sp hop wext, wcpu] at hdelay checked
  rw [← value] at written
  have stored : writeAluReg op 0x09 (aluResult op s.cpu.sp d (bitOf s.cpu.psw 1) (bitOf s.cpu.psw 3)).1 s.begin
      = .ok ((), { w with
          cpu := { w.cpu with tfr := if op ∈ [.add, .addc] then popTfr s.cpu sp else pushTfr s.cpu sp }
          marks := { w.marks with stackDelay := delay } }) := by
    rw [wcpu]
    exact (Op.bind_of_ok written).trans checked
  refine ⟨_, _, (Op.bind_of_ok (readReg_sp (s := s.begin) hsfr)).trans (aluFinish_of_ne hne stored), ?_, ?_, wmarks,
    wmem, wout.trans ⟨by constructor <;> rfl, rfl⟩, condFlags_aluResult _ _ _ _⟩
  · rw [wcpu]
  · exact hdelay

/-- Settles O43: the check of the body starts the delay where it raises a flag. -/
theorem stackLimitsOnArithmetic : Obligations.StackLimitsOnArithmetic := by
  intro op d sp s hsfr hop hsp
  obtain ⟨u, f, body, ucpu, udelay, ⟨upsw, ubranched, uext⟩, umem, uout, flags⟩ := aluRegImm_sp hop hsfr hsp
  have psw : u.cpu.psw = s.cpu.psw := by rw [ucpu]
  have runs := (exec_aluRegData16 op 0x09 d s).trans (runInstr_of_ok body)
  obtain ⟨t, ht, tcpu, -, tmem, tout⟩ := finishes_of
    (fl := aluCond op s.cpu.sp d (old s)) (exec_aluRegData16 op 0x09 d s) body ubranched uext
    (fun _ => by rw [psw]; exact flags)
  have tdelay : t.marks.stackDelay = u.marks.stackDelay := by
    have := ht.symm.trans runs
    cases this
    rw [finish, setFlags_marks]
  rw [upsw, ucpu] at tcpu
  refine ⟨t, ht, tcpu, fun x => ?_, uout.trans tout, fun raised => classATakeable_of_delay ?_⟩
  · rw [tmem, bytesOf, umem]
    rfl
  · rw [tdelay]
    rw [ucpu] at udelay
    exact udelay (by rwa [tcpu] at raised)

end Sys2Proof.Machine
end

