-- ==== Sys2Proof/Proofs/SfrOperands.lean ====
section
/-! PROOFS. Operands at addresses of the SFR and ESFR spaces, words and bytes (O42).
Spec: 20_memory.md rules R54, R56, R83 and R104, decision D4. -/

namespace Sys2Proof.Machine

open Sys2Proof.Claims

theorem areaOf_sfr (s : State) (syscon : Word) {a : PhysAddr} (h : inSfrSpaces a.toNat) :
    areaOf s syscon a = .sfr (a.toNat - a.toNat % 2) := by
  unfold inSfrSpaces at h
  simp only [areaOf]
  rw [if_pos (by omega), if_pos (by omega)]

/-- The lowest bit of a data address is its physical address's, through a DPP and past it. -/
theorem dataAddr_getLsbD_zero (s : State) (a : Word) : (dataAddr s a).getLsbD 0 = isOdd a := by
  unfold dataAddr
  cases activeOverride s.ext <;> simp only [BitVec.getLsbD_append] <;> simp [isOdd]

theorem toNat_mod_two_of_even {a : PhysAddr} (h : a.getLsbD 0 = false) : a.toNat % 2 = 0 := by
  rw [BitVec.getLsbD, Nat.testBit_zero, decide_eq_false_iff_not] at h
  omega

theorem readPhysWord_sfr {s : State} {a : PhysAddr} {n : Nat} (h : areaOf s s.prev.cpu.syscon a = .sfr n) :
    readPhysWord a s = readSfrWord n s := by
  rw [readPhysWord, Op.bind_of_ok (look_apply _ _), h]

theorem writePhysWord_sfr {s : State} {a : PhysAddr} {n : Nat} (h : areaOf s s.prev.cpu.syscon a = .sfr n) (v : Word) :
    writePhysWord a v s = writeSfrWord n v s := by
  rw [writePhysWord, Op.bind_of_ok (look_apply _ _), h]

theorem readPhysByte_sfr {s t : State} {a : PhysAddr} {n : Nat} {w : Word} (h : areaOf s s.prev.cpu.syscon a = .sfr n)
    (hr : readSfrWord n s = .ok (w, t)) : readPhysByte a s = .ok (halfOf (a.getLsbD 0) w, t) := by
  rw [readPhysByte, Op.bind_of_ok (look_apply _ _), h]
  exact Op.bind_of_ok hr

theorem writePhysByte_sfr {s : State} {a : PhysAddr} {n : Nat} (h : areaOf s s.prev.cpu.syscon a = .sfr n) (v : Byte) :
    writePhysByte a v s = writeSfrWord n (byteInWord (a.getLsbD 0) v) s := by
  rw [writePhysByte, Op.bind_of_ok (look_apply _ _), h]

theorem lowByte_eq_extractLsb' (w : Word) : lowByte w = w.extractLsb' 0 8 := by
  simp [lowByte, BitVec.setWidth_eq_extractLsb']

theorem highByte_eq_extractLsb' (w : Word) : highByte w = w.extractLsb' 8 8 := by
  ext i hi
  simp [highByte]

theorem zero_append_byte (d : Byte) : 0x00#8 ++ d = d.setWidth 16 := by
  refine BitVec.eq_of_getLsbD_eq fun i hi => ?_
  simp only [BitVec.getLsbD_append, BitVec.getLsbD_setWidth, BitVec.getLsbD_zero]
  by_cases hlow : i < 8
  · simp [hlow, hi]
  · simp [hlow, BitVec.getLsbD_of_ge d i (by omega)]

/-- A byte write through a `reg` that is no GPR is the word write with the high byte 00h. -/
theorem writeRegB_eq_writeReg {reg : BitVec 8} (h : regIsGpr reg = false) (d : Byte) (s : State) :
    writeRegB reg d s = writeReg reg (0x00#8 ++ d) s := by
  rw [writeRegB_sfr h, writeReg_sfr h, zero_append_byte]

/-- MOVB MDH,#data8: MDH takes the byte, and MDRIU is set. -/
theorem movb_mdh (d : Byte) {s : State} (h : esfrMode s.ext = false) :
    RunsTo (.movbRegData8 0x06 d) s
      { s.cpu with mdh := 0x00#8 ++ d, mdc := s.cpu.mdc ||| 0x0010, ip := ipAfter 4 s
                   psw := putCond s.cpu.psw (moveCond d (old s)) } s.ext.tick (bytesOf s) s := by
  have hg : regIsGpr 0x06 = false := by decide
  have written : writeRegB 0x06 d s.begin = .ok ((), writeSfr .mdh (0x00#8 ++ d) s.begin) := by
    rw [writeRegB_eq_writeReg hg]
    exact writeReg_register hg (regSfrAddr_sfr (s := s.begin) h _) rfl rfl
  have finished := finishes_of (i := .movbRegData8 0x06 d) (s := s) (fl := moveCond d (old s)) (len := 4)
    (body := moveToRegB 0x06 d) rfl (moveToRegB_ok written) rfl rfl (fun _ => condFlags_moveFlags _ _)
  exact runsTo_conv finished rfl (fun _ => rfl) ⟨by constructor <;> rfl, rfl⟩

/-- Settles O42: an address of the SFR spaces is an SFR's by the decode order, its half by the lowest address bit. -/
theorem sfrOperands : Obligations.SfrOperands := by
  refine ⟨fun a v s n hmap hn hspace => ⟨fun heven => ?_, fun w t hread => ?_⟩,
    fun reg d s hg => writeRegB_eq_writeReg hg d s, fun a d s n v hmap hn hspace hv => ?_, fun d s h => movb_mdh d h⟩
  · subst hn
    have area := areaOf_sfr s s.prev.cpu.syscon hspace
    rw [toNat_mod_two_of_even (dataAddr_even heven), Nat.sub_zero] at area
    rw [readWordOperand_apply, writeWordOperand_apply, heven, hmap]
    exact ⟨readPhysWord_sfr area, writePhysWord_sfr area v⟩
  · subst hn
    rw [readByteOperand_apply, hmap, if_neg (by simp), readPhysByte_sfr (areaOf_sfr s _ hspace) hread,
      dataAddr_getLsbD_zero, halfOf, lowByte_eq_extractLsb', highByte_eq_extractLsb']
  · subst hn
    have store : writeByteOperand a d s = writeSfrWord ((dataAddr s a).toNat - (dataAddr s a).toNat % 2) v s := by
      rw [writeByteOperand_apply, hmap, if_neg (by simp), writePhysByte_sfr (areaOf_sfr s _ hspace),
        dataAddr_getLsbD_zero, hv]
      rfl
    rw [store, writeSfrWord_ok]
    constructor
    · intro r hr hrefusal
      rw [writeSfrWord, hr]
      simp only [hrefusal]
    · intro hr
      rw [hr]

end Sys2Proof.Machine
end

