-- ==== Sys2Proof/Proofs/SoftwareReset.lean ====
section
/-! PROOFS. SRST: the start of the reset sequence, its clocks, and its end (O37).
Spec: 70_reset_and_hazards.md rules R670 to R684, 60_exceptions.md rule R316, decisions D28 and D29. -/

namespace Sys2Proof.Machine

open Sys2Proof.Claims

variable {s : State} {cause : ResetCause}

theorem step_of_agenda_empty (h : s.agenda = []) : step s = chipStep s := by
  rw [step, h]

theorem chipStep_of_clocks_zero (h : s.clocks = 0) : chipStep s = lapse (cpuStep s) := by
  rw [chipStep, if_pos h]

theorem resetUnderWay_startReset (cause : ResetCause) (s : State) : ResetUnderWay cause s (startReset cause s) := by
  unfold ResetUnderWay
  and_intros <;> rfl

/-- In reset the peripherals stand still, so that a clock only passes. -/
theorem step_inReset_clock (ha : s.agenda = []) (hp : s.sys.power = .inReset cause) (k : Nat) :
    step { s with clocks := k + 1 } = .next { s with clocks := k } := by
  rw [step_of_agenda_empty (by exact ha)]
  simp [chipStep, clockStep, hp, peripheralsRun]

theorem cpuStep_inReset (hp : s.sys.power = .inReset cause) (hstall : s.sys.stall = .none) :
    cpuStep s = if s.pins.rstin then finishReset cause s else .next s := by
  rw [cpuStep, hstall]
  simp only [hp]

theorem finishReset_software (s : State) : finishReset .software s = .next (s.resetRegisters .software).latchPins := by
  rw [finishReset, if_neg (by simp)]

/-- After a software reset the CPU runs; SYS keeps the loss of the clock, and has sampled the pins. -/
theorem sys_latchPins_software (s : State) : (s.resetRegisters .software).latchPins.sys
    = { Sys.reset with
        nmiSample := s.pins.nmi, exSample := (s.resetRegisters .software).latchPins.sys.exSample
        clockLost := s.sys.clockLost } := by
  have kept : (s.sys.clockLost && decide (ResetCause.software ≠ .hardware)) = s.sys.clockLost := by simp
  rw [State.latchPins, State.resample, State.resetRegisters, kept]
  rfl

/-- Settles O37: the reset state is written out, its clocks change nothing, and the step of the CPU behind them ends it. -/
theorem softwareReset : Obligations.SoftwareReset := by
  intro s
  refine ⟨startReset .software s, rfl, rfl, resetUnderWay_startReset .software s, fun ha k => ?_, fun ha hpin => ?_,
    fun ha hpin => ⟨(({ startReset .software s with clocks := 0 } : State).resetRegisters .software).latchPins, ?_, ?_⟩⟩
  · exact step_inReset_clock (s := startReset .software s) ha rfl k
  · rw [step_of_agenda_empty (by exact ha), chipStep_of_clocks_zero rfl, cpuStep_inReset rfl rfl, if_neg (by simp [hpin])]
  · rw [step_of_agenda_empty (by exact ha), chipStep_of_clocks_zero rfl, cpuStep_inReset rfl rfl, if_pos (by exact hpin),
      finishReset_software]
  · have lost : (s.sys.clockLost && decide (ResetCause.software ≠ .hardware)) = s.sys.clockLost := by simp
    refine ⟨rfl, rfl, rfl, rfl, rfl, ?_, ?_⟩
    · refine (sys_latchPins_software _).trans ?_
      rw [show ({ startReset .software s with clocks := 0 } : State).sys.clockLost = s.sys.clockLost from lost]
      rfl
    · and_intros <;> rfl

end Sys2Proof.Machine
end

