-- ==== Sys2Proof/Proofs/FetchStep.lean ====
section
/-! PROOFS. The fetch of an instruction that can be fetched, and the step that runs it (O50).
Spec: 20_memory.md rules R90 and R107, 30_encoding.md rule R131, 62_external_bus.md rule R480. -/

namespace Sys2Proof.Machine

open Sys2Proof.Claims

variable {s t u : State} {a : PhysAddr}

/-! ## Traces -/

theorem onlyTraces_refl (s : State) : OnlyTraces s s := ⟨rfl, List.suffix_refl _, rfl, rfl, rfl⟩

theorem onlyTraces_trans (hst : OnlyTraces s t) (htu : OnlyTraces t u) : OnlyTraces s u := by
  obtain ⟨same, answers, held, breq, hlden⟩ := hst
  obtain ⟨same', answers', held', breq', hlden'⟩ := htu
  refine ⟨same'.trans ?_, answers'.trans answers, held'.trans held, breq'.trans breq, hlden'.trans hlden⟩
  rw [same]

theorem onlyTraces_mayReadAhead (s : State) (words : List PhysAddr) : OnlyTraces s (s.mayReadAhead words) :=
  ⟨rfl, List.suffix_refl _, rfl, rfl, rfl⟩

theorem onlyTraces_afterInstruction (s : State) : OnlyTraces s (afterInstruction s) := by
  obtain ⟨same, held, breq, hlden, -⟩ := afterInstruction_spec s
  have answers : (afterInstruction s).answers = s.answers := by rw [same]
  exact ⟨by rw [answers]; exact same, by rw [answers], held, breq, hlden⟩

/-- A bus cycle that can take place at once leaves its traces. -/
theorem busCycle_traces (hu : Undisturbed s) (hstop : externalStop s a = none) (wide : Bool) (data : Option Word) :
    ∃ t, busCycle a wide data s = .ok ((), t) ∧ OnlyTraces s t := by
  refine ⟨_, busCycle_ok.2 ⟨hstop, rfl⟩, ?_⟩
  rw [beforeCycle_of_undisturbed hu]
  exact ⟨rfl, List.suffix_refl _, rfl, rfl, rfl⟩

/-- Traces say nothing of whether other masters come in between, nor of what the board has where. -/
theorem Undisturbed.ofTraces (h : OnlyTraces s t) (hu : Undisturbed s) : Undisturbed t := by
  obtain ⟨same, -⟩ := h
  rw [same]
  exact hu

theorem regionKind_traces (h : OnlyTraces s t) (a : PhysAddr) : regionKind t a = regionKind s a := by
  obtain ⟨same, -⟩ := h
  rw [same]
  rfl

theorem externalStop_traces (h : OnlyTraces s t) (a : PhysAddr) : externalStop t a = externalStop s a := by
  obtain ⟨same, -, held, -⟩ := h
  rw [same]
  unfold externalStop
  rw [held]

/-! ## Words of code -/

theorem windowsOverlap_succ (b : Bus) (h : a.getLsbD 0 = false) : windowsOverlap b (a + 1) = windowsOverlap b a := by
  simp only [windowsOverlap, windowMatch_succ b _ h]

/-- The two bytes of a word share their window. -/
theorem externalStop_succ (s : State) (h : a.getLsbD 0 = false) : externalStop s (a + 1) = externalStop s a := by
  simp only [externalStop, windowsOverlap_succ _ h, selectBuscon_succ _ h]

theorem readExternalByte_ready (hu : Undisturbed s) (hstop : externalStop s a = none) (hk : regionKind s a ≠ .device) :
    ∃ t, readExternalByte a s = .ok (Memory.read s.mem (externalCell s a), t) ∧ OnlyTraces s t := by
  obtain ⟨t, cycle, traces⟩ := busCycle_traces hu hstop false none
  refine ⟨t, ?_, traces⟩
  have cell : Memory.read t.mem (externalCell t a) = Memory.read s.mem (externalCell s a) := by
    obtain ⟨same, -⟩ := traces
    rw [same]
    rfl
  rw [readExternalByte, Op.bind_of_ok cycle, Op.bind_of_ok (look_apply _ _), regionKind_traces traces, ← cell]
  cases h : regionKind s a with
  | device => exact absurd h hk
  | ram | rom => rfl

theorem readExternalWord_ready (he : a.getLsbD 0 = false) (hu : Undisturbed s) (hstop : externalStop s a = none)
    (hk : regionKind s a ≠ .device) (hk1 : regionKind s (a + 1) ≠ .device) :
    ∃ t, readExternalWord a s = .ok (Memory.readWord s.mem (externalCell s a), t) ∧ OnlyTraces s t := by
  rw [readExternalWord, Op.bind_of_ok (look_apply _ _)]
  cases byteBus s a with
  | true =>
    obtain ⟨t, low, traces⟩ := readExternalByte_ready hu hstop hk
    have stop1 : externalStop t (a + 1) = none := by rw [externalStop_traces traces, externalStop_succ s he, hstop]
    have kind1 : regionKind t (a + 1) ≠ .device := by rwa [regionKind_traces traces]
    obtain ⟨t', high, traces'⟩ := readExternalByte_ready (Undisturbed.ofTraces traces hu) stop1 kind1
    refine ⟨t', ?_, onlyTraces_trans traces traces'⟩
    have cell : Memory.read t.mem (externalCell t (a + 1)) = Memory.read s.mem (externalCell s a + 1) := by
      rw [← externalCell_succ s he]
      obtain ⟨same, -⟩ := traces
      rw [same]
      rfl
    rw [cell] at high
    exact (Op.bind_of_ok low).trans (Op.bind_of_ok high)
  | false =>
    obtain ⟨t, cycle, traces⟩ := busCycle_traces hu hstop true none
    refine ⟨t, ?_, traces⟩
    have cell : Memory.readWord t.mem (externalCell t a) = Memory.readWord s.mem (externalCell s a) := by
      obtain ⟨same, -⟩ := traces
      rw [same]
      rfl
    rw [if_neg (by simp), Op.bind_of_ok cycle, Op.bind_of_ok (look_apply _ _), regionKind_traces traces, ← cell]
    cases h : regionKind s a with
    | device => exact absurd h hk
    | ram | rom => rfl

/-- A word of code that can be fetched is what the place of the fetch holds; from inside the chip it leaves no trace. -/
theorem fetchWord_ready (he : a.getLsbD 0 = false) (hu : Undisturbed s) (h : CodeReady s a) :
    ∃ t, fetchWord a s = .ok (codeAt s a, t) ∧ OnlyTraces s t ∧ (fetchArea s a ≠ .external → t = s) := by
  obtain ⟨allowed, -, outside⟩ := h
  rw [fetchWord, Op.bind_of_ok (look_apply _ _), allowed]
  dsimp only
  rw [codeWord, Op.bind_of_ok (look_apply _ _)]
  unfold codeAt
  cases area : fetchArea s a with
  | external =>
    obtain ⟨stop, kind, kind1⟩ := outside area
    obtain ⟨t, word, traces⟩ := readExternalWord_ready he hu stop kind kind1
    exact ⟨t, by rw [cellOf_external area]; exact word, traces, fun no => absurd rfl no⟩
  | rom o => exact ⟨s, rfl, onlyTraces_refl s, fun _ => rfl⟩
  | iram => exact ⟨s, by rw [cellOf_iram area]; rfl, onlyTraces_refl s, fun _ => rfl⟩
  | sfr _ | reserved | ssp _ =>
    rw [fetchRefusal, area] at allowed
    split at allowed <;> cases allowed

theorem codeReady_traces (h : OnlyTraces s t) (hr : CodeReady s a) : CodeReady t a := by
  obtain ⟨allowed, recent, outside⟩ := hr
  have stop := externalStop_traces h a
  refine ⟨?_, ?_, fun area => ?_⟩
  · obtain ⟨same, -⟩ := h
    rw [same]
    exact allowed
  · obtain ⟨same, -⟩ := h
    rw [same]
    exact recent
  · rw [stop, regionKind_traces h, regionKind_traces h]
    refine outside ?_
    obtain ⟨same, -⟩ := h
    rw [same] at area
    exact area

theorem codeAddr_even {ip : Word} (h : isOdd ip = false) : (codeAddr s ip).getLsbD 0 = false := by
  unfold codeAddr
  split
  · simpa [isOdd] using h
  · simp only [BitVec.getLsbD_append]
    simpa [isOdd] using h

theorem isOdd_add_two {ip : Word} (h : isOdd ip = false) : isOdd (ip + 2) = false := by
  unfold isOdd at *
  simp only [BitVec.getLsbD, Nat.testBit_zero, BitVec.toNat_add, decide_eq_false_iff_not] at *
  have two : (2 : Word).toNat = 2 := rfl
  omega

/-- Neither do traces say anything of what a fetch reads where. -/
theorem fetchAddr2_traces (h : OnlyTraces s t) : fetchAddr2 t = fetchAddr2 s := by
  obtain ⟨same, -⟩ := h
  rw [same]
  rfl

theorem fetchArea_traces (h : OnlyTraces s t) (a : PhysAddr) : fetchArea t a = fetchArea s a := by
  obtain ⟨same, -⟩ := h
  rw [same]
  rfl

theorem codeAt_traces (h : OnlyTraces s t) (a : PhysAddr) : codeAt t a = codeAt s a := by
  obtain ⟨same, -⟩ := h
  rw [same]
  rfl

theorem straddles_traces (h : OnlyTraces s t) : straddles t = straddles s := by
  obtain ⟨same, -⟩ := h
  rw [same]
  rfl

/-! ## The instruction at IP -/

theorem decodedAt_of_short (h : firstWordDecides (codeAt s (fetchAddr s)) = true) :
    decodedAt s = decodeBytes (lowByte (codeAt s (fetchAddr s))) (highByte (codeAt s (fetchAddr s))) 0 0 := by
  simp only [decodedAt, h, if_true]
  rfl

theorem decodedAt_of_long (h : firstWordDecides (codeAt s (fetchAddr s)) = false) :
    decodedAt s = decodeBytes (lowByte (codeAt s (fetchAddr s))) (highByte (codeAt s (fetchAddr s)))
      (lowByte (codeAt s (fetchAddr2 s))) (highByte (codeAt s (fetchAddr2 s))) := by
  simp [decodedAt, h]

/-- The second word, behind a first one whose fetch has left traces. -/
theorem fetchSecond_ready (traces : OnlyTraces s t) (even : isOdd s.cpu.ip = false) (hu : Undisturbed s)
    (straight : straddles s = false) (ready : CodeReady s (fetchAddr2 s)) (w : Word) :
    ∃ t', fetchSecond s w t = fetchDecode (decodeBytes (lowByte w) (highByte w)
        (lowByte (codeAt s (fetchAddr2 s))) (highByte (codeAt s (fetchAddr2 s)))) t'
      ∧ OnlyTraces s t' ∧ (fetchArea s (fetchAddr2 s) ≠ .external → t' = t) := by
  have readyT := codeReady_traces traces ready
  obtain ⟨-, recent, -⟩ := id readyT
  have even2 : (fetchAddr2 s).getLsbD 0 = false := codeAddr_even (isOdd_add_two even)
  obtain ⟨t', second, traces', inside⟩ := fetchWord_ready even2 (Undisturbed.ofTraces traces hu) readyT
  rw [codeAt_traces traces] at second
  rw [fetchArea_traces traces] at inside
  refine ⟨t', ?_, onlyTraces_trans traces traces', inside⟩
  unfold fetchSecond
  rw [straddles_traces traces, straight, fetchAddr2_traces traces, recent]
  simp only [second]
  rfl

/-- What can be fetched is fetched as `decodedAt` reads it. -/
theorem fetch_ready (h : Fetchable s) :
    ∃ t, fetch s = fetchDecode (decodedAt s) t ∧ OnlyTraces s t ∧ (CodeInside s → t = s) := by
  obtain ⟨even, cache, crosses, ready, second, undisturbed⟩ := h
  obtain ⟨-, recent, -⟩ := id ready
  have even1 : (fetchAddr s).getLsbD 0 = false := codeAddr_even even
  obtain ⟨t, first, traces, inside⟩ := fetchWord_ready even1 undisturbed ready
  have fetched : fetch s = if firstWordDecides (codeAt s (fetchAddr s))
      then fetchDecode (decodeBytes (lowByte (codeAt s (fetchAddr s))) (highByte (codeAt s (fetchAddr s))) 0 0) t
      else fetchSecond s (codeAt s (fetchAddr s)) t := by
    unfold fetch
    rw [even, cache, crosses, recent]
    simp only [first]
    rfl
  rw [fetched]
  cases hshort : firstWordDecides (codeAt s (fetchAddr s)) with
  | true =>
    rw [decodedAt_of_short hshort, if_pos rfl]
    exact ⟨t, rfl, traces, fun ⟨area, _⟩ => inside area⟩
  | false =>
    rw [decodedAt_of_long hshort, if_neg (by simp)]
    have long : ¬ short s := by simp [short, hshort]
    obtain ⟨straight, ready2⟩ := second long
    obtain ⟨t', next, traces', inside'⟩ := fetchSecond_ready traces even undisturbed straight ready2 (codeAt s (fetchAddr s))
    exact ⟨t', next, traces', fun ⟨area, area2⟩ => (inside' (area2 long)).trans (inside area)⟩

/-! ## The step -/

/-- At a boundary at which the hardware does nothing of its own the step is an instruction's. -/
theorem step_instruction (hb : AtBoundary s) (ht : NoTrap s) (hr : acceptedRequest s = none) :
    step s = lapse (instructionStep s) := by
  obtain ⟨agenda, clocks, stall, power, hold⟩ := hb
  obtain ⟨noA, noB⟩ := ht
  have quiet : boundaryAction s = none := by
    rw [boundaryAction, hold]
    simp only [noA, noB, hr]
    rfl
  rw [step_of_agenda_empty agenda, chipStep_of_clocks_zero clocks, cpuStep, stall]
  simp only [power, runningStep, quiet]

theorem instructionStep_of_decoded {i : Instr} (hf : fetch s = fetchDecode (decodedAt s) t) (hd : decodedAt s = .instr i) :
    instructionStep s = runFetched s i t := by
  rw [hd] at hf
  rw [instructionStep, hf]
  rfl

/-- With no external word behind the instruction there is nothing to read ahead. -/
theorem wordsAhead_nil {len : Nat}
    (h : ∀ k ∈ [len, len + 2], fetchArea s (codeAddr s (s.cpu.ip + BitVec.ofNat 16 k)) ≠ .external) :
    wordsAhead s len = [] := by
  unfold wordsAhead
  rw [List.filter_eq_nil_iff]
  intro a ha
  obtain ⟨k, hk, rfl⟩ := List.mem_map.1 ha
  simp [h k hk]

/-- Behind the fetch, `exec` runs in a state that differs by traces, and the prefetcher leaves traces behind it. -/
theorem runFetched_traces (s t : State) (i : Instr) :
    ∃ t', OnlyTraces t t' ∧ (∀ u, exec i t' = .next u → ∃ w, OnlyTraces u w ∧ runFetched s i t = .next w)
      ∧ ((∀ u, exec i t' ≠ .next u) → runFetched s i t = exec i t') := by
  unfold runFetched
  cases wordsAhead s i.length with
  | nil => exact ⟨_, onlyTraces_mayReadAhead _ _, fun u hu => ⟨u, onlyTraces_refl u, hu⟩, fun _ => rfl⟩
  | cons a rest =>
    refine ⟨_, onlyTraces_mayReadAhead t (a :: rest), fun u hu => ⟨_, onlyTraces_afterInstruction u, ?_⟩, fun no => ?_⟩
    · simp only [hu]
    · cases h : exec i (t.mayReadAhead (a :: rest)) with
      | next u => exact absurd h (no u)
      | fault _ | refused _ => simp only [h]

theorem lapse_of_not_next {o : Host.Outcome State Fault Refusal} (h : ∀ u, o ≠ .next u) : lapse o = o := by
  cases o with
  | next u => exact absurd rfl (h u)
  | fault _ | refused _ => rfl

/-- Settles O50: the fetch delivers what `decodedAt` says, and the step runs it. -/
theorem stepRunsDecoded : Obligations.StepRunsDecoded := by
  intro i s boundary noTrap noRequest fetchable decoded
  obtain ⟨t, fetched, traces, inside⟩ := fetch_ready fetchable
  have runs := step_instruction boundary noTrap noRequest
  rw [instructionStep_of_decoded fetched decoded] at runs
  rw [runs]
  refine ⟨wellFormed_of_decodeBytes decoded, fun code ahead => ?_, ?_⟩
  · rw [inside code, runFetched, wordsAhead_nil ahead]
  · obtain ⟨t', traces', next, stop⟩ := runFetched_traces s t i
    refine ⟨t', onlyTraces_trans traces traces', fun u hu => ?_, fun no => ?_⟩
    · obtain ⟨w, tracesW, ran⟩ := next u hu
      exact ⟨w, tracesW, by rw [ran]⟩
    · rw [stop no, lapse_of_not_next no]

end Sys2Proof.Machine
end

