-- ==== Sys2Proof/Proofs/RegisterWrites.lean ====
section
/-! PROOFS. MOV reg,#data16 into each register: the bits it takes, and its effects (the writes of O41).
Spec: 10_state.md rules R39 to R57, 61_interrupts.md rule R345, decisions D4, D27, D31. -/

namespace Sys2Proof.Machine

open Sys2Proof.Claims

variable {s : State} {d : Word} {reg : BitVec 8} {r : Sfr} {w : State}

/-! ## The register that a `reg` names -/

/-- `reg` is the short address of the register `r`, in the space that short addresses reach now. -/
structure RegNames (s : State) (reg : BitVec 8) (r : Sfr) : Prop where
  notGpr : regIsGpr reg = false
  address : regSfrAddr s reg = sfrAddr r

theorem RegNames.sfr (h : esfrMode s.ext = false) (hg : regIsGpr reg = false := by decide)
    (ha : 0xFE00 + 2 * reg.toNat = sfrAddr r := by decide) : RegNames s reg r :=
  ⟨hg, (regSfrAddr_sfr h reg).trans ha⟩

theorem RegNames.esfr (h : esfrMode s.ext = true) (hg : regIsGpr reg = false := by decide)
    (ha : 0xF000 + 2 * reg.toNat = sfrAddr r := by decide) : RegNames s reg r :=
  ⟨hg, by simp [regSfrAddr, h, ← ha]⟩

theorem RegNames.write (h : RegNames s reg r) (hp : sfrPresent s.board r = true) (hr : sfrWriteRefusal r d s = none) :
    writeReg reg d s = .ok ((), writeSfr r d s) :=
  writeReg_register h.notGpr h.address hp hr

theorem RegNames.read (h : RegNames s reg r) (hp : sfrPresent s.board r = true) :
    readReg reg s = .ok (readSfr r s, sfrReadEffect r s) :=
  readReg_register h.notGpr h.address hp

theorem RegNames.read_absent (h : RegNames s reg r) (hp : sfrPresent s.board r = false) : readReg reg s = .ok (0, s) :=
  (reg_absent h.notGpr h.address hp 0).1

theorem RegNames.begin (h : RegNames s reg r) : RegNames s.begin reg r := ⟨h.notGpr, h.address⟩

/-! ## MOV reg,#data16 -/

/-- MOV reg,#data16 is the register's write, with the flags of the move unless the write has set them. -/
theorem finishes_writeSfr (h : RegNames s reg r) (hp : sfrPresent s.board r = true)
    (hr : sfrWriteRefusal r d s.begin = none) :
    Finishes (.movRegData16 reg d) (ipAfter 4 s) s (writeSfr r d s.begin) (moveCond d (old s)) := by
  have kept := writeSfr_kept r d s.begin
  refine finishes_of (len := 4) (body := moveToReg reg d) rfl (moveToReg_ok (h.begin.write hp hr)) kept.branched
    kept.extStarted (fun quiet => ?_)
  rw [kept.psw quiet]
  exact condFlags_moveFlags _ _

/-- A write that leaves PSW alone sets the flags of the move; `u` is the state behind the write. -/
theorem movesTo_of (r : Sfr) {u : State} (h : RegNames s reg r) (written : writeSfr r d s.begin = u)
    (hr : sfrWriteRefusal r d s.begin = none) (hp : sfrPresent s.board r = true) (hpsw : u.marks.pswWritten = false)
    {c : Cpu} (hcpu : u.cpu = c) (hout : SameOutside w u) :
    RunsTo (.movRegData16 reg d) s { c with ip := ipAfter 4 s, psw := putCond s.cpu.psw (moveCond d (old s)) } s.ext.tick
      (bytesOf s) w := by
  subst written
  have kept := writeSfr_kept r d s.begin
  refine runsTo_conv (finishes_writeSfr h hp hr) ?_ (fun x => ?_) hout
  · rw [hpsw, kept.psw hpsw, hcpu]
    rfl
  · rw [bytesOf, kept.mem]
    rfl

theorem movesToCpu_of (r : Sfr) {u : State} {c : Cpu} (h : RegNames s reg r) (written : writeSfr r d s.begin = u)
    (hr : sfrWriteRefusal r d s.begin = none := by rfl) (hp : sfrPresent s.board r = true := by rfl)
    (hpsw : u.marks.pswWritten = false := by rfl) (hcpu : u.cpu = c := by rfl)
    (hout : SameOutside s u := by exact ⟨by constructor <;> rfl, rfl⟩) : MovesToCpu reg d s c :=
  movesTo_of r h written hr hp hpsw hcpu hout

theorem movesOutside_of (r : Sfr) {u : State} (h : RegNames s reg r) (written : writeSfr r d s.begin = u)
    (hr : sfrWriteRefusal r d s.begin = none := by rfl) (hp : sfrPresent s.board r = true := by rfl)
    (hpsw : u.marks.pswWritten = false := by rfl) (hcpu : u.cpu = s.cpu := by rfl)
    (hout : SameOutside w u := by exact ⟨by constructor <;> rfl, rfl⟩) : MovesOutside reg d s w :=
  movesTo_of r h written hr hp hpsw hcpu hout

/-- A register that the device lacks takes nothing. -/
theorem movesOutside_absent (h : RegNames s reg r) (hp : sfrPresent s.board r = false) : MovesOutside reg d s s := by
  have written : writeReg reg d s.begin = .ok ((), s.begin) :=
    (reg_absent h.begin.notGpr h.begin.address hp d).2
  exact runsTo_conv (finishes_of (i := .movRegData16 reg d) (s := s) (fl := moveCond d (old s)) (len := 4)
    (body := moveToReg reg d) rfl (moveToReg_ok written) rfl rfl (fun _ => condFlags_moveFlags _ _))
    rfl (fun _ => rfl) ⟨by constructor <;> rfl, rfl⟩

/-! ## The CPU's registers -/

/-- Before EINIT a write of SYSCON reaches SYSCON and what the hazards of the ROM mapping remember. -/
theorem writeSyscon_open (h : s.sys.einitDone = false) :
    ∃ hz, writeSyscon d s = { s with cpu := { s.cpu with syscon := d &&& 0xFF87 }, hz := hz } := by
  unfold writeSyscon
  rw [if_neg (by simp [h])]
  exact ⟨_, rfl⟩

theorem writeSyscon_locked (h : s.sys.einitDone = true) : writeSyscon d s = s := by
  rw [writeSyscon, if_pos h]

theorem syscon_write_open (h : esfrMode s.ext = false) (before : s.sys.einitDone = false)
    (allowed : sfrWriteRefusal .syscon d s.begin = none) : MovesToCpu 0x89 d s { s.cpu with syscon := d &&& 0xFF87 } := by
  obtain ⟨hz, written⟩ := writeSyscon_open (s := s.begin) (d := d) before
  exact movesToCpu_of .syscon (.sfr h) written allowed

theorem syscon_write_locked (h : esfrMode s.ext = false) (after : s.sys.einitDone = true) : MovesToCpu 0x89 d s s.cpu := by
  have allowed : sfrWriteRefusal .syscon d s.begin = none := by
    simp [sfrWriteRefusal, remapFromRom, State.begin, after]
  exact movesToCpu_of .syscon (.sfr h) (writeSyscon_locked (s := s.begin) after) allowed

/-- PSW keeps the flags as written. -/
theorem psw_write (h : esfrMode s.ext = false) :
    RunsTo (.movRegData16 0x88 d) s { s.cpu with ip := ipAfter 4 s, psw := d &&& 0xFC7F } s.ext.tick (bytesOf s)
      { s with ebc := { s.ebc with hldenOnce := s.ebc.hldenOnce || bitOf d 10 } } :=
  runsTo_conv (finishes_writeSfr (r := .psw) (.sfr h) rfl rfl) rfl (fun _ => rfl) ⟨by constructor <;> rfl, rfl⟩

theorem cpuWrites (h : esfrMode s.ext = false) : CpuWrites d s :=
  ⟨movesToCpu_of .dpp0 (.sfr h) rfl, movesToCpu_of .dpp1 (.sfr h) rfl, movesToCpu_of .dpp2 (.sfr h) rfl,
    movesToCpu_of .dpp3 (.sfr h) rfl, movesToCpu_of .csp (.sfr h) rfl, movesToCpu_of .zeros (.sfr h) rfl,
    movesToCpu_of .ones (.sfr h) rfl, movesToCpu_of .mdh (.sfr h) rfl, movesToCpu_of .mdl (.sfr h) rfl,
    movesToCpu_of .cp (.sfr h) rfl, movesToCpu_of .sp (.sfr h) rfl, movesToCpu_of .stkov (.sfr h) rfl,
    movesToCpu_of .stkun (.sfr h) rfl, movesToCpu_of .mdc (.sfr h) rfl, movesToCpu_of .tfr (.sfr h) rfl,
    syscon_write_open h, syscon_write_locked h, psw_write h⟩

/-! ## The bus, the ports and the timers -/

theorem busWrites (h : esfrMode s.ext = false) : BusWrites d s :=
  ⟨fun allowed => movesOutside_of .buscon0 (.sfr h) rfl allowed,
    fun allowed => movesOutside_of .buscon1 (.sfr h) rfl allowed,
    fun allowed => movesOutside_of .buscon2 (.sfr h) rfl allowed,
    fun allowed => movesOutside_of .buscon3 (.sfr h) rfl allowed,
    fun allowed => movesOutside_of .buscon4 (.sfr h) rfl allowed,
    fun allowed => movesOutside_of .addrsel1 (.sfr h) rfl allowed,
    fun allowed => movesOutside_of .addrsel2 (.sfr h) rfl allowed,
    fun allowed => movesOutside_of .addrsel3 (.sfr h) rfl allowed,
    fun allowed => movesOutside_of .addrsel4 (.sfr h) rfl allowed⟩

theorem portWrites (h : esfrMode s.ext = false) : PortWrites d s := by
  refine ⟨fun free => movesOutside_of .p0l (.sfr h) rfl ?_, fun free => movesOutside_of .p0h (.sfr h) rfl ?_,
    fun free => ⟨movesOutside_of .p1l (.sfr h) rfl ?_, movesOutside_of .p1h (.sfr h) rfl ?_⟩, ?_⟩
  · exact if_neg (by simpa [State.begin] using free)
  · exact if_neg (by simpa [State.begin] using free)
  · exact if_neg (by simpa [State.begin] using free)
  · exact if_neg (by simpa [State.begin] using free)
  · exact ⟨movesOutside_of .p2 (.sfr h) rfl, movesOutside_of .dp2 (.sfr h) rfl, movesOutside_of .p3 (.sfr h) rfl,
      movesOutside_of .dp3 (.sfr h) rfl, movesOutside_of .p4 (.sfr h) rfl, movesOutside_of .dp4 (.sfr h) rfl,
      movesOutside_of .p6 (.sfr h) rfl, movesOutside_of .dp6 (.sfr h) rfl, movesOutside_of .p5 (.sfr h) rfl⟩

theorem timerWrites (h : esfrMode s.ext = false) : TimerWrites d s :=
  ⟨movesOutside_of .t2 (.sfr h) rfl, movesOutside_of .t3 (.sfr h) rfl, movesOutside_of .t4 (.sfr h) rfl,
    movesOutside_of .t5 (.sfr h) rfl, movesOutside_of .t6 (.sfr h) rfl, movesOutside_of .caprel (.sfr h) rfl,
    movesOutside_of .t2con (.sfr h) rfl, movesOutside_of .t3con (.sfr h) rfl, movesOutside_of .t4con (.sfr h) rfl,
    movesOutside_of .t5con (.sfr h) rfl, movesOutside_of .t6con (.sfr h) rfl, movesOutside_of .wdt (.sfr h) rfl,
    movesOutside_of .wdtcon (.sfr h) rfl⟩

theorem peccWrites (h : esfrMode s.ext = false) (x : Fin 8) :
    MovesOutside (BitVec.ofNat 8 (0x60 + x.val)) d s { s with pecc := s.pecc.set x (d &&& 0x07FF) } :=
  movesOutside_of (.pecc x) (.sfr h (by revert x; decide) (by revert x; decide)) rfl

/-! ## Interrupt control registers -/

theorem icNames_sfr (h : esfrMode s.ext = false) {n : IrqNode} (hn : icInEsfr n = false) : RegNames s (icReg n) (.ic n) :=
  .sfr h (by cases n <;> decide) (by cases n <;> first | decide | cases hn)

theorem icNames_esfr (h : esfrMode s.ext = true) {n : IrqNode} (hn : icInEsfr n = true) : RegNames s (icReg n) (.ic n) :=
  .esfr h (by cases n <;> decide) (by cases n <;> first | decide | cases hn)

theorem requestWrites_of {esfr : Bool} (names : ∀ n, icInEsfr n = esfr → RegNames s (icReg n) (.ic n)) :
    RequestWrites esfr d s := by
  intro n hn
  refine ⟨fun present => ?_, fun absent => movesOutside_absent (names n hn) absent⟩
  rw [← lowByte_eq_extractLsb']
  exact movesOutside_of (.ic n) (names n hn) rfl rfl present

/-! ## The serial units -/

theorem s0tbuf_write_ready (h : esfrMode s.ext = false) (ready : fieldNat s.asc.s0con 0 3 ≠ 0 ∨ s.asc.rxActive = false) :
    MovesOutside 0x58 d s { s with asc := { s.asc with tbuf := d.extractLsb' 0 9, tbufFull := true } } := by
  have stored : ¬ (ascMode s.begin.asc.s0con = 0 && s.begin.asc.rxActive) = true := by
    rcases ready with async | quiet
    · simp [State.begin, ascMode, async]
    · simp [State.begin, quiet]
  rw [← BitVec.setWidth_eq_extractLsb' (by decide)]
  exact movesOutside_of .s0tbuf (.sfr h) (if_neg stored)

/-- A character written during a synchronous reception is dropped. -/
theorem s0tbuf_write_receiving (h : esfrMode s.ext = false) (sync : fieldNat s.asc.s0con 0 3 = 0)
    (receiving : s.asc.rxActive = true) : MovesOutside 0x58 d s s := by
  have dropped : (ascMode s.begin.asc.s0con = 0 && s.begin.asc.rxActive) = true := by
    simp [State.begin, ascMode, sync, receiving]
  exact movesOutside_of .s0tbuf (.sfr h) (if_pos dropped)

theorem s0bg_write_running (h : esfrMode s.ext = false) (running : bitOf s.asc.s0con 15 = true) :
    MovesOutside 0x5A d s { s with asc := { s.asc with bgReload := d.extractLsb' 0 13, bgTimer := d.extractLsb' 0 13 } } := by
  rw [← BitVec.setWidth_eq_extractLsb' (by decide)]
  exact movesOutside_of .s0bg (.sfr h) (if_pos running)

theorem s0bg_write_stopped (h : esfrMode s.ext = false) (stopped : bitOf s.asc.s0con 15 = false) :
    MovesOutside 0x5A d s { s with asc := { s.asc with bgReload := d.extractLsb' 0 13, reloadPending := true } } := by
  rw [← BitVec.setWidth_eq_extractLsb' (by decide)]
  exact movesOutside_of .s0bg (.sfr h) (if_neg (by simp [State.begin, stopped]))

/-- S0CON's reserved bit 11 is none of the mode's. -/
theorem ascMode_writable (d : Word) : ascMode (d &&& 0xF7FF) = fieldNat d 0 3 := by
  unfold ascMode fieldNat
  rw [BitVec.toNat_and, Nat.shiftRight_zero, Nat.shiftRight_zero, Nat.and_mod_two_pow]
  exact Nat.and_two_pow_sub_one_of_lt_two_pow (Nat.mod_lt _ (by decide))

/-- A write that does not change between the synchronous and an asynchronous mode. -/
theorem s0con_write_same (h : esfrMode s.ext = false) (same : fieldNat d 0 3 = 0 ↔ fieldNat s.asc.s0con 0 3 = 0) :
    MovesOutside 0xD8 d s { s with asc := { s.asc with s0con := d &&& 0xF7FF } } := by
  have written : writeS0con d s.begin.asc = { s.asc with s0con := d &&& 0xF7FF } := by
    unfold writeS0con
    dsimp only
    rw [ascMode_writable]
    exact if_pos (by simpa [State.begin, ascMode, decide_eq_decide] using same)
  exact movesOutside_of .s0con (.sfr h) (congrArg (fun a => ({ s.begin with asc := a } : State)) written)

/-- A write that does: both shift registers are emptied, with the lines high. -/
theorem s0con_write_changed (h : esfrMode s.ext = false)
    (changed : ¬ (fieldNat d 0 3 = 0 ↔ fieldNat s.asc.s0con 0 3 = 0)) :
    MovesOutside 0xD8 d s { s with asc := { s.asc with
      s0con := d &&& 0xF7FF, tx := [], txBusy := false, txd := true, rxdOut := true, rxActive := false, rx := none } } := by
  have written : writeS0con d s.begin.asc = { s.asc with
      s0con := d &&& 0xF7FF, tx := [], txBusy := false, txd := true, rxdOut := true, rxActive := false, rx := none } := by
    unfold writeS0con
    dsimp only
    rw [ascMode_writable]
    exact if_neg (by simpa [State.begin, ascMode, decide_eq_decide] using changed)
  exact movesOutside_of .s0con (.sfr h) (congrArg (fun a => ({ s.begin with asc := a } : State)) written)

theorem writeSsccon_disabled {c : Ssc} (h : c.en = false) (v : Word) :
    writeSsccon v c = { c with
      ctl := v &&& 0x1F7F, ms := bitOf v 14, en := bitOf v 15, timer := if bitOf v 15 then c.br else c.timer
      half := c.half && !bitOf v 15 } := by
  cases enabling : bitOf v 15 <;> simp [writeSsccon, h, enabling]

theorem writeSsccon_enabled {c : Ssc} (h : c.en = true) (v : Word) :
    writeSsccon v c = { c with
      stat := (c.stat &&& 0xF0FF) ||| (v &&& 0x0F00), ms := bitOf v 14, en := bitOf v 15 } := by
  simp [writeSsccon, h, merge]

theorem sscPresent_c165 (h : s.board.device = .c165) : (s.board.device == .c165) = true := by simp [h]

theorem sscPresent_c163 (h : s.board.device = .c163) : (s.board.device == .c165) = false := by simp [h]

theorem ssccon_write_disabled (h : esfrMode s.ext = false) (dev : s.board.device = .c165) (off : s.ssc.en = false) :
    MovesOutside 0xD9 d s { s with ssc := { s.ssc with
      ctl := d &&& 0x1F7F, ms := bitOf d 14, en := bitOf d 15, timer := if bitOf d 15 then s.ssc.br else s.ssc.timer
      half := s.ssc.half && !bitOf d 15 } } :=
  movesOutside_of .ssccon (.sfr h)
    (congrArg (fun c => ({ s.begin with ssc := c } : State)) (writeSsccon_disabled (c := s.ssc) off d))
    rfl (sscPresent_c165 dev)

theorem ssccon_write_enabled (h : esfrMode s.ext = false) (dev : s.board.device = .c165) (on : s.ssc.en = true) :
    MovesOutside 0xD9 d s { s with ssc := { s.ssc with
      stat := (s.ssc.stat &&& 0xF0FF) ||| (d &&& 0x0F00), ms := bitOf d 14, en := bitOf d 15 } } :=
  movesOutside_of .ssccon (.sfr h)
    (congrArg (fun c => ({ s.begin with ssc := c } : State)) (writeSsccon_enabled (c := s.ssc) on d))
    rfl (sscPresent_c165 dev)

theorem serialWrites (h : esfrMode s.ext = false) : SerialWrites d s :=
  ⟨s0tbuf_write_ready h, s0tbuf_write_receiving h, movesOutside_of .s0rbuf (.sfr h) rfl, s0bg_write_running h,
    s0bg_write_stopped h, s0con_write_same h, s0con_write_changed h, ssccon_write_disabled h, ssccon_write_enabled h,
    fun dev => movesOutside_absent (r := .ssccon) (.sfr h) (sscPresent_c163 dev)⟩

/-! ## The ESFR space -/

theorem sscbr_write (h : esfrMode s.ext = true) (dev : s.board.device = .c165) (off : s.ssc.en = false) :
    MovesOutside 0x5A d s { s with ssc := { s.ssc with br := d } } := by
  have allowed : sfrWriteRefusal .sscbr d s.begin = none := by simp [sfrWriteRefusal, State.begin, off]
  exact movesOutside_of .sscbr (.esfr h) rfl allowed (sscPresent_c165 dev)

theorem esfrWrites (h : esfrMode s.ext = true) : EsfrWrites d s :=
  ⟨movesOutside_of .dp0l (.esfr h) rfl, movesOutside_of .dp0h (.esfr h) rfl, movesOutside_of .dp1l (.esfr h) rfl,
    movesOutside_of .dp1h (.esfr h) rfl, movesOutside_of .rp0h (.esfr h) rfl, movesOutside_of .exicon (.esfr h) rfl,
    movesOutside_of .odp2 (.esfr h) rfl, movesOutside_of .odp3 (.esfr h) rfl, movesOutside_of .odp6 (.esfr h) rfl,
    fun dev => ⟨movesOutside_of .ssctb (.esfr h) rfl rfl (sscPresent_c165 dev),
    movesOutside_of .sscrb (.esfr h) rfl rfl (sscPresent_c165 dev), sscbr_write h dev⟩,
    fun dev => ⟨movesOutside_absent (r := .ssctb) (.esfr h) (sscPresent_c163 dev),
    movesOutside_absent (r := .sscrb) (.esfr h) (sscPresent_c163 dev),
    movesOutside_absent (r := .sscbr) (.esfr h) (sscPresent_c163 dev)⟩⟩

end Sys2Proof.Machine
end

