-- ==== Sys2Proof/Proofs/RegisterReads.lean ====
section
/-! PROOFS. What reading each register delivers, and O41 put together from the writes and the reads.
Spec: 10_state.md rules R56 and R57, 20_memory.md rule R106, 62_external_bus.md rules R421 to R433, decision D31. -/

namespace Sys2Proof.Machine

open Sys2Proof.Claims

variable {s : State} {d : Word} {reg : BitVec 8} {r : Sfr}

/-! ## Registers that are read as they stand -/

/-- Every device has the register, and its read has no effect. -/
def readsPlain (r : Sfr) : Bool :=
  match r with
  | .ssctb | .sscrb | .sscbr | .ssccon | .ic _ => false
  | .mdl | .s0rbuf | .s0tbuf | .p0l | .p0h | .p1l | .p1h | .p3 => false
  | _ => true

theorem RegNames.read_plain (h : RegNames s reg r) (hr : readsPlain r = true) : readReg reg s = .ok (readSfr r s, s) := by
  have present : sfrPresent s.board r = true := by cases r <;> first | rfl | cases hr
  have quiet : sfrReadEffect r s = s := by cases r <;> first | rfl | cases hr
  rw [h.read present, quiet]

/-- The registers of `plainReads`, in its order. -/
def plainRegs : List (BitVec 8 × Sfr) :=
  ([(0x00, .dpp0), (0x01, .dpp1), (0x02, .dpp2), (0x03, .dpp3), (0x04, .csp), (0x06, .mdh), (0x08, .cp), (0x09, .sp),
    (0x0A, .stkov), (0x0B, .stkun), (0x87, .mdc), (0x88, .psw), (0x89, .syscon), (0x8E, .zeros), (0x8F, .ones),
    (0xD6, .tfr)] : List (BitVec 8 × Sfr))
  ++ [(0x0C, .addrsel1), (0x0D, .addrsel2), (0x0E, .addrsel3), (0x0F, .addrsel4), (0x86, .buscon0), (0x8A, .buscon1),
    (0x8B, .buscon2), (0x8C, .buscon3), (0x8D, .buscon4)]
  ++ [(0x20, .t2), (0x21, .t3), (0x22, .t4), (0x23, .t5), (0x24, .t6), (0x25, .caprel), (0xA0, .t2con), (0xA1, .t3con),
    (0xA2, .t4con), (0xA3, .t5con), (0xA4, .t6con), (0x57, .wdt), (0xD7, .wdtcon), (0xD8, .s0con), (0x5A, .s0bg)]
  ++ [(0xE1, .dp2), (0xE3, .dp3), (0xE5, .dp4), (0xE7, .dp6), (0xD1, .p5), (0x60, .pecc 0), (0x61, .pecc 1),
    (0x62, .pecc 2), (0x63, .pecc 3), (0x64, .pecc 4), (0x65, .pecc 5), (0x66, .pecc 6), (0x67, .pecc 7)]

/-- Those of `plainEsfrReads`. -/
def plainEsfrRegs : List (BitVec 8 × Sfr) :=
  [(0x80, .dp0l), (0x81, .dp0h), (0x82, .dp1l), (0x83, .dp1h), (0x84, .rp0h), (0xE0, .exicon), (0xE1, .odp2),
    (0xE3, .odp3), (0xE7, .odp6)]

theorem zero_append_setWidth (v : BitVec 13) : 0#3 ++ v = v.setWidth 16 := by
  refine BitVec.eq_of_toNat_eq ?_
  have := v.isLt
  rw [BitVec.toNat_append, BitVec.toNat_setWidth, Nat.mod_eq_of_lt (by omega)]
  simp

theorem plainReads_eq (s : State) : plainReads s = plainRegs.map (fun p => (p.1, readSfr p.2 s)) := by
  unfold plainReads
  rw [zero_append_setWidth]
  rfl

theorem plainEsfrReads_eq (s : State) : plainEsfrReads s = plainEsfrRegs.map (fun p => (p.1, readSfr p.2 s)) := rfl

theorem plainRegs_named : ∀ p ∈ plainRegs,
    readsPlain p.2 = true ∧ regIsGpr p.1 = false ∧ 0xFE00 + 2 * p.1.toNat = sfrAddr p.2 := by
  decide

theorem plainEsfrRegs_named : ∀ p ∈ plainEsfrRegs,
    readsPlain p.2 = true ∧ regIsGpr p.1 = false ∧ 0xF000 + 2 * p.1.toNat = sfrAddr p.2 := by
  decide

theorem read_plainReads (h : esfrMode s.ext = false) : ∀ p ∈ plainReads s, readReg p.1 s = .ok (p.2, s) := by
  intro p hp
  rw [plainReads_eq] at hp
  obtain ⟨q, hq, rfl⟩ := List.mem_map.1 hp
  obtain ⟨plain, notGpr, address⟩ := plainRegs_named q hq
  exact (RegNames.sfr h notGpr address).read_plain plain

theorem read_plainEsfrReads (h : esfrMode s.ext = true) : ∀ p ∈ plainEsfrReads s, readReg p.1 s = .ok (p.2, s) := by
  intro p hp
  rw [plainEsfrReads_eq] at hp
  obtain ⟨q, hq, rfl⟩ := List.mem_map.1 hp
  obtain ⟨plain, notGpr, address⟩ := plainEsfrRegs_named q hq
  exact (RegNames.esfr h notGpr address).read_plain plain

theorem requestReads_of {esfr : Bool} (names : ∀ n, icInEsfr n = esfr → RegNames s (icReg n) (.ic n)) :
    RequestReads esfr s := by
  intro n hn
  cases present : nodeRegisterPresent s.board n with
  | true =>
    rw [(names n hn).read present, if_pos rfl, zero_append_byte]
    rfl
  | false =>
    rw [(names n hn).read_absent present]
    rfl

/-! ## The ports -/

/-- On its input lines a port without alternate functions has the levels of the pins, whatever its open drain bits are. -/
theorem readPortWord_pinWord (dir latch odp pin mask : Word) :
    readPortWord dir latch (pinWord dir 0 0 0 latch 0xFFFF odp pin &&& mask) &&& mask = linesRead dir latch pin mask := by
  refine BitVec.eq_of_getLsbD_eq fun i hi => ?_
  have ones : (0xFFFF : Word).getLsbD i = true := by
    rw [show (0xFFFF : Word) = BitVec.allOnes 16 from rfl, BitVec.getLsbD_allOnes, decide_eq_true hi]
  simp only [readPortWord, pinWord, linesRead, BitVec.getLsbD_and, BitVec.getLsbD_or, BitVec.getLsbD_not, ones]
  cases dir.getLsbD i <;> cases mask.getLsbD i <;> simp [hi]

theorem busPortWord_free (dir latch pin : Word) : busPortWord s false dir latch pin = linesRead dir latch pin 0x00FF :=
  readPortWord_pinWord dir latch 0 pin 0x00FF

theorem busPortWord_low (owned : Bool) (dir latch pin : Word) : busPortWord s owned dir latch pin &&& 0xFF00 = 0 := by
  unfold busPortWord
  split <;> rw [BitVec.and_assoc] <;> exact BitVec.and_zero

theorem RegNames.read_busPort (h : RegNames s reg r) {owned : Bool} {dir latch pin : Word}
    (hv : readSfr r s = busPortWord s owned dir latch pin)
    (he : sfrReadEffect r s = if owned then s.advanceFree 1 else s) (hp : sfrPresent s.board r = true) :
    (owned = false → readReg reg s = .ok (linesRead dir latch pin 0x00FF, s))
      ∧ ∃ v u, readReg reg s = .ok (v, u) ∧ v &&& 0xFF00 = 0 ∧ (u = s ∨ u = s.advanceFree 1) := by
  rw [h.read hp, hv, he]
  refine ⟨fun free => ?_, _, _, rfl, busPortWord_low _ _ _ _, ?_⟩
  · subst free
    rw [busPortWord_free]
    rfl
  · cases owned
    · exact .inl rfl
    · exact .inr rfl

theorem portReads (h : esfrMode s.ext = false) : PortReads s := by
  obtain ⟨p0l, anyP0l⟩ := RegNames.read_busPort (reg := 0x80) (r := .p0l) (.sfr h) rfl rfl rfl
  obtain ⟨p0h, anyP0h⟩ := RegNames.read_busPort (reg := 0x81) (r := .p0h) (.sfr h) rfl rfl rfl
  obtain ⟨p1l, anyP1l⟩ := RegNames.read_busPort (reg := 0x82) (r := .p1l) (.sfr h) rfl rfl rfl
  obtain ⟨p1h, anyP1h⟩ := RegNames.read_busPort (reg := 0x83) (r := .p1h) (.sfr h) rfl rfl rfl
  refine ⟨p0l, p0h, fun free => ⟨p1l free, p1h free⟩, ?_, ?_, ?_, ?_, ?_⟩
  · simp only [List.forall_mem_cons]
    exact ⟨anyP0l, anyP0h, anyP1l, anyP1h, by simp⟩
  · rw [RegNames.read_plain (r := .p2) (.sfr h) rfl]
    exact congrArg (fun v => Except.ok (v, s)) (readPortWord_pinWord _ _ _ _ _)
  · refine ⟨bitOf s.freeWord 15, _, RegNames.read (r := .p3) (.sfr h) rfl, ?_⟩
    have effect : sfrReadEffect .p3 s = if bitOf s.prev.cpu.syscon 8 then s.advanceFree 1 else s := rfl
    rw [effect]
    cases bitOf s.prev.cpu.syscon 8
    · exact .inl rfl
    · exact .inr rfl
  · exact RegNames.read_plain (r := .p4) (.sfr h) rfl
  · exact RegNames.read_plain (r := .p6) (.sfr h) rfl

/-! ## The serial units -/

/-- Making a bit 0 that a mask has cut off changes nothing. -/
theorem withBit_false_of_masked (v : Word) {mask : Word} {n : Nat} (h : mask &&& ~~~(1#16 <<< n) = mask) :
    withBit (v &&& mask) n false = v &&& mask := by
  simp only [withBit, Bool.false_eq_true, if_false]
  rw [BitVec.and_assoc, h]

theorem readSsccon_disabled {c : Ssc} (h : c.en = false) :
    readSsccon c = (c.ctl &&& 0x1F7F) ||| (if c.ms then 0x4000 else 0) := by
  rw [readSsccon, h, if_neg (by simp)]
  cases c.ms with
  | false =>
    rw [withBit_false_of_masked _ (by decide), withBit_false_of_masked _ (by decide)]
    exact BitVec.or_zero.symm
  | true =>
    change (c.ctl &&& 0x1F7F ||| 0x4000) &&& 0x7FFF = _
    rw [or_and_word, BitVec.and_assoc]
    rfl

theorem readSsccon_enabled {c : Ssc} (h : c.en = true) :
    readSsccon c = (c.stat &&& 0x1F0F) ||| (if c.ms then 0xC000 else 0x8000) := by
  rw [readSsccon, h, if_pos rfl]
  cases c.ms with
  | false =>
    rw [withBit_false_of_masked _ (by decide)]
    rfl
  | true => exact BitVec.or_assoc ..

theorem sfrReads (h : esfrMode s.ext = false) : SfrReads s := by
  refine ⟨read_plainReads h, RegNames.read (r := .mdl) (.sfr h) rfl, RegNames.read (r := .s0rbuf) (.sfr h) rfl,
    ⟨_, RegNames.read (r := .s0tbuf) (.sfr h) rfl⟩, fun dev off => ?_, fun dev on => ?_, fun dev => ?_, portReads h⟩
  · rw [RegNames.read (r := .ssccon) (.sfr h) (sscPresent_c165 dev), ← readSsccon_disabled off]
    rfl
  · rw [RegNames.read (r := .ssccon) (.sfr h) (sscPresent_c165 dev), ← readSsccon_enabled on]
    rfl
  · exact RegNames.read_absent (r := .ssccon) (.sfr h) (sscPresent_c163 dev)

theorem esfrReads (h : esfrMode s.ext = true) : EsfrReads s := by
  refine ⟨read_plainEsfrReads h, fun dev => ⟨⟨s.freeWord, ?_⟩, ?_, ?_⟩, fun dev => ⟨?_, ?_, ?_⟩⟩
  · exact RegNames.read (r := .ssctb) (.esfr h) (sscPresent_c165 dev)
  · exact RegNames.read (r := .sscrb) (.esfr h) (sscPresent_c165 dev)
  · exact RegNames.read (r := .sscbr) (.esfr h) (sscPresent_c165 dev)
  · exact RegNames.read_absent (r := .ssctb) (.esfr h) (sscPresent_c163 dev)
  · exact RegNames.read_absent (r := .sscrb) (.esfr h) (sscPresent_c163 dev)
  · exact RegNames.read_absent (r := .sscbr) (.esfr h) (sscPresent_c163 dev)

/-! ## Together -/

/-- Settles O41: outside an ESFR mode short addresses name the SFRs, in one the ESFRs. -/
theorem registerWrites : Obligations.RegisterWrites := by
  intro d s
  constructor
  · intro h
    have names := fun n (hn : icInEsfr n = false) => icNames_sfr (s := s) h hn
    exact ⟨cpuWrites h, busWrites h, portWrites h, timerWrites h, serialWrites h, requestWrites_of names, peccWrites h,
      sfrReads h, requestReads_of names⟩
  · intro h
    have names := fun n (hn : icInEsfr n = true) => icNames_esfr (s := s) h hn
    exact ⟨esfrWrites h, requestWrites_of names, esfrReads h, requestReads_of names⟩

end Sys2Proof.Machine
end

