-- ==== Sys2Proof/Proofs/StoreOperands.lean ====
section
/-! PROOFS. Instructions with a memory destination: the two-operand operations (O7) and the stores of registers (O21).
Spec: 40_arithmetic.md rule R180, 45_data_movement.md rules R261 to R264. -/

namespace Sys2Proof.Machine

open Sys2Proof.Claims

/-! ## The two-operand operations -/

/-- The two-operand form `mem,reg` is `aluMemReg`, and no comparison has it. -/
theorem exec_aluMemWithReg {op : Alu} {i : Instr} {mem : Word} {reg : BitVec 8} (h : aluMemWithReg op mem reg = some i)
    (s : State) : op ≠ .cmp ∧ exec i s = runInstr 4 (aluMemReg op mem reg) s := by
  cases op <;> cases h <;> exact ⟨by decide, rfl⟩

theorem exec_aluMemWithRegB {op : Alu} {i : Instr} {mem : Word} {reg : BitVec 8} (h : aluMemWithRegB op mem reg = some i)
    (s : State) : op ≠ .cmp ∧ exec i s = runInstr 4 (aluMemRegB op mem reg) s := by
  cases op <;> cases h <;> exact ⟨by decide, rfl⟩

/-- An operation that is no comparison writes the spec's result, then sets the flags computed from PSW as it was. -/
theorem aluFinish_written {w : Nat} {op : Alu} (hop : op ≠ .cmp) {a b : BitVec (w + 1)} {write : BitVec (w + 1) → Op Unit}
    {p : Word} {u t : State} (hp : u.cpu.psw = p) (h : write (aluValue op a b (condFlags p).c) u = .ok ((), t)) :
    aluFinish op a b write u = .ok ((), t.setFlags (aluResult op a b (bitOf p 1) (bitOf p 3)).2) := by
  subst hp
  refine aluFinish_of_ne hop ?_
  rw [aluResult_value, aluTested_of_ne hop]
  exact h

/-- Settles O7: memory is read, then `reg`, and the operation ends in a store. -/
theorem aluToMemory : Obligations.AluToMemory := by
  constructor
  · intro op i reg mem s r u a b hi hmem hreg
    obtain ⟨hop, runs⟩ := exec_aluMemWithReg hi s
    have read := (OnlyRead.readWordOperand hmem).trans (OnlyRead.readReg hreg)
    refine ⟨read, storesWord_of_read runs read (fun w hw => ?_) (condFlags_aluResult op a b s.cpu.psw)⟩
    exact (Op.bind_of_ok hmem).trans ((Op.bind_of_ok hreg).trans (aluFinish_written hop read.psw hw))
  · intro op i reg mem s r u a b hi hmem hreg
    obtain ⟨hop, runs⟩ := exec_aluMemWithRegB hi s
    have read := (OnlyRead.readByteOperand hmem).trans (OnlyRead.readRegB hreg)
    refine ⟨read, storesByte_of_read runs read (fun w hw => ?_) (condFlags_aluResult op a b s.cpu.psw)⟩
    exact (Op.bind_of_ok hmem).trans ((Op.bind_of_ok hreg).trans (aluFinish_written hop read.psw hw))

/-! ## Stores of registers -/

theorem moveToMem_ok {a v : Word} {s w : State} (h : writeWordOperand a v s = .ok ((), w)) :
    moveToMem a v s = .ok ((), w.setFlags (moveFlags v)) := by
  rw [moveToMem, Op.bind_of_ok h, setFlags_apply]

theorem moveToMemB_ok {a : Word} {v : Byte} {s w : State} (h : writeByteOperand a v s = .ok ((), w)) :
    moveToMemB a v s = .ok ((), w.setFlags (moveFlags v)) := by
  rw [moveToMemB, Op.bind_of_ok h, setFlags_apply]

/-- A byte extension to memory: the store, then the flags. -/
theorem extendToMem_ok {a v : Word} {s w : State} (h : writeWordOperand a v s = .ok ((), w)) :
    (do writeWordOperand a v; setFlags (extendFlags v) : Op Unit) s = .ok ((), w.setFlags (extendFlags v)) := by
  rw [Op.bind_of_ok h, setFlags_apply]

theorem readGpr_begin {s : State} {n : BitVec 4} (h : gprWordOk s n = true) :
    readGpr n s.begin = .ok (s.gprWord n, s.begin) :=
  readGpr_ok.2 ⟨h, rfl, rfl⟩

theorem readGprB_begin {s : State} {n : BitVec 4} (h : gprByteOk s n = true) :
    readGprB n s.begin = .ok (s.gprByte n, s.begin) :=
  readGprB_ok.2 ⟨h, rfl, rfl⟩

/-- Settles O21: each form reads the register and, where it has one, the pointer, and ends in a store. -/
theorem stores : Obligations.Stores := by
  intro n m reg d mem s
  refine ⟨fun hm hn => ?_, fun hm hn => ?_, fun u v hreg => ?_, fun u v hreg => ?_⟩
  · have value := readGpr_begin hn
    have pointer := readGpr_begin hm
    refine ⟨storesWord_of_read (len := 2) rfl (OnlyRead.refl _) (fun w hw => ?_) (condFlags_moveFlags _ _),
      storesWord_of_read (len := 4) rfl (OnlyRead.refl _) (fun w hw => ?_) (condFlags_moveFlags _ _)⟩
    · exact (Op.bind_of_ok value).trans ((Op.bind_of_ok pointer).trans (moveToMem_ok hw))
    · exact (Op.bind_of_ok value).trans ((Op.bind_of_ok pointer).trans (moveToMem_ok hw))
  · have value := readGprB_begin hn
    have pointer := readGpr_begin hm
    refine ⟨storesByte_of_read (len := 2) rfl (OnlyRead.refl _) (fun w hw => ?_) (condFlags_moveFlags _ _),
      storesByte_of_read (len := 4) rfl (OnlyRead.refl _) (fun w hw => ?_) (condFlags_moveFlags _ _)⟩
    · exact (Op.bind_of_ok value).trans ((Op.bind_of_ok pointer).trans (moveToMemB_ok hw))
    · exact (Op.bind_of_ok value).trans ((Op.bind_of_ok pointer).trans (moveToMemB_ok hw))
  · have read := OnlyRead.readReg hreg
    refine ⟨read, storesWord_of_read (len := 4) rfl read (fun w hw => ?_) (condFlags_moveFlags v _)⟩
    exact (Op.bind_of_ok hreg).trans (moveToMem_ok hw)
  · have read := OnlyRead.readRegB hreg
    refine ⟨read, storesByte_of_read (len := 4) rfl read (fun w hw => ?_) (condFlags_moveFlags v _),
      storesWord_of_read (len := 4) rfl read (fun w hw => ?_) (condFlags_extendFlags (v.signExtend 16) _),
      storesWord_of_read (len := 4) rfl read (fun w hw => ?_) (condFlags_extendFlags (v.setWidth 16) _)⟩
    · exact (Op.bind_of_ok hreg).trans (moveToMemB_ok hw)
    · exact (Op.bind_of_ok hreg).trans (extendToMem_ok hw)
    · exact (Op.bind_of_ok hreg).trans (extendToMem_ok hw)

end Sys2Proof.Machine
end

