-- ==== Sys2Proof/Proofs/StackInstructions.lean ====
section
/-! PROOFS. PUSH (O24), POP (O25) and SCXT (O26).
Spec: 20_memory.md rules R98 to R100, 46_stack.md rules R271 to R273. -/

namespace Sys2Proof.Machine

open Sys2Proof.Claims

/-! ## From the body to the instruction -/

/-- `Finishes` as `Runs`, where PSW has not been written. -/
theorem Finishes.runs {i : Instr} {ip : Word} {s u w : State} {fl : Cond} {c : Cpu} {mem : Nat → Byte}
    (h : Finishes i ip s w fl) (hr : OnlyRead s.begin u) (hw : w.marks.pswWritten = false)
    (hc : { w.cpu with ip := ip, psw := putCond w.cpu.psw fl } = c) (hm : ∀ x, bytesOf w x = mem x)
    (ho : SameOutside u w) : Runs i s u c mem := by
  refine ⟨hr, runsTo_conv h ?_ hm ho⟩
  rw [hw]
  exact hc

/-- An instruction that sets no flags and does not branch: PSW stays as its writes have left it. -/
theorem finishes_of_unflagged {i : Instr} {len : Nat} {body : Op Unit} {s w : State} (hi : exec i s = runInstr len body s)
    (hb : body s.begin = .ok ((), w)) (h1 : w.marks.branched = false) (h2 : w.marks.extStarted = false) :
    Finishes i (ipAfter len s) s w (condFlags w.cpu.psw) := by
  refine runsTo_conv (runsTo_of hi hb h2) ?_ (fun _ => rfl) (SameOutside.refl w)
  rw [h1, putCond_self, ite_self]
  rfl

/-- An instruction that pops runs as any other where the one before has not written SP (U34). -/
theorem runPopInstr_eq {s : State} (h : s.marks.spWritten = false) (len : Nat) (body : Op Unit) :
    runPopInstr len body s = runInstr len body s := by
  rw [runPopInstr, h, if_neg (by simp)]

/-! ## What reads and writes leave to the stack -/

theorem OnlyRead.sp {s u : State} (h : OnlyRead s.begin u) : u.cpu.sp = s.cpu.sp := by
  rw [h.cpu]
  rfl

/-- Reading moves neither SP nor the stack. -/
theorem OnlyRead.pushSlot {s u : State} (h : OnlyRead s.begin u) {a : Nat} (slot : StackSlot s (pushedPointer s.cpu.sp) a) :
    StackSlot u (pushedPointer u.cpu.sp) a := by
  rw [h.sp]
  exact slot.congr h.prev h.board

theorem Quiet.advanceFree (u : State) (n : Nat) : Quiet u (u.advanceFree n) :=
  ⟨rfl, ⟨by constructor <;> rfl, rfl⟩, rfl, rfl, rfl, rfl, rfl, rfl⟩

/-- A write to `reg` keeps what stores keep, be it a GPR or an (E)SFR. -/
theorem writeReg_kept {reg : BitVec 8} {v : Word} {s w : State} (h : writeReg reg v s = .ok ((), w)) : StoreKept s w := by
  cases hg : regIsGpr reg
  · rw [writeReg_sfr hg] at h
    exact (writeSfrWord_kept h).store
  · rw [writeReg_gpr hg, writeGpr_ok] at h
    rw [h.2]
    exact storeWord_kept _ _ _

theorem writeReg_gpr_ok {reg : BitVec 8} {s : State} (hg : regIsGpr reg = true) (hok : gprWordOk s (regGpr reg) = true)
    (v : Word) : writeReg reg v s = .ok ((), s.setGprWord (regGpr reg) v) := by
  rw [writeReg_gpr hg, writeGpr_ok]
  exact ⟨hok, rfl⟩

theorem writeReg_sfr_mem {reg : BitVec 8} {v : Word} {s w : State} (hg : regIsGpr reg = false)
    (h : writeReg reg v s = .ok ((), w)) : w.mem = s.mem := by
  rw [writeReg_sfr hg] at h
  exact writeSfrWord_mem h

/-! ## PUSH -/

theorem pushedSp_other (v : Word) (s : State) : pushedSp false v s = .ok (v, s) := rfl

/-- PUSH SP: the value before the decrement or the one after it. -/
theorem pushedSp_own (v : Word) (s : State) : ∃ x, (x = v ∨ x = pushedPointer s.cpu.sp)
    ∧ pushedSp true v s = .ok (x, s.advanceFree 1) := by
  refine ⟨if s.freeWord.getLsbD 0 then spDown s else v, ?_, rfl⟩
  split
  · exact .inr rfl
  · exact .inl rfl

/-- PUSH stores the value `x` chosen for it, in the state `q` that differs from `u` in the count of free values at most. -/
theorem pushStores_of {reg : BitVec 8} {s u q : State} {v x : Word} {a : Nat} (hread : readReg reg s.begin = .ok (v, u))
    (hx : pushedSp (regIsSp s reg) v u = .ok (x, q)) (hq : Quiet u q) (hm : q.mem = u.mem)
    (slot : StackSlot s (pushedPointer s.cpu.sp) a) : PushStores reg s u a x := by
  have read := OnlyRead.readReg hread
  have slot' : StackSlot q (pushedPointer q.cpu.sp) a := by
    rw [hq.cpu]
    exact (read.pushSlot slot).congr hq.prev hq.board
  obtain ⟨pushed, cpu, kept, bytes⟩ := push_slot x slot'
  have psw : (q.pushed x).cpu.psw = s.cpu.psw := by
    rw [cpu, hq.cpu]
    exact read.psw
  have written : (q.pushed x).marks.pswWritten = false := by
    rw [kept.pswWritten, hq.pswWritten, read.marks]
    rfl
  have finished : Finishes (.pushReg reg) (ipAfter 2 s) s (q.pushed x) (moveCond x (old s)) := by
    refine finishes_of (len := 2) rfl ((Op.bind_of_ok (look_apply _ _)).trans ((Op.bind_of_ok hread).trans
      ((Op.bind_of_ok hx).trans (Op.bind_of_ok pushed)))) ?_ ?_ (fun _ => ?_)
    · rw [kept.branched, hq.branched, read.marks]
      rfl
    · rw [kept.extStarted, hq.extStarted, read.marks]
      rfl
    · rw [psw]
      exact condFlags_moveFlags _ _
  refine finished.runs read written ?_ (fun y => ?_) (hq.outside.trans kept.outside)
  · rw [psw, cpu, hq.cpu]
  · rw [bytes, show bytesOf q = bytesOf u from funext fun z => by rw [bytesOf, hm, bytesOf]]

/-- Settles O24: the value is read, for SP one of two is chosen, and it is pushed. -/
theorem pushes : Obligations.Pushes := by
  intro reg a s u v hread slot
  constructor
  · intro hsp
    refine pushStores_of hread ?_ (Quiet.refl u) rfl slot
    rw [hsp]
    exact pushedSp_other v u
  · intro hsp
    have value : v = s.cpu.sp ∧ u = s.begin := by
      obtain ⟨hreg, hmode⟩ : reg = 0x09 ∧ esfrMode s.ext = false := by simpa [regIsSp] using hsp
      rw [hreg, readReg_sp (s := s.begin) hmode] at hread
      cases hread
      exact ⟨rfl, rfl⟩
    obtain ⟨rfl, rfl⟩ := value
    obtain ⟨x, hx, chosen⟩ := pushedSp_own s.cpu.sp s.begin
    rw [← hsp] at chosen
    have stored := pushStores_of hread chosen (Quiet.advanceFree _ _) rfl slot
    exact hx.imp (fun e => by rwa [e] at stored) (fun e => by rwa [e] at stored)

/-! ## POP -/

/-- The word on top of the stack is popped at the beginning of an instruction. -/
theorem pop_begin {s : State} {a : Nat} (slot : StackSlot s s.cpu.sp a) :
    pop s.begin = .ok (Memory.readWord s.mem a, { s.begin with cpu := s.cpu.pop }) :=
  pop_slot (u := s.begin) slot

/-- Settles O25: the word is popped and moved to `reg`. -/
theorem pops : Obligations.Pops := by
  intro reg a s v hsp slot hv
  subst hv
  have finished : ∀ w, writeReg reg (Memory.readWord s.mem a) { s.begin with cpu := s.cpu.pop } = .ok ((), w) →
      Finishes (.popReg reg) (ipAfter 2 s) s w (moveCond (Memory.readWord s.mem a) (old s)) := by
    intro w hw
    have kept := writeReg_kept hw
    refine finishes_of (runPopInstr_eq hsp _ _) ((Op.bind_of_ok (pop_begin slot)).trans (moveToReg_ok hw)) kept.branched
      kept.extStarted (fun hp => ?_)
    rw [kept.psw hp]
    exact condFlags_moveFlags _ _
  refine ⟨fun hg hok => ?_, fun w hg hw => ⟨finished w hw, fun x _ => by rw [writeReg_sfr_mem hg hw]; rfl⟩⟩
  exact (finished _ (writeReg_gpr_ok (s := { s.begin with cpu := s.cpu.pop }) hg hok _)).runs (OnlyRead.refl _) rfl rfl
    (bytes_setGprWord _ _ _) ⟨by constructor <;> rfl, rfl⟩

/-! ## SCXT -/

/-- SCXT after its reads: the old value is pushed, then `reg` is written. -/
theorem switches_of {i : Instr} {body : Op Unit} {reg : BitVec 8} {s r : State} {a : Nat} {o x : Word}
    (hi : exec i s = runInstr 4 body s) (hr : OnlyRead s.begin r) (slot : StackSlot s (pushedPointer s.cpu.sp) a)
    (hb : body s.begin = (push o >>= fun _ => writeReg reg x) r) : Switches i reg s r a o x := by
  obtain ⟨pushed, cpu, stacked, bytes⟩ := push_slot o (hr.pushSlot slot)
  rw [Op.bind_of_ok pushed] at hb
  have finished : ∀ w, writeReg reg x (r.pushed o) = .ok ((), w) →
      Finishes i (ipAfter 4 s) s w (condFlags w.cpu.psw) := by
    intro w hw
    have kept := writeReg_kept hw
    refine finishes_of_unflagged hi (hb.trans hw) ?_ ?_
    · rw [kept.branched, stacked.branched, hr.marks]
      rfl
    · rw [kept.extStarted, stacked.extStarted, hr.marks]
      rfl
  refine ⟨fun hg hok => ?_, fun w hg hw => ⟨finished w hw, fun y => ?_⟩⟩
  · have prev : (r.pushed o).prev = s.prev := stacked.prev.trans hr.prev
    have ok : gprWordOk (r.pushed o) (regGpr reg) = true := by
      rw [gprWordOk_congr _ prev (stacked.outside.1.board.trans hr.board), hok]
    refine (finished _ (writeReg_gpr_ok hg ok x)).runs hr ?_ ?_ (fun y => ?_)
      (stacked.outside.trans (quiet_setGprWord _ _ _).outside)
    · exact stacked.pswWritten.trans (by rw [hr.marks]; rfl)
    · rw [putCond_self, State.setGprWord_cpu, cpu]
    · rw [bytes_setGprWord, gprWordAddr_congr _ prev, show bytesOf (r.pushed o) = _ from funext bytes]
  · rw [← bytes, bytesOf, writeReg_sfr_mem hg hw, bytesOf]

/-- Settles O26: `reg` is read, then memory in the second form, and the rest is `switches_of`. -/
theorem switchesContext : Obligations.SwitchesContext := by
  intro reg d mem o a s u hread slot
  have read := OnlyRead.readReg hread
  refine ⟨switches_of rfl read slot (Op.bind_of_ok hread), fun r x hmem => ?_⟩
  exact switches_of rfl (read.trans (OnlyRead.readWordOperand hmem)) slot
    ((Op.bind_of_ok hread).trans (Op.bind_of_ok hmem))

end Sys2Proof.Machine
end

