-- ==== Sys2Proof/Proofs/CallsReturns.lean ====
section
/-! PROOFS. Calls that push one word (O31) and two (O32), and the returns but RETI (O34).
Spec: 20_memory.md rule R99, 48_call_return.md rules R295 to R304. -/

namespace Sys2Proof.Machine

open Sys2Proof.Claims

/-! ## Branches -/

/-- An instruction whose body ends in `t`, after its operands have been read in `u`. -/
theorem runs_of {i : Instr} {len : Nat} {body : Op Unit} {s u t : State} {c : Cpu} {mem : Nat → Byte}
    (hi : exec i s = runInstr len body s) (hr : OnlyRead s.begin u) (hb : body s.begin = .ok ((), t))
    (he : t.marks.extStarted = false)
    (hc : { t.cpu with ip := if t.marks.branched then t.cpu.ip else ipAfter len s } = c)
    (hm : ∀ x, bytesOf t x = mem x) (ho : SameOutside u t) : Runs i s u c mem :=
  ⟨hr, runsTo_conv (runsTo_of hi hb he) hc hm ho⟩

/-- An instruction that leaves the state as it is but for IP. -/
theorem runs_of_nothing {i : Instr} {len : Nat} {body : Op Unit} {s : State} (hi : exec i s = runInstr len body s)
    (hb : body s.begin = .ok ((), s.begin)) : Runs i s s.begin { s.cpu with ip := ipAfter len s } (bytesOf s) :=
  runs_of hi (OnlyRead.refl _) hb rfl rfl (fun _ => rfl) (SameOutside.refl _)

/-- An instruction that sets flags and branches inside the segment, after its writes have led to `w`. -/
theorem finishes_of_jump {i : Instr} {len : Nat} {body : Op Unit} {s w : State} {f : FlagUpdate} {fl : Cond} {ip : Word}
    (hi : exec i s = runInstr len body s) (hb : body s.begin = .ok ((), (w.setFlags f).jumpTo ip))
    (he : w.marks.extStarted = false) (hf : w.marks.pswWritten = false → condFlags (f.apply w.cpu.psw) = fl) :
    Finishes i ip s w fl := by
  have starts : ((w.setFlags f).jumpTo ip).marks.extStarted = false := by
    show (w.setFlags f).marks.extStarted = false
    rw [setFlags_marks, he]
  refine runsTo_conv (runsTo_of hi hb starts) ?_ (fun x => ?_)
    ((setFlags_outside w f).trans ⟨by constructor <;> rfl, rfl⟩)
  · show { (w.setFlags f).cpu with ip := ip } = _
    rw [setFlags_cpu]
    cases h : w.marks.pswWritten
    · simp [hf h]
    · rfl
  · rw [bytesOf, State.jumpTo_mem, setFlags_mem, bytesOf]

/-- Setting flags and branching commute. -/
theorem setFlags_jumpTo (w : State) (f : FlagUpdate) (ip : Word) : (w.jumpTo ip).setFlags f = (w.setFlags f).jumpTo ip := by
  cases h : w.marks.pswWritten <;> simp [State.setFlags, State.jumpTo, h]

/-! ## Calls -/

theorem callTo_slot {u : State} {a : Nat} (len : Nat) (ip : Word) (slot : StackSlot u (pushedPointer u.cpu.sp) a) :
    callTo len ip u = .ok ((), (u.pushed (nextIp u len)).jumpTo ip) := by
  rw [callTo, Op.bind_of_ok (look_apply _ _), Op.bind_of_ok (push_slot _ slot).1]
  rfl

/-- A call that is made: the address of the next instruction is pushed, IP is the target. -/
theorem runs_of_call {i : Instr} {len : Nat} {body : Op Unit} {s : State} {a : Nat} {ip : Word}
    (hi : exec i s = runInstr len body s) (hb : body s.begin = callTo len ip s.begin)
    (slot : StackSlot s (pushedPointer s.cpu.sp) a) :
    Runs i s s.begin { s.cpu.push with ip := ip } (patchWord (bytesOf s) a (ipAfter len s)) := by
  obtain ⟨-, cpu, kept, bytes⟩ := push_slot (u := s.begin) (ipAfter len s) slot
  refine runs_of hi (OnlyRead.refl _) (hb.trans (callTo_slot (u := s.begin) len ip slot)) kept.extStarted ?_ bytes
    (kept.outside.trans ⟨by constructor <;> rfl, rfl⟩)
  show { (s.begin.pushed (ipAfter len s)).cpu with ip := ip } = _
  rw [cpu]
  rfl

/-- Settles O31: the condition decides between `callTo` and nothing. -/
theorem calls : Obligations.Calls := by
  intro cc n rel caddr a s
  refine ⟨fun hcc => ⟨?_, ?_⟩, fun slot => ⟨fun hcc => ⟨?_, fun hok => ?_⟩, ?_⟩⟩
  · exact runs_of_nothing (len := 4) rfl ((Op.bind_of_ok (look_apply _ _)).trans (by rw [if_neg (by simp [hcc])]; rfl))
  · exact runs_of_nothing (len := 2) rfl ((Op.bind_of_ok (look_apply _ _)).trans (by rw [if_neg (by simp [hcc])]; rfl))
  · exact runs_of_call (len := 4) rfl ((Op.bind_of_ok (look_apply _ _)).trans (by rw [if_pos (by simp [hcc])])) slot
  · refine runs_of_call (len := 2) rfl ((Op.bind_of_ok (look_apply _ _)).trans ?_) slot
    rw [if_pos (by simp [hcc]), Op.bind_of_ok (readGpr_begin hok)]
  · exact runs_of_call (len := 2) rfl (Op.bind_of_ok (look_apply _ _)) slot

/-- CALLS: CSP and the address of the next instruction are pushed. -/
theorem runs_callsSegCaddr (seg : BitVec 8) (caddr : Word) {a b : Nat} {s : State}
    (slotA : StackSlot s (pushedPointer s.cpu.sp) a) (slotB : StackSlot s (pushedPointer (pushedPointer s.cpu.sp)) b) :
    Runs (.callsSegCaddr seg caddr) s s.begin { s.cpu.push.push with csp := seg.setWidth 16, ip := caddr }
      (patchWord (patchWord (bytesOf s) a s.cpu.csp) b (ipAfter 4 s)) := by
  obtain ⟨first, -⟩ := push_slot (u := s.begin) s.cpu.csp slotA
  obtain ⟨second, cpu, kept, bytes⟩ := push_slots (u := s.begin) s.cpu.csp (ipAfter 4 s) slotA slotB
  refine runs_of (len := 4) rfl (OnlyRead.refl _)
    ((Op.bind_of_ok (look_apply _ _)).trans ((Op.bind_of_ok (look_apply _ _)).trans
      ((Op.bind_of_ok first).trans ((Op.bind_of_ok second).trans (update_apply _ _)))))
    kept.extStarted ?_ bytes (kept.outside.trans ⟨by constructor <;> rfl, rfl⟩)
  show { ((s.begin.pushed s.cpu.csp).pushed (ipAfter 4 s)).cpu with csp := seg.setWidth 16, ip := caddr } = _
  rw [cpu]
  rfl

/-- PCALL: the register and the address of the next instruction are pushed, the register's value sets the flags. -/
theorem runs_pcallRegCaddr {reg : BitVec 8} (caddr : Word) {v : Word} {a b : Nat} {s u : State}
    (hread : readReg reg s.begin = .ok (v, u)) (slotA : StackSlot s (pushedPointer s.cpu.sp) a)
    (slotB : StackSlot s (pushedPointer (pushedPointer s.cpu.sp)) b) :
    Runs (.pcallRegCaddr reg caddr) s u { u.cpu.push.push with ip := caddr, psw := putCond s.cpu.psw (moveCond v (old s)) }
      (patchWord (patchWord (bytesOf u) a v) b (ipAfter 4 s)) := by
  have read := OnlyRead.readReg hread
  have slotA' := read.pushSlot slotA
  have slotB' : StackSlot u (pushedPointer (pushedPointer u.cpu.sp)) b := by
    rw [read.sp]
    exact slotB.congr read.prev read.board
  obtain ⟨first, cpu₁, kept₁, -⟩ := push_slot v slotA'
  obtain ⟨-, cpu, kept, bytes⟩ := push_slots v (ipAfter 4 s) slotA' slotB'
  have next : nextIp (u.pushed v) 4 = ipAfter 4 s := by
    rw [nextIp, State.pushed_cpu_ip, read.cpu]
    rfl
  have call := callTo_slot (u := u.pushed v) 4 caddr (a := b) (by rw [cpu₁]; exact slotB'.of_stackOnly kept₁)
  rw [next] at call
  have psw : ((u.pushed v).pushed (ipAfter 4 s)).cpu.psw = s.cpu.psw := by
    rw [cpu]
    exact read.psw
  have finished : Finishes (.pcallRegCaddr reg caddr) caddr s ((u.pushed v).pushed (ipAfter 4 s)) (moveCond v (old s)) := by
    refine finishes_of_jump (len := 4) (f := moveFlags v) rfl ((Op.bind_of_ok hread).trans
      ((Op.bind_of_ok first).trans ((Op.bind_of_ok call).trans ?_))) ?_ (fun _ => ?_)
    · rw [setFlags_apply, setFlags_jumpTo]
    · rw [kept.extStarted, read.marks]
      rfl
    · rw [psw]
      exact condFlags_moveFlags _ _
  refine finished.runs read ?_ ?_ bytes kept.outside
  · rw [kept.pswWritten, read.marks]
    rfl
  · rw [psw, cpu]

/-- Settles O32: two pushes, then the branch. -/
theorem callsPushingTwo : Obligations.CallsPushingTwo := by
  intro seg reg caddr v a b s u slotA slotB
  exact ⟨runs_callsSegCaddr seg caddr slotA slotB, fun hread => runs_pcallRegCaddr caddr hread slotA slotB⟩

/-! ## Returns -/

/-- The second word of a return is popped at the moved SP. -/
theorem pop_second {s : State} {b : Nat} (slot : StackSlot s (poppedPointer s.cpu.sp) b) :
    pop { s.begin with cpu := s.cpu.pop } = .ok (Memory.readWord s.mem b, { s.begin with cpu := s.cpu.pop.pop }) :=
  pop_slot (u := { s.begin with cpu := s.cpu.pop }) slot

theorem setWidth_lowByte (v : Word) : (lowByte v).setWidth 16 = v &&& 0x00FF := by
  refine BitVec.eq_of_getLsbD_eq fun i hi => ?_
  simp only [lowByte, BitVec.getLsbD_setWidth, BitVec.getLsbD_and]
  interval_cases i <;> simp

/-- Settles O34: the words are popped in order, then come the write of a register and the branch. -/
theorem returns : Obligations.Returns := by
  intro reg a b s v hsp slotA
  refine ⟨?_, fun slotB hv => ?_⟩
  · exact runs_of (runPopInstr_eq hsp _ _) (OnlyRead.refl _)
      ((Op.bind_of_ok (pop_begin slotA)).trans (update_apply _ _)) rfl rfl (fun _ => rfl) ⟨by constructor <;> rfl, rfl⟩
  · subst hv
    have finished : ∀ w, writeReg reg (Memory.readWord s.mem b) { s.begin with cpu := s.cpu.pop.pop } = .ok ((), w) →
        Finishes (.retpReg reg) (Memory.readWord s.mem a) s w (moveCond (Memory.readWord s.mem b) (old s)) := by
      intro w hw
      have kept := writeReg_kept hw
      refine finishes_of_jump (runPopInstr_eq hsp _ _) ((Op.bind_of_ok (pop_begin slotA)).trans
        ((Op.bind_of_ok (pop_second slotB)).trans ((Op.bind_of_ok (moveToReg_ok hw)).trans (update_apply _ _))))
        kept.extStarted (fun hp => ?_)
      rw [kept.psw hp]
      exact condFlags_moveFlags _ _
    refine ⟨?_, fun hg hok => ?_, fun w hg hw => ⟨finished w hw, fun x _ => by rw [writeReg_sfr_mem hg hw]; rfl⟩⟩
    · refine runs_of (runPopInstr_eq hsp _ _) (OnlyRead.refl _) ((Op.bind_of_ok (pop_begin slotA)).trans
        ((Op.bind_of_ok (pop_second slotB)).trans (update_apply _ _))) rfl ?_ (fun _ => rfl) ⟨by constructor <;> rfl, rfl⟩
      rw [← setWidth_lowByte]
      rfl
    · exact (finished _ (writeReg_gpr_ok (s := { s.begin with cpu := s.cpu.pop.pop }) hg hok _)).runs (OnlyRead.refl _) rfl
        rfl (bytes_setGprWord _ _ _) ⟨by constructor <;> rfl, rfl⟩

end Sys2Proof.Machine
end

