-- ==== Sys2Proof/Proofs/ExtensionSequences.lean ====
section
/-! PROOFS. ATOMIC and the EXT instructions, and what a running sequence does to addresses (O38).
Spec: 20_memory.md rules R91 to R96, 49_system_misc.md rules R323 to R329, decisions D17, D20 and D31. -/

namespace Sys2Proof.Machine

open Sys2Proof.Claims

/-! ## The start and the count of a sequence -/

/-- An instruction whose body starts a sequence. -/
theorem startsSequence_of {i : Instr} {len : Nat} {body : Op Unit} {s : State} {k : Nat} {esfr : Bool} {o : Override}
    (hi : exec i s = runInstr len body s) (hb : body s.begin = startSequence k esfr o s.begin) :
    StartsSequence i len s ⟨k, esfr, o⟩ :=
  ⟨_, hi.trans (runInstr_of_ok (hb.trans (update_apply _ _))), rfl, rfl, fun _ => rfl, ⟨by constructor <;> rfl, rfl⟩⟩

/-- The four forms with a pointer register take the low bits of Rwm. -/
theorem startsSequence_rwm {m : BitVec 4} {s : State} (k : Nat) (hok : gprWordOk s m = true) :
    StartsSequence (.extsRwmIrang2 m k) 2 s ⟨k, false, .segment ((s.gprWord m).extractLsb' 0 8)⟩
    ∧ StartsSequence (.extsrRwmIrang2 m k) 2 s ⟨k, true, .segment ((s.gprWord m).extractLsb' 0 8)⟩
    ∧ StartsSequence (.extpRwmIrang2 m k) 2 s ⟨k, false, .page ((s.gprWord m).extractLsb' 0 10)⟩
    ∧ StartsSequence (.extprRwmIrang2 m k) 2 s ⟨k, true, .page ((s.gprWord m).extractLsb' 0 10)⟩ := by
  have read := readGpr_begin hok
  rw [← BitVec.setWidth_eq_extractLsb' (by decide), ← BitVec.setWidth_eq_extractLsb' (by decide)]
  exact ⟨startsSequence_of rfl (Op.bind_of_ok read), startsSequence_of rfl (Op.bind_of_ok read),
    startsSequence_of rfl (Op.bind_of_ok read), startsSequence_of rfl (Op.bind_of_ok read)⟩

theorem tick_eq (e : Ext) : e.tick = if 1 < e.count then { e with count := e.count - 1 } else ⟨0, false, .none⟩ := by
  unfold Ext.tick Ext.idle
  by_cases h : 1 < e.count
  · rw [if_neg (by omega), if_pos h]
  · rw [if_pos (by omega), if_neg h]

/-! ## Data addresses -/

theorem activeOverride_of_pos {e : Ext} (h : 0 < e.count) : activeOverride e = e.override := by
  rw [activeOverride, if_neg (by omega)]

theorem activeOverride_none {e : Ext} (h : e.count = 0 ∨ e.override = .none) : activeOverride e = .none := by
  unfold activeOverride
  split
  · rfl
  · next hc => exact h.resolve_left hc

/-- The DPP that the highest two bits of an address select. -/
theorem dppOf_dppIndex (c : Cpu) (a : Word) : dppOf c (dppIndex a) = dppFor c a := by
  have hlt := a.isLt
  unfold dppFor dppIndex
  split
  · next h => rw [Nat.div_eq_of_lt h]; rfl
  · split
    · rw [show a.toNat / 0x4000 = 1 by omega]; rfl
    · split
      · rw [show a.toNat / 0x4000 = 2 by omega]; rfl
      · rw [show a.toNat / 0x4000 = 3 by omega]; rfl

/-- Two bits of a DPP as a page number. -/
theorem setWidth_and_three (w : Word) : (w &&& 3).setWidth 10 = (0x00#8 ++ w.extractLsb' 0 2 : BitVec 10) := by
  refine BitVec.eq_of_getLsbD_eq fun i hi => ?_
  simp only [BitVec.getLsbD_setWidth, BitVec.getLsbD_and, BitVec.getLsbD_append, BitVec.getLsbD_extractLsb']
  interval_cases i <;> simp

/-- Data addresses under an override and through the DPPs. -/
theorem dataAddr_cases (s : State) (a : Word) :
    (∀ pag, activeOverride s.ext = .page pag → dataAddr s a = pag ++ a.extractLsb' 0 14)
    ∧ (∀ seg, activeOverride s.ext = .segment seg → dataAddr s a = seg ++ a)
    ∧ (activeOverride s.ext = .none →
      (bitOf s.prev.cpu.syscon 11 = false →
        dataAddr s a = (dppFor s.prev.cpu a).extractLsb' 0 10 ++ a.extractLsb' 0 14)
      ∧ (bitOf s.prev.cpu.syscon 11 = true →
        dataAddr s a = 0x00#8 ++ (dppFor s.prev.cpu a).extractLsb' 0 2 ++ a.extractLsb' 0 14)) := by
  have offset : a.setWidth 14 = a.extractLsb' 0 14 := BitVec.setWidth_eq_extractLsb' (by decide)
  refine ⟨fun pag h => ?_, fun seg h => ?_, fun h => ⟨fun hs => ?_, fun hs => ?_⟩⟩
  · rw [dataAddr, h, ← offset]
  · rw [dataAddr, h]
  · rw [dataAddr, h, ← offset, ← dppOf_dppIndex, ← BitVec.setWidth_eq_extractLsb' (by decide)]
    simp only [hs, Bool.false_eq_true, if_false]
  · rw [dataAddr, h, ← offset, ← dppOf_dppIndex, ← setWidth_and_three]
    simp only [hs, if_true]

/-! ## Register addresses -/

/-- A bit instruction's write as the write of the word, with the phases of two prescalers kept or not. -/
theorem writeSfrBits_bitWrite (s : State) (a : Nat) (mask v : Word) : BitWrite s a mask v (writeSfrBits a mask v s) := by
  refine ⟨fun t h => ?_, fun e h => ?_⟩
  · rw [writeSfrBits, h]
    simp only [State.keepPhases]
    split <;> rfl
  · rw [writeSfrBits, h]

/-- As `reg` and as `bitoff` a short address gives the same register. -/
theorem bitSfrAddr_eq_regSfrAddr (s : State) {r : BitVec 8} (h : 0x80 ≤ r.toNat) : bitSfrAddr s r = regSfrAddr s r := by
  unfold bitSfrAddr regSfrAddr
  generalize r.toNat = n at h
  cases esfrMode s.ext
  · rw [if_neg (by simp), if_neg (by simp)]
    omega
  · rw [if_pos rfl, if_pos rfl]
    omega

/-- The address that a short register address gives is the one that it names. -/
theorem namesSfr_regSfrAddr {s : State} {r : BitVec 8} (hg : regIsGpr r = false) : NamesSfr s r (regSfrAddr s r) := by
  refine ⟨readReg_sfr hg s, fun v => writeReg_sfr hg v s, fun w t h => ?_, fun hr => ?_⟩
  · rw [readRegB_sfr hg, Op.bind_of_ok h, lowByte_eq_extractLsb']
    rfl
  · have addr := bitSfrAddr_eq_regSfrAddr s hr
    refine ⟨?_, fun mask v => ?_⟩
    · rw [readBitWord, hg, if_neg (by simp), if_neg (by omega), Op.bind_of_ok (look_apply _ _), addr]
    · rw [writeBitWord_sfr hg hr, addr]
      exact writeSfrBits_bitWrite s _ mask v

/-- Settles O38: the body of each instruction starts the sequence, and the addresses follow it. -/
theorem extensionSequences : Obligations.ExtensionSequences := by
  intro k m seg pag s
  refine ⟨startsSequence_of rfl rfl, startsSequence_of rfl rfl, startsSequence_of rfl rfl, startsSequence_of rfl rfl,
    startsSequence_of rfl rfl, startsSequence_of rfl rfl, startsSequence_rwm k, tick_eq s.ext, fun a => ?_,
    fun r hg => ⟨fun hc he => ?_, fun he => ?_⟩⟩
  · obtain ⟨page, segment, through⟩ := dataAddr_cases s a
    exact ⟨fun hc ho => page pag (by rw [activeOverride_of_pos hc, ho]),
      fun hc ho => segment seg (by rw [activeOverride_of_pos hc, ho]), fun ho => through (activeOverride_none ho)⟩
  · have mode : esfrMode s.ext = true := by simp [esfrMode, hc, he]
    have addr : regSfrAddr s r = 0xF000 + 2 * r.toNat := by rw [regSfrAddr, mode, if_pos rfl]
    exact addr ▸ namesSfr_regSfrAddr hg
  · have mode : esfrMode s.ext = false := by
      rcases he with he | he <;> simp [esfrMode, he]
    exact regSfrAddr_sfr mode r ▸ namesSfr_regSfrAddr hg

end Sys2Proof.Machine
end

