-- ==== Sys2Proof/Proofs/OperandTraps.lean ====
section
/-! PROOFS. An operand in memory that cannot be accessed abandons the instruction, in every form that has one (O39).
Spec: 20_memory.md rules R82 and R104, 60_exceptions.md rules R387 and R389, decisions D13 and D19. -/

namespace Sys2Proof.Machine

open Sys2Proof.Claims

/-- A body that stops with a trap leaves the flag and the advance of IP (D19). -/
theorem abandoned_of {i : Instr} {len k : Nat} {body : Op Unit} {s : State} (hi : exec i s = runInstr len body s)
    (hb : body s.begin = .error (.trap k)) : Abandoned (1#16 <<< k) i len s :=
  ⟨_, hi.trans (runInstr_of_trap hb), rfl, rfl, fun _ => rfl, ⟨by constructor <;> rfl, rfl⟩⟩

/-! ## Operands that stop -/

/-- What data addresses are formed with, and what answers at them, is the same. -/
structure SameAddressing (s u : State) : Prop where
  prev : u.prev = s.prev
  ext : u.ext = s.ext
  hz : u.hz = s.hz
  board : u.board = s.board

theorem SameAddressing.begin (s : State) : SameAddressing s s.begin := ⟨rfl, rfl, rfl, rfl⟩

theorem SameAddressing.trans {s t u : State} (h : SameAddressing s t) (k : SameAddressing t u) : SameAddressing s u :=
  ⟨k.prev.trans h.prev, k.ext.trans h.ext, k.hz.trans h.hz, k.board.trans h.board⟩

theorem OnlyRead.addressing {s u : State} (h : OnlyRead s.begin u) : SameAddressing s u := ⟨h.prev, h.ext, h.hz, h.board⟩

theorem SameAddressing.setGprWord {s u : State} (h : SameAddressing s u) (n : BitVec 4) (v : Word) :
    SameAddressing s (u.setGprWord n v) := ⟨h.prev, h.ext, h.hz, h.board⟩

theorem SameAddressing.dataAddr {s u : State} (h : SameAddressing s u) (a : Word) :
    Machine.dataAddr u a = Machine.dataAddr s a := dataAddr_congr h.prev h.ext a

theorem SameAddressing.dataRemapped {s u : State} (h : SameAddressing s u) (a : Word) :
    Machine.dataRemapped u a = Machine.dataRemapped s a := by
  have rom : romSize u = romSize s := by
    unfold romSize
    rw [h.board]
  simp only [Machine.dataRemapped, inRemapped, rom, h.dataAddr, h.ext, h.hz]

theorem SameAddressing.areaOf {s u : State} (h : SameAddressing s u) (a : PhysAddr) :
    Machine.areaOf u u.prev.cpu.syscon a = Machine.areaOf s s.prev.cpu.syscon a := by
  rw [h.prev, areaOf_congr h.board]

/-- Reading or writing the word operand at `a` stops with the trap `k`, wherever in the instruction it comes. -/
def WordStops (k : Nat) (s : State) (a : Word) : Prop :=
  ∀ u, SameAddressing s u →
    readWordOperand a u = .error (.trap k) ∧ ∀ v, writeWordOperand a v u = .error (.trap k)

/-- The same of the byte operand at `a`. -/
def ByteStops (k : Nat) (s : State) (a : Word) : Prop :=
  ∀ u, SameAddressing s u →
    readByteOperand a u = .error (.trap k) ∧ ∀ v, writeByteOperand a v u = .error (.trap k)

/-- A word at an odd address raises ILLOPA (R82, R387). -/
theorem wordStops_of_odd (s : State) {a : Word} (h : isOdd a = true) : WordStops 2 s a := fun u _ =>
  ⟨by rw [readWordOperand_apply, if_pos h], fun v => by rw [writeWordOperand_apply, if_pos h]⟩

theorem needsMissingBus_congr {s u : State} {a : Word} (h : NeedsMissingBus s a) (same : SameAddressing s u) :
    NeedsMissingBus u a := by
  obtain ⟨remapped, area, bus⟩ := h
  exact ⟨by rw [same.dataRemapped, remapped], by rw [same.dataAddr, same.areaOf, area], by rw [same.prev, bus]⟩

/-- An operand that needs the missing bus raises ILLBUS (R389, D13). -/
theorem wordStops_of_missing {s : State} {a : Word} (ho : isOdd a = false) (h : NeedsMissingBus s a) : WordStops 0 s a :=
  fun _ same =>
    let ⟨remapped, area, bus⟩ := needsMissingBus_congr h same
    wordOperand_of_missing ho remapped area bus

theorem byteStops_of_missing {s : State} {a : Word} (h : NeedsMissingBus s a) : ByteStops 0 s a :=
  fun _ same =>
    let ⟨remapped, area, bus⟩ := needsMissingBus_congr h same
    byteOperand_of_missing remapped area bus

section
variable {k : Nat} {s u : State} {a : Word}

/-- What follows the read of an operand that stops does not matter. -/
theorem WordStops.read {α : Type} (h : WordStops k s a) (same : SameAddressing s u) (f : Word → Op α) :
    (readWordOperand a >>= f) u = .error (.trap k) :=
  Op.bind_of_error (h u same).1

theorem WordStops.write {α : Type} (h : WordStops k s a) (same : SameAddressing s u) (v : Word) (f : Unit → Op α) :
    (writeWordOperand a v >>= f) u = .error (.trap k) :=
  Op.bind_of_error ((h u same).2 v)

theorem WordStops.move (h : WordStops k s a) (same : SameAddressing s u) (v : Word) :
    moveToMem a v u = .error (.trap k) :=
  h.write same v _

theorem ByteStops.read {α : Type} (h : ByteStops k s a) (same : SameAddressing s u) (f : Byte → Op α) :
    (readByteOperand a >>= f) u = .error (.trap k) :=
  Op.bind_of_error (h u same).1

theorem ByteStops.move (h : ByteStops k s a) (same : SameAddressing s u) (v : Byte) :
    moveToMemB a v u = .error (.trap k) :=
  Op.bind_of_error ((h u same).2 v)

end

/-! ## What comes before the operand -/

/-- A GPR reads in the rest of the instruction as at its beginning. -/
theorem OnlyRead.readGpr_ok {s u : State} (h : OnlyRead s.begin u) {n : BitVec 4} (hok : Machine.gprWordOk s n = true) :
    Machine.readGpr n u = .ok (s.gprWord n, u) :=
  Machine.readGpr_ok.2 ⟨by rw [h.gprWordOk, hok], (h.gprWord n).symm, rfl⟩

/-- A pointer register is written after reads. -/
theorem OnlyRead.writeGpr_ok {s u : State} (h : OnlyRead s.begin u) {n : BitVec 4} (hok : Machine.gprWordOk s n = true)
    (v : Word) : Machine.writeGpr n v u = .ok ((), u.setGprWord n v) :=
  Machine.writeGpr_ok.2 ⟨by rw [h.gprWordOk, hok], rfl⟩

/-- The choice of what MOV [-Rwm],Rwn stores changes at most the count of free values. -/
theorem storedWord_ok (own : Bool) (v : Word) (s : State) :
    ∃ x n, storedWord own v s = .ok (x, s.advanceFree n) := by
  cases own
  · exact ⟨v, 0, rfl⟩
  · exact ⟨s.freeWord, 1, rfl⟩

theorem storedByte_ok (own : Bool) (v : Byte) (s : State) :
    ∃ x n, storedByte own v s = .ok (x, s.advanceFree n) := by
  cases own
  · exact ⟨v, 0, rfl⟩
  · exact ⟨lowByte s.freeWord, 1, rfl⟩

/-- MOV [-Rwm],Rwn comes to its store with the pointer decremented. -/
theorem movIndDecRwmRwn_traps {k : Nat} {n m : BitVec 4} {s : State} (hm : gprWordOk s m = true)
    (hn : gprWordOk s n = true) (h : WordStops k s (s.gprWord m - 2)) :
    Abandoned (1#16 <<< k) (.movIndDecRwmRwn m n) 2 s := by
  obtain ⟨x, j, chosen⟩ := storedWord_ok (decide (n = m)) (s.gprWord n) s.begin
  have read := OnlyRead.advanceFree s.begin j
  refine abandoned_of (len := 2) rfl ((Op.bind_of_ok (readGpr_begin hn)).trans ((Op.bind_of_ok (readGpr_begin hm)).trans
    ((Op.bind_of_ok chosen).trans ((Op.bind_of_ok (read.writeGpr_ok hm _)).trans ?_))))
  exact h.move (read.addressing.setGprWord m _) x

theorem movbIndDecRwmRbn_traps {k : Nat} {n m : BitVec 4} {s : State} (hm : gprWordOk s m = true)
    (hn : gprByteOk s n = true) (h : ByteStops k s (s.gprWord m - 1)) :
    Abandoned (1#16 <<< k) (.movbIndDecRwmRbn m n) 2 s := by
  obtain ⟨x, j, chosen⟩ := storedByte_ok (isHalfOf n m) (s.gprByte n) s.begin
  have read := OnlyRead.advanceFree s.begin j
  refine abandoned_of (len := 2) rfl ((Op.bind_of_ok (readGprB_begin hn)).trans ((Op.bind_of_ok (readGpr_begin hm)).trans
    ((Op.bind_of_ok chosen).trans ((Op.bind_of_ok (read.writeGpr_ok hm _)).trans ?_))))
  exact h.move (read.addressing.setGprWord m _) x

/-! ## The instructions by operand form -/

theorem exec_aluRwnInd (op : Alu) (n : BitVec 4) (i : BitVec 2) (s : State) :
    exec (aluRwnInd op n i) s = runInstr 2 (aluRInd op n i) s := by
  cases op <;> rfl

theorem exec_aluRwnIndInc (op : Alu) (n : BitVec 4) (i : BitVec 2) (s : State) :
    exec (aluRwnIndInc op n i) s = runInstr 2 (aluRIndInc op n i) s := by
  cases op <;> rfl

theorem exec_aluRbnInd (op : Alu) (n : BitVec 4) (i : BitVec 2) (s : State) :
    exec (aluRbnInd op n i) s = runInstr 2 (aluRIndB op n i) s := by
  cases op <;> rfl

theorem exec_aluRbnIndInc (op : Alu) (n : BitVec 4) (i : BitVec 2) (s : State) :
    exec (aluRbnIndInc op n i) s = runInstr 2 (aluRIndIncB op n i) s := by
  cases op <;> rfl

/-- What a loop compare adds to its register. -/
def LoopCompare.delta (l : LoopCompare) : Word :=
  match l with
  | .cmpi1 => 1
  | .cmpi2 => 2
  | .cmpd1 => -1
  | .cmpd2 => -2

theorem exec_loopCompareMem (l : LoopCompare) (n : BitVec 4) (mem : Word) (s : State) :
    exec (l.mem n mem) s = runInstr 4 (cmpStepMem n mem l.delta) s := by
  cases l <;> rfl

/-- An instruction whose body begins with the read of a pointer register. -/
theorem abandoned_of_pointer {i : Instr} {len k : Nat} {m : BitVec 4} {f : Word → Op Unit} {s : State}
    (hi : exec i s = runInstr len (readGpr m >>= f) s) (hm : gprWordOk s m = true)
    (hf : f (s.gprWord m) s.begin = .error (.trap k)) : Abandoned (1#16 <<< k) i len s :=
  abandoned_of hi ((Op.bind_of_ok (readGpr_begin hm)).trans hf)

/-- In each form the operands before the bad one are read, and the bad one stops the body. -/
theorem wordOperandTraps_of {k : Nat} {bad : State → Word → Prop} (stops : ∀ s a, bad s a → WordStops k s a) :
    WordOperandTraps (1#16 <<< k) bad := by
  intro op l n m i reg d mem s
  have here := SameAddressing.begin s
  refine ⟨fun hbad => ?_, fun hm hbad => ?_, fun hm hn hbad => movIndDecRwmRwn_traps hm hn (stops _ _ hbad),
    fun hm hbad => ?_, fun hn hi hbad => ?_, fun hn hbad => ⟨fun v u hv => ?_, fun v u hm hv => ?_⟩⟩
  · have bad := stops _ _ hbad
    refine ⟨abandoned_of (len := 4) rfl (bad.read here _), abandoned_of (len := 4) rfl (bad.read here _),
      abandoned_of (exec_loopCompareMem l n mem s) (bad.read here _),
      fun j hj => abandoned_of (exec_aluMemWithReg hj s).2 (bad.read here _), fun v u hv => ?_, fun v u hv => ?_,
      fun v u hm hv => ?_⟩
    · have there := (OnlyRead.readReg hv).addressing
      exact ⟨abandoned_of (exec_aluRegWithMem op reg mem s) ((Op.bind_of_ok hv).trans (bad.read there _)),
        abandoned_of (len := 4) rfl ((Op.bind_of_ok hv).trans (bad.move there v)),
        abandoned_of (len := 4) rfl ((Op.bind_of_ok hv).trans (bad.read there _))⟩
    · have there := (OnlyRead.readRegB hv).addressing
      exact ⟨abandoned_of (len := 4) rfl ((Op.bind_of_ok hv).trans (bad.write there _ _)),
        abandoned_of (len := 4) rfl ((Op.bind_of_ok hv).trans (bad.write there _ _))⟩
    · have there := (OnlyRead.readWordOperand hv).addressing
      exact abandoned_of_pointer (len := 4) rfl hm ((Op.bind_of_ok hv).trans (bad.move there v))
  · have bad := stops _ _ hbad
    have load : ∀ (len : Nat) (j : Instr) (f : Word → Word → Op Unit),
        exec j s = runInstr len (readGpr m >>= fun p => readWordOperand p >>= f p) s → Abandoned (1#16 <<< k) j len s :=
      fun _ _ _ hj => abandoned_of_pointer hj hm (bad.read here _)
    exact ⟨load 2 _ _ rfl, load 2 _ _ rfl, load 4 _ _ rfl, load 2 _ _ rfl, load 2 _ _ rfl, load 2 _ _ rfl,
      fun hn => abandoned_of_pointer (len := 2) rfl hn ((Op.bind_of_ok (readGpr_begin hm)).trans (bad.move here _))⟩
  · have bad := stops _ _ hbad
    exact ⟨abandoned_of_pointer (len := 4) rfl hm (bad.read here _), fun hn => abandoned_of_pointer (len := 4) rfl hn
      ((Op.bind_of_ok (readGpr_begin hm)).trans (bad.move here _))⟩
  · have bad := stops _ _ hbad
    have pointer := readGpr_begin hi
    exact ⟨abandoned_of_pointer (exec_aluRwnInd op n i s) hn ((Op.bind_of_ok pointer).trans (bad.read here _)),
      abandoned_of_pointer (exec_aluRwnIndInc op n i s) hn ((Op.bind_of_ok pointer).trans (bad.read here _))⟩
  · have read := OnlyRead.readWordOperand hv
    exact abandoned_of (len := 4) rfl ((Op.bind_of_ok hv).trans ((Op.bind_of_ok (read.readGpr_ok hn)).trans
      ((stops _ _ hbad).move read.addressing v)))
  · have bad := stops _ _ hbad
    have read := OnlyRead.readWordOperand hv
    have there := read.addressing
    have target := read.readGpr_ok hn
    exact ⟨abandoned_of_pointer (len := 2) rfl hm
        ((Op.bind_of_ok hv).trans ((Op.bind_of_ok target).trans (bad.move there v))),
      abandoned_of_pointer (len := 2) rfl hm ((Op.bind_of_ok hv).trans ((Op.bind_of_ok target).trans
        ((Op.bind_of_ok (read.writeGpr_ok hn _)).trans (bad.move (there.setGprWord n _) v)))),
      abandoned_of_pointer (len := 2) rfl hm ((Op.bind_of_ok hv).trans ((Op.bind_of_ok target).trans
        ((Op.bind_of_ok (read.writeGpr_ok hm _)).trans (bad.move (there.setGprWord m _) v))))⟩

/-- The same of byte operands. -/
theorem byteOperandTraps_of {k : Nat} {bad : State → Word → Prop} (stops : ∀ s a, bad s a → ByteStops k s a) :
    ByteOperandTraps (1#16 <<< k) bad := by
  intro op n m i reg d mem s
  have here := SameAddressing.begin s
  refine ⟨fun hbad => ?_, fun hm hbad => ?_, fun hm hn hbad => movbIndDecRwmRbn_traps hm hn (stops _ _ hbad),
    fun hm hbad => ?_, fun hn hi hbad => ?_, fun hn hbad => ⟨fun v u hv => ?_, fun v u hm hv => ?_⟩⟩
  · have bad := stops _ _ hbad
    refine ⟨abandoned_of (len := 4) rfl (bad.read here _), abandoned_of (len := 4) rfl (bad.read here _),
      abandoned_of (len := 4) rfl (bad.read here _), abandoned_of (len := 4) rfl (bad.read here _),
      fun j hj => abandoned_of (exec_aluMemWithRegB hj s).2 (bad.read here _), fun v u hv => ?_, fun v u hm hv => ?_⟩
    · have there := (OnlyRead.readRegB hv).addressing
      exact ⟨abandoned_of (exec_aluRegWithMemB op reg mem s) ((Op.bind_of_ok hv).trans (bad.read there _)),
        abandoned_of (len := 4) rfl ((Op.bind_of_ok hv).trans (bad.move there v))⟩
    · have there := (OnlyRead.readByteOperand hv).addressing
      exact abandoned_of_pointer (len := 4) rfl hm ((Op.bind_of_ok hv).trans (bad.move there v))
  · have bad := stops _ _ hbad
    have load : ∀ (len : Nat) (j : Instr) (f : Word → Byte → Op Unit),
        exec j s = runInstr len (readGpr m >>= fun p => readByteOperand p >>= f p) s → Abandoned (1#16 <<< k) j len s :=
      fun _ _ _ hj => abandoned_of_pointer hj hm (bad.read here _)
    exact ⟨load 2 _ _ rfl, load 2 _ _ rfl, load 4 _ _ rfl, load 2 _ _ rfl, load 2 _ _ rfl, load 2 _ _ rfl,
      fun hn => abandoned_of (len := 2) rfl ((Op.bind_of_ok (readGprB_begin hn)).trans
        ((Op.bind_of_ok (readGpr_begin hm)).trans (bad.move here _)))⟩
  · have bad := stops _ _ hbad
    exact ⟨abandoned_of_pointer (len := 4) rfl hm (bad.read here _),
      fun hn => abandoned_of (len := 4) rfl ((Op.bind_of_ok (readGprB_begin hn)).trans
        ((Op.bind_of_ok (readGpr_begin hm)).trans (bad.move here _)))⟩
  · have bad := stops _ _ hbad
    have value := readGprB_begin hn
    have pointer := readGpr_begin hi
    exact ⟨abandoned_of (exec_aluRbnInd op n i s)
        ((Op.bind_of_ok value).trans ((Op.bind_of_ok pointer).trans (bad.read here _))),
      abandoned_of (exec_aluRbnIndInc op n i s)
        ((Op.bind_of_ok value).trans ((Op.bind_of_ok pointer).trans (bad.read here _)))⟩
  · have read := OnlyRead.readByteOperand hv
    exact abandoned_of (len := 4) rfl ((Op.bind_of_ok hv).trans ((Op.bind_of_ok (read.readGpr_ok hn)).trans
      ((stops _ _ hbad).move read.addressing v)))
  · have bad := stops _ _ hbad
    have read := OnlyRead.readByteOperand hv
    have there := read.addressing
    have target := read.readGpr_ok hn
    exact ⟨abandoned_of_pointer (len := 2) rfl hm
        ((Op.bind_of_ok hv).trans ((Op.bind_of_ok target).trans (bad.move there v))),
      abandoned_of_pointer (len := 2) rfl hm ((Op.bind_of_ok hv).trans ((Op.bind_of_ok target).trans
        ((Op.bind_of_ok (read.writeGpr_ok hn _)).trans (bad.move (there.setGprWord n _) v)))),
      abandoned_of_pointer (len := 2) rfl hm ((Op.bind_of_ok hv).trans ((Op.bind_of_ok target).trans
        ((Op.bind_of_ok (read.writeGpr_ok hm _)).trans (bad.move (there.setGprWord m _) v))))⟩

/-- Settles O39: an odd word stops with ILLOPA, an operand on a missing bus with ILLBUS. -/
theorem operandTraps : Obligations.OperandTraps :=
  ⟨wordOperandTraps_of (k := 2) fun s _ h => wordStops_of_odd s h,
    wordOperandTraps_of (k := 0) fun _ _ h => wordStops_of_missing h.1 h.2,
    byteOperandTraps_of (k := 0) fun _ _ h => byteStops_of_missing h⟩

end Sys2Proof.Machine
end

