-- ==== Sys2Proof/Proofs/MemoryOperands.lean ====
section
/-! PROOFS. Operands in plain memory are read and written, and short addresses of GPRs and of bit words of the IRAM (O40).
Spec: 20_memory.md rules R81, R82, R91, R95 to R97, R104, R135 and R136, decision D31. -/

namespace Sys2Proof.Machine

open Sys2Proof.Claims

/-! ## What an access depends on -/

/-- Beside memory, all that decides whether and where an operand is accessed is the same. -/
structure SameAccess (s u : State) : Prop where
  addressing : SameAddressing s u
  pins : u.pins = s.pins
  held : u.ebc.held = s.ebc.held
  gaps : u.gaps = s.gaps
  psw : u.cpu.psw = s.cpu.psw

theorem SameAccess.refl (s : State) : SameAccess s s := ⟨⟨rfl, rfl, rfl, rfl⟩, rfl, rfl, rfl, rfl⟩

theorem SameAccess.trans {s t u : State} (h : SameAccess s t) (k : SameAccess t u) : SameAccess s u :=
  ⟨h.addressing.trans k.addressing, k.pins.trans h.pins, k.held.trans h.held, k.gaps.trans h.gaps, k.psw.trans h.psw⟩

theorem SameAccess.storeWord {s u : State} (h : SameAccess s u) (a : Nat) (v : Word) : SameAccess s (u.storeWord a v) :=
  h.trans ⟨⟨rfl, rfl, rfl, rfl⟩, rfl, rfl, rfl, rfl⟩

theorem SameAccess.storeByte {s u : State} (h : SameAccess s u) (a : Nat) (v : Byte) : SameAccess s (u.storeByte a v) :=
  h.trans ⟨⟨rfl, rfl, rfl, rfl⟩, rfl, rfl, rfl, rfl⟩

/-- The traces of a bus cycle are none of it. -/
theorem SameAccess.ofTraces {s u : State} (h : OnlyTraces s u) : SameAccess s u ∧ u.mem = s.mem := by
  obtain ⟨same, -, held, -⟩ := h
  refine ⟨⟨⟨?_, ?_, ?_, ?_⟩, ?_, held, ?_, ?_⟩, ?_⟩ <;> rw [same]

theorem SameAccess.undisturbed {s u : State} (h : SameAccess s u) (hq : Undisturbed s) : Undisturbed u :=
  hq.congr (h.gaps ▸ List.suffix_refl _) h.psw

theorem SameAccess.externalStop {s u : State} (h : SameAccess s u) (p : PhysAddr) :
    Machine.externalStop u p = Machine.externalStop s p := by
  simp only [Machine.externalStop, h.addressing.prev, h.held, h.pins]

theorem SameAccess.regionKind {s u : State} (h : SameAccess s u) (p : PhysAddr) :
    Machine.regionKind u p = Machine.regionKind s p := regionKind_congr h.addressing.prev h.addressing.board p

theorem SameAccess.externalCell {s u : State} (h : SameAccess s u) (p : PhysAddr) :
    Machine.externalCell u p = Machine.externalCell s p := externalCell_congr h.addressing.prev h.addressing.board p

theorem SameAccess.cellOf {s u : State} (h : SameAccess s u) (p : PhysAddr) : Machine.cellOf u p = Machine.cellOf s p :=
  cellOf_congr h.addressing.prev h.addressing.board p

/-- The memory at the physical address `p` is plain and, where it is the board's, its bus is free and stays with the CPU. -/
structure Reachable (s : State) (p : PhysAddr) : Prop where
  plain : plainMemory s p
  quiet : Undisturbed s
  bus : areaOf s s.prev.cpu.syscon p = .external → externalStop s p = none

theorem Reachable.congr {s u : State} {p : PhysAddr} (h : Reachable s p) (same : SameAccess s u) : Reachable u p := by
  refine ⟨(plainMemory_congr same.addressing.prev same.addressing.board p).2 h.plain, same.undisturbed h.quiet, fun he => ?_⟩
  rw [same.externalStop]
  exact h.bus (by rwa [same.addressing.areaOf] at he)

/-! ## The odd byte of a word -/

/-- Plain memory at both bytes of a word is of one kind. -/
theorem area_of_plain_succ {s : State} {p : PhysAddr} (he : p.getLsbD 0 = false) (h : plainMemory s p)
    (h1 : plainMemory s (p + 1)) :
    (inIramAt s p ∧ inIramAt s (p + 1)) ∨ (inBoardRam s p ∧ inBoardRam s (p + 1)) := by
  rcases h with h | h
  · exact .inl ⟨h, (areaOf_succ s _ he).2 h⟩
  · exact .inr ⟨h, h1.resolve_left fun k => not_external_of_iram h.1 ((areaOf_succ s _ he).1 k)⟩

theorem cellOf_succ {s : State} {p : PhysAddr} (he : p.getLsbD 0 = false) (h : plainMemory s p)
    (h1 : plainMemory s (p + 1)) : cellOf s (p + 1) = cellOf s p + 1 := by
  rcases area_of_plain_succ he h h1 with ⟨k, k1⟩ | ⟨k, k1⟩
  · rw [cellOf_iram k, cellOf_iram k1, toNat_succ_of_even he]
  · rw [cellOf_external k.1, cellOf_external k1.1, externalCell_succ s he]

theorem Reachable.succ {s : State} {p : PhysAddr} (h : Reachable s p) (he : p.getLsbD 0 = false)
    (h1 : plainMemory s (p + 1)) : Reachable s (p + 1) := by
  refine ⟨h1, h.quiet, fun ha => ?_⟩
  rw [externalStop_succ s he]
  rcases area_of_plain_succ he h.plain h1 with ⟨-, k1⟩ | ⟨k, -⟩
  · exact absurd k1 (not_external_of_iram ha)
  · exact h.bus k.1

theorem toNat_succ_of_isOdd {a : Word} (h : isOdd a = false) : a.toNat % 2 = 0 ∧ (a + 1).toNat = a.toNat + 1 := by
  have even : a.toNat % 2 = 0 := by
    rw [isOdd, BitVec.getLsbD, Nat.testBit_zero, decide_eq_false_iff_not] at h
    omega
  refine ⟨even, ?_⟩
  have := a.isLt
  rw [BitVec.toNat_add, show (1 : Word).toNat = 1 from rfl]
  omega

/-- Adding 1 to an even number changes its low part only. -/
theorem append_succ {n k : Nat} (x : BitVec n) (y z : BitVec k) (h : z.toNat = y.toNat + 1) :
    (x ++ z).toNat = (x ++ y).toNat + 1 := by
  have hz := z.isLt
  rw [BitVec.toNat_append, BitVec.toNat_append, ← Nat.shiftLeft_add_eq_or_of_lt hz,
    ← Nat.shiftLeft_add_eq_or_of_lt (by omega)]
  omega

/-- The two bytes of a word at an even address have one page, and physical addresses that follow each other. -/
theorem dataAddr_succ (s : State) {a : Word} (h : isOdd a = false) :
    dppIndex (a + 1) = dppIndex a ∧ dataAddr s (a + 1) = dataAddr s a + 1 := by
  obtain ⟨even, next⟩ := toNat_succ_of_isOdd h
  have page : dppIndex (a + 1) = dppIndex a := by
    unfold dppIndex
    omega
  have offset : ((a + 1).setWidth 14).toNat = (a.setWidth 14).toNat + 1 := by
    rw [BitVec.toNat_setWidth, BitVec.toNat_setWidth, next]
    omega
  refine ⟨page, BitVec.eq_of_toNat_eq ?_⟩
  rw [toNat_succ_of_even (dataAddr_even h)]
  unfold dataAddr
  rw [page]
  cases activeOverride s.ext with
  | page p => exact append_succ _ _ _ offset
  | segment sg => exact append_succ _ _ _ next
  | none => exact append_succ _ _ _ offset

theorem dataRemapped_succ {s : State} {a : Word} (h : isOdd a = false) (hr : dataRemapped s a = false) :
    dataRemapped s (a + 1) = false := by
  obtain ⟨page, addr⟩ := dataAddr_succ s h
  have next := toNat_succ_of_even (dataAddr_even (s := s) h)
  have even := toNat_mod_two_of_even (dataAddr_even (s := s) h)
  rw [dataRemapped, Bool.and_eq_false_iff] at hr ⊢
  rw [page]
  refine hr.imp_right fun hin => ?_
  simp only [inRemapped, addr, next, Bool.or_eq_false_iff, Bool.and_eq_false_iff, decide_eq_false_iff_not] at hin ⊢
  generalize (dataAddr s a).toNat = x at *
  obtain ⟨⟨low0, low1⟩, high1⟩ := hin
  exact ⟨⟨low0.imp_right (by omega), low1.imp_right (by omega)⟩, high1.imp_right (by omega)⟩

/-! ## Accesses to the board -/

section
variable {s : State} {p : PhysAddr}

theorem writeExternalByte_ram (hq : Undisturbed s) (hs : externalStop s p = none) (hr : regionKind s p = .ram) (v : Byte) :
    ∃ w, writeExternalByte p v s = .ok ((), w) ∧ SameAccess s w ∧ w.mem = Memory.write s.mem (externalCell s p) v := by
  obtain ⟨u, cycle, traces⟩ := busCycle_traces hq hs false (some (wordOfBytes v v))
  obtain ⟨same, mem⟩ := SameAccess.ofTraces traces
  refine ⟨u.storeByte (externalCell u p) v, ?_, same.storeByte _ _, ?_⟩
  · rw [writeExternalByte, Op.bind_of_ok cycle, Op.bind_of_ok (look_apply _ _), same.regionKind, hr]
    rfl
  · rw [State.storeByte_mem, same.externalCell, mem]

/-- On a 16-bit bus a word is written in one cycle, on an 8-bit bus byte by byte. -/
theorem writeExternalWord_ram (he : p.getLsbD 0 = false) (hq : Undisturbed s) (hs : externalStop s p = none)
    (hr : regionKind s p = .ram) (hr1 : regionKind s (p + 1) = .ram) (v : Word) :
    ∃ w, writeExternalWord p v s = .ok ((), w) ∧ SameAccess s w
      ∧ w.mem = Memory.writeWord s.mem (externalCell s p) v := by
  rw [writeExternalWord, Op.bind_of_ok (look_apply _ _)]
  cases byteBus s p
  · obtain ⟨u, cycle, traces⟩ := busCycle_traces hq hs true (some v)
    obtain ⟨same, mem⟩ := SameAccess.ofTraces traces
    refine ⟨u.storeWord (externalCell u p) v, ?_, same.storeWord _ _, ?_⟩
    · rw [if_neg (by simp), Op.bind_of_ok cycle, Op.bind_of_ok (look_apply _ _), same.regionKind, hr]
      rfl
    · rw [State.storeWord_mem, same.externalCell, mem]
  · obtain ⟨t, low, same, mem⟩ := writeExternalByte_ram hq hs hr (lowByte v)
    have hs1 : externalStop t (p + 1) = none := by rw [same.externalStop, externalStop_succ s he, hs]
    obtain ⟨w, high, same1, mem1⟩ := writeExternalByte_ram (same.undisturbed hq) hs1 (by rw [same.regionKind, hr1])
      (highByte v)
    refine ⟨w, ?_, same.trans same1, ?_⟩
    · rw [if_pos rfl, Op.bind_of_ok low, high]
    · rw [mem1, same.externalCell, externalCell_succ s he, mem]
      rfl

/-! ## Accesses to plain memory -/

theorem readPhysByte_reachable (h : Reachable s p) : ∃ u, readPhysByte p s = .ok (bytesOf s (cellOf s p), u) := by
  rw [readPhysByte, Op.bind_of_ok (look_apply _ _)]
  rcases h.plain with area | ⟨area, ram⟩
  · rw [area, cellOf_iram area]
    exact ⟨s, rfl⟩
  · obtain ⟨u, read, -⟩ := readExternalByte_ready h.quiet (h.bus area) (by rw [ram]; decide)
    rw [area, cellOf_external area]
    exact ⟨u, read⟩

theorem writePhysByte_reachable (h : Reachable s p) (v : Byte) :
    ∃ w, writePhysByte p v s = .ok ((), w) ∧ SameAccess s w ∧ w.mem = Memory.write s.mem (cellOf s p) v := by
  rw [writePhysByte, Op.bind_of_ok (look_apply _ _)]
  rcases h.plain with area | ⟨area, ram⟩
  · rw [area, cellOf_iram area]
    exact ⟨_, rfl, (SameAccess.refl s).storeByte _ _, rfl⟩
  · rw [area, cellOf_external area]
    exact writeExternalByte_ram h.quiet (h.bus area) ram v

theorem readPhysWord_reachable (he : p.getLsbD 0 = false) (h : Reachable s p) (h1 : plainMemory s (p + 1)) :
    ∃ u, readPhysWord p s = .ok (Memory.readWord s.mem (cellOf s p), u) := by
  rw [readPhysWord, Op.bind_of_ok (look_apply _ _)]
  rcases area_of_plain_succ he h.plain h1 with ⟨area, -⟩ | ⟨⟨area, ram⟩, -, ram1⟩
  · rw [area, cellOf_iram area]
    exact ⟨s, rfl⟩
  · obtain ⟨u, read, -⟩ := readExternalWord_ready he h.quiet (h.bus area) (by rw [ram]; decide) (by rw [ram1]; decide)
    rw [area, cellOf_external area]
    exact ⟨u, read⟩

theorem writePhysWord_reachable (he : p.getLsbD 0 = false) (h : Reachable s p) (h1 : plainMemory s (p + 1)) (v : Word) :
    ∃ w, writePhysWord p v s = .ok ((), w) ∧ SameAccess s w ∧ w.mem = Memory.writeWord s.mem (cellOf s p) v := by
  rw [writePhysWord, Op.bind_of_ok (look_apply _ _)]
  rcases area_of_plain_succ he h.plain h1 with ⟨area, -⟩ | ⟨⟨area, ram⟩, -, ram1⟩
  · rw [area, cellOf_iram area]
    exact ⟨_, rfl, (SameAccess.refl s).storeWord _ _, rfl⟩
  · rw [area, cellOf_external area]
    exact writeExternalWord_ram he h.quiet (h.bus area) ram ram1 v

end

/-! ## Operands in plain memory -/

section
variable {s : State} {a : Word}

theorem readByteOperand_reachable (hr : dataRemapped s a = false) (h : Reachable s (dataAddr s a)) :
    ∃ u, readByteOperand a s = .ok (bytesOf s (cellOf s (dataAddr s a)), u) := by
  rw [readByteOperand_apply, hr, if_neg (by simp)]
  exact readPhysByte_reachable h

theorem readWordOperand_reachable (hr : dataRemapped s a = false) (h : Reachable s (dataAddr s a)) (he : isOdd a = false)
    (h1 : plainMemory s (dataAddr s a + 1)) :
    ∃ u, readWordOperand a s = .ok (Memory.readWord s.mem (cellOf s (dataAddr s a)), u) := by
  rw [readWordOperand_apply, he, hr, if_neg (by simp), if_neg (by simp)]
  exact readPhysWord_reachable (dataAddr_even he) h h1

/-- A byte is written, and reads back. -/
theorem byteOperand_reachable (hr : dataRemapped s a = false) (h : Reachable s (dataAddr s a)) (b : Byte) :
    ∃ w, writeByteOperand a b s = .ok ((), w)
      ∧ (∀ x, bytesOf w x = patchByte (bytesOf s) (cellOf s (dataAddr s a)) b x)
      ∧ ∃ u, readByteOperand a w = .ok (b, u) := by
  obtain ⟨w, write, same, mem⟩ := writePhysByte_reachable h b
  have bytes : ∀ x, bytesOf w x = patchByte (bytesOf s) (cellOf s (dataAddr s a)) b x := fun x => by
    simp only [bytesOf, mem, Memory.read_write, patchByte]
  have addr := same.addressing.dataAddr a
  obtain ⟨u, read⟩ := readByteOperand_reachable (s := w) (a := a) (by rw [same.addressing.dataRemapped, hr])
    (by rw [addr]; exact h.congr same)
  refine ⟨w, by rw [writeByteOperand_apply, hr, if_neg (by simp), write], bytes, u, ?_⟩
  rw [read, addr, same.cellOf, bytes, patchByte, if_pos rfl]

/-- A word is written, and reads back as a word and as its two bytes. -/
theorem wordOperand_reachable (hr : dataRemapped s a = false) (h : Reachable s (dataAddr s a)) (he : isOdd a = false)
    (h1 : plainMemory s (dataAddr s a + 1)) (v : Word) :
    ∃ w, writeWordOperand a v s = .ok ((), w)
      ∧ (∀ x, bytesOf w x = patchWord (bytesOf s) (cellOf s (dataAddr s a)) v x)
      ∧ (∃ u, readWordOperand a w = .ok (v, u)) ∧ (∃ u, readByteOperand a w = .ok (v.extractLsb' 0 8, u))
      ∧ ∃ u, readByteOperand (a + 1) w = .ok (v.extractLsb' 8 8, u) := by
  have even := dataAddr_even (s := s) he
  obtain ⟨w, write, same, mem⟩ := writePhysWord_reachable even h h1 v
  have bytes : ∀ x, bytesOf w x = patchWord (bytesOf s) (cellOf s (dataAddr s a)) v x := fun x => by
    rw [← bytes_storeWord, bytesOf, mem, bytesOf, State.storeWord_mem]
  have addr := same.addressing.dataAddr a
  have addr1 : dataAddr w (a + 1) = dataAddr s a + 1 := by rw [same.addressing.dataAddr, (dataAddr_succ s he).2]
  have reach : Reachable w (dataAddr w a) := by
    rw [addr]
    exact h.congr same
  have reach1 : Reachable w (dataAddr w (a + 1)) := by
    rw [addr1]
    exact (h.succ even h1).congr same
  have remapped : dataRemapped w a = false := by rw [same.addressing.dataRemapped, hr]
  obtain ⟨u, word⟩ := readWordOperand_reachable remapped reach he (by rw [addr, ← addr1]; exact reach1.plain)
  obtain ⟨ul, low⟩ := readByteOperand_reachable remapped reach
  obtain ⟨uh, high⟩ := readByteOperand_reachable (dataRemapped_succ he remapped) reach1
  refine ⟨w, by rw [writeWordOperand_apply, he, hr, if_neg (by simp), if_neg (by simp), write], bytes,
    ⟨u, ?_⟩, ⟨ul, ?_⟩, ⟨uh, ?_⟩⟩
  · rw [word, addr, same.cellOf, mem, Memory.readWord_writeWord_self]
  · rw [low, addr, same.cellOf, bytes, patchWord, if_pos rfl, lowByte_eq_extractLsb']
  · rw [high, addr1, same.cellOf, bytes, cellOf_succ even h.plain h1, patchWord, if_neg (by omega), if_pos rfl,
      highByte_eq_extractLsb']

end

/-! ## Short addresses of memory -/

/-- A write of memory that leaves everything else. -/
theorem leavesBytes_of_quiet {s w : State} {out : Except Stop (Unit × State)} {m : Nat → Byte} (h : out = .ok ((), w))
    (hq : Quiet s w) (hm : ∀ x, bytesOf w x = m x) : LeavesBytes s out m :=
  ⟨w, h, hq.cpu, hq.ext, hq.outside, hm⟩

/-- F0h to FFh: the word GPR as `reg` and as `bitoff`, and the byte GPR. -/
theorem namesGpr_of {s : State} {r : BitVec 8} (hg : regIsGpr r = true) : NamesGpr s r := by
  refine ⟨fun hok => ⟨⟨?_, fun v => ?_⟩, fun mask => ⟨?_, fun v => ?_⟩⟩, fun hok => ⟨?_, fun b => ?_⟩⟩
  · rw [readReg_gpr hg, readGpr_ok]
    exact ⟨hok, rfl, rfl⟩
  · exact leavesBytes_of_quiet (writeReg_gpr_ok hg hok v) (quiet_setGprWord _ _ _) (bytes_setGprWord _ _ _)
  · rw [readBitWord, if_pos hg, readGpr_ok]
    exact ⟨hok, rfl, rfl⟩
  · rw [writeBitWord_gpr hg]
    exact leavesBytes_of_quiet (writeGpr_ok.2 ⟨hok, rfl⟩) (quiet_setGprWord _ _ _) (bytes_setGprWord _ _ _)
  · rw [readRegB_gpr hg, readGprB_ok]
    exact ⟨hok, rfl, rfl⟩
  · rw [writeRegB_gpr hg]
    exact leavesBytes_of_quiet (writeGprB_ok.2 ⟨hok, rfl⟩) (quiet_setGprByte _ _ _) (bytes_setGprByte _ _ _)

/-- A `bitoff` below 80h: the word of the IRAM. -/
theorem namesWord_bitIram {r : BitVec 8} (hr : r.toNat < 0x80) (s : State) (mask : Word) :
    NamesWord s (0xFD00 + 2 * r.toNat) (readBitWord r) (writeBitWord r mask) := by
  refine ⟨?_, fun v => ?_⟩
  · rw [readBitWord, regIsGpr_of_lt hr, if_neg (by simp), if_pos hr, look_apply]
    rfl
  · exact leavesBytes_of_quiet (writeBitWord_iram hr mask v s) (quiet_storeWord _ _ _) (bytes_storeWord _ _ _)

/-- Settles O40: the premises make the address reachable, and a store leaves it so. -/
theorem memoryOperands : Obligations.MemoryOperands := by
  refine ⟨fun a v b s hr plain quiet bus => ?_, fun r s => ⟨namesGpr_of, fun hr mask => namesWord_bitIram hr s mask⟩⟩
  have reach : Reachable s (dataAddr s a) := ⟨plain, quiet, bus⟩
  exact ⟨fun he plain1 => ⟨readWordOperand_reachable hr reach he plain1, wordOperand_reachable hr reach he plain1 v⟩,
    readByteOperand_reachable hr reach, byteOperand_reachable hr reach b⟩

end Sys2Proof.Machine
end

