-- ==== Sys2Proof/Proofs/EncodingFields.lean ====
section
/-! PROOFS. The fields of instruction bytes: packed and taken apart (R133, R142). -/

namespace Sys2Proof

/-! ## Nibbles and words -/

@[simp] theorem hi_append (x y : BitVec 4) : hi (x ++ y) = x := BitVec.extractLsb'_append_eq_left

@[simp] theorem lo_append (x y : BitVec 4) : lo (x ++ y) = y := BitVec.extractLsb'_append_eq_right

@[simp] theorem hi_append_lo (b : Byte) : hi b ++ lo b = b := BitVec.extractLsb'_append_extractLsb' (w := 4) (len := 4)

@[simp] theorem loByte_wordOf (l h : Byte) : loByte (wordOf l h) = l := BitVec.extractLsb'_append_eq_right

@[simp] theorem hiByte_wordOf (l h : Byte) : hiByte (wordOf l h) = h := BitVec.extractLsb'_append_eq_left

@[simp] theorem wordOf_loByte_hiByte (w : Word) : wordOf (loByte w) (hiByte w) = w :=
  BitVec.extractLsb'_append_extractLsb' (w := 8) (len := 8)

/-! ## Fields within the low nibble: `#data3`, `[Rwi]`, `[Rwi+]` -/

theorem data3_append (n : BitVec 4) (d : BitVec 3) :
    (n ++ (0#1 ++ d) : Byte).extractLsb' 3 1 = 0#1 ∧ (n ++ (0#1 ++ d) : Byte).extractLsb' 0 3 = d :=
  ⟨(BitVec.extractLsb'_append_eq_of_add_le (by decide)).trans BitVec.extractLsb'_append_eq_left,
    (BitVec.extractLsb'_append_eq_of_add_le (by decide)).trans BitVec.extractLsb'_append_eq_right⟩

/-- The two bits above the pointer number: bit 3 tells the form from `#data3`, bit 2 tells `[Rwi+]` from `[Rwi]`. -/
theorem pointer_append (n : BitVec 4) (s i : BitVec 2) :
    (n ++ (s ++ i) : Byte).extractLsb' 3 1 = s.extractLsb' 1 1
    ∧ (n ++ (s ++ i) : Byte).extractLsb' 2 1 = s.extractLsb' 0 1
    ∧ (n ++ (s ++ i) : Byte).extractLsb' 0 2 = i := by
  refine ⟨?_, ?_, ?_⟩ <;> refine (BitVec.extractLsb'_append_eq_of_add_le (by decide)).trans ?_
  · exact BitVec.extractLsb'_append_eq_of_le (by decide)
  · exact BitVec.extractLsb'_append_eq_of_le (by decide)
  · exact BitVec.extractLsb'_append_eq_right

theorem lo_of_data3 {b : Byte} (h : b.extractLsb' 3 1 = 0#1) : 0#1 ++ b.extractLsb' 0 3 = lo b := by
  rw [← h]
  exact BitVec.extractLsb'_append_extractLsb'_eq_extractLsb' (by decide)

theorem lo_of_pointer {b : Byte} {s : BitVec 2} (h3 : b.extractLsb' 3 1 = s.extractLsb' 1 1)
    (h2 : b.extractLsb' 2 1 = s.extractLsb' 0 1) : s ++ b.extractLsb' 0 2 = lo b := by
  have field : s = b.extractLsb' 2 2 := by
    rw [← BitVec.extractLsb'_append_extractLsb' (w := 1) (len := 1) (x := s), ← h3, ← h2]
    exact BitVec.extractLsb'_append_extractLsb'_eq_extractLsb' (by decide)
  rw [field]
  exact BitVec.extractLsb'_append_extractLsb'_eq_extractLsb' (by decide)

/-! ## Fields within the high nibble: `#irang2` under its selector (R142) -/

theorem selector_append (s r : BitVec 2) (x : BitVec 4) : ((s ++ r) ++ x : Byte).extractLsb' 6 2 = s :=
  (BitVec.extractLsb'_append_eq_of_le (by decide)).trans BitVec.extractLsb'_append_eq_left

theorem irang2Of_append (s : BitVec 2) {k : Nat} (x : BitVec 4) (hk : irang2Ok k = true) :
    irang2Of ((s ++ irang2Bits k) ++ x) = k := by
  have field : ((s ++ irang2Bits k) ++ x : Byte).extractLsb' 4 2 = irang2Bits k :=
    (BitVec.extractLsb'_append_eq_of_le (by decide)).trans BitVec.extractLsb'_append_eq_right
  simp only [irang2Ok, Bool.and_eq_true, decide_eq_true_eq] at hk
  rw [irang2Of, field, irang2Bits, BitVec.toNat_ofNat]
  omega

theorem irang2Bits_irang2Of (b : Byte) : irang2Bits (irang2Of b) = b.extractLsb' 4 2 := by
  rw [irang2Of, irang2Bits, Nat.add_sub_cancel, BitVec.ofNat_toNat, BitVec.setWidth_eq]

theorem hi_of_selector {b : Byte} {s : BitVec 2} (h : b.extractLsb' 6 2 = s) :
    s ++ irang2Bits (irang2Of b) = hi b := by
  rw [irang2Bits_irang2Of, ← h]
  exact BitVec.extractLsb'_append_extractLsb'_eq_extractLsb' (by decide)

/-! ## `#trap7` above a fixed bit -/

theorem trap7_append {b : Byte} (h : b.extractLsb' 0 1 = 0#1) : b.extractLsb' 1 7 ++ 0#1 = b := by
  rw [← h]
  exact BitVec.extractLsb'_append_extractLsb' (w := 7) (len := 1)

/-! ## Nibbles one by one -/

/-- A property of nibbles holds of all when it holds of each of the sixteen. -/
theorem nibble_cases {P : BitVec 4 → Prop} (h0 : P 0x0) (h1 : P 0x1) (h2 : P 0x2) (h3 : P 0x3) (h4 : P 0x4) (h5 : P 0x5)
    (h6 : P 0x6) (h7 : P 0x7) (h8 : P 0x8) (h9 : P 0x9) (hA : P 0xA) (hB : P 0xB) (hC : P 0xC) (hD : P 0xD) (hE : P 0xE)
    (hF : P 0xF) (x : BitVec 4) : P x := by
  obtain ⟨⟨k, hk⟩⟩ := x
  interval_cases k <;> assumption

end Sys2Proof
end

