-- ==== Sys2Proof/Proofs/DecodeEncode.lean ====
section
/-! PROOFS. Decoding an encoded instruction gives it back (O45): one lemma per shape of the formats' bytes (R133), then
the rows of the opcode table by format. Spec: 30_encoding.md rules R131, R133, R143. -/

namespace Sys2Proof

theorem decode_encode_two {i : Instr} {b0 b1 : Byte} (he : encodeBytes i = [b0, b1])
    (row : decodeBytes b0 b1 0 0 = .instr i) : decode (encode i) = .instr i := by
  rw [← row, encode, he]
  simp only [wordsOf, decode, decodeWords, loByte_wordOf, hiByte_wordOf]
  rfl

theorem decode_encode_four {i : Instr} {b0 b1 b2 b3 : Byte} (he : encodeBytes i = [b0, b1, b2, b3])
    (row : decodeBytes b0 b1 b2 b3 = .instr i) : decode (encode i) = .instr i := by
  rw [← row, encode, he]
  simp only [wordsOf, decode, decodeWords, loByte_wordOf, hiByte_wordOf]

/-! ## Formats by the shape of their bytes

Each lemma leaves the row of the decoder, for bytes of which only the fields are known. -/

section
variable {i : Instr} {op : Byte}

/-- RR2, RR2X, R1, R1D, I4, CI. -/
theorem decode_encode_nibbles (x y : BitVec 4) (he : encodeBytes i = [op, x ++ y])
    (row : ∀ b, hi b = x → lo b = y → decodeBytes op b 0 0 = .instr i) : decode (encode i) = .instr i :=
  decode_encode_two he (row _ (hi_append x y) (lo_append x y))

/-- X3. -/
theorem decode_encode_data3 (n : BitVec 4) (d : BitVec 3) (he : encodeBytes i = [op, n ++ (0#1 ++ d)])
    (row : ∀ b, hi b = n → b.extractLsb' 3 1 = 0#1 → b.extractLsb' 0 3 = d → decodeBytes op b 0 0 = .instr i) :
    decode (encode i) = .instr i :=
  have ⟨form, data⟩ := data3_append n d
  decode_encode_two he (row _ (hi_append n _) form data)

/-- XI. -/
theorem decode_encode_pointer (n : BitVec 4) (p : BitVec 2) (he : encodeBytes i = [op, n ++ (2#2 ++ p)])
    (row : ∀ b, hi b = n → b.extractLsb' 3 1 = 1#1 → b.extractLsb' 2 1 = 0#1 → b.extractLsb' 0 2 = p →
      decodeBytes op b 0 0 = .instr i) : decode (encode i) = .instr i :=
  have ⟨form, plain, pointer⟩ := pointer_append n 2#2 p
  decode_encode_two he (row _ (hi_append n _) form plain pointer)

/-- XP. -/
theorem decode_encode_pointerInc (n : BitVec 4) (p : BitVec 2) (he : encodeBytes i = [op, n ++ (3#2 ++ p)])
    (row : ∀ b, hi b = n → b.extractLsb' 3 1 = 1#1 → b.extractLsb' 2 1 = 1#1 → b.extractLsb' 0 2 = p →
      decodeBytes op b 0 0 = .instr i) : decode (encode i) = .instr i :=
  have ⟨form, inc, pointer⟩ := pointer_append n 3#2 p
  decode_encode_two he (row _ (hi_append n _) form inc pointer)

/-- E1, EG. -/
theorem decode_encode_irang2 (s : BitVec 2) (m : BitVec 4) {k : Nat} (hk : irang2Ok k = true)
    (he : encodeBytes i = [op, (s ++ irang2Bits k) ++ m])
    (row : ∀ b, b.extractLsb' 6 2 = s → irang2Of b = k → lo b = m → decodeBytes op b 0 0 = .instr i) :
    decode (encode i) = .instr i :=
  decode_encode_two he (row _ (selector_append s _ m) (irang2Of_append s m hk) (lo_append _ m))

/-- T7. -/
theorem decode_encode_trap (t : BitVec 7) (he : encodeBytes i = [op, t ++ 0#1])
    (row : ∀ b, b.extractLsb' 0 1 = 0#1 → b.extractLsb' 1 7 = t → decodeBytes op b 0 0 = .instr i) :
    decode (encode i) = .instr i :=
  decode_encode_two he (row _ BitVec.extractLsb'_append_eq_right BitVec.extractLsb'_append_eq_left)

/-- RM, RI16, SA. -/
theorem decode_encode_byteWord (r : BitVec 8) (w : Word) (he : encodeBytes i = [op, r, loByte w, hiByte w])
    (row : ∀ l h, wordOf l h = w → decodeBytes op r l h = .instr i) : decode (encode i) = .instr i :=
  decode_encode_four he (row _ _ (wordOf_loByte_hiByte w))

/-- RO, GM, GI16, IM, CA. -/
theorem decode_encode_nibblesWord (x y : BitVec 4) (w : Word) (he : encodeBytes i = [op, x ++ y, loByte w, hiByte w])
    (row : ∀ b l h, hi b = x → lo b = y → wordOf l h = w → decodeBytes op b l h = .instr i) :
    decode (encode i) = .instr i :=
  decode_encode_four he (row _ _ _ (hi_append x y) (lo_append x y) (wordOf_loByte_hiByte w))

/-- B2, BJ. -/
theorem decode_encode_bits (b1 b2 : Byte) (q z : BitVec 4) (he : encodeBytes i = [op, b1, b2, q ++ z])
    (row : ∀ b, hi b = q → lo b = z → decodeBytes op b1 b2 b = .instr i) : decode (encode i) = .instr i :=
  decode_encode_four he (row _ (hi_append q z) (lo_append q z))

/-- ES. -/
theorem decode_encode_segment (s : BitVec 2) (seg : BitVec 8) {k : Nat} (hk : irang2Ok k = true)
    (he : encodeBytes i = [op, (s ++ irang2Bits k) ++ 0x0#4, seg, 0x00#8])
    (row : ∀ b, b.extractLsb' 6 2 = s → irang2Of b = k → lo b = 0x0#4 →
      decodeBytes op b seg 0x00#8 = .instr i) : decode (encode i) = .instr i :=
  decode_encode_four he (row _ (selector_append s _ _) (irang2Of_append s _ hk) (lo_append _ _))

/-- EP. -/
theorem decode_encode_page (s : BitVec 2) (pag : BitVec 10) {k : Nat} (hk : irang2Ok k = true)
    (he : encodeBytes i = [op, (s ++ irang2Bits k) ++ 0x0#4, pag.extractLsb' 0 8, 0#6 ++ pag.extractLsb' 8 2])
    (row : ∀ b b2 b3, b.extractLsb' 6 2 = s → irang2Of b = k → lo b = 0x0#4 → b3.extractLsb' 2 6 = 0#6 →
      b3.extractLsb' 0 2 ++ b2 = pag → decodeBytes op b b2 b3 = .instr i) : decode (encode i) = .instr i := by
  refine decode_encode_four he
    (row _ _ _ (selector_append s _ _) (irang2Of_append s _ hk) (lo_append _ _) BitVec.extractLsb'_append_eq_left ?_)
  rw [BitVec.extractLsb'_append_eq_right]
  exact BitVec.extractLsb'_append_extractLsb' (w := 2) (len := 8)

end

/-! ## Rows that share an opcode byte, and low nibbles with an operand above them (CR, B1) -/

theorem decodeBytes_D1 (b1 b2 b3 : Byte) : decodeBytes 0xD1#8 b1 b2 b3 = decodeNibble1 0xD#4 b1 := rfl

theorem decodeBytes_D7 (b1 b2 b3 : Byte) : decodeBytes 0xD7#8 b1 b2 b3 = decodeNibble7 0xD#4 b1 b2 b3 := rfl

theorem decodeBytes_DC (b1 b2 b3 : Byte) : decodeBytes 0xDC#8 b1 b2 b3 = decodeNibbleC 0xD#4 b1 := rfl

theorem decodeBytes_jmpr (cc : BitVec 4) (b1 b2 b3 : Byte) :
    decodeBytes (cc ++ 0xD#4) b1 b2 b3 = .instr (.jmprCcRel cc b1) := by
  rw [decodeBytes, lo_append, hi_append]
  rfl

theorem decodeBytes_bclr (q : BitVec 4) (b1 b2 b3 : Byte) :
    decodeBytes (q ++ 0xE#4) b1 b2 b3 = .instr (.bclrBitQ b1 q) := by
  rw [decodeBytes, lo_append, hi_append]
  rfl

theorem decodeBytes_bset (q : BitVec 4) (b1 b2 b3 : Byte) :
    decodeBytes (q ++ 0xF#4) b1 b2 b3 = .instr (.bsetBitQ b1 q) := by
  rw [decodeBytes, lo_append, hi_append]
  rfl

/-! ## The opcode table -/

/-- Settles O45: each row of the opcode table by the shape of its format. -/
theorem decodeOfEncode : Obligations.DecodeOfEncode := by
  intro i h
  cases i with
  | addRwnRwm n m | addbRbnRbm n m | addcRwnRwm n m | addcbRbnRbm n m | subRwnRwm n m | subbRbnRbm n m
  | subcRwnRwm n m | subcbRbnRbm n m | cmpRwnRwm n m | cmpbRbnRbm n m | xorRwnRwm n m | xorbRbnRbm n m
  | andRwnRwm n m | andbRbnRbm n m | orRwnRwm n m | orbRbnRbm n m | movRwnRwm n m | movbRbnRbm n m
  | movIndDecRwmRwn m n | movbIndDecRwmRbn m n | movRwnIndRwmInc n m | movbRbnIndRwmInc n m | movRwnIndRwm n m
  | movbRbnIndRwm n m | movIndRwmRwn m n | movbIndRwmRbn m n | movIndRwnIndRwm n m | movbIndRwnIndRwm n m
  | movIndRwnIncIndRwm n m | movbIndRwnIncIndRwm n m | movIndRwnIndRwmInc n m | movbIndRwnIndRwmInc n m
  | mulRwnRwm n m | muluRwnRwm n m | priorRwnRwm n m | rolRwnRwm n m | rorRwnRwm n m | shlRwnRwm n m
  | shrRwnRwm n m | ashrRwnRwm n m =>
    exact decode_encode_nibbles n m rfl (by rintro _ rfl rfl; rfl)
  | movbzRwnRbm n m | movbsRwnRbm n m => exact decode_encode_nibbles m n rfl (by rintro _ rfl rfl; rfl)
  | cmpi1RwnData4 n d | cmpi2RwnData4 n d | cmpd1RwnData4 n d | cmpd2RwnData4 n d | movRwnData4 n d
  | movbRbnData4 n d | rolRwnData4 n d | rorRwnData4 n d | shlRwnData4 n d | shrRwnData4 n d | ashrRwnData4 n d =>
    exact decode_encode_nibbles d n rfl (by rintro _ rfl rfl; rfl)
  | calliCcIndRwn cc n | jmpiCcIndRwn cc n => exact decode_encode_nibbles cc n rfl (by rintro _ rfl rfl; rfl)
  | negRwn n | cplRwn n | negbRbn n | cplbRbn n =>
    exact decode_encode_nibbles n 0x0 rfl (by rintro _ rfl low; exact if_pos (beq_iff_eq.2 low))
  | divRwn n | divuRwn n | divlRwn n | divluRwn n =>
    exact decode_encode_nibbles n n rfl (by rintro _ rfl low; exact if_pos (beq_iff_eq.2 low.symm))
  | addRwnData3 n d | addbRbnData3 n d | addcRwnData3 n d | addcbRbnData3 n d | subRwnData3 n d | subbRbnData3 n d
  | subcRwnData3 n d | subcbRbnData3 n d | cmpRwnData3 n d | cmpbRbnData3 n d | xorRwnData3 n d | xorbRbnData3 n d
  | andRwnData3 n d | andbRbnData3 n d | orRwnData3 n d | orbRbnData3 n d =>
    exact decode_encode_data3 n d rfl (by rintro _ rfl form rfl; exact if_pos (beq_iff_eq.2 form))
  | addRwnIndRwi n i | addbRbnIndRwi n i | addcRwnIndRwi n i | addcbRbnIndRwi n i | subRwnIndRwi n i
  | subbRbnIndRwi n i | subcRwnIndRwi n i | subcbRbnIndRwi n i | cmpRwnIndRwi n i | cmpbRbnIndRwi n i
  | xorRwnIndRwi n i | xorbRbnIndRwi n i | andRwnIndRwi n i | andbRbnIndRwi n i | orRwnIndRwi n i
  | orbRbnIndRwi n i =>
    refine decode_encode_pointer n i rfl ?_
    rintro _ rfl form plain rfl
    exact (if_neg (by simp [form])).trans (if_pos (beq_iff_eq.2 plain))
  | addRwnIndRwiInc n i | addbRbnIndRwiInc n i | addcRwnIndRwiInc n i | addcbRbnIndRwiInc n i | subRwnIndRwiInc n i
  | subbRbnIndRwiInc n i | subcRwnIndRwiInc n i | subcbRbnIndRwiInc n i | cmpRwnIndRwiInc n i
  | cmpbRbnIndRwiInc n i | xorRwnIndRwiInc n i | xorbRbnIndRwiInc n i | andRwnIndRwiInc n i | andbRbnIndRwiInc n i
  | orRwnIndRwiInc n i | orbRbnIndRwiInc n i =>
    refine decode_encode_pointerInc n i rfl ?_
    rintro _ rfl form inc rfl
    exact (if_neg (by simp [form])).trans (if_neg (by simp [inc]))
  | atomicIrang2 k =>
    exact decode_encode_irang2 0 0x0 h rfl (by rintro _ s rfl low; simp [decodeBytes_D1, decodeNibble1, s, low])
  | extrIrang2 k =>
    exact decode_encode_irang2 2 0x0 h rfl (by rintro _ s rfl low; simp [decodeBytes_D1, decodeNibble1, s, low])
  | extsRwmIrang2 m k =>
    exact decode_encode_irang2 0 m h rfl (by rintro _ s rfl rfl; simp [decodeBytes_DC, decodeNibbleC, s])
  | extpRwmIrang2 m k =>
    exact decode_encode_irang2 1 m h rfl (by rintro _ s rfl rfl; simp [decodeBytes_DC, decodeNibbleC, s])
  | extsrRwmIrang2 m k =>
    exact decode_encode_irang2 2 m h rfl (by rintro _ s rfl rfl; simp [decodeBytes_DC, decodeNibbleC, s])
  | extprRwmIrang2 m k =>
    exact decode_encode_irang2 3 m h rfl (by rintro _ s rfl rfl; simp [decodeBytes_DC, decodeNibbleC, s])
  | extsSegIrang2 seg k =>
    exact decode_encode_segment 0 seg h rfl (by rintro _ s rfl low; simp [decodeBytes_D7, decodeNibble7, s, low])
  | extsrSegIrang2 seg k =>
    exact decode_encode_segment 2 seg h rfl (by rintro _ s rfl low; simp [decodeBytes_D7, decodeNibble7, s, low])
  | extpPagIrang2 pag k =>
    exact decode_encode_page 1 pag h rfl
      (by rintro _ _ _ s rfl low above rfl; simp [decodeBytes_D7, decodeNibble7, s, low, above])
  | extprPagIrang2 pag k =>
    exact decode_encode_page 3 pag h rfl
      (by rintro _ _ _ s rfl low above rfl; simp [decodeBytes_D7, decodeNibble7, s, low, above])
  | trapTrap7 t => exact decode_encode_trap t rfl (by rintro _ low rfl; exact if_pos (beq_iff_eq.2 low))
  | callrRel rel | ret | rets | nop | reti | retpReg reg | pushReg reg | popReg reg => exact decode_encode_two rfl rfl
  | jmprCcRel cc rel => exact decode_encode_two rfl (decodeBytes_jmpr cc rel 0 0)
  | bclrBitQ qo q => exact decode_encode_two rfl (decodeBytes_bclr q qo 0 0)
  | bsetBitQ qo q => exact decode_encode_two rfl (decodeBytes_bset q qo 0 0)
  | addRegMem reg mem | addMemReg mem reg | addbRegMem reg mem | addbMemReg mem reg | addcRegMem reg mem
  | addcMemReg mem reg | addcbRegMem reg mem | addcbMemReg mem reg | subRegMem reg mem | subMemReg mem reg
  | subbRegMem reg mem | subbMemReg mem reg | subcRegMem reg mem | subcMemReg mem reg | subcbRegMem reg mem
  | subcbMemReg mem reg | cmpRegMem reg mem | cmpbRegMem reg mem | xorRegMem reg mem | xorMemReg mem reg
  | xorbRegMem reg mem | xorbMemReg mem reg | andRegMem reg mem | andMemReg mem reg | andbRegMem reg mem
  | andbMemReg mem reg | orRegMem reg mem | orMemReg mem reg | orbRegMem reg mem | orbMemReg mem reg
  | movbzRegMem reg mem | movbsRegMem reg mem | movbzMemReg mem reg | movbsMemReg mem reg | movRegMem reg mem
  | movbRegMem reg mem | scxtRegMem reg mem | movMemReg mem reg | movbMemReg mem reg | pcallRegCaddr reg mem =>
    exact decode_encode_byteWord reg mem rfl (by rintro _ _ rfl; rfl)
  | addRegData16 reg d | addcRegData16 reg d | subRegData16 reg d | subcRegData16 reg d | cmpRegData16 reg d
  | xorRegData16 reg d | andRegData16 reg d | orRegData16 reg d | scxtRegData16 reg d | movRegData16 reg d =>
    exact decode_encode_byteWord reg d rfl (by rintro _ _ rfl; rfl)
  | callsSegCaddr seg caddr | jmpsSegCaddr seg caddr =>
    exact decode_encode_byteWord seg caddr rfl (by rintro _ _ rfl; rfl)
  | movIndRwmData16Rwn m d n | movRwnIndRwmData16 n m d | movbIndRwmData16Rbn m d n | movbRbnIndRwmData16 n m d =>
    exact decode_encode_nibblesWord n m d rfl (by rintro _ _ _ rfl rfl rfl; rfl)
  | cmpi1RwnMem n mem | cmpi2RwnMem n mem | cmpd1RwnMem n mem | cmpd2RwnMem n mem =>
    exact decode_encode_nibblesWord 0xF n mem rfl (by rintro _ _ _ fixed rfl rfl; exact if_pos (beq_iff_eq.2 fixed))
  | cmpi1RwnData16 n d | cmpi2RwnData16 n d | cmpd1RwnData16 n d | cmpd2RwnData16 n d =>
    exact decode_encode_nibblesWord 0xF n d rfl (by rintro _ _ _ fixed rfl rfl; exact if_pos (beq_iff_eq.2 fixed))
  | movIndRwnMem n mem | movMemIndRwn mem n | movbIndRwnMem n mem | movbMemIndRwn mem n =>
    exact decode_encode_nibblesWord 0x0 n mem rfl (by rintro _ _ _ fixed rfl rfl; exact if_pos (beq_iff_eq.2 fixed))
  | callaCcCaddr cc caddr | jmpaCcCaddr cc caddr =>
    exact decode_encode_nibblesWord cc 0x0 caddr rfl (by rintro _ _ _ rfl fixed rfl; exact if_pos (beq_iff_eq.2 fixed))
  | bcmpBitZBitQ zo z qo q | bmovnBitZBitQ zo z qo q | bmovBitZBitQ zo z qo q | borBitZBitQ zo z qo q
  | bandBitZBitQ zo z qo q | bxorBitZBitQ zo z qo q =>
    exact decode_encode_bits qo zo q z rfl (by rintro _ rfl rfl; rfl)
  | jbBitQRel qo q rel | jnbBitQRel qo q rel | jbcBitQRel qo q rel | jnbsBitQRel qo q rel =>
    exact decode_encode_bits qo rel q 0x0 rfl (by rintro _ rfl fixed; exact if_pos (beq_iff_eq.2 fixed))
  | addbRegData8 reg d | addcbRegData8 reg d | subbRegData8 reg d | subcbRegData8 reg d | cmpbRegData8 reg d
  | xorbRegData8 reg d | andbRegData8 reg d | orbRegData8 reg d | movbRegData8 reg d | diswdt | einit | idle
  | pwrdn | srvwdt | srst | bfldlBitoffMask8Data8 bo mask d | bfldhBitoffMask8Data8 bo mask d =>
    exact decode_encode_four rfl rfl

end Sys2Proof
end

