-- ==== Sys2Proof/Proofs/DecoderAnswers.lean ====
section
/-! PROOFS. What each answer of the decoder says about the bytes read, row by row of the opcode table: the encodings
(O46), the unassigned opcodes (O47) and the protected instructions (O48).
Spec: 30_encoding.md rules R133, R139, R145 to R147. -/

namespace Sys2Proof

open Sys2Proof.Claims

/-- The encoding is the bytes read, of which a `reg,#data8` form has any fourth (R139). -/
def Instr.HasBytes (b0 b1 b2 b3 : Byte) (i : Instr) : Prop :=
  encodeBytes i = [b0, b1] ∨ encodeBytes i = [b0, b1, b2, b3]
    ∨ (b0 ∈ regData8Bytes ∧ encodeBytes i = [b0, b1, b2, 0x00])

/-- Byte 1 is the complement of byte 0, which bytes 2 and 3 repeat (R146). -/
def Protects (b0 b1 b2 b3 : Byte) : Prop := b1 = ~~~b0 ∧ b2 = b0 ∧ b3 = b0

/-- What an answer of the decoder says about the four bytes it has read. -/
def Decoded.Describes (b0 b1 b2 b3 : Byte) : Decoded → Prop
  | .instr i => b0 ∉ unassigned ∧ (b0 ∈ protectedBytes → Protects b0 b1 b2 b3) ∧ i.HasBytes b0 b1 b2 b3
  | .undefinedOpcode => b0 ∈ unassigned
  | .protectionFault => b0 ∈ protectedBytes ∧ ¬ Protects b0 b1 b2 b3
  | .nonCanonical => b0 ∉ unassigned ∧ b0 ∉ protectedBytes

/-! ## Formats -/

section
variable {i : Instr} {b0 b1 b2 b3 : Byte}

theorem describes_undefined (hb : b0 ∈ unassigned) : Decoded.undefinedOpcode.Describes b0 b1 b2 b3 := hb

theorem describes_instr (hb : b0 ∉ unassigned ∧ b0 ∉ protectedBytes) (he : i.HasBytes b0 b1 b2 b3) :
    (Decoded.instr i).Describes b0 b1 b2 b3 :=
  ⟨hb.1, fun h => absurd h hb.2, he⟩

theorem describes_ite {c : Bool} {d d' : Decoded} (h : c = true → d.Describes b0 b1 b2 b3)
    (h' : d'.Describes b0 b1 b2 b3) : (if c then d else d').Describes b0 b1 b2 b3 := by
  cases c
  · exact h'
  · exact h rfl

/-- A row with fixed bits: other values of them are refused (R147). -/
theorem describes_fixed {c : Bool} {d : Decoded} (hb : b0 ∉ unassigned ∧ b0 ∉ protectedBytes)
    (hd : c = true → d.Describes b0 b1 b2 b3) : (if c then d else .nonCanonical).Describes b0 b1 b2 b3 :=
  describes_ite hd hb

/-- R8, RL, FX2, CR, B1. -/
theorem describes_byte (hb : b0 ∉ unassigned ∧ b0 ∉ protectedBytes) (he : encodeBytes i = [b0, b1]) :
    (Decoded.instr i).Describes b0 b1 b2 b3 :=
  describes_instr hb (.inl he)

/-- RR2, CI. -/
theorem describes_nibbles (hb : b0 ∉ unassigned ∧ b0 ∉ protectedBytes) (he : encodeBytes i = [b0, hi b1 ++ lo b1]) :
    (Decoded.instr i).Describes b0 b1 b2 b3 :=
  describes_byte hb (by rw [he, hi_append_lo])

/-- X3, XI and XP share an opcode byte. -/
theorem describes_indirect {data ptr inc : Instr} (hb : b0 ∉ unassigned ∧ b0 ∉ protectedBytes)
    (hdata : encodeBytes data = [b0, hi b1 ++ (0#1 ++ b1.extractLsb' 0 3)])
    (hptr : encodeBytes ptr = [b0, hi b1 ++ (2#2 ++ b1.extractLsb' 0 2)])
    (hinc : encodeBytes inc = [b0, hi b1 ++ (3#2 ++ b1.extractLsb' 0 2)]) :
    (if b1.extractLsb' 3 1 == 0#1 then Decoded.instr data else if b1.extractLsb' 2 1 == 0#1 then .instr ptr
      else .instr inc).Describes b0 b1 b2 b3 := by
  rcases BitVec.eq_zero_or_eq_one (b1.extractLsb' 3 1) with form | form
  · rw [if_pos (beq_iff_eq.2 form)]
    exact describes_nibbles hb (by rw [hdata, lo_of_data3 form])
  · rw [if_neg (by simp [form])]
    rcases BitVec.eq_zero_or_eq_one (b1.extractLsb' 2 1) with low | low
    · rw [if_pos (beq_iff_eq.2 low)]
      exact describes_nibbles hb (by rw [hptr, lo_of_pointer form low])
    · rw [if_neg (by simp [low])]
      exact describes_nibbles hb (by rw [hinc, lo_of_pointer form low])

/-- E1, EG: `#irang2` under the selector `s`. -/
theorem describes_irang2 {s : BitVec 2} (hb : b0 ∉ unassigned ∧ b0 ∉ protectedBytes) (hs : b1.extractLsb' 6 2 == s)
    (he : encodeBytes i = [b0, (s ++ irang2Bits (irang2Of b1)) ++ lo b1]) : (Decoded.instr i).Describes b0 b1 b2 b3 :=
  describes_nibbles hb (by rw [he, hi_of_selector (beq_iff_eq.1 hs)])

/-- RM, RI16, SA. -/
theorem describes_byteWord (hb : b0 ∉ unassigned ∧ b0 ∉ protectedBytes)
    (he : encodeBytes i = [b0, b1, loByte (wordOf b2 b3), hiByte (wordOf b2 b3)]) :
    (Decoded.instr i).Describes b0 b1 b2 b3 :=
  describes_instr hb (.inr (.inl (by rw [he, loByte_wordOf, hiByte_wordOf])))

/-- RO. -/
theorem describes_nibblesWord (hb : b0 ∉ unassigned ∧ b0 ∉ protectedBytes)
    (he : encodeBytes i = [b0, hi b1 ++ lo b1, loByte (wordOf b2 b3), hiByte (wordOf b2 b3)]) :
    (Decoded.instr i).Describes b0 b1 b2 b3 :=
  describes_byteWord hb (by rw [he, hi_append_lo])

/-- B2. -/
theorem describes_bits (hb : b0 ∉ unassigned ∧ b0 ∉ protectedBytes)
    (he : encodeBytes i = [b0, b1, b2, hi b3 ++ lo b3]) : (Decoded.instr i).Describes b0 b1 b2 b3 :=
  describes_instr hb (.inr (.inl (by rw [he, hi_append_lo])))

/-- RI8. -/
theorem describes_data8 (hb : b0 ∈ regData8Bytes) (he : encodeBytes i = [b0, b1, b2, 0x00]) :
    (Decoded.instr i).Describes b0 b1 b2 b3 := by
  have assigned : ∀ b ∈ regData8Bytes, b ∉ unassigned ∧ b ∉ protectedBytes := by decide
  exact describes_instr (assigned b0 hb) (.inr (.inr ⟨hb, he⟩))

/-- ES: `#irang2` under the selector `s` and above 0, a segment, and 0. -/
theorem describes_segment {s : BitVec 2} (hb : b0 ∉ unassigned ∧ b0 ∉ protectedBytes) (hs : b1.extractLsb' 6 2 == s)
    (fixed : (lo b1 == 0x0#4 && b3 == 0x00#8) = true)
    (he : encodeBytes i = [b0, (s ++ irang2Bits (irang2Of b1)) ++ 0x0#4, b2, 0x00#8]) :
    (Decoded.instr i).Describes b0 b1 b2 b3 := by
  simp only [Bool.and_eq_true, beq_iff_eq] at fixed
  obtain ⟨low, high⟩ := fixed
  refine describes_instr hb (.inr (.inl ?_))
  rw [he, hi_of_selector (beq_iff_eq.1 hs), ← low, hi_append_lo, high]

/-- EP: `#irang2` under the selector `s` and above 0, and a page in the low ten bits of bytes 2 and 3. -/
theorem describes_page {s : BitVec 2} {pag : BitVec 10} (hb : b0 ∉ unassigned ∧ b0 ∉ protectedBytes)
    (hs : b1.extractLsb' 6 2 == s) (fixed : (lo b1 == 0x0#4 && b3.extractLsb' 2 6 == 0#6) = true)
    (hpag : pag = b3.extractLsb' 0 2 ++ b2)
    (he : encodeBytes i
      = [b0, (s ++ irang2Bits (irang2Of b1)) ++ 0x0#4, pag.extractLsb' 0 8, 0#6 ++ pag.extractLsb' 8 2]) :
    (Decoded.instr i).Describes b0 b1 b2 b3 := by
  simp only [Bool.and_eq_true, beq_iff_eq] at fixed
  obtain ⟨low, high⟩ := fixed
  have byte3 : b3.extractLsb' 2 6 ++ b3.extractLsb' 0 2 = b3 :=
    BitVec.extractLsb'_append_extractLsb' (w := 6) (len := 2)
  refine describes_instr hb (.inr (.inl ?_))
  rw [he, hi_of_selector (beq_iff_eq.1 hs), ← low, hi_append_lo, hpag, BitVec.extractLsb'_append_eq_right,
    BitVec.extractLsb'_append_eq_left, ← high, byte3]

/-- PR. -/
theorem describes_protected {x y : Byte} (hb : b0 ∈ protectedBytes) (hx : x = ~~~b0) (hy : y = b0)
    (he : encodeBytes i = [b0, x, y, y]) :
    (if b1 == x && b2 == y && b3 == y then Decoded.instr i else .protectionFault).Describes b0 b1 b2 b3 := by
  subst hx hy
  have assigned : ∀ b ∈ protectedBytes, b ∉ unassigned := by decide
  split
  next h =>
    simp only [Bool.and_eq_true, beq_iff_eq, and_assoc] at h
    obtain ⟨rfl, rfl, rfl⟩ := h
    exact ⟨assigned _ hb, fun _ => ⟨rfl, rfl, rfl⟩, .inr (.inl he)⟩
  next h =>
    simp only [Bool.and_eq_true, beq_iff_eq, and_assoc] at h
    exact ⟨hb, h⟩

end

/-! ## Rows -/

theorem decodeNibble0_describes (h : BitVec 4) (b1 b2 b3 : Byte) :
    (decodeNibble0 h b1).Describes (h ++ 0x0#4) b1 b2 b3 := by
  cases h using nibble_cases <;> exact describes_nibbles (by decide) rfl

theorem decodeNibble1_describes (h : BitVec 4) (b1 b2 b3 : Byte) :
    (decodeNibble1 h b1).Describes (h ++ 0x1#4) b1 b2 b3 := by
  cases h using nibble_cases with
  | h0 | h1 | h2 | h3 | h4 | h5 | h6 | h7 | hE | hF => exact describes_nibbles (by decide) rfl
  | h8 | h9 | hA | hB =>
    refine describes_fixed (by decide) fun fixed => describes_nibbles (by decide) ?_
    rw [beq_iff_eq.1 fixed]
    rfl
  | hC => exact describes_undefined (by decide)
  | hD =>
    refine describes_ite (fun s => describes_fixed (by decide) fun fixed => describes_irang2 (by decide) s ?_)
      (describes_fixed (by decide) fun s => describes_fixed (by decide) fun fixed => describes_irang2 (by decide) s ?_)
    · rw [beq_iff_eq.1 fixed]
      rfl
    · rw [beq_iff_eq.1 fixed]
      rfl

theorem decodeNibble2_describes (h : BitVec 4) (b1 b2 b3 : Byte) :
    (decodeNibble2 h b1 b2 b3).Describes (h ++ 0x2#4) b1 b2 b3 := by
  cases h using nibble_cases with
  | h0 | h1 | h2 | h3 | h4 | h5 | h6 | h7 | hC | hD | hE | hF => exact describes_byteWord (by decide) rfl
  | h8 | h9 | hA | hB =>
    refine describes_fixed (by decide) fun fixed => describes_nibblesWord (by decide) ?_
    rw [beq_iff_eq.1 fixed]
    rfl

theorem decodeNibble3_describes (h : BitVec 4) (b1 b2 b3 : Byte) :
    (decodeNibble3 h b1 b2 b3).Describes (h ++ 0x3#4) b1 b2 b3 := by
  cases h using nibble_cases with
  | h0 | h1 | h2 | h3 | h4 | h5 | h6 | h7 | hF => exact describes_byteWord (by decide) rfl
  | h8 | h9 | hA | hB | hC | hD | hE => exact describes_undefined (by decide)

theorem decodeNibble4_describes (h : BitVec 4) (b1 b2 b3 : Byte) :
    (decodeNibble4 h b1 b2 b3).Describes (h ++ 0x4#4) b1 b2 b3 := by
  cases h using nibble_cases with
  | h0 | h1 | h2 | h3 | h5 | h6 | h7 => exact describes_byteWord (by decide) rfl
  | h4 => exact describes_undefined (by decide)
  | h8 | h9 | hA | hB =>
    refine describes_fixed (by decide) fun fixed => describes_nibblesWord (by decide) ?_
    rw [beq_iff_eq.1 fixed]
    rfl
  | hC | hD | hE | hF => exact describes_nibblesWord (by decide) rfl

theorem decodeNibble5_describes (h : BitVec 4) (b1 b2 b3 : Byte) :
    (decodeNibble5 h b1 b2 b3).Describes (h ++ 0x5#4) b1 b2 b3 := by
  cases h using nibble_cases with
  | h0 | h1 | h2 | h3 | h5 | h6 | h7 | hC | hD => exact describes_byteWord (by decide) rfl
  | h4 | h8 | h9 | hE | hF => exact describes_undefined (by decide)
  | hA | hB => exact describes_protected (by decide) (by decide) (by decide) rfl

theorem decodeNibble6_describes (h : BitVec 4) (b1 b2 b3 : Byte) :
    (decodeNibble6 h b1 b2 b3).Describes (h ++ 0x6#4) b1 b2 b3 := by
  cases h using nibble_cases with
  | h0 | h1 | h2 | h3 | h4 | h5 | h6 | h7 | hC | hD | hE | hF => exact describes_byteWord (by decide) rfl
  | h8 | h9 | hA | hB =>
    refine describes_fixed (by decide) fun fixed => describes_nibblesWord (by decide) ?_
    rw [beq_iff_eq.1 fixed]
    rfl

theorem decodeNibble7_describes (h : BitVec 4) (b1 b2 b3 : Byte) :
    (decodeNibble7 h b1 b2 b3).Describes (h ++ 0x7#4) b1 b2 b3 := by
  cases h using nibble_cases with
  | h0 | h1 | h2 | h3 | h4 | h5 | h6 | h7 | hE => exact describes_data8 (by decide) rfl
  | h8 | h9 | hA | hB => exact describes_protected (by decide) (by decide) (by decide) rfl
  | hC => exact describes_undefined (by decide)
  | hD =>
    refine describes_ite (fun s => ?_) (describes_ite (fun s => ?_) (describes_ite (fun s => ?_)
      (describes_fixed (by decide) fun s => ?_))) <;> refine describes_fixed (by decide) fun fixed => ?_
    · exact describes_segment (by decide) s fixed rfl
    · exact describes_page (by decide) s fixed rfl rfl
    · exact describes_segment (by decide) s fixed rfl
    · exact describes_page (by decide) s fixed rfl rfl
  | hF => exact describes_byteWord (by decide) rfl

theorem decodeNibble8_describes (h : BitVec 4) (b1 b2 b3 : Byte) :
    (decodeNibble8 h b1).Describes (h ++ 0x8#4) b1 b2 b3 := by
  cases h using nibble_cases with
  | h0 | h1 | h2 | h3 | h4 | h5 | h6 | h7 => exact describes_indirect (by decide) rfl rfl rfl
  | h8 | h9 | hA | hB | hC | hD | hE => exact describes_nibbles (by decide) rfl
  | hF => exact describes_undefined (by decide)

theorem decodeNibble9_describes (h : BitVec 4) (b1 b2 b3 : Byte) :
    (decodeNibble9 h b1).Describes (h ++ 0x9#4) b1 b2 b3 := by
  cases h using nibble_cases with
  | h0 | h1 | h2 | h3 | h4 | h5 | h6 | h7 => exact describes_indirect (by decide) rfl rfl rfl
  | h8 | h9 | hA | hB | hC | hD | hE => exact describes_nibbles (by decide) rfl
  | hF => exact describes_undefined (by decide)

theorem decodeNibbleA_describes (h : BitVec 4) (b1 b2 b3 : Byte) :
    (decodeNibbleA h b1 b2 b3).Describes (h ++ 0xA#4) b1 b2 b3 := by
  cases h using nibble_cases with
  | h0 | h1 => exact describes_instr (by decide) (.inr (.inl rfl))
  | h2 | h3 | h4 | h5 | h6 | h7 => exact describes_bits (by decide) rfl
  | h8 | h9 | hA | hB =>
    refine describes_fixed (by decide) fun fixed => describes_bits (by decide) ?_
    rw [beq_iff_eq.1 fixed]
    rfl
  | hC | hE =>
    refine describes_fixed (by decide) fun fixed => describes_nibblesWord (by decide) ?_
    rw [beq_iff_eq.1 fixed]
    rfl
  | hD | hF => exact describes_byteWord (by decide) rfl

theorem decodeNibbleB_describes (h : BitVec 4) (b1 b2 b3 : Byte) :
    (decodeNibbleB h b1).Describes (h ++ 0xB#4) b1 b2 b3 := by
  cases h using nibble_cases with
  | h0 | h1 | h2 | hA => exact describes_nibbles (by decide) rfl
  | h3 | h8 => exact describes_undefined (by decide)
  | h4 | h5 | h6 | h7 =>
    refine describes_fixed (by decide) fun same => describes_nibbles (by decide) ?_
    rw [← beq_iff_eq.1 same]
    rfl
  | h9 =>
    exact describes_fixed (by decide) fun fixed => describes_byte (by decide)
      (congrArg (fun b => [0x9B#8, b]) (trap7_append (beq_iff_eq.1 fixed)))
  | hB | hE => exact describes_byte (by decide) rfl
  | hC | hD | hF =>
    refine describes_fixed (by decide) fun fixed => describes_byte (by decide) ?_
    rw [beq_iff_eq.1 fixed]
    rfl

theorem decodeNibbleC_describes (h : BitVec 4) (b1 b2 b3 : Byte) :
    (decodeNibbleC h b1).Describes (h ++ 0xC#4) b1 b2 b3 := by
  cases h using nibble_cases with
  | h0 | h1 | h2 | h3 | h4 | h5 | h6 | h7 | h9 | hA | hB => exact describes_nibbles (by decide) rfl
  | h8 => exact describes_undefined (by decide)
  | hC =>
    refine describes_fixed (by decide) fun fixed => describes_byte (by decide) ?_
    rw [beq_iff_eq.1 fixed]
    rfl
  | hD =>
    exact describes_ite (fun s => describes_irang2 (by decide) s rfl) (describes_ite
      (fun s => describes_irang2 (by decide) s rfl) (describes_ite (fun s => describes_irang2 (by decide) s rfl)
      (describes_fixed (by decide) fun s => describes_irang2 (by decide) s rfl)))
  | hE | hF => exact describes_byte (by decide) rfl

theorem decodeNibbleD_describes (h : BitVec 4) (b1 b2 b3 : Byte) :
    (decodeNibbleD h b1).Describes (h ++ 0xD#4) b1 b2 b3 := by
  refine describes_byte ?_ rfl
  revert h
  decide

theorem decodeNibbleE_describes (h : BitVec 4) (b1 b2 b3 : Byte) :
    (decodeNibbleE h b1).Describes (h ++ 0xE#4) b1 b2 b3 := by
  refine describes_byte ?_ rfl
  revert h
  decide

theorem decodeNibbleF_describes (h : BitVec 4) (b1 b2 b3 : Byte) :
    (decodeNibbleF h b1).Describes (h ++ 0xF#4) b1 b2 b3 := by
  refine describes_byte ?_ rfl
  revert h
  decide

theorem decodeBytes_describes (b0 b1 b2 b3 : Byte) : (decodeBytes b0 b1 b2 b3).Describes b0 b1 b2 b3 := by
  rw [← hi_append_lo b0, decodeBytes, hi_append, lo_append]
  generalize hi b0 = h
  generalize lo b0 = l
  cases l using nibble_cases with
  | h0 => exact decodeNibble0_describes h b1 b2 b3
  | h1 => exact decodeNibble1_describes h b1 b2 b3
  | h2 => exact decodeNibble2_describes h b1 b2 b3
  | h3 => exact decodeNibble3_describes h b1 b2 b3
  | h4 => exact decodeNibble4_describes h b1 b2 b3
  | h5 => exact decodeNibble5_describes h b1 b2 b3
  | h6 => exact decodeNibble6_describes h b1 b2 b3
  | h7 => exact decodeNibble7_describes h b1 b2 b3
  | h8 => exact decodeNibble8_describes h b1 b2 b3
  | h9 => exact decodeNibble9_describes h b1 b2 b3
  | hA => exact decodeNibbleA_describes h b1 b2 b3
  | hB => exact decodeNibbleB_describes h b1 b2 b3
  | hC => exact decodeNibbleC_describes h b1 b2 b3
  | hD => exact decodeNibbleD_describes h b1 b2 b3
  | hE => exact decodeNibbleE_describes h b1 b2 b3
  | hF => exact decodeNibbleF_describes h b1 b2 b3

/-! ## The three statements -/

/-- Settles O46: the answer describes the bytes read. -/
theorem encodeOfDecode : Obligations.EncodeOfDecode := by
  intro b0 b1 b2 b3 i h
  have answer := decodeBytes_describes b0 b1 b2 b3
  rw [h] at answer
  obtain ⟨-, -, bytes⟩ := answer
  refine ⟨wellFormed_of_decodeBytes h, ?_⟩
  rcases bytes with he | he | ⟨hb, he⟩
  · simp [Instr.length, he]
  · simp [Instr.length, he]
  · simp [Instr.length, he, hb]

/-- Settles O47: no other answer fits an unassigned opcode. -/
theorem unassignedOpcodes : Obligations.UnassignedOpcodes := by
  refine ⟨by decide, by decide, fun b0 b1 b2 b3 => ?_⟩
  have answer := decodeBytes_describes b0 b1 b2 b3
  cases h : decodeBytes b0 b1 b2 b3 <;> rw [h] at answer
  case instr i => exact iff_of_false nofun answer.1
  case undefinedOpcode => exact iff_of_true rfl answer
  case protectionFault =>
    have disjoint : ∀ b ∈ protectedBytes, b ∉ unassigned := by decide
    exact iff_of_false nofun (disjoint b0 answer.1)
  case nonCanonical => exact iff_of_false nofun answer.1

/-- Settles O48: no other answer fits a protected opcode without its complement and repetition; with them the six rows
are read off. -/
theorem protectedOpcodes : Obligations.ProtectedOpcodes := by
  intro b0 b1 b2 b3
  constructor
  · have answer := decodeBytes_describes b0 b1 b2 b3
    cases h : decodeBytes b0 b1 b2 b3 <;> rw [h] at answer
    case instr i =>
      obtain ⟨-, protects, -⟩ := answer
      exact iff_of_false nofun fun k => k.2 (protects k.1)
    case undefinedOpcode =>
      have disjoint : ∀ b ∈ unassigned, b ∉ protectedBytes := by decide
      exact iff_of_false nofun fun k => disjoint b0 answer k.1
    case protectionFault => exact iff_of_true rfl answer
    case nonCanonical => exact iff_of_false nofun fun k => answer.2 k.1
  · rintro rfl rfl rfl
    refine ⟨?_, ?_, ?_, ?_, ?_, ?_⟩ <;> (rintro rfl; rfl)

end Sys2Proof
end

