-- ==== Sys2Proof/Proofs/PointerOperands.lean ====
section
/-! PROOFS. Instructions with operands at a pointer, with its increment or decrement: the eight two-operand operations
(O3, O4), loads (O19), stores with predecrement (O22), moves from memory to memory (O23).
Spec: 30_encoding.md rule R138, 40_arithmetic.md rule R180, 45_data_movement.md rules R260 to R262, decision U13. -/

namespace Sys2Proof.Machine

open Sys2Proof.Claims

/-! ## Pointers -/

/-- The operands of the instruction have been read in `u`; `v` is `u` with its pointer updated, and `m` the bytes of its
memory. -/
structure Pointed (s u v : State) (m : Nat → Byte) : Prop where
  read : OnlyRead s.begin u
  quiet : Quiet u v
  bytes : bytesOf v = m

/-- The forms that leave the pointer. -/
theorem OnlyRead.pointed {s u : State} (h : OnlyRead s.begin u) : Pointed s u u (Machine.bytesOf u) :=
  ⟨h, Quiet.refl u, rfl⟩

/-- The forms that move the pointer `p` to `x`. -/
theorem OnlyRead.pointed_set {s u : State} (h : OnlyRead s.begin u) (p : BitVec 4) (x : Word) :
    Pointed s u (u.setGprWord p x) (patchWord (Machine.bytesOf u) (Machine.gprWordAddr s p) x) :=
  ⟨h, quiet_setGprWord u p x, funext fun y => by rw [bytes_setGprWord, h.gprWordAddr]⟩

section
variable {s u v : State} {m : Nat → Byte} {i : Instr} {len : Nat} {body : Op Unit}

theorem Pointed.psw (h : Pointed s u v m) : v.cpu.psw = s.cpu.psw := by rw [h.quiet.cpu, h.read.psw]

theorem Pointed.gprWordOk (h : Pointed s u v m) (n : BitVec 4) : Machine.gprWordOk v n = Machine.gprWordOk s n := by
  rw [gprWordOk_congr n h.quiet.prev h.quiet.board, h.read.gprWordOk]

theorem Pointed.gprByteOk (h : Pointed s u v m) (n : BitVec 4) : Machine.gprByteOk v n = Machine.gprByteOk s n := by
  rw [gprByteOk_congr n h.quiet.prev h.quiet.board, h.read.gprByteOk]

theorem Pointed.gprWordAddr (h : Pointed s u v m) (n : BitVec 4) : Machine.gprWordAddr v n = Machine.gprWordAddr s n := by
  rw [gprWordAddr_congr n h.quiet.prev, h.read.gprWordAddr]

theorem Pointed.gprByteAddr (h : Pointed s u v m) (n : BitVec 4) : Machine.gprByteAddr v n = Machine.gprByteAddr s n := by
  rw [gprByteAddr_congr n h.quiet.prev, h.read.gprByteAddr]

/-! ## What comes before the update of the pointer -/

/-- The pointer, then the word operand there. -/
theorem readAt_ok {p : BitVec 4} {b : Word} (hp : Machine.gprWordOk s p = true)
    (hread : readWordOperand (s.gprWord p) s.begin = .ok (b, u)) {f : Word → Word → Op Unit} :
    (do let a ← readGpr p; let b ← readWordOperand a; f a b : Op Unit) s.begin = f (s.gprWord p) b u :=
  (Op.bind_of_ok (readGpr_begin hp)).trans (Op.bind_of_ok hread)

/-- The pointer, then the byte operand there. -/
theorem readAtB_ok {p : BitVec 4} {b : Byte} (hp : Machine.gprWordOk s p = true)
    (hread : readByteOperand (s.gprWord p) s.begin = .ok (b, u)) {f : Word → Byte → Op Unit} :
    (do let a ← readGpr p; let b ← readByteOperand a; f a b : Op Unit) s.begin = f (s.gprWord p) b u :=
  (Op.bind_of_ok (readGpr_begin hp)).trans (Op.bind_of_ok hread)

/-! ## What follows the update of the pointer -/

/-- A two-operand operation on a word GPR. -/
theorem Pointed.computes_alu (h : Pointed s u v m) {op : Alu} {a b : Word} {n : BitVec 4}
    (ok : Machine.gprWordOk s n = true) (hi : exec i s = runInstr len body s)
    (hb : body s.begin = aluFinish op a b (writeGpr n) v) :
    Computes i (ipAfter len s) s u (aluCond op a b (old s))
      (aluBytes op m (Machine.gprWordAddr s n) (aluValue op a b (old s).c)) := by
  obtain ⟨w, f, done, quiet, bytes, flags⟩ := aluFinish_gpr op a b n (u := v) (by rw [h.gprWordOk, ok])
  rw [h.psw] at bytes flags
  rw [h.bytes, h.gprWordAddr] at bytes
  exact computes_of_quiet hi h.read (hb.trans done) (h.quiet.trans quiet) flags bytes

/-- A two-operand operation on a byte GPR. -/
theorem Pointed.computes_aluB (h : Pointed s u v m) {op : Alu} {a b : Byte} {n : BitVec 4}
    (ok : Machine.gprByteOk s n = true) (hi : exec i s = runInstr len body s)
    (hb : body s.begin = aluFinish op a b (writeGprB n) v) :
    Computes i (ipAfter len s) s u (aluCond op a b (old s))
      (aluBytesB op m (Machine.gprByteAddr s n) (aluValue op a b (old s).c)) := by
  obtain ⟨w, f, done, quiet, bytes, flags⟩ := aluFinish_gprB op a b n (u := v) (by rw [h.gprByteOk, ok])
  rw [h.psw] at bytes flags
  rw [h.bytes, h.gprByteAddr] at bytes
  exact computes_of_quiet hi h.read (hb.trans done) (h.quiet.trans quiet) flags bytes

/-- A move to a word GPR. -/
theorem Pointed.computes_move (h : Pointed s u v m) {n : BitVec 4} {x : Word} (ok : Machine.gprWordOk s n = true)
    (hi : exec i s = runInstr len body s) (hb : body s.begin = moveToGpr n x v) :
    Computes i (ipAfter len s) s u (moveCond x (old s)) (patchWord m (Machine.gprWordAddr s n) x) := by
  have written : writeGpr n x v = .ok ((), v.setGprWord n x) := writeGpr_ok.2 ⟨by rw [h.gprWordOk, ok], rfl⟩
  rw [moveToGpr, Op.bind_of_ok written, setFlags_apply] at hb
  refine computes_of_quiet hi h.read hb (h.quiet.trans (quiet_setGprWord v n x)) (condFlags_moveFlags x _) fun y => ?_
  rw [bytes_setGprWord, h.bytes, h.gprWordAddr]

/-- A move to a byte GPR. -/
theorem Pointed.computes_moveB (h : Pointed s u v m) {n : BitVec 4} {x : Byte} (ok : Machine.gprByteOk s n = true)
    (hi : exec i s = runInstr len body s) (hb : body s.begin = moveToGprB n x v) :
    Computes i (ipAfter len s) s u (moveCond x (old s)) (patchByte m (Machine.gprByteAddr s n) x) := by
  have written : writeGprB n x v = .ok ((), v.setGprByte n x) := writeGprB_ok.2 ⟨by rw [h.gprByteOk, ok], rfl⟩
  rw [moveToGprB, Op.bind_of_ok written, setFlags_apply] at hb
  refine computes_of_quiet hi h.read hb (h.quiet.trans (quiet_setGprByte v n x)) (condFlags_moveFlags x _) fun y => ?_
  rw [bytes_setGprByte, h.bytes, h.gprByteAddr]

/-- A move of a word to memory. -/
theorem Pointed.storesWord (h : Pointed s u v m) {a x : Word} (hi : exec i s = runInstr len body s)
    (hb : body s.begin = moveToMem a x v) : StoresWord i (ipAfter len s) s v a x (moveCond x (old s)) := by
  refine storesWord_of hi (fun w hw => hb.trans (moveToMem_ok hw)) (h.quiet.prev.trans h.read.prev)
    (h.quiet.ext.trans h.read.ext) (h.quiet.board.trans h.read.board) ?_ ?_ ?_
  · rw [h.quiet.branched, h.read.marks]
    rfl
  · rw [h.quiet.extStarted, h.read.marks]
    rfl
  · rw [h.psw]
    exact condFlags_moveFlags x _

/-- A move of a byte to memory. -/
theorem Pointed.storesByte (h : Pointed s u v m) {a : Word} {x : Byte} (hi : exec i s = runInstr len body s)
    (hb : body s.begin = moveToMemB a x v) : StoresByte i (ipAfter len s) s v a x (moveCond x (old s)) := by
  refine storesByte_of hi (fun w hw => hb.trans (moveToMemB_ok hw)) (h.quiet.prev.trans h.read.prev)
    (h.quiet.ext.trans h.read.ext) (h.quiet.board.trans h.read.board) ?_ ?_ ?_
  · rw [h.quiet.branched, h.read.marks]
    rfl
  · rw [h.quiet.extStarted, h.read.marks]
    rfl
  · rw [h.psw]
    exact condFlags_moveFlags x _

end

/-! ## The two-operand operations -/

/-- Settles O3: the register, the pointer and the operand are read; the pointer moves before the result is written. -/
theorem aluWordsIndirect : Obligations.AluWordsIndirect := by
  intro op n i s u b hn hi hread
  have read := OnlyRead.readWordOperand hread
  have register := readGpr_begin hn
  constructor
  · exact read.pointed.computes_alu hn (exec_aluRwnInd op n i s)
      ((Op.bind_of_ok register).trans (readAt_ok hi hread))
  · exact (read.pointed_set _ _).computes_alu hn (exec_aluRwnIndInc op n i s)
      ((Op.bind_of_ok register).trans ((readAt_ok hi hread).trans (Op.bind_of_ok (read.writeGpr_ok hi _))))

/-- Settles O4: as O3, on bytes. -/
theorem aluBytesIndirect : Obligations.AluBytesIndirect := by
  intro op n i s u b hn hi hread
  have read := OnlyRead.readByteOperand hread
  have register := readGprB_begin hn
  constructor
  · exact read.pointed.computes_aluB hn (exec_aluRbnInd op n i s)
      ((Op.bind_of_ok register).trans (readAtB_ok hi hread))
  · exact (read.pointed_set _ _).computes_aluB hn (exec_aluRbnIndInc op n i s)
      ((Op.bind_of_ok register).trans ((readAtB_ok hi hread).trans (Op.bind_of_ok (read.writeGpr_ok hi _))))

/-! ## Loads -/

/-- Settles O19: the pointer and the operand are read; [Rwm+] moves the pointer before the register is written. -/
theorem loads : Obligations.Loads := by
  intro n m d s hm
  have pointer := readGpr_begin hm
  refine ⟨fun hn u v => ⟨fun hread => ?_, fun hread => ?_⟩, fun hn u v => ⟨fun hread => ?_, fun hread => ?_⟩⟩
  · have read := OnlyRead.readWordOperand hread
    exact ⟨read.pointed.computes_move (len := 2) hn rfl (readAt_ok hm hread),
      (read.pointed_set _ _).computes_move (len := 2) hn rfl
        ((readAt_ok hm hread).trans (Op.bind_of_ok (read.writeGpr_ok hm _)))⟩
  · exact (OnlyRead.readWordOperand hread).pointed.computes_move (len := 4) hn rfl
      ((Op.bind_of_ok pointer).trans (Op.bind_of_ok hread))
  · have read := OnlyRead.readByteOperand hread
    exact ⟨read.pointed.computes_moveB (len := 2) hn rfl (readAtB_ok hm hread),
      (read.pointed_set _ _).computes_moveB (len := 2) hn rfl
        ((readAtB_ok hm hread).trans (Op.bind_of_ok (read.writeGpr_ok hm _)))⟩
  · exact (OnlyRead.readByteOperand hread).pointed.computes_moveB (len := 4) hn rfl
      ((Op.bind_of_ok pointer).trans (Op.bind_of_ok hread))

/-! ## Stores with predecrement -/

/-- MOV [-Rwm],Rwn, whatever value has been chosen for the store. -/
theorem storesWord_predecrement {n m : BitVec 4} {s : State} {x : Word} (k : Nat) (hm : gprWordOk s m = true)
    (hn : gprWordOk s n = true)
    (chosen : storedWord (decide (n = m)) (s.gprWord n) s.begin = .ok (x, s.begin.advanceFree k)) :
    StoresWord (.movIndDecRwmRwn m n) (ipAfter 2 s) s ((s.begin.advanceFree k).setGprWord m (s.gprWord m - 2))
      (s.gprWord m - 2) x (moveCond x (old s)) := by
  have read := OnlyRead.advanceFree s.begin k
  exact (read.pointed_set m _).storesWord (len := 2) rfl ((Op.bind_of_ok (readGpr_begin hn)).trans
    ((Op.bind_of_ok (readGpr_begin hm)).trans ((Op.bind_of_ok chosen).trans (Op.bind_of_ok (read.writeGpr_ok hm _)))))

/-- MOVB [-Rwm],Rbn, whatever value has been chosen for the store. -/
theorem storesByte_predecrement {n m : BitVec 4} {s : State} {x : Byte} (k : Nat) (hm : gprWordOk s m = true)
    (hn : gprByteOk s n = true)
    (chosen : storedByte (isHalfOf n m) (s.gprByte n) s.begin = .ok (x, s.begin.advanceFree k)) :
    StoresByte (.movbIndDecRwmRbn m n) (ipAfter 2 s) s ((s.begin.advanceFree k).setGprWord m (s.gprWord m - 1))
      (s.gprWord m - 1) x (moveCond x (old s)) := by
  have read := OnlyRead.advanceFree s.begin k
  exact (read.pointed_set m _).storesByte (len := 2) rfl ((Op.bind_of_ok (readGprB_begin hn)).trans
    ((Op.bind_of_ok (readGpr_begin hm)).trans ((Op.bind_of_ok chosen).trans (Op.bind_of_ok (read.writeGpr_ok hm _)))))

/-- Settles O22: the register's own value is stored, or a free one where the register is its pointer or a half of it. -/
theorem predecrementStores : Obligations.PredecrementStores := by
  intro n m s hm
  refine ⟨fun hn => ⟨fun ne => ?_, fun eq => ?_⟩, fun hn => ⟨fun ne => ?_, fun eq => ?_⟩⟩
  · exact storesWord_predecrement 0 hm hn (by rw [decide_eq_false ne]; rfl)
  · exact ⟨_, 1, storesWord_predecrement 1 hm hn (by rw [decide_eq_true eq]; rfl)⟩
  · exact storesByte_predecrement 0 hm hn (by rw [isHalfOf, decide_eq_false ne]; rfl)
  · exact ⟨_, 1, storesByte_predecrement 1 hm hn (by rw [isHalfOf, decide_eq_true eq]; rfl)⟩

/-! ## Moves from memory to memory -/

/-- Settles O23: the source is read, then the pointer to the destination; a pointer moves before the store. -/
theorem memoryToMemory : Obligations.MemoryToMemory := by
  refine ⟨fun n m mem s u v => ⟨fun hm hread => ?_, fun hn hread => ?_⟩,
    fun n m mem s u v => ⟨fun hm hread => ?_, fun hn hread => ?_⟩⟩
  · have read := OnlyRead.readWordOperand hread
    refine ⟨read, read.pointed.storesWord (len := 4) rfl (readAt_ok hm hread), fun hn => ?_⟩
    have target := read.readGpr_ok hn
    exact ⟨read.pointed.storesWord (len := 2) rfl ((readAt_ok hm hread).trans (Op.bind_of_ok target)),
      (read.pointed_set n _).storesWord (len := 2) rfl ((readAt_ok hm hread).trans ((Op.bind_of_ok target).trans
        (Op.bind_of_ok (read.writeGpr_ok hn _)))),
      (read.pointed_set m _).storesWord (len := 2) rfl ((readAt_ok hm hread).trans ((Op.bind_of_ok target).trans
        (Op.bind_of_ok (read.writeGpr_ok hm _))))⟩
  · have read := OnlyRead.readWordOperand hread
    exact ⟨read, read.pointed.storesWord (len := 4) rfl
      ((Op.bind_of_ok hread).trans (Op.bind_of_ok (read.readGpr_ok hn)))⟩
  · have read := OnlyRead.readByteOperand hread
    refine ⟨read, read.pointed.storesByte (len := 4) rfl (readAtB_ok hm hread), fun hn => ?_⟩
    have target := read.readGpr_ok hn
    exact ⟨read.pointed.storesByte (len := 2) rfl ((readAtB_ok hm hread).trans (Op.bind_of_ok target)),
      (read.pointed_set n _).storesByte (len := 2) rfl ((readAtB_ok hm hread).trans ((Op.bind_of_ok target).trans
        (Op.bind_of_ok (read.writeGpr_ok hn _)))),
      (read.pointed_set m _).storesByte (len := 2) rfl ((readAtB_ok hm hread).trans ((Op.bind_of_ok target).trans
        (Op.bind_of_ok (read.writeGpr_ok hm _))))⟩
  · have read := OnlyRead.readByteOperand hread
    exact ⟨read, read.pointed.storesByte (len := 4) rfl
      ((Op.bind_of_ok hread).trans (Op.bind_of_ok (read.readGpr_ok hn)))⟩

end Sys2Proof.Machine
end

