-- ==== Sys2Proof/Proofs/ConditionCodes.lean ====
section
/-! PROOFS. The condition codes (O27). Spec: 30_encoding.md rule R141. -/

namespace Sys2Proof.Machine

/-- Settles O27: each code selects its row of the table. -/
theorem conditionCodes : Obligations.ConditionCodes := by
  intro p
  exact ⟨rfl, rfl, rfl, rfl, rfl, rfl, rfl, rfl, rfl, rfl, rfl, rfl, rfl, rfl, rfl, rfl⟩

end Sys2Proof.Machine
end

section
/-! PROOFS. The two-operand operations on GPRs and with #data3 (O1, O2), the complements (O9), multiplication (O10), division
(O11, O12). Spec: 40_arithmetic.md rules R180 to R198, 41_logical.md rules R211 to R216, 42_compare_loop.md rules R221 and
R222, 10_state.md rules R49 and R50, decisions D7, D8, D11 and D12. -/

namespace Sys2Proof.Machine

open Sys2Proof.Claims

/-! ## The two-operand operations on GPRs -/

theorem exec_aluRwnRwm (op : Alu) (n m : BitVec 4) (s : State) :
    exec (aluRwnRwm op n m) s = runInstr 2 (aluRR op n m) s := by
  cases op <;> rfl

theorem exec_aluRwnData3 (op : Alu) (n : BitVec 4) (d : BitVec 3) (s : State) :
    exec (aluRwnData3 op n d) s = runInstr 2 (aluRImm3 op n d) s := by
  cases op <;> rfl

theorem exec_aluRbnRbm (op : Alu) (n m : BitVec 4) (s : State) :
    exec (aluRbnRbm op n m) s = runInstr 2 (aluRRB op n m) s := by
  cases op <;> rfl

theorem exec_aluRbnData3 (op : Alu) (n : BitVec 4) (d : BitVec 3) (s : State) :
    exec (aluRbnData3 op n d) s = runInstr 2 (aluRImm3B op n d) s := by
  cases op <;> rfl

/-- Settles O1: the registers are read, then the operation ends in `aluFinish`. -/
theorem aluWordsOnRegisters : Obligations.AluWordsOnRegisters := by
  intro op n m d s hn
  have first := readGpr_begin hn
  have unread := (OnlyRead.refl s.begin).pointed
  refine ⟨fun hm => ?_, ?_⟩
  · exact unread.computes_alu hn (exec_aluRwnRwm op n m s)
      ((Op.bind_of_ok first).trans (Op.bind_of_ok (readGpr_begin hm)))
  · exact unread.computes_alu hn (exec_aluRwnData3 op n d s) (Op.bind_of_ok first)

/-- Settles O2: as O1, on bytes. -/
theorem aluBytesOnRegisters : Obligations.AluBytesOnRegisters := by
  intro op n m d s hn
  have first := readGprB_begin hn
  have unread := (OnlyRead.refl s.begin).pointed
  refine ⟨fun hm => ?_, ?_⟩
  · exact unread.computes_aluB hn (exec_aluRbnRbm op n m s)
      ((Op.bind_of_ok first).trans (Op.bind_of_ok (readGprB_begin hm)))
  · exact unread.computes_aluB hn (exec_aluRbnData3 op n d s) (Op.bind_of_ok first)

/-! ## Complements -/

/-- An instruction with one word GPR as operand and destination. -/
theorem computes_unaryWord {i : Instr} {len : Nat} {f : Word → Word × FlagUpdate} {n : BitVec 4} {s : State} {r : Word}
    {fl : Cond} (hi : exec i s = runInstr len (unaryWord f n) s) (hn : gprWordOk s n = true)
    (hr : (f (s.gprWord n)).1 = r) (hf : condFlags ((f (s.gprWord n)).2.apply s.cpu.psw) = fl) :
    Computes i (ipAfter len s) s s.begin fl (patchWord (bytesOf s) (gprWordAddr s n) r) := by
  subst hr
  refine computes_of_quiet hi (OnlyRead.refl _) ?_ (quiet_setGprWord s.begin n _) hf (bytes_setGprWord s.begin n _)
  exact (unaryWord_apply f n s.begin).trans (if_pos hn)

/-- The same with a byte GPR. -/
theorem computes_unaryByte {i : Instr} {len : Nat} {f : Byte → Byte × FlagUpdate} {n : BitVec 4} {s : State} {r : Byte}
    {fl : Cond} (hi : exec i s = runInstr len (unaryByte f n) s) (hn : gprByteOk s n = true)
    (hr : (f (s.gprByte n)).1 = r) (hf : condFlags ((f (s.gprByte n)).2.apply s.cpu.psw) = fl) :
    Computes i (ipAfter len s) s s.begin fl (patchByte (bytesOf s) (gprByteAddr s n) r) := by
  subst hr
  refine computes_of_quiet hi (OnlyRead.refl _) ?_ (quiet_setGprByte s.begin n _) hf (bytes_setGprByte s.begin n _)
  exact (unaryByte_apply f n s.begin).trans (if_pos hn)

theorem condFlags_cplResult {w : Nat} (a : BitVec w) (p : Word) :
    condFlags ((cplResult a).2.apply p) = complementCond a :=
  condFlags_apply_allFlags _ _ _ _ _ _

theorem negResult_value {w : Nat} (a : BitVec (w + 1)) : (negResult a).1 = -a :=
  (aluResult_value .sub 0 a false false).trans (BitVec.zero_sub a)

/-- The flags of a two's complement are those of the subtraction from 0 (R197). -/
theorem condFlags_negResult {w : Nat} (a : BitVec (w + 1)) (p : Word) :
    condFlags ((negResult a).2.apply p) = aluCond .sub 0 a (condFlags p) :=
  condFlags_aluResult .sub 0 a p

/-- Settles O9: each complement is one operation on its register. -/
theorem complements : Obligations.Complements := by
  intro n s
  refine ⟨rfl, rfl, rfl, rfl, fun hn => ⟨?_, ?_⟩, fun hn => ⟨?_, ?_⟩⟩
  · exact computes_unaryWord (len := 2) (f := cplResult) rfl hn rfl (condFlags_cplResult _ _)
  · exact computes_unaryWord (len := 2) (f := negResult) rfl hn (negResult_value _) (condFlags_negResult _ _)
  · exact computes_unaryByte (len := 2) (f := cplResult) rfl hn rfl (condFlags_cplResult _ _)
  · exact computes_unaryByte (len := 2) (f := negResult) rfl hn (negResult_value _) (condFlags_negResult _ _)

/-! ## The multiply and divide unit -/

theorem requireMdc_begin {s : State} (h : s.cpu.mdc &&& 0x00EF = 0) : requireMdc s.begin = .ok ((), s.begin) := by
  have clear : decide (s.begin.cpu.mdc &&& 0x00EF ≠ 0) = false := decide_eq_false (not_not_intro h)
  rw [requireMdc, refuseIf_apply, clear]
  rfl

/-- What a multiply or divide leaves in the CPU (R189 to R194, R200). -/
theorem setMd_cpu {s : State} (h : s.marks.pswWritten = false) (r : MdResult) : (s.setMd r).cpu = { s.cpu with
    mdh := r.mdh, mdl := r.mdl, mdc := s.cpu.mdc ||| 0x0010
    psw := putCond s.cpu.psw { e := false, z := r.z, v := r.v, c := false, n := r.n } } := by
  rw [State.setMd, setFlags_cpu, condFlags_apply_allFlags]
  simp [h]

/-- An invalid division leaves some result with V = 1, for which it uses three free values (D8). -/
theorem exists_setMdInvalid (s : State) : ∃ h l z neg,
    s.setMdInvalid = (s.advanceFree 3).setMd { mdh := h, mdl := l, z := z, v := true, n := neg } :=
  ⟨_, _, _, _, rfl⟩

section
variable {i : Instr} {n m : BitVec 4} {s : State} {h l : Word} {z v neg : Bool}

/-- An instruction whose body leaves its result in the multiply and divide unit, after it has used `k` free values. -/
theorem runs_of_setMd {body : Op Unit} (k : Nat) (hi : exec i s = runInstr 2 body s)
    (hb : body s.begin
      = .ok ((), (s.begin.advanceFree k).setMd { mdh := h, mdl := l, z := z, v := v, n := neg })) :
    Runs i s s.begin (mdCpu s h l z v neg) (bytesOf s) := by
  generalize hr : MdResult.mk h l z v neg = r at hb
  have marks : ((s.begin.advanceFree k).setMd r).marks = Marks.clear := State.setMd_marks _ _
  refine runs_of hi (OnlyRead.refl _) hb (by rw [marks]; rfl) ?_ (fun x => ?_) ⟨by constructor <;> simp, by simp⟩
  · rw [marks, setMd_cpu rfl, ← hr]
    rfl
  · rw [bytesOf, State.setMd_mem]
    rfl

theorem runs_multiply {f : Word → Word → MdResult} (hi : exec i s = runInstr 2 (multiply f n m) s)
    (hn : gprWordOk s n = true) (hm : gprWordOk s m = true) (hmdc : s.cpu.mdc &&& 0x00EF = 0)
    (hr : f (s.gprWord n) (s.gprWord m) = { mdh := h, mdl := l, z := z, v := v, n := neg }) :
    Runs i s s.begin (mdCpu s h l z v neg) (bytesOf s) := by
  have body : multiply f n m s.begin = .ok ((), s.begin.setMd (f (s.gprWord n) (s.gprWord m))) :=
    (Op.bind_of_ok (requireMdc_begin hmdc)).trans
      ((Op.bind_of_ok (readGpr_begin hn)).trans (Op.bind_of_ok (readGpr_begin hm)))
  rw [hr] at body
  exact runs_of_setMd 0 hi body

/-- The body of a division up to its result. -/
theorem divide_begin (f : Cpu → Word → Option MdResult) (hn : gprWordOk s n = true) (hmdc : s.cpu.mdc &&& 0x00EF = 0) :
    divide f n s.begin = .ok ((), (f s.cpu (s.gprWord n)).elim s.begin.setMdInvalid s.begin.setMd) := by
  rw [divide, Op.bind_of_ok (requireMdc_begin hmdc), Op.bind_of_ok (readGpr_begin hn), update_apply]
  simp only [State.begin_cpu]
  cases f s.cpu (s.gprWord n) <;> rfl

theorem runs_divide {f : Cpu → Word → Option MdResult} (hi : exec i s = runInstr 2 (divide f n) s)
    (hn : gprWordOk s n = true) (hmdc : s.cpu.mdc &&& 0x00EF = 0)
    (hr : f s.cpu (s.gprWord n) = some { mdh := h, mdl := l, z := z, v := v, n := neg }) :
    Runs i s s.begin (mdCpu s h l z v neg) (bytesOf s) := by
  have body := divide_begin f hn hmdc
  rw [hr] at body
  exact runs_of_setMd 0 hi body

theorem runs_divide_invalid {f : Cpu → Word → Option MdResult} (hi : exec i s = runInstr 2 (divide f n) s)
    (hn : gprWordOk s n = true) (hmdc : s.cpu.mdc &&& 0x00EF = 0) (hr : f s.cpu (s.gprWord n) = none) :
    ∃ h l z neg, Runs i s s.begin (mdCpu s h l z true neg) (bytesOf s) := by
  have body := divide_begin f hn hmdc
  obtain ⟨h, l, z, neg, left⟩ := exists_setMdInvalid s.begin
  rw [hr, Option.elim_none, left] at body
  exact ⟨h, l, z, neg, runs_of_setMd 3 hi body⟩

end

/-! ## Products -/

/-- V of MUL: a product is out of the range of a word unless it is its low word, sign extended (R189, D11). -/
theorem outOfRange_toInt (p : BitVec 32) : outOfRange 16 p.toInt = (p != (p.extractLsb' 0 16).signExtend 32) := by
  have low : ((p.extractLsb' 0 16).signExtend 32).toInt = (p.toNat : Int).bmod (2 ^ 16) := by
    rw [BitVec.toInt_signExtend_of_le (by omega), ← BitVec.setWidth_eq_extractLsb' (by omega), BitVec.toInt_setWidth]
  rw [outOfRange, Bool.eq_iff_iff, bne_iff_ne, ne_eq, ← BitVec.toInt_inj, low, decide_eq_true_eq, eq_comm,
    Int.bmod_eq_iff (by omega), BitVec.toInt_eq_toNat_cond]
  omega

theorem mulResult_eq {a b : Word} {p : BitVec 32} (hp : p = a.signExtend 32 * b.signExtend 32) :
    mulResult a b = { mdh := p.extractLsb' 16 16, mdl := p.extractLsb' 0 16, z := p == 0
                      v := p != (p.extractLsb' 0 16).signExtend 32, n := p.msb } := by
  have product : BitVec.ofInt 32 (a.toInt * b.toInt) = p := by
    rw [hp, BitVec.ofInt_mul]
    rfl
  have value : a.toInt * b.toInt = p.toInt := by
    have lower := BitVec.le_toInt_mul_toInt (x := a) (y := b)
    have upper := BitVec.toInt_mul_toInt_le (x := a) (y := b)
    rw [← product, BitVec.toInt_ofInt_eq_self (by omega) (by omega) (by omega)]
  rw [mulResult, product, value, outOfRange_toInt, productResult, BitVec.setWidth_eq_extractLsb' (by omega)]
  rfl

theorem muluResult_eq {a b : Word} {p : BitVec 32} (hp : p = a.setWidth 32 * b.setWidth 32) :
    muluResult a b = { mdh := p.extractLsb' 16 16, mdl := p.extractLsb' 0 16, z := p == 0
                       v := p.extractLsb' 16 16 != 0, n := p.msb } := by
  have product : BitVec.ofNat 32 (a.toNat * b.toNat) = p := by
    rw [hp, BitVec.ofNat_mul, BitVec.ofNat_toNat, BitVec.ofNat_toNat]
  have bound : a.toNat * b.toNat < 2 ^ 32 := BitVec.toNat_mul_toNat_lt
  have fits : decide (0xFFFF < a.toNat * b.toNat) = (p.extractLsb' 16 16 != 0) := by
    rw [Bool.eq_iff_iff, bne_iff_ne, ne_eq, ← BitVec.toNat_inj, BitVec.extractLsb'_toNat, ← product, BitVec.toNat_ofNat,
      Nat.mod_eq_of_lt bound, Nat.shiftRight_eq_div_pow, decide_eq_true_eq]
    show _ ↔ ¬ _ = 0
    omega
  rw [muluResult, product, fits, productResult, BitVec.setWidth_eq_extractLsb' (by omega)]
  rfl

/-- Settles O10: the model's product and its V are the statement's. -/
theorem multiplication : Obligations.Multiplication := by
  intro n m s hn hm hmdc
  refine ⟨fun p hp => ?_, fun p hp => ?_⟩
  · exact runs_multiply (f := mulResult) rfl hn hm hmdc (mulResult_eq hp)
  · exact runs_multiply (f := muluResult) rfl hn hm hmdc (muluResult_eq hp)

/-! ## Quotients -/

/-- Truncating division is the only one whose remainder is smaller than the divisor and has the sign of the dividend (D7). -/
theorem tdiv_tmod_of_remainder {a b q r : Int} (hr : r.natAbs < b.natAbs) (ha : a = q * b + r) (hs : 0 ≤ r * a) :
    a.tdiv b = q ∧ a.tmod b = r := by
  have hb : b ≠ 0 := by omega
  rcases lt_trichotomy a 0 with neg | zero | pos
  · have : r ≤ 0 := by nlinarith
    exact (Int.tdiv_tmod_unique' neg.le hb).2 ⟨by linarith, by omega, this⟩
  · have quotient : q = 0 := by
      by_contra hq
      have := Int.natAbs_mul q b
      have := Nat.le_mul_of_pos_left b.natAbs (Int.natAbs_pos.2 hq)
      omega
    subst quotient zero
    have remainder : r = 0 := by linarith
    exact ⟨Int.zero_tdiv b, by rw [remainder, Int.zero_tmod]⟩
  · have : 0 ≤ r := by nlinarith
    exact (Int.tdiv_tmod_unique pos.le hb).2 ⟨by linarith, this, by omega⟩

/-- A quotient that fits a word is the answer of a signed division. -/
theorem signedDivision_fits {a b q r : Int} (hr : r.natAbs < b.natAbs) (ha : a = q * b + r) (hs : 0 ≤ r * a)
    (hl : -0x8000 ≤ q) (hu : q < 0x8000) : signedDivision a b
      = some { mdh := BitVec.ofInt 16 r, mdl := BitVec.ofInt 16 q, z := q == 0, v := false, n := decide (q < 0) } := by
  obtain ⟨quotient, remainder⟩ := tdiv_tmod_of_remainder hr ha hs
  have sign : (BitVec.ofInt 16 q).msb = decide (q < 0) := by
    rw [BitVec.msb_eq_toInt, BitVec.toInt_ofInt_eq_self (by omega) hl hu]
  have inRange : outOfRange 16 q = false := decide_eq_false (by omega)
  have nonzero : b ≠ 0 := by omega
  rw [signedDivision, quotient, remainder, if_neg (by simp [nonzero, inRange]), quotientResult, sign]

/-- A quotient that does not fit a word is none. -/
theorem signedDivision_overflow {a b q r : Int} (hr : r.natAbs < b.natAbs) (ha : a = q * b + r) (hs : 0 ≤ r * a)
    (hq : q < -0x8000 ∨ 0x8000 ≤ q) : signedDivision a b = none := by
  rw [signedDivision, (tdiv_tmod_of_remainder hr ha hs).1]
  exact if_pos (.inr (decide_eq_true hq))

theorem signedDivision_zero (a : Int) : signedDivision a 0 = none := if_pos (.inl rfl)

/-- A quotient that fits a word is the answer of an unsigned division. -/
theorem unsignedDivision_fits {a b q r : Nat} (hr : r < b) (ha : a = q * b + r) (hq : q < 0x10000) :
    unsignedDivision a b = some { mdh := BitVec.ofNat 16 r, mdl := BitVec.ofNat 16 q, z := q == 0, v := false
                                  n := decide (0x8000 ≤ q) } := by
  have dividend : r + b * q = a := by linarith
  obtain ⟨quotient, remainder⟩ := (Nat.div_mod_unique (Nat.zero_lt_of_lt hr)).2 ⟨dividend, hr⟩
  have sign : (BitVec.ofNat 16 q).msb = decide (0x8000 ≤ q) := by
    rw [BitVec.msb_eq_decide, BitVec.toNat_ofNat, Nat.mod_eq_of_lt hq]
  have zero : ((q : Int) == 0) = (q == 0) := by
    rw [Bool.eq_iff_iff, beq_iff_eq, beq_iff_eq, Int.natCast_eq_zero]
  rw [unsignedDivision, quotient, remainder, if_neg (by omega), quotientResult, BitVec.ofInt_natCast, BitVec.ofInt_natCast,
    sign, zero]

/-- Quotients of a dividend of at least 2^16 times the divisor, and those by 0, are none. -/
theorem unsignedDivision_invalid {a b : Nat} (h : b * 0x10000 ≤ a) : unsignedDivision a b = none := by
  refine if_pos ?_
  rcases Nat.eq_zero_or_pos b with zero | pos
  · exact .inl zero
  · exact .inr ((Nat.le_div_iff_mul_le pos).2 (by omega))

theorem exec_divRwn (n : BitVec 4) (s : State) :
    exec (.divRwn n) s = runInstr 2 (divide (fun c b => signedDivision c.mdl.toInt b.toInt) n) s := rfl

theorem exec_divuRwn (n : BitVec 4) (s : State) :
    exec (.divuRwn n) s = runInstr 2 (divide (fun c b => unsignedDivision c.mdl.toNat b.toNat) n) s := rfl

theorem exec_divlRwn (n : BitVec 4) (s : State) :
    exec (.divlRwn n) s = runInstr 2 (divide (fun c b => signedDivision (mdValue c).toInt b.toInt) n) s := rfl

theorem exec_divluRwn (n : BitVec 4) (s : State) :
    exec (.divluRwn n) s = runInstr 2 (divide (fun c b => unsignedDivision (mdValue c).toNat b.toNat) n) s := rfl

/-- Settles O11: the quotient and remainder of the statement are those of the model. -/
theorem division : Obligations.Division := by
  intro n s hn hmdc
  refine ⟨fun q r hr hl hu => ⟨fun ha hs => ?_, fun ha hs => ?_⟩, fun q r hr hq => ⟨fun ha => ?_, fun ha => ?_⟩⟩
  · exact runs_divide (exec_divRwn n s) hn hmdc (signedDivision_fits hr ha hs hl hu)
  · exact runs_divide (exec_divlRwn n s) hn hmdc (signedDivision_fits hr ha hs hl hu)
  · exact runs_divide (exec_divuRwn n s) hn hmdc (unsignedDivision_fits hr ha hq)
  · exact runs_divide (exec_divluRwn n s) hn hmdc (unsignedDivision_fits hr ha hq)

/-- Settles O12: the model's division has no answer in each of these cases. -/
theorem invalidDivision : Obligations.InvalidDivision := by
  intro n s hn hmdc
  refine ⟨fun zero => ?_, fun dividend divisor => ?_, fun q r hr hq ha hs => ?_, fun large => ?_⟩
  · have signed : ∀ a, signedDivision a (s.gprWord n).toInt = none := by
      rw [zero]
      exact signedDivision_zero
    have unsigned : ∀ a, unsignedDivision a (s.gprWord n).toNat = none := by
      rw [zero]
      exact fun a => unsignedDivision_invalid (Nat.zero_le a)
    simp only [List.forall_mem_cons, List.not_mem_nil, false_imp_iff, implies_true, and_true]
    exact ⟨runs_divide_invalid (exec_divRwn n s) hn hmdc (signed _),
      runs_divide_invalid (exec_divuRwn n s) hn hmdc (unsigned _),
      runs_divide_invalid (exec_divlRwn n s) hn hmdc (signed _),
      runs_divide_invalid (exec_divluRwn n s) hn hmdc (unsigned _)⟩
  · refine runs_divide_invalid (exec_divRwn n s) hn hmdc ?_
    rw [dividend, divisor]
    rfl
  · exact runs_divide_invalid (exec_divlRwn n s) hn hmdc (signedDivision_overflow hr ha hs hq)
  · exact runs_divide_invalid (exec_divluRwn n s) hn hmdc (unsignedDivision_invalid large)

end Sys2Proof.Machine
end

section
/-! PROOFS. Words of the spec's encodings and examples decode to their instructions (O49).
Spec: 30_encoding.md rule R133. -/

namespace Sys2Proof

/-- Settles O49: each of the words is decoded. -/
theorem decodedWords : Obligations.DecodedWords :=
  ⟨rfl, rfl, rfl, rfl, rfl, by decide, rfl, rfl, rfl, rfl, rfl, rfl, rfl⟩

end Sys2Proof
end

section
/-! PROOFS. The loop compares CMPI1, CMPI2, CMPD1 and CMPD2 (O8). Spec: 42_compare_loop.md rules R220 and R223 to R226. -/

namespace Sys2Proof.Machine

open Sys2Proof.Claims

theorem exec_loopCompareData4 (l : LoopCompare) (n d : BitVec 4) (s : State) :
    exec (l.data4 n d) s = runInstr 2 (cmpStep n (d.setWidth 16) l.delta) s := by
  cases l <;> rfl

theorem exec_loopCompareData16 (l : LoopCompare) (n : BitVec 4) (d : Word) (s : State) :
    exec (l.data16 n d) s = runInstr 4 (cmpStep n d l.delta) s := by
  cases l <;> rfl

/-- Counting down adds a negative constant (R225, R226). -/
theorem add_loopCompareDelta (l : LoopCompare) (a : Word) : a + l.delta = l.next a := by
  cases l with
  | cmpi1 | cmpi2 => rfl
  | cmpd1 | cmpd2 => exact (BitVec.sub_eq_add_neg a _).symm

/-- A loop compare whose operand `b` has been read in `u`: the register still holds its old value there, from which the flags
and the new value are taken. -/
theorem computes_loopCompare (l : LoopCompare) {i : Instr} {len : Nat} {body : Op Unit} {n : BitVec 4} {b : Word}
    {s u : State} (hn : gprWordOk s n = true) (hi : exec i s = runInstr len body s) (hr : OnlyRead s.begin u)
    (hb : body s.begin = cmpStep n b l.delta u) :
    Computes i (ipAfter len s) s u (aluCond .cmp (s.gprWord n) b (old s))
      (patchWord (bytesOf u) (gprWordAddr s n) (l.next (s.gprWord n))) := by
  have step : cmpStep n b l.delta u
      = .ok ((), (u.setGprWord n (l.next (s.gprWord n))).setFlags (aluResult .cmp (s.gprWord n) b false false).2) := by
    rw [← add_loopCompareDelta]
    exact (Op.bind_of_ok (hr.readGpr_ok hn)).trans (Op.bind_of_ok (hr.writeGpr_ok hn _))
  have stepped := hr.pointed_set n (l.next (s.gprWord n))
  exact computes_of_quiet hi hr (hb.trans step) stepped.quiet (condFlags_aluResult .cmp _ b _) (congrFun stepped.bytes)

/-- Settles O8: each form ends in the comparison and step of its register; only `mem` is read before that. -/
theorem loopCompares : Obligations.LoopCompares := by
  intro l n d d16 mem s hn
  refine ⟨?_, ?_, fun u b hread => ?_⟩
  · exact computes_loopCompare l hn (exec_loopCompareData4 l n d s) (OnlyRead.refl _) rfl
  · exact computes_loopCompare l hn (exec_loopCompareData16 l n d16 s) (OnlyRead.refl _) rfl
  · exact computes_loopCompare l hn (exec_loopCompareMem l n mem s) (OnlyRead.readWordOperand hread) (Op.bind_of_ok hread)

end Sys2Proof.Machine
end

section
/-! PROOFS. The bit instructions BSET and BCLR (O15), the six with two operand bits (O16), BFLDL and BFLDH (O17).
Spec: 43_bit.md rules R230 to R240. -/

namespace Sys2Proof.Machine

open Sys2Proof.Claims

/-! ## Flags -/

/-- The flags `0 !B 0 0 B` (R230). -/
theorem condFlags_oneBitFlags (b : Bool) (p : Word) : condFlags ((oneBitFlags b).apply p) = bitCond b :=
  condFlags_apply_allFlags _ _ _ _ _ _

/-- The flags `0 NOR OR AND XOR` (R230). -/
theorem condFlags_twoBitFlags (d b : Bool) (p : Word) : condFlags ((twoBitFlags d b).apply p) = twoBitCond d b :=
  condFlags_apply_allFlags _ _ _ _ _ _

/-- The flags `0 * 0 0 *` of a result word (R231, R232). -/
theorem condFlags_fieldFlags (r p : Word) :
    condFlags ((fieldFlags r).apply p) = { e := false, z := r == 0, v := false, c := false, n := r.msb } :=
  condFlags_apply_allFlags _ _ _ _ _ _

/-! ## One operand bit -/

/-- BSET and BCLR write the word as it was read with one bit changed. -/
theorem setsBitWord_oneBitOp (b : Bool) {i : Instr} {len : Nat} {qo : BitVec 8} {q : BitVec 4} {s u : State} {x : Word}
    (hi : exec i s = runInstr len (oneBitOp b qo q) s) (hx : readBitWord qo s.begin = .ok (x, u)) :
    SetsBitWord i (ipAfter len s) s u qo (1#16 <<< q.toNat) (setBit x q b) (bitCond (bitOf x q.toNat)) :=
  setsBitWord_of hi (OnlyRead.readBitWord hx) (fun _ hw => (Op.bind_of_ok hx).trans (Op.bind_of_ok hw))
    (condFlags_oneBitFlags _ _)

/-- Settles O15: the two instructions differ in the new bit only. -/
theorem singleBits : Obligations.SingleBits := by
  intro qo q s u x hx
  exact ⟨rfl, rfl, setsBitWord_oneBitOp (len := 2) true rfl hx, setsBitWord_oneBitOp (len := 2) false rfl hx⟩

/-! ## Two operand bits -/

section
variable {i : Instr} {len : Nat} {zo qo : BitVec 8} {s u : State} {x y : Word}

/-- The source bit's word is read, then the destination's, if that is another one (R230). -/
theorem readTwoBitWords_of (h : TwoBitWords zo qo s u x y) (q : BitVec 4) :
    readTwoBitWords zo qo q s.begin = .ok ((bitOf x q.toNat, y), u) := by
  obtain ⟨r, hsrc, hdst⟩ := h
  rw [readTwoBitWords, Op.bind_of_ok hsrc]
  by_cases same : qo = zo
  · rw [if_pos same] at hdst ⊢
    obtain ⟨rfl, rfl⟩ := hdst
    rfl
  · rw [if_neg same] at hdst ⊢
    exact Op.bind_of_ok hdst

theorem OnlyRead.twoBitWords (h : TwoBitWords zo qo s u x y) : OnlyRead s.begin u := by
  obtain ⟨r, hsrc, hdst⟩ := h
  have first := OnlyRead.readBitWord hsrc
  split at hdst
  · exact hdst.2 ▸ first
  · exact first.trans (OnlyRead.readBitWord hdst)

/-- A two-bit instruction that writes: its new bit and its flags come from both bits as they were read. -/
theorem setsBitWord_twoBitOp (f : Bool → Bool → Bool) (fl : Bool → Bool → FlagUpdate) {cond : Cond} {z q : BitVec 4}
    (hi : exec i s = runInstr len (twoBitOp f fl zo z qo q) s) (h : TwoBitWords zo qo s u x y)
    (hf : condFlags ((fl (bitOf y z.toNat) (bitOf x q.toNat)).apply s.cpu.psw) = cond) :
    SetsBitWord i (ipAfter len s) s u zo (1#16 <<< z.toNat) (setBit y z (f (bitOf y z.toNat) (bitOf x q.toNat))) cond :=
  setsBitWord_of hi (OnlyRead.twoBitWords h)
    (fun _ hw => (Op.bind_of_ok (readTwoBitWords_of h q)).trans (Op.bind_of_ok hw)) hf

/-- BCMP ends after its reads: it only sets the flags (R240). -/
theorem computes_bcmp (z q : BitVec 4) (h : TwoBitWords zo qo s u x y) :
    Computes (.bcmpBitZBitQ zo z qo q) (ipAfter 4 s) s u (twoBitCond (bitOf y z.toNat) (bitOf x q.toNat)) (bytesOf u) :=
  computes_of_quiet rfl (OnlyRead.twoBitWords h) (Op.bind_of_ok (readTwoBitWords_of h q)) (Quiet.refl u)
    (condFlags_twoBitFlags _ _ _) fun _ => rfl

end

/-- Settles O16: the five that write are one operation with their own bit function; BCMP has its flags only. -/
theorem twoBits : Obligations.TwoBits := by
  intro zo qo z q s u x y h
  refine ⟨rfl, rfl, rfl, rfl, rfl, rfl, ?_, ?_, ?_, ?_, ?_, computes_bcmp z q h⟩
  · exact setsBitWord_twoBitOp (len := 4) (fun _ b => b) (fun _ b => oneBitFlags b) rfl h (condFlags_oneBitFlags _ _)
  · exact setsBitWord_twoBitOp (len := 4) (fun _ b => !b) (fun _ b => oneBitFlags b) rfl h (condFlags_oneBitFlags _ _)
  · exact setsBitWord_twoBitOp (len := 4) (fun d b => d && b) twoBitFlags rfl h (condFlags_twoBitFlags _ _ _)
  · exact setsBitWord_twoBitOp (len := 4) (fun d b => d || b) twoBitFlags rfl h (condFlags_twoBitFlags _ _ _)
  · exact setsBitWord_twoBitOp (len := 4) (fun d b => d != b) twoBitFlags rfl h (condFlags_twoBitFlags _ _ _)

/-! ## Bit fields -/

/-- BFLDL and BFLDH write the word as it was read, the masked bits cleared and the data ORed in. -/
theorem setsBitWord_bitField {i : Instr} {len : Nat} {s u : State} {x : Word} {bo : BitVec 8}
    {mask data r : Word} (hi : exec i s = runInstr len (bitField bo mask data) s)
    (hx : readBitWord bo s.begin = .ok (x, u)) (hr : (x &&& ~~~mask) ||| data = r) :
    SetsBitWord i (ipAfter len s) s u bo (mask ||| data) r
      { e := false, z := r == 0, v := false, c := false, n := r.msb } := by
  subst hr
  exact setsBitWord_of hi (OnlyRead.readBitWord hx) (fun _ hw => (Op.bind_of_ok hx).trans (Op.bind_of_ok hw))
    (condFlags_fieldFlags _ _)

/-- A byte as the lower half of a word. -/
theorem setWidth_byte (b : Byte) : (b.setWidth 16 : Word) = 0x00#8 ++ b := by
  rw [BitVec.append_def]
  simp

/-- A byte as the upper half of a word. -/
theorem setWidth_shiftLeft_byte (b : Byte) : (b.setWidth 16 : Word) <<< 8 = b ++ 0x00#8 := by
  rw [BitVec.append_def, BitVec.shiftLeftZeroExtend_eq]
  simp

/-- Settles O17: mask and data stand in the low half of a word for BFLDL, in the high half for BFLDH. -/
theorem bitFields : Obligations.BitFields := by
  intro bo mask d s u x hx
  refine ⟨rfl, rfl, fun v hv => ?_, fun v hv => ?_⟩
  · rw [← setWidth_byte, ← setWidth_byte] at hv
    rw [← setWidth_byte, BitVec.setWidth_or]
    exact setsBitWord_bitField (len := 4) rfl hx hv.symm
  · rw [← setWidth_shiftLeft_byte, ← setWidth_shiftLeft_byte] at hv
    rw [← setWidth_shiftLeft_byte, BitVec.setWidth_or, BitVec.shiftLeft_or_distrib]
    exact setsBitWord_bitField (len := 4) rfl hx hv.symm

end Sys2Proof.Machine
end

section
/-! PROOFS. The shifts and rotates (O13), PRIOR (O14).
Spec: 44_shift_rotate_prioritize.md rules R250 to R256, 10_state.md rule R32. -/

namespace Sys2Proof.Machine

open Sys2Proof.Claims

/-! ## Results and flags of a shift -/

/-- Each bit of the result is the operand's bit that the rule names, for every count below 16 (R251 to R255). -/
theorem bitOf_shiftValue (op : Shift) (a : Word) {k j : Nat} (hk : k < 16) (hj : j < 16) :
    bitOf (shiftValue op a k) j = shiftBit op a k j := by
  cases op with
  | shr =>
    rw [shiftValue, shiftBit, bitOf, BitVec.getLsbD_ushiftRight, Nat.add_comm, bitOf]
  | shl =>
    have entering : (!decide (j < k)) = decide (k ≤ j) := by rw [← decide_not, decide_eq_decide, not_lt]
    rw [shiftValue, shiftBit, bitOf, BitVec.getLsbD_shiftLeft, decide_eq_true hj, Bool.true_and, entering, bitOf]
  | ror =>
    rw [shiftValue, shiftBit, bitOf, BitVec.getLsbD_rotateRight_of_lt hk, bitOf]
    by_cases inside : j < 16 - k
    · rw [decide_eq_true inside, cond_true, Nat.mod_eq_of_lt (by omega), Nat.add_comm]
    · rw [decide_eq_false inside, decide_eq_true hj, cond_false, Bool.true_and]
      congr 1
      omega
  | rol =>
    rw [shiftValue, shiftBit, bitOf, BitVec.getLsbD_rotateLeft_of_le hk, bitOf]
    by_cases wrapped : j < k
    · rw [decide_eq_true wrapped, cond_true]
      congr 1
      omega
    · rw [decide_eq_false wrapped, decide_eq_true hj, cond_false, Bool.true_and]
      congr 1
      omega
  | ashr =>
    rw [shiftValue, shiftBit, bitOf, BitVec.getLsbD_sshiftRight, bitOf, BitVec.msb_eq_getLsbD_last]
    by_cases inside : k + j < 16
    · simp [inside, hj, show min (j + k) 15 = k + j by omega]
    · simp [inside, hj, show min (j + k) 15 = 15 by omega]

theorem shiftCarry_eq_shiftedOut (op : Shift) (a : Word) (k : Nat) : shiftCarry op a k = shiftedOut op a k := by
  have moved : decide (k ≠ 0) = decide (0 < k) := decide_eq_decide.2 Nat.pos_iff_ne_zero.symm
  cases op <;> rw [shiftCarry, shiftedOut, moved]

/-- The bits below `n` are not all 0 when one of them is 1. -/
theorem bitsBelow_ne_zero_iff (a : Word) (n : Nat) : bitsBelow a n ≠ 0 ↔ ∃ j < n, bitOf a j = true := by
  have below (j : Nat) : (bitsBelow a n).testBit j = true ↔ j < n ∧ bitOf a j = true := by
    rw [bitsBelow, Nat.testBit_mod_two_pow, Bool.and_eq_true, decide_eq_true_eq, bitOf, BitVec.getLsbD]
  constructor
  · intro nonzero
    obtain ⟨j, hj⟩ := Nat.exists_testBit_of_ne_zero nonzero
    exact ⟨j, (below j).1 hj⟩
  · rintro ⟨j, one⟩ zero
    have bit := (below j).2 one
    rw [zero, Nat.zero_testBit] at bit
    cases bit

theorem decide_bitsBelow_ne_zero (a : Word) (n : Nat) :
    decide (bitsBelow a n ≠ 0) = (List.range n).any (bitOf a ·) := by
  rw [Bool.eq_iff_iff, decide_eq_true_eq, bitsBelow_ne_zero_iff, List.any_eq_true]
  simp only [List.mem_range]

/-- V: for a count of at most 1 no bit is shifted out before the last one (R32, R250). -/
theorem shiftSticky_eq_shiftedOutBefore (op : Shift) (a : Word) (k : Nat) :
    shiftSticky op a k = shiftedOutBefore op a k := by
  have right : (decide (1 < k) && decide (bitsBelow a (k - 1) ≠ 0)) = (List.range (k - 1)).any (bitOf a ·) := by
    rw [decide_bitsBelow_ne_zero]
    by_cases several : 1 < k
    · rw [decide_eq_true several, Bool.true_and]
    · rw [decide_eq_false several, Nat.sub_eq_zero_of_le (not_lt.1 several)]
      rfl
  cases op with
  | shl | rol => rfl
  | shr | ror | ashr => exact right

theorem condFlags_shiftResult (op : Shift) (a : Word) (k : Nat) (p : Word) :
    condFlags ((shiftResult op a k).2.apply p)
      = { e := false, z := shiftValue op a k == 0, v := shiftedOutBefore op a k, c := shiftedOut op a k
          n := bitOf (shiftValue op a k) 15 } := by
  rw [shiftResult, condFlags_apply_allFlags, shiftSticky_eq_shiftedOutBefore, shiftCarry_eq_shiftedOut,
    BitVec.msb_eq_getLsbD_last]
  rfl

/-! ## The shifts as instructions -/

theorem exec_shiftRwnRwm (op : Shift) (n m : BitVec 4) (s : State) :
    exec (shiftRwnRwm op n m) s = runInstr 2 (shiftByReg op n m) s := by
  cases op <;> rfl

theorem exec_shiftRwnData4 (op : Shift) (n d : BitVec 4) (s : State) :
    exec (shiftRwnData4 op n d) s = runInstr 2 (shiftByImm op n d) s := by
  cases op <;> rfl

/-- A shift whose count `k` is known before Rwn is read. -/
theorem shifted_of {op : Shift} {i : Instr} {body : Op Unit} {n : BitVec 4} {k : Nat} {s : State}
    (hi : exec i s = runInstr 2 body s) (hb : body s.begin = unaryWord (shiftResult op · k) n s.begin)
    (hn : gprWordOk s n = true) (hk : k < 16) : Shifted op i s n k :=
  ⟨shiftValue op (s.gprWord n) k, fun _ hj => bitOf_shiftValue op _ hk hj,
    computes_of_quiet hi (OnlyRead.refl _) (hb.trans ((unaryWord_apply _ n s.begin).trans (if_pos hn)))
      (quiet_setGprWord s.begin n _) (condFlags_shiftResult op _ k _) (bytes_setGprWord s.begin n _)⟩

/-- Settles O13: the count is read from Rwm or stands in the instruction; the rest is `shifted_of`. -/
theorem shifts : Obligations.Shifts := by
  refine ⟨fun n m d => ⟨rfl, rfl, rfl, rfl, rfl, rfl, rfl, rfl, rfl, rfl⟩, fun op n m d s hn => ⟨fun hm => ?_, ?_⟩⟩
  · exact shifted_of (exec_shiftRwnRwm op n m s) (Op.bind_of_ok (readGpr_begin hm)) hn (Nat.mod_lt _ (by omega))
  · exact shifted_of (exec_shiftRwnData4 op n d s) rfl hn d.isLt

/-! ## PRIOR -/

/-- The search from bit `n - 1` down ends at the highest 1. -/
theorem leadingZeros_of_highest {b : Word} {i n : Nat} (one : bitOf b i = true)
    (above : ∀ j < n, i < j → bitOf b j = false) (hi : i < n) : leadingZeros b n = 15 - i := by
  induction n with
  | zero => omega
  | succ n ih =>
    rw [leadingZeros]
    by_cases top : n = i
    · rw [top, if_pos one]
    · have zero : bitOf b n = false := above n (by omega) (by omega)
      rw [zero, if_neg Bool.false_ne_true]
      exact ih (fun j hj => above j (by omega)) (by omega)

theorem leadingZeros_zero (n : Nat) : leadingZeros 0 n = 0 := by
  induction n with
  | zero => rfl
  | succ n ih => simpa [leadingZeros, bitOf] using ih

theorem ne_zero_of_bitOf {b : Word} {i : Nat} (one : bitOf b i = true) : b ≠ 0 := by
  rintro rfl
  simp [bitOf] at one

/-- PRIOR leaves the number of zeros above the highest 1 of `Rwm`, and Z for none (R256). -/
theorem computes_prior {n m : BitVec 4} {s : State} (hn : gprWordOk s n = true) (hm : gprWordOk s m = true) {k : Nat}
    {z : Bool} (hk : leadingZeros (s.gprWord m) 16 = k) (hz : (s.gprWord m == 0) = z) :
    Computes (.priorRwnRwm n m) (ipAfter 2 s) s s.begin { e := false, z := z, v := false, c := false, n := false }
      (patchWord (bytesOf s) (gprWordAddr s n) (BitVec.ofNat 16 k)) := by
  subst hk hz
  exact computes_of_quiet (f := (priorResult (s.gprWord m)).2) rfl (OnlyRead.refl _)
    ((Op.bind_of_ok (readGpr_begin hm)).trans (Op.bind_of_ok ((OnlyRead.refl s.begin).writeGpr_ok hn _)))
    (quiet_setGprWord s.begin n _) (condFlags_apply_allFlags _ _ _ _ _ _) (bytes_setGprWord s.begin n _)

/-- Settles O14: the highest 1 ends the search for it; in 0 the search finds none. -/
theorem prioritize : Obligations.Prioritize := by
  intro n m s hn hm
  refine ⟨rfl, fun k hk one above => ?_, fun zero => ?_⟩
  · have highest : ∀ j < 16, 15 - k < j → bitOf (s.gprWord m) j = false := by
      intro j hj hlt
      rw [show j = 15 - (15 - j) by omega]
      exact above (15 - j) (by omega)
    have count : leadingZeros (s.gprWord m) 16 = k := by
      rw [leadingZeros_of_highest one highest (by omega)]
      omega
    exact computes_prior hn hm count (beq_false_of_ne (ne_zero_of_bitOf one))
  · exact computes_prior (k := 0) hn hm (by rw [zero, leadingZeros_zero]) (by rw [zero]; rfl)

end Sys2Proof.Machine
end

section
/-! PROOFS. The moves between registers and from #data4 (O18). Spec: 45_data_movement.md rules R260 to R264. -/

namespace Sys2Proof.Machine

open Sys2Proof.Claims

/-- A byte extension that ends in its register: the write, then the flags. -/
theorem computes_extendToGpr {i : Instr} {len : Nat} {body : Op Unit} {n : BitVec 4} {r : Word} {s : State}
    (hi : exec i s = runInstr len body s) (hn : gprWordOk s n = true)
    (hb : body s.begin = (do writeGpr n r; setFlags (extendFlags r) : Op Unit) s.begin) :
    Computes i (ipAfter len s) s s.begin (extendCond r (old s)) (patchWord (bytesOf s) (gprWordAddr s n) r) := by
  have unread := OnlyRead.refl s.begin
  rw [Op.bind_of_ok (unread.writeGpr_ok hn r), setFlags_apply] at hb
  exact computes_of_quiet hi unread hb (quiet_setGprWord s.begin n r) (condFlags_extendFlags r _)
    (bytes_setGprWord s.begin n r)

/-- Settles O18: the source register, where there is one, is read; then the value is moved or its extension written. -/
theorem movesBetweenRegisters : Obligations.MovesBetweenRegisters := by
  intro n m d s
  have unread := (OnlyRead.refl s.begin).pointed
  refine ⟨fun hn => ⟨?_, fun hm => ?_, fun hm => ⟨?_, ?_⟩⟩, fun hn => ⟨?_, fun hm => ?_⟩⟩
  · exact unread.computes_move (len := 2) hn rfl rfl
  · exact unread.computes_move (len := 2) hn rfl (Op.bind_of_ok (readGpr_begin hm))
  · exact computes_extendToGpr (len := 2) rfl hn (Op.bind_of_ok (readGprB_begin hm))
  · exact computes_extendToGpr (len := 2) rfl hn (Op.bind_of_ok (readGprB_begin hm))
  · exact unread.computes_moveB (len := 2) hn rfl rfl
  · exact unread.computes_moveB (len := 2) hn rfl (Op.bind_of_ok (readGprB_begin hm))

end Sys2Proof.Machine
end

section
/-! PROOFS. The jumps on a condition (O28), on a bit (O29), on a bit that they change (O30).
Spec: 47_jump.md rules R280 to R288, 43_bit.md rule R230. -/

namespace Sys2Proof.Machine

open Sys2Proof.Claims

/-! ## Branches inside the segment -/

/-- `t` is `u` after a branch to `ip`: of the CPU only IP has changed, and nothing outside it. -/
structure BranchesTo (ip : Word) (u t : State) : Prop where
  cpu : t.cpu = { u.cpu with ip := ip }
  mem : t.mem = u.mem
  outside : SameOutside u t
  branched : t.marks.branched = true
  extStarted : t.marks.extStarted = u.marks.extStarted

theorem branchesTo_jumpTo (u : State) (ip : Word) : BranchesTo ip u (u.jumpTo ip) :=
  ⟨rfl, rfl, ⟨by constructor <;> rfl, rfl⟩, rfl, rfl⟩

theorem branchesTo_cacheJump (u : State) (ip : Word) : BranchesTo ip u (u.cacheJump ip) :=
  ⟨rfl, rfl, ⟨by constructor <;> rfl, rfl⟩, rfl, rfl⟩

theorem OnlyRead.ip {s u : State} (h : OnlyRead s.begin u) : u.cpu.ip = s.cpu.ip := by
  rw [h.cpu]
  rfl

/-- A relative jump goes to the target counted from the next instruction (R140, R280). -/
theorem jumpRelative_apply {s u : State} (h : u.cpu.ip = s.cpu.ip) (len : Nat) (rel : BitVec 8) :
    jumpRelative len rel u = .ok ((), u.cacheJump (target (ipAfter len s) rel)) := by
  rw [jumpRelative, update_apply, nextIp, h]
  rfl

/-- An instruction that reads its operands, then branches if `p` holds. -/
theorem runs_of_branchIf {i : Instr} {len : Nat} {body branch : Op Unit} {s u t : State} {ip : Word} {p : Prop} [Decidable p]
    (hi : exec i s = runInstr len body s) (hr : OnlyRead s.begin u)
    (hb : body s.begin = (if p then branch else pure ()) u)
    (hj : p → branch u = .ok ((), t)) (ht : BranchesTo ip u t) :
    Runs i s u { u.cpu with ip := if p then ip else ipAfter len s } (bytesOf u) := by
  have unstarted : u.marks.extStarted = false := by
    rw [hr.marks]
    rfl
  by_cases taken : p
  · rw [if_pos taken] at hb ⊢
    refine runs_of hi hr (hb.trans (hj taken)) (ht.extStarted.trans unstarted) ?_ (fun _ => ?_) ht.outside
    · rw [ht.branched, ht.cpu]
      rfl
    · rw [bytesOf, ht.mem, bytesOf]
  · rw [if_neg taken] at hb ⊢
    refine runs_of hi hr hb unstarted ?_ (fun _ => rfl) (SameOutside.refl u)
    rw [hr.marks]
    rfl

/-! ## Jumps on a condition -/

/-- Settles O28: JMPA, JMPR and JMPI look at PSW and then branch or end; JMPS has no condition. -/
theorem jumps : Obligations.Jumps := by
  intro cc n rel seg caddr s
  have unread := OnlyRead.refl s.begin
  have looked {f : Word → Op Unit} : (look (·.cpu.psw) >>= f) s.begin = f s.cpu.psw s.begin := Op.bind_of_ok (look_apply _ _)
  refine ⟨?_, ?_, fun hok => ?_, ?_⟩
  · exact runs_of_branchIf (len := 4) rfl unread looked (fun _ => rfl) (branchesTo_cacheJump s.begin caddr)
  · exact runs_of_branchIf (len := 2) rfl unread looked (fun _ => jumpRelative_apply (s := s) (u := s.begin) rfl 2 rel)
      (branchesTo_cacheJump s.begin _)
  · exact runs_of_branchIf (len := 2) rfl unread looked (fun taken => Op.bind_of_ok (readGpr_begin (hok taken)))
      (branchesTo_jumpTo s.begin _)
  · exact runs_of (len := 4) rfl unread (update_apply (State.farJumpTo · seg caddr) s.begin) rfl rfl (fun _ => rfl)
      ⟨by constructor <;> rfl, rfl⟩

/-! ## Jumps on a bit -/

section
variable {i : Instr} {v : Bool} {qo rel : BitVec 8} {q : BitVec 4} {s u : State} {x : Word}

/-- JB and JNB: the jump is taken where the bit is `v`. -/
theorem runs_jumpOnBit (hi : exec i s = runInstr 4 (jumpOnBit v qo q rel) s) (hx : readBitWord qo s.begin = .ok (x, u)) :
    Runs i s u { u.cpu with ip := if bitOf x q.toNat = v then target (ipAfter 4 s) rel else ipAfter 4 s } (bytesOf u) :=
  have read := OnlyRead.readBitWord hx
  runs_of_branchIf hi read (Op.bind_of_ok hx) (fun _ => jumpRelative_apply read.ip 4 rel) (branchesTo_cacheJump u _)

end

/-- Settles O29: the two instructions differ in the value that takes the jump. -/
theorem jumpsOnBit : Obligations.JumpsOnBit := by
  intro qo rel q s u x hx
  have onZero : (if bitOf x q.toNat then ipAfter 4 s else target (ipAfter 4 s) rel)
      = if bitOf x q.toNat = false then target (ipAfter 4 s) rel else ipAfter 4 s := by
    cases bitOf x q.toNat <;> rfl
  rw [onZero]
  exact ⟨rfl, rfl, runs_jumpOnBit rfl hx, runs_jumpOnBit rfl hx⟩

/-! ## Jumps that change their bit -/

/-- The write of a bit word is a store in memory, of a GPR's word or another, or the write of a special function register. -/
theorem writeBitWord_ok {bo : BitVec 8} {mask v : Word} {u w : State} (h : writeBitWord bo mask v u = .ok ((), w)) :
    (∃ a, w = u.storeWord a v) ∨ ∃ a, writeSfrBits a mask v u = .ok ((), w) := by
  unfold writeBitWord at h
  split at h
  · exact .inl ⟨_, (writeGpr_ok.1 h).2⟩
  · split at h
    · cases h
      exact .inl ⟨_, rfl⟩
    · rw [Op.bind_of_ok (look_apply _ _)] at h
      exact .inr ⟨_, h⟩

theorem writeBitWord_kept {bo : BitVec 8} {mask v : Word} {u w : State} (h : writeBitWord bo mask v u = .ok ((), w)) :
    StoreKept u w := by
  obtain ⟨a, rfl⟩ | ⟨a, h⟩ := writeBitWord_ok h
  · exact storeWord_kept a v u
  · exact (writeSfrBits_kept h).store

/-- IP is not a special function register. -/
theorem writeSfr_cpu_ip (r : Sfr) (v : Word) (s : State) : (writeSfr r v s).cpu.ip = s.cpu.ip := by
  cases r with
  | syscon | s0tbuf | s0bg =>
    simp only [writeSfr, writeSyscon]
    split <;> rfl
  | _ => rfl

theorem keepPhases_cpu (mask : Word) (s t : State) : (State.keepPhases mask s t).cpu = t.cpu := by
  unfold State.keepPhases
  split <;> rfl

theorem writeBitWord_cpu_ip {bo : BitVec 8} {mask v : Word} {u w : State} (h : writeBitWord bo mask v u = .ok ((), w)) :
    w.cpu.ip = u.cpu.ip := by
  obtain ⟨a, rfl⟩ | ⟨a, h⟩ := writeBitWord_ok h
  · rfl
  · obtain ⟨t, written, rfl⟩ := writeSfrBits_ok.1 h
    rw [keepPhases_cpu]
    rw [writeSfrWord_ok] at written
    split at written
    · rw [written.2, writeSfr_cpu_ip]
    · rw [written]

/-- An instruction that sets flags, after its writes have led to `w`, and then branches. -/
theorem finishes_of_branch {i : Instr} {len : Nat} {body : Op Unit} {s w t : State} {f : FlagUpdate} {fl : Cond} {ip : Word}
    (hi : exec i s = runInstr len body s) (hb : body s.begin = .ok ((), t)) (ht : BranchesTo ip (w.setFlags f) t)
    (he : w.marks.extStarted = false) (hf : w.marks.pswWritten = false → condFlags (f.apply w.cpu.psw) = fl) :
    Finishes i ip s w fl := by
  have unstarted : t.marks.extStarted = false := by rw [ht.extStarted, setFlags_marks, he]
  refine runsTo_conv (runsTo_of hi hb unstarted) ?_ (fun x => ?_) ((setFlags_outside w f).trans ht.outside)
  · rw [ht.branched, ht.cpu, setFlags_cpu]
    cases h : w.marks.pswWritten
    · simp [hf h]
    · rfl
  · rw [bytesOf, ht.mem, setFlags_mem, bytesOf]

/-- `Finishes` as `Computes`, where the writes have changed memory only. -/
theorem Finishes.computes {i : Instr} {ip : Word} {s u w : State} {fl : Cond} {mem : Nat → Byte} (h : Finishes i ip s w fl)
    (hr : OnlyRead s.begin u) (hq : Quiet u w) (hm : ∀ x, bytesOf w x = mem x) : Computes i ip s u fl mem := by
  refine h.runs hr ?_ ?_ hm hq.outside
  · rw [hq.pswWritten, hr.marks]
    rfl
  · rw [hq.cpu, hr.psw]

/-- An instruction that finishes after its write of a bit word, wherever that word is. -/
theorem setsBitWord_of_finishes {i : Instr} {ip : Word} {s u : State} {bo : BitVec 8} {mask v : Word} {fl : Cond}
    (hr : OnlyRead s.begin u) (h : ∀ w, writeBitWord bo mask v u = .ok ((), w) → Finishes i ip s w fl) :
    SetsBitWord i ip s u bo mask v fl := by
  refine ⟨hr, fun gpr ok => ?_, fun low => ?_, fun w sfr high hw => ⟨h w hw, fun x _ => ?_⟩⟩
  · have written : writeBitWord bo mask v u = .ok ((), u.setGprWord (regGpr bo) v) :=
      (writeBitWord_gpr gpr mask v u).trans (hr.writeGpr_ok ok v)
    rw [← hr.gprWordAddr]
    exact (h _ written).computes hr (quiet_setGprWord u _ v) (bytes_setGprWord u _ v)
  · exact (h _ (writeBitWord_iram low mask v u)).computes hr (quiet_storeWord u _ v) (bytes_storeWord u _ v)
  · rw [writeBitWord_sfr sfr high] at hw
    rw [(writeSfrBits_kept hw).mem]

section
variable {i : Instr} {v : Bool} {qo rel : BitVec 8} {q : BitVec 4} {s u : State} {x : Word}

/-- JBC and JNBS where the bit is `v`: the bit is inverted, then comes the jump. -/
theorem setsBitWord_jumpOnBitAndChange (hi : exec i s = runInstr 4 (jumpOnBitAndChange v qo q rel) s)
    (hx : readBitWord qo s.begin = .ok (x, u)) (hv : bitOf x q.toNat = v) :
    SetsBitWord i (target (ipAfter 4 s) rel) s u qo (1#16 <<< q.toNat) (setBit x q (!v)) (bitCond v) := by
  have read := OnlyRead.readBitWord hx
  refine setsBitWord_of_finishes read fun w hw => ?_
  have kept := writeBitWord_kept hw
  have ip : (w.setFlags (oneBitFlags v)).cpu.ip = s.cpu.ip := by
    rw [State.setFlags_cpu_ip, writeBitWord_cpu_ip hw, read.ip]
  have body : jumpOnBitAndChange v qo q rel s.begin
      = .ok ((), (w.setFlags (oneBitFlags v)).cacheJump (target (ipAfter 4 s) rel)) := by
    rw [jumpOnBitAndChange, Op.bind_of_ok hx, if_pos hv]
    exact (Op.bind_of_ok hw).trans ((Op.bind_of_ok (setFlags_apply _ w)).trans (jumpRelative_apply ip 4 rel))
  refine finishes_of_branch hi body (branchesTo_cacheJump _ _) ?_ fun _ => condFlags_oneBitFlags v _
  rw [kept.extStarted, read.marks]
  rfl

/-- JBC and JNBS where the bit is not `v` only set the flags. -/
theorem computes_jumpOnBitAndChange {b : Bool} (hi : exec i s = runInstr 4 (jumpOnBitAndChange v qo q rel) s)
    (hx : readBitWord qo s.begin = .ok (x, u)) (hb : bitOf x q.toNat = b) (hv : b ≠ v) :
    Computes i (ipAfter 4 s) s u (bitCond b) (bytesOf u) := by
  have body : jumpOnBitAndChange v qo q rel s.begin = .ok ((), u.setFlags (oneBitFlags b)) := by
    rw [jumpOnBitAndChange, Op.bind_of_ok hx, hb, if_neg hv, setFlags_apply]
  exact computes_of_quiet hi (OnlyRead.readBitWord hx) body (Quiet.refl u) (condFlags_oneBitFlags b _) fun _ => rfl

end

/-- Settles O30: JBC jumps on a bit that is 1 and JNBS on one that is 0; each only sets the flags on the other value. -/
theorem jumpsChangingBit : Obligations.JumpsChangingBit := by
  intro qo rel q s u x hx
  refine ⟨rfl, rfl, fun one => ⟨?_, ?_⟩, fun zero => ⟨?_, ?_⟩⟩
  · exact setsBitWord_jumpOnBitAndChange (v := true) rfl hx one
  · exact computes_jumpOnBitAndChange (v := false) rfl hx one (by decide)
  · exact computes_jumpOnBitAndChange (v := true) rfl hx zero (by decide)
  · exact setsBitWord_jumpOnBitAndChange (v := false) rfl hx zero

end Sys2Proof.Machine
end

section
/-! PROOFS. TRAP (O33) and RETI (O35).
Spec: 48_call_return.md rules R301 and R305, 60_exceptions.md rules R367, R368, R390. -/

namespace Sys2Proof.Machine

open Sys2Proof.Claims

/-! ## TRAP -/

/-- TRAP where the entry's pushes have led to `w`: PSW is as before, CSP is 0 with segmentation enabled. -/
theorem runs_trapTrap7_of {n : BitVec 7} {s w : State} {c : Cpu} {mem : Nat → Byte}
    (entered : takeException n.toNat (ipAfter 2 s) none s.begin = .ok ((), enterVector n.toNat none w))
    (kept : StackOnly s.begin w) (cpu : w.cpu = c) (bytes : ∀ x, bytesOf w x = mem x) :
    Runs (.trapTrap7 n) s s.begin
      { c with csp := if segmented s then 0 else c.csp, ip := BitVec.ofNat 16 (4 * n.toNat) } mem := by
  have seg : segmented w = segmented s := by
    rw [segmented, kept.prev]
    rfl
  refine runs_of (len := 2) rfl (OnlyRead.refl _) ((Op.bind_of_ok (look_apply _ _)).trans entered) kept.extStarted ?_ bytes
    (kept.outside.trans ⟨by constructor <;> rfl, rfl⟩)
  rw [← cpu, ← seg]
  rfl

/-- Settles O33: the entry's pushes are those of `takeException`, without a level. -/
theorem softwareTraps : Obligations.SoftwareTraps := by
  intro n a b c s slotA slotB
  refine ⟨fun seg slotC => ?_, fun seg => ?_⟩
  · obtain ⟨-, cpu, kept, bytes⟩ := push_slots3 (u := s.begin) s.cpu.psw s.cpu.csp (ipAfter 2 s) slotA slotB slotC
    have trap := runs_trapTrap7_of (n := n) (takeException_segmented (u := s.begin) seg slotA slotB slotC) kept cpu bytes
    rwa [if_pos seg] at trap
  · obtain ⟨-, cpu, kept, bytes⟩ := push_slots (u := s.begin) s.cpu.psw (ipAfter 2 s) slotA slotB
    have trap := runs_trapTrap7_of (n := n) (takeException_flat (u := s.begin) seg slotA slotB) kept cpu bytes
    rwa [if_neg (by simp [seg])] at trap

/-! ## RETI -/

/-- The last part of RETI: IP, CSP and PSW take their values, the class of trap routine in service ends (R390). -/
def State.leaveException (u : State) (ip csp psw : Word) : State :=
  { u.setPsw psw with
    cpu := { (u.setPsw psw).cpu with ip := ip, csp := csp }
    sys := { u.sys with inA := false, inB := u.sys.inA && u.sys.inB }
    marks := { u.marks with branched := true, farBranch := true, irqHold := u.board.oneAfterReti } }

/-- MULIP = 0 in the running PSW: the return is inside the model (U15). -/
theorem mulip_accepted {s : State} (h : bitOf s.cpu.psw 5 = false) :
    refuseIf (fun u => bitOf u.cpu.psw 5) .mulipReturned s = .ok ((), s) := by
  rw [refuseIf_apply, h, if_neg (by simp)]

/-- The third word of a return is popped at the twice moved SP. -/
theorem pop_third {s : State} {c : Nat} (slot : StackSlot s (poppedPointer (poppedPointer s.cpu.sp)) c) :
    pop { s.begin with cpu := s.cpu.pop.pop }
      = .ok (Memory.readWord s.mem c, { s.begin with cpu := s.cpu.pop.pop.pop }) :=
  pop_slot (u := { s.begin with cpu := s.cpu.pop.pop }) slot

section
variable {s : State} {a b c : Nat}

/-- The return with segmentation enabled: IP, CSP and PSW are popped. -/
theorem returnFromException_segmented (mulip : bitOf s.cpu.psw 5 = false) (seg : segmented s = true)
    (slotA : StackSlot s s.cpu.sp a) (slotB : StackSlot s (poppedPointer s.cpu.sp) b)
    (slotC : StackSlot s (poppedPointer (poppedPointer s.cpu.sp)) c) :
    returnFromException s.begin = .ok ((), { s.begin with cpu := s.cpu.pop.pop.pop }.leaveException
      (Memory.readWord s.mem a) (Memory.readWord s.mem b &&& 0x00FF) (Memory.readWord s.mem c)) := by
  have looked : segmented { s.begin with cpu := s.cpu.pop } = true := seg
  rw [returnFromException, Op.bind_of_ok (mulip_accepted (s := s.begin) mulip), Op.bind_of_ok (pop_begin slotA),
    Op.bind_of_ok (look_apply _ _), looked, if_pos rfl]
  exact (Op.bind_of_ok (pop_second slotB)).trans ((Op.bind_of_ok (pop_third slotC)).trans (update_apply _ _))

/-- The return with segmentation disabled: IP and PSW are popped. -/
theorem returnFromException_flat (mulip : bitOf s.cpu.psw 5 = false) (seg : segmented s = false)
    (slotA : StackSlot s s.cpu.sp a) (slotB : StackSlot s (poppedPointer s.cpu.sp) b) :
    returnFromException s.begin = .ok ((), { s.begin with cpu := s.cpu.pop.pop }.leaveException
      (Memory.readWord s.mem a) s.cpu.csp (Memory.readWord s.mem b)) := by
  have looked : segmented { s.begin with cpu := s.cpu.pop } = false := seg
  rw [returnFromException, Op.bind_of_ok (mulip_accepted (s := s.begin) mulip), Op.bind_of_ok (pop_begin slotA),
    Op.bind_of_ok (look_apply _ _), looked, if_neg (by simp), Op.bind_of_ok (look_apply _ _)]
  exact (Op.bind_of_ok (pop_second slotB)).trans (update_apply _ _)

end

section
variable {s : State} {r : Cpu} {ip csp psw : Word}

/-- RETI where its pops leave the registers `r`: all that the statement says of the CPU, memory and the rest. -/
theorem runsTo_reti_of (unwritten : s.marks.spWritten = false)
    (returned : returnFromException s.begin = .ok ((), { s.begin with cpu := r }.leaveException ip csp psw)) :
    RunsTo .reti s { r with ip := ip, csp := csp, psw := psw &&& 0xFC7F } s.ext.tick (bytesOf s) (afterReturn s psw) :=
  runsTo_conv (runsTo_of (runPopInstr_eq unwritten 2 returnFromException) returned rfl) rfl (fun _ => rfl)
    ⟨by constructor <;> rfl, rfl⟩

/-- Whether a request waits after RETI is the board's parameter (log entry 65). -/
theorem irqHold_reti_of (unwritten : s.marks.spWritten = false)
    (returned : returnFromException s.begin = .ok ((), { s.begin with cpu := r }.leaveException ip csp psw)) :
    ∃ t, exec .reti s = .next t ∧ t.marks.irqHold = s.board.oneAfterReti :=
  ⟨_, runPopInstr_of_ok unwritten returned, rfl⟩

end

/-- Settles O35: the words are popped in order, CSP only with segmentation enabled; then comes `leaveException`. -/
theorem interruptReturns : Obligations.InterruptReturns := by
  intro a b c s unwritten mulip slotA slotB
  refine ⟨fun seg slotC => ?_, fun seg => ?_, fun slotC => ?_⟩
  · exact runsTo_reti_of unwritten (returnFromException_segmented mulip seg slotA slotB slotC)
  · exact runsTo_reti_of unwritten (returnFromException_flat mulip seg slotA slotB)
  · cases seg : segmented s with
    | true => exact irqHold_reti_of unwritten (returnFromException_segmented mulip seg slotA slotB (slotC seg))
    | false => exact irqHold_reti_of unwritten (returnFromException_flat mulip seg slotA slotB)

end Sys2Proof.Machine
end

section
/-! PROOFS. NOP, IDLE, PWRDN, SRVWDT, DISWDT and EINIT (O36).
Spec: 49_system_misc.md rules R317 to R322, 63_timers.md rule R584, decision D27. -/

namespace Sys2Proof.Machine

open Sys2Proof.Claims

/-! ## The bodies -/

section
variable (s : State)

theorem exec_nop : exec .nop s = runInstr 2 (pure ()) s := rfl

theorem exec_idle :
    exec .idle s = runInstr 4 (update fun t => { t with sys := { t.sys with power := .idle } }) s := rfl

theorem exec_pwrdn : exec .pwrdn s = runInstr 4 (update fun t =>
    if t.pins.nmi then t else { t with sys := { t.sys with power := .powerDown } }) s := rfl

theorem exec_srvwdt :
    exec .srvwdt s = runInstr 4 (update fun t => { t with wdt := serviceWatchdog t.wdt }) s := rfl

theorem exec_diswdt : exec .diswdt s = runInstr 4 (update fun t =>
    if t.wdt.disLocked then t else { t with wdt := { t.wdt with disabled := true, psc := none } }) s := rfl

theorem exec_einit : exec .einit s = runInstr 4 (update fun t =>
    { t with sys := { t.sys with einitDone := true }, wdt := { t.wdt with disLocked := true } }) s := rfl

end

/-- The service of the watchdog as the rule writes it: WDTR is bit 1 of WDTCON, the prescaler's phase is forgotten (D27). -/
theorem serviceWatchdog_eq (w : Wdt) : serviceWatchdog w =
    { w with wdt := w.wdtcon &&& 0xFF00, wdtcon := w.wdtcon &&& 0xFFFD, psc := none, disLocked := true } := rfl

/-! ## From the body to the instruction -/

section
variable {s : State}

/-- A control instruction whose body turns the state at its beginning into `w`, where the CPU's registers and memory are
those of `s`. -/
theorem controls_of {i : Instr} {f : State → State} {w : State} (hi : exec i s = runInstr 4 (update f) s)
    (body : f s.begin = w.begin) (cpu : w.cpu = s.cpu) (mem : w.mem = s.mem) : Controls i s w := by
  have ends : update f s.begin = .ok ((), w.begin) := by rw [update_apply, body]
  refine runsTo_conv (runsTo_of hi ends rfl) ?_ (fun x => ?_) ⟨by constructor <;> rfl, rfl⟩
  · rw [← cpu]
    rfl
  · rw [bytesOf, bytesOf, ← mem]
    rfl

/-- With NMI high PWRDN does not enter Power Down (R318). -/
theorem controls_pwrdn_of_high (nmi : s.pins.nmi = true) : Controls .pwrdn s s :=
  controls_of (exec_pwrdn s) (if_pos nmi) rfl rfl

/-- With NMI low PWRDN enters Power Down (R318). -/
theorem controls_pwrdn_of_low (nmi : s.pins.nmi = false) :
    Controls .pwrdn s { s with sys := { s.sys with power := .powerDown } } :=
  controls_of (exec_pwrdn s) (if_neg (Bool.eq_false_iff.mp nmi)) rfl rfl

/-- SRVWDT services the watchdog, disabled or not (R319). -/
theorem controls_srvwdt : Controls .srvwdt s { s with wdt := serviceWatchdog s.wdt } :=
  controls_of (exec_srvwdt s) rfl rfl rfl

/-- After EINIT or SRVWDT the watchdog cannot be disabled any more (R320). -/
theorem controls_diswdt_of_locked (locked : s.wdt.disLocked = true) : Controls .diswdt s s :=
  controls_of (exec_diswdt s) (if_pos locked) rfl rfl

/-- DISWDT before EINIT and SRVWDT disables the watchdog (R320). -/
theorem controls_diswdt_of_unlocked (unlocked : s.wdt.disLocked = false) :
    Controls .diswdt s { s with wdt := { s.wdt with disabled := true, psc := none } } :=
  controls_of (exec_diswdt s) (if_neg (Bool.eq_false_iff.mp unlocked)) rfl rfl

end

/-- Settles O36: PWRDN looks at NMI and DISWDT at its lock, so each has two cases; every other body is its effect. -/
theorem systemControl : Obligations.SystemControl := by
  intro s
  have srvwdt := controls_srvwdt (s := s)
  rw [serviceWatchdog_eq] at srvwdt
  refine ⟨runs_of_nothing (exec_nop s) (Op.pure_apply () s.begin), ?idle, controls_pwrdn_of_high, controls_pwrdn_of_low,
    srvwdt, controls_diswdt_of_locked, controls_diswdt_of_unlocked, ?einit⟩
  case idle => exact controls_of (exec_idle s) rfl rfl rfl
  case einit => exact controls_of (exec_einit s) rfl rfl rfl

end Sys2Proof.Machine
end

section
/-! PROOFS. What the hardware does at a boundary before the next instruction: hardware traps (O52), interrupt entries (O53),
requests held off (O54). Spec: 60_exceptions.md rules R347 to R372, R380, R390, decisions D21 to D24 and D31. -/

namespace Sys2Proof.Machine

open Sys2Proof.Claims

section
variable {s : State}

/-! ## The boundary -/

theorem step_boundary (boundary : AtBoundary s) : step s = lapse (cpuStep s) := by
  obtain ⟨agenda, clocks, -⟩ := boundary
  rw [step_of_agenda_empty agenda, chipStep_of_clocks_zero clocks]

/-- What the hardware does of its own at a boundary is all that the CPU's step does. -/
theorem cpuStep_of_boundaryAction {o : Host.Outcome State Fault Refusal} (boundary : AtBoundary s)
    (action : boundaryAction s = some o) : cpuStep s = o := by
  obtain ⟨-, -, stall, power, -⟩ := boundary
  rw [cpuStep, stall]
  simp only [power, runningStep, action]

theorem boundaryAction_of_classA (boundary : AtBoundary s) (takeable : classATakeable s = true) :
    boundaryAction s = some (enterClassA s) := by
  obtain ⟨-, -, -, -, hold⟩ := boundary
  rw [boundaryAction, hold]
  exact if_pos takeable

theorem boundaryAction_of_classB (boundary : AtBoundary s) (noA : classATakeable s = false)
    (takeable : classBTakeable s = true) : boundaryAction s = some (enterClassB s) := by
  obtain ⟨-, -, -, -, hold⟩ := boundary
  rw [boundaryAction, hold]
  simp only [noA, takeable]
  rfl

theorem boundaryAction_of_request {w : IrqNode} (boundary : AtBoundary s) (noTrap : NoTrap s)
    (accepted : acceptedRequest s = some w) : boundaryAction s = some (serve w s) := by
  obtain ⟨-, -, -, -, hold⟩ := boundary
  obtain ⟨noA, noB⟩ := noTrap
  rw [boundaryAction, hold]
  simp only [noA, noB, accepted]
  rfl

theorem wake_of_running (power : s.sys.power = .running) : s.wake = s := by
  rw [State.wake, ← power]

/-! ## Entries -/

/-- The level takes the upper four bits of PSW. -/
theorem entryPsw_some (psw : Word) (level : Nat) :
    entryPsw psw (some level) = (psw &&& 0x0FFF) ||| BitVec.ofNat 16 (level * 0x1000) := by
  have inField : BitVec.ofNat 16 (level * 0x1000) &&& 0xF000 = BitVec.ofNat 16 (level * 0x1000) := by
    apply BitVec.eq_of_getLsbD_eq
    intro i hi
    have high : (0xF000 : Word).getLsbD i = decide (12 ≤ i) := by revert i; decide
    rw [BitVec.getLsbD_and, high, BitVec.getLsbD_ofNat, show (0x1000 : Nat) = 2 ^ 12 from rfl, Nat.testBit_mul_two_pow]
    cases decide (12 ≤ i) <;> simp
  rw [entryPsw, merge, inField]
  rfl

/-- An entry whose pushes have led to `p`, with the registers `c` and the bytes `mem` there, and which ends in `q`. -/
theorem runEntry_of_pushed {isInterrupt : Bool} {body : Op Unit} {p q w : State} {trap level : Nat} {c : Cpu}
    {mem : Nat → Byte} {seg : Bool} (cpu : p.cpu = c) (segm : segmented p = seg) (bytes : ∀ x, bytesOf p x = mem x)
    (ran : body s.settle = .ok ((), q)) (qcpu : q.cpu = (enterVector trap (some level) p).cpu) (qmem : q.mem = p.mem)
    (ext : q.ext = w.ext) (outside : SameOutside w q) :
    ∃ t, runEntry isInterrupt body s = .next t ∧ t.ext = w.ext ∧ SameOutside w t
      ∧ t.cpu = { c with
          csp := if seg then 0 else c.csp, ip := BitVec.ofNat 16 (4 * trap)
          psw := (c.psw &&& 0x0FFF) ||| BitVec.ofNat 16 (level * 0x1000) }
      ∧ ∀ x, bytesOf t x = mem x := by
  have entered : runEntry isInterrupt body s = .next { q with
      marks := { Marks.clear with stackDelay := s.marks.stackDelay }, hz := entryHazards isInterrupt s.settle q } := by
    rw [runEntry, ran]
  refine ⟨_, entered, ext, outside.trans ⟨by constructor <;> rfl, rfl⟩, qcpu.trans ?_, fun x => ?_⟩
  · rw [enterVector, entryPsw_some, cpu, segm]
  · rw [← bytes x]
    exact congrArg (Memory.read · x) qmem

/-- `u` is `s` as an entry begins in it: the pending register updates have ended; the extension sequence may have, too. -/
structure BeginsEntry (s u : State) : Prop where
  cpu : u.cpu = s.cpu
  prev : u.prev = s.snapshot
  mem : u.mem = s.mem
  outside : SameOutside s u

theorem beginsEntry_settle (s : State) (e : Ext) : BeginsEntry s { s.settle with ext := e } :=
  ⟨rfl, rfl, rfl, ⟨by constructor <;> rfl, rfl⟩⟩

theorem BeginsEntry.slot {u : State} {sp : Word} {a : Nat} (h : BeginsEntry s u) (slot : StackSlot (settled s) sp a) :
    StackSlot u sp a := slot.congr h.prev h.outside.1.board

theorem BeginsEntry.segmented {u : State} (h : BeginsEntry s u) : segmented u = !bitOf u.cpu.syscon 11 := by
  rw [Machine.segmented, h.prev, h.cpu]
  rfl

/-- An entry is `takeException` in `u`, and then `f`, which concerns neither the CPU nor memory. -/
theorem enters_of {isInterrupt : Bool} {body : Op Unit} {f : State → State} {u w : State} {trap level : Nat}
    {resume : Word} (begins : BeginsEntry s u)
    (ran : ∀ t, takeException trap resume (some level) u = .ok ((), t) → body s.settle = .ok ((), f t))
    (after : ∀ t, SameOutside s t → t.ext = u.ext →
      (f t).cpu = t.cpu ∧ (f t).mem = t.mem ∧ (f t).ext = w.ext ∧ SameOutside w (f t)) :
    Enters (runEntry isInterrupt body s) s w resume level (BitVec.ofNat 16 (4 * trap)) := by
  have vectored {p : State} (kept : StackOnly u p) : SameOutside s (enterVector trap (some level) p) :=
    begins.outside.trans (kept.outside.trans ⟨by constructor <;> rfl, rfl⟩)
  have bytesU : bytesOf s = bytesOf u := congrArg Memory.read begins.mem.symm
  unfold Enters
  rw [← begins.cpu, bytesU]
  refine ⟨fun seg a b c slotA slotB slotC => ?_, fun seg a b slotA slotB => ?_⟩
  · replace seg : segmented u = true := by rw [begins.segmented, seg]; rfl
    replace slotA := begins.slot slotA
    replace slotB := begins.slot slotB
    replace slotC := begins.slot slotC
    obtain ⟨-, cpu, kept, bytes⟩ := push_slots3 u.cpu.psw u.cpu.csp resume slotA slotB slotC
    obtain ⟨qcpu, qmem, ext, outside⟩ := after _ (vectored kept) kept.ext
    have segm : segmented (((u.pushed u.cpu.psw).pushed u.cpu.csp).pushed resume) = true := by
      rw [segmented, kept.prev]
      exact seg
    exact runEntry_of_pushed cpu segm bytes (ran _ (takeException_segmented seg slotA slotB slotC)) qcpu qmem ext outside
  · replace seg : segmented u = false := by rw [begins.segmented, seg]; rfl
    replace slotA := begins.slot slotA
    replace slotB := begins.slot slotB
    obtain ⟨-, cpu, kept, bytes⟩ := push_slots u.cpu.psw resume slotA slotB
    obtain ⟨qcpu, qmem, ext, outside⟩ := after _ (vectored kept) kept.ext
    have segm : segmented ((u.pushed u.cpu.psw).pushed resume) = false := by
      rw [segmented, kept.prev]
      exact seg
    exact runEntry_of_pushed cpu segm bytes (ran _ (takeException_flat seg slotA slotB)) qcpu qmem ext outside

/-! ## Hardware traps -/

/-- The three class A flags are TFR's upper bits. -/
theorem classARequest_of_flags {tfr : Word} (flags : tfr &&& 0xE000 ≠ 0) : classARequest tfr = true := by
  by_contra none
  obtain ⟨⟨nmi, stkof⟩, stkuf⟩ : (bitOf tfr 15 = false ∧ bitOf tfr 14 = false) ∧ bitOf tfr 13 = false := by
    simpa [classARequest] using none
  refine flags (BitVec.eq_of_getLsbD_eq fun i hi => ?_)
  have zero : (0 : Word).getLsbD i = false := BitVec.getLsbD_zero
  rw [BitVec.getLsbD_and, zero, Bool.and_eq_false_iff]
  rcases (by omega : i < 13 ∨ i = 13 ∨ i = 14 ∨ i = 15) with low | rfl | rfl | rfl
  · exact .inr (by revert i; decide)
  · exact .inl stkuf
  · exact .inl stkof
  · exact .inl nmi

theorem classATrap_vector (tfr : Word) : BitVec.ofNat 16 (4 * classATrap tfr)
    = if bitOf tfr 15 then 0x0008 else if bitOf tfr 14 then 0x0010 else 0x0018 := by
  rw [classATrap]
  split
  · rfl
  · split <;> rfl

theorem enters_classA (power : s.sys.power = .running) :
    Enters (enterClassA s) s { s with sys := { s.sys with inA := true } } s.cpu.ip 15
      (BitVec.ofNat 16 (4 * classATrap s.cpu.tfr)) := by
  rw [enterClassA, wake_of_running power]
  refine enters_of (beginsEntry_settle s s.ext) (f := fun t => { t with sys := { t.sys with inA := true } })
    (fun t entered => Op.bind_of_ok entered) fun t outside ext => ⟨rfl, rfl, ext, ?_⟩
  obtain ⟨chip, ebc⟩ := outside
  exact ⟨{ chip with sys := by rw [chip.sys] }, ebc⟩

theorem enters_classB (power : s.sys.power = .running) :
    Enters (enterClassB s) s { s with sys := { s.sys with inB := true }, ext := Ext.idle } s.cpu.ip 15 0x0028 := by
  rw [enterClassB, wake_of_running power]
  refine enters_of (beginsEntry_settle s Ext.idle) (f := fun t => { t with sys := { t.sys with inB := true } })
    (trap := 0x0A) (fun t entered => (Op.bind_of_ok (update_apply _ _)).trans (Op.bind_of_ok entered))
    fun t outside ext => ⟨rfl, rfl, ext, ?_⟩
  obtain ⟨chip, ebc⟩ := outside
  exact ⟨{ chip with sys := by rw [chip.sys] }, ebc⟩

end

/-- Settles O52: a class that can be taken is the boundary's action, and its entry is `takeException` with level 15. -/
theorem hardwareTraps : Obligations.HardwareTraps := by
  intro s boundary
  obtain ⟨-, -, -, power, -⟩ := id boundary
  refine ⟨step_boundary boundary, fun flags notA count delay => ?_, fun noA flags notA notB => ?_⟩
  · have takeable : classATakeable s = true := by simp [classATakeable, classARequest_of_flags flags, notA, count, delay]
    rw [cpuStep_of_boundaryAction boundary (boundaryAction_of_classA boundary takeable), ← classATrap_vector]
    exact enters_classA power
  · have takeable : classBTakeable s = true := by
      rw [classBTakeable, classBRequest, decide_eq_true flags, notA, notB]
      rfl
    rw [cpuStep_of_boundaryAction boundary (boundaryAction_of_classB boundary noA takeable)]
    exact enters_classB power

/-! ## The round of requests -/

section
variable {s : State} {w : IrqNode}

theorem mem_allNodes (n : IrqNode) : n ∈ allNodes := by cases n <;> decide

/-- The round keeps what it begins with or takes a node of its list. -/
theorem mem_of_foldl_betterNode {l : List IrqNode} {best : Option IrqNode} {n : IrqNode}
    (h : l.foldl (betterNode s) best = some n) : best = some n ∨ n ∈ l := by
  induction l generalizing best with
  | nil => exact .inl h
  | cons a l ih =>
    rcases ih h with better | later
    · cases best with
      | none => exact .inr (by simp_all [betterNode])
      | some b =>
        rw [betterNode] at better
        split at better
        · exact .inr (by simp_all)
        · exact .inl better
    · exact .inr (List.mem_cons_of_mem a later)

/-- A node above every other one wins the round. -/
theorem foldl_betterNode_of_highest {l : List IrqNode} {best : Option IrqNode} (here : w ∈ l ∨ best = some w)
    (above : ∀ n, n ∈ l ∨ best = some n → n ≠ w → nodePriority s n < nodePriority s w) :
    l.foldl (betterNode s) best = some w := by
  induction l generalizing best with
  | nil => simpa using here
  | cons a l ih =>
    have highest : a = w ∨ best = some w → betterNode s best a = some w := by
      rintro (rfl | rfl)
      · cases best with
        | none => rfl
        | some b =>
          by_cases same : b = a
          · rw [betterNode, same, ite_self]
          · exact if_pos (above b (.inr rfl) same)
      · by_cases same : a = w
        · rw [same, betterNode, ite_self]
        · exact if_neg (Nat.not_lt_of_gt (above a (.inl (List.mem_cons_self ..)) same))
    refine ih ?_ fun n hn other => ?_
    · rcases here with member | first
      · rcases List.mem_cons.1 member with rfl | later
        · exact .inr (highest (.inl rfl))
        · exact .inl later
      · exact .inr (highest (.inr first))
    · refine above n ?_ other
      rcases hn with later | better
      · exact .inl (List.mem_cons_of_mem a later)
      · rcases mem_of_foldl_betterNode (l := [a]) better with first | member
        · exact .inr first
        · exact .inl (List.mem_cons.2 (.inl (List.mem_singleton.1 member)))

theorem isCandidate_of_winner (h : winner s = some w) : isCandidate s w = true := by
  rcases mem_of_foldl_betterNode h with first | member
  · cases first
  · exact (List.mem_filter.1 member).2

theorem winner_of_wins (wins : Wins s w) : winner s = some w := by
  obtain ⟨candidate, above, -⟩ := wins
  refine foldl_betterNode_of_highest (.inl (List.mem_filter.2 ⟨mem_allNodes w, candidate⟩)) fun n hn other => ?_
  rcases hn with member | first
  · exact above n (List.mem_filter.1 member).2 other
  · cases first

theorem acceptedRequest_of_serviced (wins : Wins s w) (serviced : Serviced s w) : acceptedRequest s = some w := by
  obtain ⟨count, hold, enabled, above⟩ := serviced
  have serviceable : isServiceable s w = true := by simp [isServiceable, enabled, above]
  rw [acceptedRequest, count, hold, winner_of_wins wins]
  exact if_pos serviceable

/-- No request is accepted where none may be, or none is above the CPU. -/
theorem acceptedRequest_none_of_held (held : bitOf (arbitrationPsw s) 11 = false ∨ 0 < s.ext.count
      ∨ s.marks.irqHold = true ∨ ∀ n, isCandidate s n = true → icLevel (s.icOf n) ≤ fieldNat (arbitrationPsw s) 12 4) :
    acceptedRequest s = none := by
  have unserviceable (h : ∀ n, winner s = some n → isServiceable s n = false) : acceptedRequest s = none := by
    rw [acceptedRequest]
    split
    · rfl
    · split
      · next n won => rw [h n won]; rfl
      · rfl
  rcases held with disabled | count | hold | low
  · exact unserviceable fun n _ => by simp [isServiceable, disabled]
  · rw [acceptedRequest, if_pos (by simp [Nat.ne_of_gt count])]
  · rw [acceptedRequest, if_pos (by simp [hold])]
  · exact unserviceable fun n won => by simp [isServiceable, low n (isCandidate_of_winner won)]

theorem cpuStep_of_serviced (boundary : AtBoundary s) (noTrap : NoTrap s) (wins : Wins s w) (serviced : Serviced s w) :
    cpuStep s = if isPecRequest s w then runPec w s else enterInterrupt w s := by
  rw [cpuStep_of_boundaryAction boundary
    (boundaryAction_of_request boundary noTrap (acceptedRequest_of_serviced wins serviced)), serve]
  obtain ⟨-, -, unshared⟩ := wins
  rw [unshared]
  rfl

theorem clearRequest_outside {t : State} (h : SameOutside s t) : SameOutside (s.clearRequest w) (t.clearRequest w) := by
  obtain ⟨chip, ebc⟩ := h
  refine ⟨{ chip with ic := ?_ }, ebc⟩
  rw [State.clearRequest, State.clearRequest, State.setIc, State.setIc, State.icOf, State.icOf, chip.ic]

theorem enters_interrupt (power : s.sys.power = .running) :
    Enters (enterInterrupt w s) s (s.clearRequest w) s.cpu.ip (icLevel (s.icOf w)) (BitVec.ofNat 16 (4 * nodeTrap w)) := by
  rw [enterInterrupt, wake_of_running power]
  exact enters_of (beginsEntry_settle s s.ext) (f := (State.clearRequest · w))
    (fun t entered => Op.bind_of_ok entered) fun t outside ext => ⟨rfl, rfl, ext, clearRequest_outside outside⟩

end

/-- Settles O53: the winner is accepted, and the PEC does not serve it. -/
theorem interruptEntries : Obligations.InterruptEntries := by
  intro s w boundary noTrap wins serviced noPec
  obtain ⟨-, -, -, power, -⟩ := id boundary
  refine ⟨step_boundary boundary, ?_⟩
  rw [cpuStep_of_serviced boundary noTrap wins serviced, noPec, if_neg (by simp)]
  exact enters_interrupt power

/-- Settles O54: with no request accepted the hardware does nothing of its own. -/
theorem requestsHeldOff : Obligations.RequestsHeldOff :=
  fun _ boundary noTrap held => step_instruction boundary noTrap (acceptedRequest_none_of_held held)

end Sys2Proof.Machine
end

section
/-! PROOFS. One PEC transfer inside the IRAM (O55). Spec: 60_exceptions.md rules R348, R358 to R362, decisions D24, D25, D31. -/

namespace Sys2Proof.Machine

open Sys2Proof.Claims

/-! ## Pointers into the IRAM -/

section
variable {s : State} {p src dst : Word}

theorem toNat_segment0 (p : Word) : (segment0 p).toNat = p.toNat :=
  BitVec.toNat_setWidth_of_le (by decide)

theorem inIram_bounds {d : Device} (h : inIram d p.toNat 1 = true) :
    iramBase d ≤ p.toNat ∧ 0xF600 ≤ p.toNat ∧ p.toNat < 0xFE00 := by
  obtain ⟨base, top⟩ : iramBase d ≤ p.toNat ∧ p.toNat + 1 ≤ 0xFE00 := by simpa [inIram] using h
  have lowest : 0xF600 ≤ iramBase d := by cases d <;> decide
  exact ⟨base, by omega, by omega⟩

theorem areaOf_segment0 (h : inIram s.board.device p.toNat 1 = true) (syscon : Word) :
    areaOf s syscon (segment0 p) = .iram := by
  obtain ⟨base, lowest, top⟩ := inIram_bounds h
  unfold areaOf
  rw [toNat_segment0, if_pos (by omega), if_neg (by omega), if_pos base]

/-- The IRAM is no part of a ROM area that can be remapped. -/
theorem inRemapped_segment0 (h : inIram s.board.device p.toNat 1 = true) (r : RemapSet) :
    inRemapped s r (segment0 p) = false := by
  obtain ⟨-, lowest, top⟩ := inIram_bounds h
  have not0 : ¬ p.toNat < 0x8000 := by omega
  have not1 : ¬ 0x10000 ≤ p.toNat := by omega
  have not2 : ¬ 0x18000 ≤ p.toNat := by omega
  simp [inRemapped, toNat_segment0, not0, not1, not2]

/-! ## The transfer -/

theorem readPhysByte_iram (h : inIram s.board.device p.toNat 1 = true) :
    readPhysByte (segment0 p) s = .ok (bytesOf s p.toNat, s) := by
  rw [readPhysByte, Op.bind_of_ok (look_apply _ _), areaOf_segment0 h, ← toNat_segment0 p]
  rfl

theorem readPhysWord_iram (h : inIram s.board.device p.toNat 1 = true) :
    readPhysWord (segment0 p) s = .ok (Memory.readWord s.mem p.toNat, s) := by
  rw [readPhysWord, Op.bind_of_ok (look_apply _ _), areaOf_segment0 h, ← toNat_segment0 p]
  rfl

theorem writePhysByte_iram (h : inIram s.board.device p.toNat 1 = true) (v : Byte) :
    writePhysByte (segment0 p) v s = .ok ((), s.storeByte p.toNat v) := by
  rw [writePhysByte, Op.bind_of_ok (look_apply _ _), areaOf_segment0 h, ← toNat_segment0 p]
  rfl

theorem writePhysWord_iram (h : inIram s.board.device p.toNat 1 = true) (v : Word) :
    writePhysWord (segment0 p) v s = .ok ((), s.storeWord p.toNat v) := by
  rw [writePhysWord, Op.bind_of_ok (look_apply _ _), areaOf_segment0 h, ← toNat_segment0 p]
  rfl

theorem bytes_storeByte (u : State) (a : Nat) (v : Byte) (x : Nat) :
    bytesOf (u.storeByte a v) x = patchByte (bytesOf u) a v x := by
  rw [bytesOf, State.storeByte_mem, Memory.read_write]
  rfl

theorem quiet_storeByte (u : State) (a : Nat) (v : Byte) : Quiet u (u.storeByte a v) :=
  ⟨rfl, ⟨by constructor <;> rfl, rfl⟩, rfl, rfl, rfl, rfl, rfl, rfl⟩

/-- The datum moves, and nothing else does. -/
theorem pecMove_iram {c : Word} (hsrc : inIram s.board.device src.toNat 1 = true)
    (hdst : inIram s.board.device dst.toNat 1 = true) (even : bitOf c 8 = false → isOdd src = false ∧ isOdd dst = false) :
    ∃ t, pecMove (bitOf c 8) src dst s = .ok ((), t) ∧ Quiet s t ∧ bytesOf t = pecMoved s c src dst := by
  have usable : refuseIf (fun s => inRemapped s s.hz.dataRemap (segment0 src) || inRemapped s s.hz.dataRemap (segment0 dst))
      .romRemapped s = .ok ((), s) := by
    rw [refuseIf_apply, inRemapped_segment0 hsrc, inRemapped_segment0 hdst]
    rfl
  unfold pecMove pecMoved
  rw [Op.bind_of_ok usable]
  cases size : bitOf c 8 with
  | true =>
    refine ⟨_, ?_, quiet_storeByte s dst.toNat (bytesOf s src.toNat), funext (bytes_storeByte _ _ _)⟩
    rw [if_pos rfl, Op.bind_of_ok (readPhysByte_iram hsrc), writePhysByte_iram hdst]
  | false =>
    obtain ⟨evenSrc, evenDst⟩ := even size
    refine ⟨_, ?_, quiet_storeWord s dst.toNat (Memory.readWord s.mem src.toNat), funext (bytes_storeWord _ _ _)⟩
    rw [if_neg (by simp), evenSrc, evenDst, if_neg (by simp), Op.bind_of_ok (readPhysWord_iram hsrc),
      writePhysWord_iram hdst]

end

/-! ## COUNT -/

section
variable {c : Word}

/-- COUNT as a number and as the bits of PECCx. -/
theorem and_low_eq_iff {k : Nat} (hk : k < 0x100) : c &&& 0x00FF = BitVec.ofNat 16 k ↔ fieldNat c 0 8 = k := by
  have count : (c &&& 0x00FF).toNat = fieldNat c 0 8 := Nat.and_two_pow_sub_one_eq_mod c.toNat 8
  rw [← BitVec.toNat_inj, count, BitVec.toNat_ofNat, Nat.mod_eq_of_lt (by omega)]

/-- COUNT goes down by 1 inside its eight bits. -/
theorem merge_count (h : fieldNat c 0 8 ≠ 0) : merge 0x00FF c (BitVec.ofNat 16 (fieldNat c 0 8 - 1)) = c - 1 := by
  have bound : fieldNat c 0 8 < 0x100 := Nat.mod_lt _ (by decide)
  have count : c &&& 0x00FF = BitVec.ofNat 16 (fieldNat c 0 8) := (and_low_eq_iff bound).2 rfl
  have less : BitVec.ofNat 16 (fieldNat c 0 8 - 1) &&& 0x00FF = BitVec.ofNat 16 (fieldNat c 0 8) - 1 := by
    apply BitVec.eq_of_toNat_eq
    generalize fieldNat c 0 8 = k at h bound
    have low : (BitVec.ofNat 16 (k - 1) &&& 0x00FF).toNat = (k - 1) % 2 ^ 16 % 2 ^ 8 :=
      Nat.and_two_pow_sub_one_eq_mod _ 8
    rw [low, BitVec.toNat_sub, BitVec.toNat_ofNat, show (1 : Word).toNat = 1 from rfl]
    omega
  have apart (v : Word) : (c &&& ~~~0x00FF) &&& (v &&& 0x00FF) = 0 := by
    apply BitVec.eq_of_getLsbD_eq
    intro i hi
    simp only [BitVec.getLsbD_and, BitVec.getLsbD_not]
    cases (0x00FF : Word).getLsbD i <;> simp
  have whole : c = (c &&& ~~~0x00FF) + (c &&& 0x00FF) := by
    rw [BitVec.add_eq_or_of_and_eq_zero _ _ (apart c)]
    apply BitVec.eq_of_getLsbD_eq
    intro i hi
    simp only [BitVec.getLsbD_or, BitVec.getLsbD_and, BitVec.getLsbD_not]
    cases (0x00FF : Word).getLsbD i <;> simp [hi]
  calc merge 0x00FF c (BitVec.ofNat 16 (fieldNat c 0 8 - 1))
    _ = (c &&& ~~~0x00FF) + (BitVec.ofNat 16 (fieldNat c 0 8) - 1) := by
      rw [merge, ← BitVec.add_eq_or_of_and_eq_zero _ _ (apart _), less]
    _ = (c &&& ~~~0x00FF) + (c &&& 0x00FF) - 1 := by
      rw [count, BitVec.sub_eq_add_neg, BitVec.sub_eq_add_neg, BitVec.add_assoc]
    _ = c - 1 := by rw [← whole]

end

/-! ## The service -/

section
variable {s t : State} {x : Fin 8} {w : IrqNode} {c src dst : Word}

theorem pecPointer_second (x : Fin 8) : pecPointer x + 2 = 0xFCE2 + 4 * x.val := by rw [pecPointer]; omega

/-- The pointer that INC selects has gone up by the size of the datum (R362). -/
def State.pecStepped (t : State) (x : Fin 8) (c src dst : Word) : State :=
  if fieldNat c 9 2 = 1 then t.storeWord (pecPointer x + 2) (dst + if bitOf c 8 then 1 else 2)
  else if fieldNat c 9 2 = 0 then t
  else t.storeWord (pecPointer x) (src + if bitOf c 8 then 1 else 2)

theorem quiet_pecStepped : Quiet t (t.pecStepped x c src dst) := by
  unfold State.pecStepped
  split
  · exact quiet_storeWord _ _ _
  · split
    · exact Quiet.refl t
    · exact quiet_storeWord _ _ _

theorem bytes_pecStepped (moved : bytesOf t = pecMoved s c src dst) :
    bytesOf (t.pecStepped x c src dst) = pecBytes s x c src dst := by
  have second := pecPointer_second x
  funext y
  unfold State.pecStepped pecBytes
  by_cases stays : fieldNat c 9 2 = 0
  · rw [if_neg (by omega), if_pos stays, if_pos stays, moved]
  · by_cases one : fieldNat c 9 2 = 1
    · rw [if_pos one, if_neg stays, if_pos one, bytes_storeWord, moved, second]
    · rw [if_neg one, if_neg stays, if_neg stays, if_neg one, bytes_storeWord, moved, pecPointer]

/-- COUNT and the request flag, as the service leaves them. -/
theorem pecCounted_eq (hc : t.pecc[x] = c) (count : fieldNat c 0 8 ≠ 0) :
    (let u := if fieldNat c 0 8 = 0xFF then t
        else { t with pecc := t.pecc.set x (merge 0x00FF t.pecc[x] (BitVec.ofNat 16 (fieldNat c 0 8 - 1))) }
      if fieldNat c 0 8 = 1 then u else u.clearRequest w) = pecCounted t x c w := by
  rw [hc, merge_count count]
  have full : c &&& 0x00FF = 0x00FF ↔ fieldNat c 0 8 = 0xFF := and_low_eq_iff (by decide)
  have one : c &&& 0x00FF = 1 ↔ fieldNat c 0 8 = 1 := and_low_eq_iff (by decide)
  simp only [pecCounted, full, one]

theorem pecService_ok (hc : s.pecc[x] = c) (count : fieldNat c 0 8 ≠ 0) (hsrc : Memory.readWord s.mem (pecPointer x) = src)
    (hdst : Memory.readWord s.mem (pecPointer x + 2) = dst) (moved : pecMove (bitOf c 8) src dst s = .ok ((), t))
    (kept : Quiet s t) : pecService x w s = .ok ((), pecCounted (t.pecStepped x c src dst) x c w) := by
  have pecc : (t.pecStepped x c src dst).pecc[x] = c := by
    rw [quiet_pecStepped.outside.1.pecc, kept.outside.1.pecc, hc]
  rw [← pecCounted_eq pecc count, State.pecStepped]
  rw [pecService, Op.bind_of_ok (look_apply _ _), Op.bind_of_ok (look_apply _ _), Op.bind_of_ok (look_apply _ _), hc, hsrc,
    hdst, Op.bind_of_ok moved]
  dsimp only
  split
  · rfl
  · split <;> rfl

theorem pecCounted_kept : (pecCounted t x c w).cpu = t.cpu ∧ (pecCounted t x c w).ext = t.ext
    ∧ (pecCounted t x c w).mem = t.mem := by
  unfold pecCounted
  dsimp only
  split <;> split <;> exact ⟨rfl, rfl, rfl⟩

/-- Counting concerns PECCx and the request flag only. -/
theorem pecCounted_outside (h : SameOutside s t) : SameOutside (pecCounted s x c w) (pecCounted t x c w) := by
  have counted : SameOutside { s with pecc := s.pecc.set x (c - 1) } { t with pecc := t.pecc.set x (c - 1) } := by
    obtain ⟨chip, ebc⟩ := h
    exact ⟨{ chip with pecc := by rw [chip.pecc] }, ebc⟩
  unfold pecCounted
  dsimp only
  split <;> split
  · exact h
  · exact counted
  · exact clearRequest_outside h
  · exact clearRequest_outside counted

/-- The service between two pointers into the IRAM: the datum moves, the pointer steps, COUNT goes down. -/
theorem pecService_iram (hc : s.pecc[x] = c) (count : fieldNat c 0 8 ≠ 0) (hsrc : Memory.readWord s.mem (pecPointer x) = src)
    (hdst : Memory.readWord s.mem (pecPointer x + 2) = dst) (iramSrc : inIram s.board.device src.toNat 1 = true)
    (iramDst : inIram s.board.device dst.toNat 1 = true)
    (even : bitOf c 8 = false → isOdd src = false ∧ isOdd dst = false) :
    ∃ v, pecService x w s = .ok ((), v) ∧ v.cpu = s.cpu ∧ v.ext = s.ext ∧ bytesOf v = pecBytes s x c src dst
      ∧ SameOutside (pecCounted s x c w) v := by
  obtain ⟨t, moved, kept, bytes⟩ := pecMove_iram iramSrc iramDst even
  have stepped := kept.trans (quiet_pecStepped (x := x) (c := c) (src := src) (dst := dst))
  obtain ⟨cpu, ext, mem⟩ := pecCounted_kept (t := t.pecStepped x c src dst) (x := x) (c := c) (w := w)
  refine ⟨_, pecService_ok hc count hsrc hdst moved kept, cpu.trans stepped.cpu, ext.trans stepped.ext, ?_,
    pecCounted_outside stepped.outside⟩
  rw [← bytes_pecStepped bytes]
  exact congrArg Memory.read mem

theorem runPec_of_ok (channel : pecChannel (s.icOf w) = x) (h : pecService x w s.settle = .ok ((), t)) :
    runPec w s = .next { t with
      marks := { s.marks.kept with timerWrite := t.marks.timerWrite }, hz := pecHazards s.settle t } := by
  rw [runPec, channel, h]

theorem isPecRequest_of_count (channel : pecChannel (s.icOf w) = x) (level : 14 ≤ icLevel (s.icOf w))
    (count : fieldNat s.pecc[x] 0 8 ≠ 0) : isPecRequest s w = true := by
  subst channel
  rw [isPecRequest, decide_eq_true level, decide_eq_true count]
  rfl

end

/-- Settles O55: the winner is accepted, the PEC serves it, and its pointers lead into the IRAM. -/
theorem pecTransfers : Obligations.PecTransfers := by
  intro s w x c src dst boundary noTrap wins serviced level hx hc count hsrc hdst iramSrc iramDst even
  have channel : pecChannel (s.icOf w) = x := Fin.ext (by rw [hx, pecChannel, Fin.val_ofNat, Nat.mod_mod])
  have counts : fieldNat c 0 8 ≠ 0 := fun none => count ((and_low_eq_iff (by decide)).2 none)
  have pec : isPecRequest s w = true := isPecRequest_of_count channel level (by rw [← hc]; exact counts)
  obtain ⟨v, served, cpu, ext, bytes, outside⟩ := pecService_iram (s := s.settle) (w := w) hc.symm counts hsrc.symm
    (by rw [pecPointer_second]; exact hdst.symm) iramSrc iramDst even
  rw [step_boundary boundary, cpuStep_of_serviced boundary noTrap wins serviced, pec, if_pos rfl]
  have settled : SameOutside s s.settle := ⟨by constructor <;> rfl, rfl⟩
  exact ⟨_, congrArg lapse (runPec_of_ok channel served), cpu, ext, fun y => congrFun bytes y,
    (pecCounted_outside settled).trans (outside.trans ⟨by constructor <;> rfl, rfl⟩)⟩

end Sys2Proof.Machine
end

section
/-! PROOFS. A fetch that ends in a trap (O51). Spec: 60_exceptions.md rules R380, R385, R386, R388. -/

namespace Sys2Proof.Machine

open Sys2Proof.Claims

section
variable {s t : State}

/-- Outside a class A routine a fetch that does not deliver an instruction sets its flag, and the step ends. -/
theorem instructionStep_of_fetchTrap {flag : Nat} (fetched : fetch s = fetchTrap t flag) (notA : t.sys.inA = false) :
    instructionStep s = .next (t.raise flag) := by
  rw [instructionStep, fetched, fetchTrap, notA]
  rfl

/-- Bytes that are no instruction raise UNDOPC or PRTFLT. -/
theorem fetchDecode_of_trap {d : Decoded} {bit : Word}
    (trap : (d = .undefinedOpcode ∧ bit = 0x0080) ∨ (d = .protectionFault ∧ bit = 0x0008)) :
    ∃ flag, fetchDecode d t = fetchTrap t flag
      ∧ t.raise flag = { t with cpu := { t.cpu with tfr := t.cpu.tfr ||| bit } } := by
  rcases trap with ⟨rfl, rfl⟩ | ⟨rfl, rfl⟩
  · exact ⟨7, rfl, rfl⟩
  · exact ⟨3, rfl, rfl⟩

/-- Traces concern neither the CPU nor the class of trap routine in service. -/
theorem cpu_traces (h : OnlyTraces s t) : t.cpu = s.cpu ∧ t.sys = s.sys := by
  obtain ⟨same, -⟩ := h
  rw [same]
  exact ⟨rfl, rfl⟩

end

/-- Settles O51: the step is the fetch's, which sets the flag and nothing else. -/
theorem fetchTraps : Obligations.FetchTraps := by
  intro s boundary noTrap noRequest notA
  rw [step_instruction boundary noTrap noRequest]
  refine ⟨fun odd => ?_, fun bit fetchable trap => ?_⟩
  · have fetched : fetch s = fetchTrap s 1 := by rw [fetch, if_pos odd]
    rw [instructionStep_of_fetchTrap fetched notA]
    rfl
  · obtain ⟨t, fetched, traces, inside⟩ := fetch_ready fetchable
    obtain ⟨flag, decoded, raised⟩ := fetchDecode_of_trap (t := t) trap
    obtain ⟨cpu, sys⟩ := cpu_traces traces
    refine ⟨t, traces, inside, ?_⟩
    rw [instructionStep_of_fetchTrap (fetched.trans decoded) (by rw [sys]; exact notA), raised, cpu]

end Sys2Proof.Machine
end

section
/-! PROOFS. MOV to CP or a DPP, after which the old value serves one more instruction (O44); counts of T3 and the priority of a
write of a timer register (O56). Spec: 63_timers.md rules R522, R523, R528, 70_reset_and_hazards.md rules R711, R712, D31. -/

namespace Sys2Proof.Machine

open Sys2Proof.Claims

section
variable {s u : State} {reg : BitVec 8} {r : Sfr} {d : Word}

/-- MOV reg,#data16 to a register that takes the write. -/
theorem exec_movRegData16_register (names : RegNames s reg r) (present : sfrPresent s.board r = true)
    (allowed : sfrWriteRefusal r d s.begin = none) :
    exec (.movRegData16 reg d) s = .next (finish 4 s ((writeSfr r d s.begin).setFlags (moveFlags d))) :=
  runInstr_of_ok (moveToReg_ok (names.begin.write present allowed))

/-! ## Old values -/

/-- The next instruction finds the GPRs by the CP of this one's beginning (R711). -/
theorem gprWordAddr_finish (len : Nat) (s u : State) (n : BitVec 4) :
    gprWordAddr (finish len s u) n = (s.cpu.cp + 2 * n.setWidth 16).toNat := rfl

/-- With the sequence at its end the next instruction's data addresses go through the DPPs of this one's beginning (R712). -/
theorem dataAddr_finish {len : Nat} (started : u.marks.extStarted = false) (last : s.ext.count ≤ 1)
    (seg : bitOf s.cpu.syscon 11 = false) (a : Word) :
    dataAddr (finish len s u) a = (dppFor s.cpu a).extractLsb' 0 10 ++ a.extractLsb' 0 14 := by
  have ended : (finish len s u).ext = Ext.idle := by
    rw [finish, started, Ext.tick, if_pos last]
    rfl
  obtain ⟨-, -, throughDpp⟩ := dataAddr_cases (finish len s u) a
  obtain ⟨segmentation, -⟩ := throughDpp (by rw [ended]; rfl)
  exact segmentation seg

end

/-- Settles O44: the end of an instruction keeps the registers of its beginning as the old values for the next one. -/
theorem oldValuesForOneInstruction : Obligations.OldValuesForOneInstruction := by
  intro reg d s sfr member
  obtain ⟨r, names, present, allowed⟩ :
      ∃ r, RegNames s reg r ∧ sfrPresent s.board r = true ∧ sfrWriteRefusal r d s.begin = none := by
    simp only [List.mem_cons, List.not_mem_nil, or_false] at member
    rcases member with rfl | rfl | rfl | rfl | rfl
    · exact ⟨.dpp0, .sfr sfr, rfl, rfl⟩
    · exact ⟨.dpp1, .sfr sfr, rfl, rfl⟩
    · exact ⟨.dpp2, .sfr sfr, rfl, rfl⟩
    · exact ⟨.dpp3, .sfr sfr, rfl, rfl⟩
    · exact ⟨.cp, .sfr sfr, rfl, rfl⟩
  refine ⟨_, exec_movRegData16_register names present allowed, gprWordAddr_finish 4 s _, fun last seg => ?_⟩
  refine dataAddr_finish ?_ last seg
  rw [setFlags_marks, (writeSfr_kept r d s.begin).extStarted]
  rfl

/-! ## Counts of T3 -/

theorem withBit_not (w : Word) {n : Nat} (hn : n < 16) : withBit w n (!bitOf w n) = w ^^^ (1#16 <<< n) := by
  refine BitVec.eq_of_getLsbD_eq fun i hi => (bitOf_withBit w n i _ hn hi).trans ?_
  rw [← BitVec.twoPow_eq, BitVec.getLsbD_xor, BitVec.getLsbD_twoPow, decide_eq_true hn, Bool.true_and]
  by_cases same : i = n
  · subst same
    simp [bitOf]
  · simp [bitOf, same, Ne.symm same]

theorem countWraps_eq (down : Bool) (new : Word) : countWraps down new = decide (new = if down then 0xFFFF else 0) := by
  cases down <;> rfl

/-- One count of T3, with and without a wrap. -/
theorem countT3_fst (s : State) {down : Bool} (hdown : countsDown s.gpt.t3con (pinT3eud s) = down) {new : Word}
    (hnew : countOnce down s.gpt.t3 = new) :
    (countT3 s).1 = if new = (if down then 0xFFFF else 0)
      then ({ s with gpt := { s.gpt with t3 := new, t3con := s.gpt.t3con ^^^ 0x0400 } }).request .t3
      else { s with gpt := { s.gpt with t3 := new } } := by
  by_cases wraps : new = if down then 0xFFFF else 0
  · have wrapped : countWraps down new = true := by rw [countWraps_eq, decide_eq_true wraps]
    have toggled : (withBit s.gpt.t3con 10 !bitOf s.gpt.t3con 10) = s.gpt.t3con ^^^ 0x0400 := withBit_not _ (by decide)
    simp only [countT3, hdown, hnew, wrapped, toggled, if_pos wraps]
    rfl
  · have kept : countWraps down new = false := by rw [countWraps_eq, decide_eq_false wraps]
    simp only [countT3, hdown, hnew, kept, if_neg wraps]
    rfl

/-! ## Writes of timer registers -/

/-- Settles O56: a count and its wrap are written out; `clockTimers` puts the value written back behind the events. -/
theorem timerThreeCounts : Obligations.TimerThreeCounts := by
  refine ⟨fun s down hdown new hnew => ⟨fun wraps => ?_, fun noWrap => ?_⟩, fun n r d s sfr member => ?_,
    fun s w written => ?_⟩
  · rw [countT3_fst s hdown.symm hnew.symm, if_pos wraps]
  · rw [countT3_fst s hdown.symm hnew.symm, if_neg noWrap]
  · obtain ⟨q, names, present, allowed, write⟩ : ∃ q, RegNames s n q ∧ sfrPresent s.board q = true
        ∧ sfrWriteRefusal q d s.begin = none ∧ writeSfr q d s.begin = s.begin.writeTimer r d := by
      simp only [List.mem_cons, Prod.mk.injEq, List.not_mem_nil, or_false] at member
      rcases member with ⟨rfl, rfl⟩ | ⟨rfl, rfl⟩ | ⟨rfl, rfl⟩ | ⟨rfl, rfl⟩ | ⟨rfl, rfl⟩ | ⟨rfl, rfl⟩
      · exact ⟨.t2, .sfr sfr, rfl, rfl, rfl⟩
      · exact ⟨.t3, .sfr sfr, rfl, rfl, rfl⟩
      · exact ⟨.t4, .sfr sfr, rfl, rfl, rfl⟩
      · exact ⟨.t5, .sfr sfr, rfl, rfl, rfl⟩
      · exact ⟨.t6, .sfr sfr, rfl, rfl, rfl⟩
      · exact ⟨.caprel, .sfr sfr, rfl, rfl, rfl⟩
    have gpt : ((s.begin.writeTimer r d).setFlags (moveFlags d)).gpt = r.set d s.gpt := by simp [State.writeTimer]
    refine ⟨_, exec_movRegData16_register names present allowed, ?_, ?_⟩
    · rw [write]
      exact (congrArg r.get gpt).trans (r.get_set d s.gpt)
    · rw [write]
      exact congrArg Marks.timerWrite (setFlags_marks _ _)
  · simp only [clockTimers, written]
    exact ⟨TimerReg.get_set _ _ _, fun last => if_pos last, fun more => ⟨_, if_neg more⟩⟩

end Sys2Proof.Machine
end

section
/-! PROOFS. The watchdog's overflow (O57): what the clocks of the other units leave to it, and the reset it starts.
Spec: 63_timers.md rules R582 and R583, 70_reset_and_hazards.md rule R671. -/

namespace Sys2Proof.Machine

open Sys2Proof.Claims

/-- What a clock of the units beside the watchdog leaves as it was, of all that a reset by the watchdog looks at or keeps. -/
structure Outlasting where
  mem : List Host.Cell
  pins : Pins
  board : Board
  answers : List Word
  gaps : List (List MasterAccess)
  agenda : List Event
  wdt : Wdt
  clockLost : Bool

/-- That part of a state. -/
def State.outlasting (s : State) : Outlasting :=
  { mem := s.mem, pins := s.pins, board := s.board, answers := s.answers, gaps := s.gaps, agenda := s.agenda, wdt := s.wdt
    clockLost := s.sys.clockLost }

section
variable {s : State}

theorem outlasting_mk (s : State) (cpu bus ebc ports gpt asc ssc ssp ic pecc ext) (sys : Sys) (prev marks hz clocks free)
    (lost : sys.clockLost = s.sys.clockLost) :
    State.outlasting ⟨cpu, bus, ebc, ports, s.pins, gpt, s.wdt, asc, ssc, ssp, ic, pecc, ext, sys, prev, marks, hz, s.board,
      s.mem, clocks, s.agenda, s.answers, s.gaps, free⟩ = s.outlasting := by
  simp [State.outlasting, lost]

/-! ## The units, with what each does in a clock -/

@[simp] theorem outlasting_advanceFree (n : Nat) : (s.advanceFree n).outlasting = s.outlasting := rfl

@[simp] theorem outlasting_request (n : IrqNode) : (s.request n).outlasting = s.outlasting := by
  unfold State.request
  split <;> rfl

@[simp] theorem outlasting_requestIf (b : Bool) (n : IrqNode) : (s.requestIf b n).outlasting = s.outlasting := by
  simp [State.requestIf, apply_ite State.outlasting]

@[simp] theorem outlasting_clockGpt1 : (clockGpt1 s).outlasting = s.outlasting := by
  simp [clockGpt1, countT3, stepT2, stepT4, apply_ite State.outlasting, apply_ite Prod.fst, outlasting_mk]

@[simp] theorem outlasting_clockGpt2 : (clockGpt2 s).outlasting = s.outlasting := by
  simp [clockGpt2, countT6, stepT5, captureT5, apply_ite State.outlasting, apply_ite Prod.fst, outlasting_mk]

@[simp] theorem outlasting_clockTimers : (clockTimers s).outlasting = s.outlasting := by
  unfold clockTimers
  split <;> simp [outlasting_mk]

@[simp] theorem outlasting_ascDriveNext : (ascDriveNext s).outlasting = s.outlasting := by
  unfold ascDriveNext
  split <;> simp [outlasting_mk]

@[simp] theorem outlasting_ascSyncBoundary : (ascSyncBoundary s).outlasting = s.outlasting := by
  unfold ascSyncBoundary
  split
  · simp [ascReceive, apply_ite State.outlasting, outlasting_mk]
  · split
    · split <;> simp [outlasting_mk]
    · rfl

@[simp] theorem outlasting_ascSample : (ascSample s).outlasting = s.outlasting := by
  unfold ascSample
  dsimp only
  split <;> simp [ascBitDecided, ascReceive, apply_ite State.outlasting, outlasting_mk]

@[simp] theorem outlasting_ascPulse : (ascPulse s).outlasting = s.outlasting := by
  simp [ascPulse, ascMidBit, ascReceiver, ascAsyncBoundary, ascLoad, apply_ite State.outlasting, outlasting_mk]

@[simp] theorem outlasting_clockAsc : (clockAsc s).outlasting = s.outlasting := by
  simp [clockAsc, ascFollow, ascStart, ascLoad, apply_ite State.outlasting, outlasting_mk]

@[simp] theorem outlasting_sscPhaseCheck (b : Bool) : (sscPhaseCheck s b).outlasting = s.outlasting := by
  unfold sscPhaseCheck
  split <;> simp [sscErrorIf, apply_ite State.outlasting, outlasting_mk]

@[simp] theorem outlasting_clockSscMaster : (clockSscMaster s).outlasting = s.outlasting := by
  simp [clockSscMaster, sscLoad, sscCount, sscMasterBoundary, sscComplete, sscMasterMid, sscLatch, sscErrorIf, sscBitStart,
    apply_ite State.outlasting, outlasting_mk]

@[simp] theorem outlasting_clockSscSlave : (clockSscSlave s).outlasting = s.outlasting := by
  simp [clockSscSlave, sscLoad, sscCount, sscSlaveLeading, sscAutoReset, sscStale, sscSlaveTrailing, sscComplete, sscLatch,
    sscErrorIf, apply_ite State.outlasting, outlasting_mk]

@[simp] theorem outlasting_clockSsc : (clockSsc s).outlasting = s.outlasting := by
  simp [clockSsc, sscRunning, sscStopped, apply_ite State.outlasting, outlasting_mk]

@[simp] theorem outlasting_sspPhaseEnd (t : SspTransfer) (n : Nat) : (sspPhaseEnd s t n).outlasting = s.outlasting := by
  unfold sspPhaseEnd
  dsimp only
  repeat' split
  all_goals simp [sspEnd, outlasting_mk]

@[simp] theorem outlasting_clockSsp : (clockSsp s).outlasting = s.outlasting := by
  unfold clockSsp
  split
  · split
    · simp [apply_ite State.outlasting, outlasting_mk]
    · rfl
  · rfl

@[simp] theorem outlasting_clockExternalInputs : (clockExternalInputs s).outlasting = s.outlasting := by
  have folded (l : List Nat) (t : State) : (l.foldl (clockExternalInput (levelP2 s)) t).outlasting = t.outlasting := by
    induction l generalizing t with
    | nil => rfl
    | cons x l ih => exact (ih _).trans (outlasting_requestIf _ _)
  exact folded _ s

@[simp] theorem outlasting_clockNmi : (clockNmi s).outlasting = s.outlasting := by
  simp [clockNmi, outlasting_mk]

/-! ## The overflow -/

/-- The state in which a clock comes to the watchdog. -/
def State.beforeWatchdog (s : State) : State :=
  clockSsp (clockSsc (clockAsc (clockTimers (clockNmi (clockExternalInputs s)))))

theorem outlasting_beforeWatchdog : s.beforeWatchdog.outlasting = s.outlasting := by simp [State.beforeWatchdog]

/-- The enabled watchdog counts from FFFFh in this clock: it overflows (R582, R583). -/
theorem clockWdt_overflows (enabled : s.wdt.disabled = false) (due : s.wdt.psc = some 1) (last : s.wdt.wdt = 0xFFFF) :
    (clockWdt s).2 = true := by
  simp [clockWdt, State.advanceFree, enabled, due, last, prescale]

theorem outlasting_clockWdt : (clockWdt s).1.outlasting = { s.outlasting with wdt := (clockWdt s).1.wdt } := rfl

theorem clockPeripherals_overflow (enabled : s.wdt.disabled = false) (due : s.wdt.psc = some 1)
    (last : s.wdt.wdt = 0xFFFF) :
    clockPeripherals s = startReset .watchdog (clockWdt s.beforeWatchdog).1 := by
  have wdt : s.beforeWatchdog.wdt = s.wdt := congrArg Outlasting.wdt outlasting_beforeWatchdog
  have overflow : (clockWdt s.beforeWatchdog).2 = true :=
    clockWdt_overflows (by rw [wdt, enabled]) (by rw [wdt, due]) (by rw [wdt, last])
  exact if_pos overflow

/-- A reset keeps what outlasts the clock before it. -/
theorem resetUnderWay_of_outlasting {t : State} {w : Wdt} (h : t.outlasting = { s.outlasting with wdt := w }) :
    ResetUnderWay .watchdog s (startReset .watchdog t) ∧ (startReset .watchdog t).agenda = s.agenda := by
  simp only [State.outlasting, Outlasting.mk.injEq] at h
  obtain ⟨mem, pins, board, answers, gaps, agenda, -, lost⟩ := h
  have reset := resetUnderWay_startReset .watchdog t
  unfold ResetUnderWay at reset ⊢
  rw [mem, pins, board, answers, gaps, lost] at reset
  exact ⟨reset, agenda⟩

theorem clockStep_overflow (runs : peripheralsRun s.sys.power = true) (allowed : clockRefusal s = none)
    (enabled : s.wdt.disabled = false) (due : s.wdt.psc = some 1) (last : s.wdt.wdt = 0xFFFF) :
    ∃ t, clockStep s = .next t ∧ t.agenda = s.agenda ∧ ResetUnderWay .watchdog s t := by
  obtain ⟨reset, agenda⟩ := resetUnderWay_of_outlasting (s := s) (t := (clockWdt s.beforeWatchdog).1)
    (by rw [outlasting_clockWdt, outlasting_beforeWatchdog])
  refine ⟨_, ?_, agenda, reset⟩
  rw [clockStep, if_pos runs, allowed, ← clockPeripherals_overflow enabled due last]

end

/-- Settles O57: the units before it leave the watchdog alone; its overflow starts the reset. -/
theorem watchdogResets : Obligations.WatchdogResets := by
  intro s n rest turn clocks power enabled due last allowed
  have chip : step s = chipStep { s with agenda := rest } := by
    rcases turn with pass | ⟨empty, rfl⟩
    · rw [step, pass]
    · rw [step_of_agenda_empty empty, ← empty]
  have runs : peripheralsRun s.sys.power = true := by
    rcases power with running | idle
    · rw [running]
      rfl
    · rw [idle]
      rfl
  rw [chip, chipStep, if_neg (by simp [clocks])]
  exact clockStep_overflow (s := { s with agenda := rest, clocks := s.clocks - 1 }) runs allowed enabled due last

end Sys2Proof.Machine
end
